-- ==== Sys2Proof/Word.lean ====
section
/-! DEFINITION. The machine's word types: byte, 32-bit word, and the matrix cell. -/
namespace Sys2Proof

/-- One byte: a codeword, a buffer byte, an element of GF(256) (41_gf256.md R160). -/
abbrev Byte := BitVec 8

/-- One 32-bit register or command word (10_state.md R34, 30_encoding.md R110). -/
abbrev Word := BitVec 32

/-- One matrix cell: three independent bits (10_state.md R57, R58). -/
structure Module where
  /-- V: true is Dark, false is Light. -/
  v : Bool
  /-- F: a function (reserved) module. -/
  f : Bool
  /-- P: pending, no value written yet. -/
  p : Bool
  deriving DecidableEq, Repr, Inhabited

/-- The cell with all three bits 0: what lies outside the symbol (44_matrix.md R251). -/
def Module.blank : Module := ⟨false, false, false⟩

end Sys2Proof
end

