-- ==== Sys2Proof/Syntax.lean ====
section
/-! DEFINITION. The 19 commands of 30_encoding.md R118, one constructor per row of spec/opcode_table.json. -/
namespace Sys2Proof

/-- A decoded command. Every operand has the width its format gives it (30_encoding.md R111 to R115), so every value a
field can hold is an instruction; which values are legal is `Instr.wf` (R121). -/
inductive Instr where
  /-- NOP, 0x00 (47_build.md R330). -/
  | nop
  /-- CLEAR, 0x01 (43_bitstream.md R213). -/
  | clear
  /-- APPEND mode, 0x02 (43_bitstream.md R214). -/
  | append (mode : BitVec 3)
  /-- CAPQ ver, ec, 0x10 (40_capacity.md R146). -/
  | capq (ver : BitVec 6) (ec : BitVec 3)
  /-- GF_MUL a, b, 0x20 (41_gf256.md R168). -/
  | gfMul (a b : Byte)
  /-- GF_EXP a, 0x21 (41_gf256.md R169). -/
  | gfExp (a : Byte)
  /-- GF_LOG a, 0x22 (41_gf256.md R170). -/
  | gfLog (a : Byte)
  /-- GF_GENPOLY e, 0x23 (41_gf256.md R171). -/
  | gfGenpoly (e : BitVec 6)
  /-- RS_ENC n, e, 0x30 (42_reed_solomon.md R182). -/
  | rsEnc (n : Byte) (e : BitVec 6)
  /-- ECC_INTERLEAVE ver, ec, 0x31 (42_reed_solomon.md R187). -/
  | eccInterleave (ver : BitVec 6) (ec : BitVec 3)
  /-- BITSTREAM ver, ec, 0x40 (43_bitstream.md R226). -/
  | bitstream (ver : BitVec 6) (ec : BitVec 3)
  /-- MATRIX_INIT ver, 0x50 (44_matrix.md R251). -/
  | matrixInit (ver : BitVec 6)
  /-- PLACE, 0x51 (44_matrix.md R256). -/
  | place
  /-- MASK_SCORE mask, 0x60 (45_mask.md R290). -/
  | maskScore (mask : BitVec 3)
  /-- MASK_SELECT, 0x61 (45_mask.md R291). -/
  | maskSelect
  /-- FMT_CALC ec, mask, 0x70 (46_fmtver.md R316). -/
  | fmtCalc (ec mask : BitVec 3)
  /-- VER_CALC ver, 0x71 (46_fmtver.md R317). -/
  | verCalc (ver : BitVec 6)
  /-- FMT_INSERT ec, mask, 0x72 (46_fmtver.md R318). -/
  | fmtInsert (ec mask : BitVec 3)
  /-- BUILD ver, ec, 0x80 (47_build.md R331). -/
  | build (ver : BitVec 6) (ec : BitVec 3)
  deriving DecidableEq, Repr

end Sys2Proof
end

