-- ==== Sys2Proof/Decode.lean ====
section
/-! DEFINITION. Decoding a command word (30_encoding.md R116, R118), total on any word, and the encoder of the same
formats (R111 to R115, R123). -/
namespace Sys2Proof

/-- Why a command word selects no command (30_encoding.md R118). -/
inductive DecodeError where
  /-- w[7:0] is no OP of the table: ERR_ILLEGAL_CMD, ERRINFO 0. -/
  | unknownOp
  /-- w[7:0] is an OP and a reserved bit is 1: ERR_ILLEGAL_CMD, ERRINFO 1. -/
  | reservedBit
  deriving DecidableEq, Repr

/-- OP, w[7:0] in every format (R110). -/
def fieldOp (w : Word) : Byte := w.extractLsb' 0 8
/-- MODE of format A, w[10:8] (R112). -/
def fieldMode (w : Word) : BitVec 3 := w.extractLsb' 8 3
/-- A of format G, w[15:8] (R113). -/
def fieldA (w : Word) : Byte := w.extractLsb' 8 8
/-- B of format G, w[23:16] (R113). -/
def fieldB (w : Word) : Byte := w.extractLsb' 16 8
/-- N of format R, w[15:8] (R114). -/
def fieldN (w : Word) : Byte := w.extractLsb' 8 8
/-- E of format R, w[21:16] (R114). -/
def fieldE (w : Word) : BitVec 6 := w.extractLsb' 16 6
/-- EC of format C, w[10:8] (R115). -/
def fieldEc (w : Word) : BitVec 3 := w.extractLsb' 8 3
/-- VER of format C, w[16:11] (R115). -/
def fieldVer (w : Word) : BitVec 6 := w.extractLsb' 11 6
/-- MASK of format C, w[19:17] (R115). -/
def fieldMask (w : Word) : BitVec 3 := w.extractLsb' 17 3

/-- One row of the opcode map (R116, R118): the OP, the row's mask of fixed bits, and the instruction its fields give.
The row's `match` is its OP, zero-extended. -/
structure OpRow where
  op : Byte
  mask : Word
  operands : Word → Instr

/-- The opcode map (R118), with the masks of spec/opcode_table.json. -/
def opRows : List OpRow :=
  [ ⟨0x00, 0xFFFFFFFF, fun _ => .nop⟩,
    ⟨0x01, 0xFFFFFFFF, fun _ => .clear⟩,
    ⟨0x02, 0xFFFFF8FF, fun w => .append (fieldMode w)⟩,
    ⟨0x10, 0xFFFE00FF, fun w => .capq (fieldVer w) (fieldEc w)⟩,
    ⟨0x20, 0xFF0000FF, fun w => .gfMul (fieldA w) (fieldB w)⟩,
    ⟨0x21, 0xFFFF00FF, fun w => .gfExp (fieldA w)⟩,
    ⟨0x22, 0xFFFF00FF, fun w => .gfLog (fieldA w)⟩,
    ⟨0x23, 0xFFC0FFFF, fun w => .gfGenpoly (fieldE w)⟩,
    ⟨0x30, 0xFFC000FF, fun w => .rsEnc (fieldN w) (fieldE w)⟩,
    ⟨0x31, 0xFFFE00FF, fun w => .eccInterleave (fieldVer w) (fieldEc w)⟩ ] ++
  [ ⟨0x40, 0xFFFE00FF, fun w => .bitstream (fieldVer w) (fieldEc w)⟩,
    ⟨0x50, 0xFFFE07FF, fun w => .matrixInit (fieldVer w)⟩,
    ⟨0x51, 0xFFFFFFFF, fun _ => .place⟩,
    ⟨0x60, 0xFFF1FFFF, fun w => .maskScore (fieldMask w)⟩,
    ⟨0x61, 0xFFFFFFFF, fun _ => .maskSelect⟩,
    ⟨0x70, 0xFFF1F8FF, fun w => .fmtCalc (fieldEc w) (fieldMask w)⟩,
    ⟨0x71, 0xFFFE07FF, fun w => .verCalc (fieldVer w)⟩,
    ⟨0x72, 0xFFF1F8FF, fun w => .fmtInsert (fieldEc w) (fieldMask w)⟩,
    ⟨0x80, 0xFFFE00FF, fun w => .build (fieldVer w) (fieldEc w)⟩ ]

/-- Decoding (R118): find the row of w[7:0], then require `(w AND mask) = match` (R116). -/
def decode (w : Word) : Except DecodeError Instr :=
  match opRows.find? (fun row => row.op == fieldOp w) with
  | none => .error .unknownOp
  | some row =>
    if w &&& row.mask = row.op.setWidth 32 then .ok (row.operands w) else .error .reservedBit

/-- A word of format Z: `{24'b0, OP}` (R111). -/
def formatZ (op : Byte) : Word := 0#24 ++ op
/-- A word of format A: `{21'b0, MODE, OP}` (R112). -/
def formatA (op : Byte) (mode : BitVec 3) : Word := 0#21 ++ mode ++ op
/-- A word of format G: `{8'b0, B, A, OP}` (R113). -/
def formatG (op a b : Byte) : Word := 0#8 ++ b ++ a ++ op
/-- A word of format R: `{10'b0, E, N, OP}` (R114). -/
def formatR (op n : Byte) (e : BitVec 6) : Word := 0#10 ++ e ++ n ++ op
/-- A word of format C: `{12'b0, MASK, VER, EC, OP}` (R115). -/
def formatC (op : Byte) (ec : BitVec 3) (ver : BitVec 6) (mask : BitVec 3) : Word := 0#12 ++ mask ++ ver ++ ec ++ op

/-- The command word of an instruction; fields the command does not use are 0 (R116, R123). -/
def encode : Instr → Word
  | .nop => formatZ 0x00
  | .clear => formatZ 0x01
  | .append mode => formatA 0x02 mode
  | .capq ver ec => formatC 0x10 ec ver 0
  | .gfMul a b => formatG 0x20 a b
  | .gfExp a => formatG 0x21 a 0
  | .gfLog a => formatG 0x22 a 0
  | .gfGenpoly e => formatR 0x23 0 e
  | .rsEnc n e => formatR 0x30 n e
  | .eccInterleave ver ec => formatC 0x31 ec ver 0
  | .bitstream ver ec => formatC 0x40 ec ver 0
  | .matrixInit ver => formatC 0x50 0 ver 0
  | .place => formatZ 0x51
  | .maskScore mask => formatC 0x60 0 0 mask
  | .maskSelect => formatZ 0x61
  | .fmtCalc ec mask => formatC 0x70 ec 0 mask
  | .verCalc ver => formatC 0x71 0 ver 0
  | .fmtInsert ec mask => formatC 0x72 ec 0 mask
  | .build ver ec => formatC 0x80 ec ver 0

/-- The command word whose low `nbits` bits are those of `w` and whose higher bits are 0: the word the host's checks
hand over (log entry 2). -/
def tableWord (nbits w : Nat) : Word := BitVec.ofNat 32 (w % 2 ^ nbits)

/-- The instruction the decoder reads from a word numbered as spec/opcode_table.json numbers it. -/
def decodeTableWord (nbits w : Nat) : Option Instr := (decode (tableWord nbits w)).toOption

end Sys2Proof
end

