-- ==== Sys2Proof/Config.lean ====
section
/-! DEFINITION. The implementation parameters of 00_scope.md R13, and the values the spec leaves free (R66, R95): constants without a body. -/
namespace Sys2Proof.Config

/-- `P_ADDR_BITS` (R13): the width of a host bus byte address. -/
@[simp] abbrev addrBits : Nat := 18
/-- `P_DATA_BITS` (R13): the width of the host bus data, `wdata` and `rdata`. -/
@[simp] abbrev dataBits : Nat := 32
/-- `P_IBUF_BYTES` (R13). -/
@[simp] abbrev ibufBytes : Nat := 8192
/-- `P_SEGDATA_BYTES` (R13). -/
@[simp] abbrev segdataBytes : Nat := 8192
/-- `P_MAX_SEGMENTS` (R13). -/
@[simp] abbrev maxSegments : Nat := 64
/-- `P_CWBUF_BYTES` (R13). -/
@[simp] abbrev cwbufBytes : Nat := 4096
/-- `P_FINAL_BYTES` (R13). -/
@[simp] abbrev finalBytes : Nat := 4096
/-- `P_MAT_DIM` (R13). -/
@[simp] abbrev matDim : Nat := 177
/-- `P_MAT_STRIDE` (R13). -/
@[simp] abbrev matStride : Nat := 256
/-- `P_RS_MAX_EC` (R13). -/
@[simp] abbrev rsMaxEc : Nat := 30
/-- The reset value of CTRL.MINRUN (R13, 10_state.md R37). -/
@[simp] abbrev minrunReset : Byte := 20
/-- The constant of the ID register (10_state.md R35). -/
@[simp] abbrev idValue : Word := 0x51524331

/-- `DARK_MODULE_SCORED_AS` (R13, R14): true is DARK, the spec's own value. -/
def darkModuleScoredAs : Bool := true

/-- The four byte memories (10_state.md R52, R53, R60, R61). -/
inductive ByteMem where
  | ibuf | segdata | cwbuf | final
  deriving DecidableEq, Repr

/-- The two matrices (10_state.md R55, R56). -/
inductive MatMem where
  | wmat | cmat
  deriving DecidableEq, Repr

/-- The size of a byte memory in bytes (R13). -/
def ByteMem.size : ByteMem → Nat
  | .ibuf => ibufBytes
  | .segdata => segdataBytes
  | .cwbuf => cwbufBytes
  | .final => finalBytes

/-- The number of cells of a matrix: `P_MAT_DIM` squared (10_state.md R55). -/
@[simp] abbrev matCells : Nat := 31329

/-- FREE VALUE (log entry 3): the byte that offset `k` of a byte memory holds after reset number `epoch`, until it is
written (10_state.md R66: "a model treats each byte as a draw"). -/
opaque freeByte : ByteMem → (epoch k : Nat) → Byte

/-- FREE VALUE (log entry 3): the cell that index `k` of a matrix holds after reset number `epoch`, until it is written
(10_state.md R66: "a model treats each cell as a draw"). -/
opaque freeCell : MatMem → (epoch k : Nat) → Module

/-- FREE VALUE (log entry 4): the byte that busy-window draw number `draw` gives for bus address `addr`
(20_memory.md R95: "returns any value"). -/
opaque freeBusyByte : (draw addr : Nat) → Byte

/-- FREE VALUE (log entry 4): the cell that busy-window draw number `draw` gives for bus address `addr` in WMAT (R95). -/
opaque freeBusyCell : (draw addr : Nat) → Module

end Sys2Proof.Config
end

