-- ==== Sys2Proof/Machine/State.lean ====
section
/-! DEFINITION. The state of QRCORE (10_state.md), as plain data, and its value right after reset (R66). -/
namespace Sys2Proof.Machine

/-- A memory: pairs of an index and the value written there, indexes strictly rising. An index that is not listed has
not been written since reset and reads as a free value of Config (R66, R393, log entry 3). -/
abbrev Memory (α : Type) := List (Nat × α)

/-- The STATUS fields that are stored (R38). BUSY is not: it is 1 exactly while a command is pending (R63). -/
structure Status where
  done : Bool
  err : Bool
  fatal : Bool
  werr : Bool
  errcode : Byte
  deriving DecidableEq, Repr

/-- The CTRL fields that are stored (R37). -/
structure Ctrl where
  ie : Bool
  minrun : Byte
  deriving DecidableEq, Repr

/-- The mode of a segment (R54, 43_bitstream.md R205). -/
inductive SegMode where
  | numeric | alphanumeric | byte | kanji
  deriving DecidableEq, Repr

/-- One SEGTAB entry (R54), with the field widths of 20_memory.md R89. -/
structure Segment where
  mode : SegMode
  nchars : BitVec 16
  off : BitVec 16
  nbytes : BitVec 16
  deriving DecidableEq, Repr

/-- STREAMMETA (R45). -/
structure StreamMeta where
  sver : BitVec 6
  sec : BitVec 3
  svalid : Bool
  deriving DecidableEq, Repr

/-- MATMETA (R46). -/
structure MatMeta where
  mver : BitVec 6
  mmask : BitVec 3
  mmasked : Bool
  fmtdone : Bool
  deriving DecidableEq, Repr

/-- OUTMETA (R47). -/
structure OutMeta where
  ver : BitVec 6
  ec : BitVec 3
  mask : BitVec 3
  side : BitVec 8
  valid : Bool
  deriving DecidableEq, Repr

/-- PEN1 to PEN4 and PENTOT (R48). -/
structure Pen where
  pen1 : Word
  pen2 : Word
  pen3 : Word
  pen4 : Word
  pentot : Word
  deriving DecidableEq, Repr

/-- CAP0 to CAP4 (R49). -/
structure Cap where
  cap0 : Word
  cap1 : Word
  cap2 : Word
  cap3 : Word
  cap4 : Word
  deriving DecidableEq, Repr

/-- One host access as the slave port presents it (20_memory.md R80), the bus widths being 00_scope.md R13's: `size` 0, 1, 2
is 1, 2, 4 bytes and 3 is illegal. -/
structure Access where
  we : Bool
  addr : BitVec Config.addrBits
  size : BitVec 2
  wdata : BitVec Config.dataBits
  deriving DecidableEq, Repr

/-- One entry of the total order of events (20_memory.md R94, log entry 1): who moves, and what it does. -/
inductive Move where
  /-- The host performs one bus access. -/
  | host (a : Access)
  /-- The core takes its turn: it completes the pending command, or idles. -/
  | core
  /-- `rst_n` is asserted and released (70_reset_and_hazards.md R390). -/
  | hardReset
  deriving DecidableEq, Repr

/-- The outputs of the slave port for the last access (20_memory.md R80, R85). `rdata` is `none` where the spec gives it
no value: after a write, and before the first access (log entry 7). -/
structure BusReply where
  ack : Bool
  err : Bool
  rdata : Option (BitVec Config.dataBits)
  deriving DecidableEq, Repr

/-- Everything the spec gives the machine, and three fields of the model: `agenda`, `resets`, `draws`. -/
structure State where
  /-- The accepted command word, while BUSY = 1 (R31, R63). -/
  pending : Option Word
  /-- STATUS (R38). -/
  status : Status
  /-- ERRINFO (R39). -/
  errinfo : Word
  /-- CTRL (R37). -/
  ctrl : Ctrl
  /-- ARG0 (R40). -/
  arg0 : Word
  /-- ARG1 (R40). -/
  arg1 : Word
  /-- LASTCMD (R41). -/
  lastcmd : Word
  /-- RESULT (R42). -/
  result : Word
  /-- BITLEN (R43). -/
  bitlen : Word
  /-- SEGTAB, entries 0 to NSEG-1 in insertion order (R54); its length is SEGCOUNT.NSEG (R44). -/
  segtab : List Segment
  /-- SEGCOUNT.SEGUSED (R44). -/
  segused : BitVec 16
  /-- STREAMMETA (R45). -/
  streamMeta : StreamMeta
  /-- MATMETA (R46). -/
  matMeta : MatMeta
  /-- OUTMETA (R47). -/
  outMeta : OutMeta
  /-- PEN1 to PENTOT (R48). -/
  pen : Pen
  /-- CAP0 to CAP4 (R49). -/
  cap : Cap
  /-- MASKPEN0 to MASKPEN7 (R50). -/
  maskPen : Vector Word 8
  /-- IBUF (R52), by byte offset. -/
  ibuf : Memory Byte
  /-- SEGDATA (R53), by byte offset. -/
  segdata : Memory Byte
  /-- CWBUF (R60), by byte offset. -/
  cwbuf : Memory Byte
  /-- FINAL (R61), by byte offset. -/
  final : Memory Byte
  /-- WMAT (R55), by cell index `177*r + c`. -/
  wmat : Memory Module
  /-- CMAT (R56), by cell index `177*r + c`. -/
  cmat : Memory Module
  /-- The port outputs of the last access (20_memory.md R80). -/
  reply : BusReply
  /-- MODEL: the moves still to come, in their total order (log entry 1). Empty: only the core moves. -/
  agenda : List Move
  /-- MODEL: how many resets were taken, the index of the memory draws (log entry 3). -/
  resets : Nat
  /-- MODEL: how many host reads were answered, the index of the busy-window draws (log entry 4). -/
  draws : Nat
  deriving DecidableEq, Repr

/-- Why the machine can stop with a fault: never. Every command ends at a next state with DONE or with the error state of
60_exceptions.md R352, bus errors are answered on the bus (R362), and the fatal state of R356 is STATUS.FATAL. Having no
constructor is safe and unsafe to no one: a claim that no fault occurs is a fact about the spec (log entry 10). -/
inductive Fault where
  deriving DecidableEq, Repr

/-- Why an instruction is refused. -/
inductive Refusal where
  /-- Raised by `exec` for an instruction without a meaning yet; safe. -/
  | notModelled (mnemonic : String)
  deriving DecidableEq, Repr

/-- The machine right after reset (R66). The memories list nothing: their contents are free values (log entry 3). -/
def State.reset : State where
  pending := none
  status := ⟨false, false, false, false, 0⟩
  errinfo := 0
  ctrl := ⟨false, Config.minrunReset⟩
  arg0 := 0
  arg1 := 0
  lastcmd := 0
  result := 0
  bitlen := 0
  segtab := []
  segused := 0
  streamMeta := ⟨0, 0, false⟩
  matMeta := ⟨0, 0, false, false⟩
  outMeta := ⟨0, 0, 0, 0, false⟩
  pen := ⟨0, 0, 0, 0, 0⟩
  cap := ⟨0, 0, 0, 0, 0⟩
  maskPen := #v[0, 0, 0, 0, 0, 0, 0, 0]
  ibuf := []
  segdata := []
  cwbuf := []
  final := []
  wmat := []
  cmat := []
  reply := ⟨false, false, none⟩
  agenda := []
  resets := 0
  draws := 0

end Sys2Proof.Machine
end

