-- ==== Sys2Proof/Machine/Memory.lean ====
section
/-! DEFINITION. The operations of a memory: read and write one index, read and write a range, and the canonical form. -/
namespace Sys2Proof.Machine.Memory

variable {α : Type}

/-- The canonical form: indexes strictly rising, all below `size`. -/
abbrev wf (size : Nat) (m : Memory α) : Prop :=
  List.Pairwise (fun a b => a.1 < b.1) m ∧ ∀ cell ∈ m, cell.1 < size

/-- What was written at index `k`, if anything was. -/
def get? : Memory α → Nat → Option α
  | [], _ => none
  | (j, x) :: rest, k => if j = k then some x else get? rest k

/-- The value at index `k`; an unlisted index reads as its free value. -/
def read (free : Nat → α) (m : Memory α) (k : Nat) : α := (get? m k).getD (free k)

/-- Write `x` at index `k`. -/
def set : Memory α → Nat → α → Memory α
  | [], k, x => [(k, x)]
  | (j, y) :: rest, k, x =>
    if k < j then (k, x) :: (j, y) :: rest
    else if k = j then (k, x) :: rest
    else (j, y) :: set rest k x

/-- The entries from index `lo` on, of a memory in canonical form. -/
def skip (lo : Nat) : Memory α → Memory α
  | [] => []
  | (j, x) :: rest => if j < lo then skip lo rest else (j, x) :: rest

/-- The values at indexes `lo` to `lo + n - 1`, in one pass over a memory in canonical form. -/
def slice (free : Nat → α) : Memory α → (lo n : Nat) → List α
  | _, _, 0 => []
  | m, lo, n + 1 =>
    match skip lo m with
    | [] => free lo :: slice free [] (lo + 1) n
    | (j, x) :: rest =>
      if j = lo then x :: slice free rest (lo + 1) n
      else free lo :: slice free ((j, x) :: rest) (lo + 1) n

/-- The values of a list at consecutive indexes from `lo`. -/
def number : (lo : Nat) → List α → Memory α
  | _, [] => []
  | lo, x :: xs => (lo, x) :: number (lo + 1) xs

/-- Write the values of `xs` at indexes `lo`, `lo + 1`, … . -/
def writeList (m : Memory α) (lo : Nat) (xs : List α) : Memory α :=
  m.filter (fun cell => cell.1 < lo) ++ number lo xs ++ m.filter (fun cell => lo + xs.length ≤ cell.1)

end Sys2Proof.Machine.Memory
end

