-- ==== Sys2Proof/Machine/Ops.lean ====
section
/-! DEFINITION. The named operations over memories and registers that the commands use (20_memory.md R102), and the
command lifecycle: accept (10_state.md R31), successful completion, raising an error (60_exceptions.md R352), the way
back from an error (R358), and reset (70_reset_and_hazards.md R390, R391). -/
namespace Sys2Proof.Machine
open Sys2Proof.Config (ByteMem MatMem)

namespace State

/-- STATUS.BUSY (10_state.md R38): a command is pending (R63). -/
def busy (s : State) : Bool := s.pending.isSome

/-- SEGCOUNT.NSEG (R44). -/
def nseg (s : State) : Nat := s.segtab.length

/-! ### Byte memories -/

/-- The contents of a byte memory. -/
def bytes (s : State) : ByteMem → Memory Byte
  | .ibuf => s.ibuf
  | .segdata => s.segdata
  | .cwbuf => s.cwbuf
  | .final => s.final

/-- Replace the contents of a byte memory. -/
def setBytes (s : State) (b : ByteMem) (m : Memory Byte) : State :=
  match b with
  | .ibuf => { s with ibuf := m }
  | .segdata => { s with segdata := m }
  | .cwbuf => { s with cwbuf := m }
  | .final => { s with final := m }

/-- The byte at offset `k` (R102). -/
def readByte (s : State) (b : ByteMem) (k : Nat) : Byte :=
  Memory.read (Config.freeByte b s.resets) (s.bytes b) k

/-- The bytes at offsets `off` to `off + n - 1`. -/
def readBytes (s : State) (b : ByteMem) (off n : Nat) : List Byte :=
  Memory.slice (Config.freeByte b s.resets) (s.bytes b) off n

/-- Write one byte at offset `k`. -/
def writeByte (s : State) (b : ByteMem) (k : Nat) (x : Byte) : State :=
  s.setBytes b (Memory.set (s.bytes b) k x)

/-- Write `xs` at offsets `off`, `off + 1`, …: highest order first at the lowest offset (R103). -/
def writeBytes (s : State) (b : ByteMem) (off : Nat) (xs : List Byte) : State :=
  s.setBytes b (Memory.writeList (s.bytes b) off xs)

/-! ### Matrices -/

/-- The contents of a matrix. -/
def mat (s : State) : MatMem → Memory Module
  | .wmat => s.wmat
  | .cmat => s.cmat

/-- The cell index of row `r`, column `c` (R57). -/
def cellIndex (r c : Nat) : Nat := Config.matDim * r + c

/-- Cells with a row or column of 177 or more do not exist (R57). -/
def cellExists (r c : Nat) : Bool := r < Config.matDim && c < Config.matDim

/-- The cell (r, c) of a matrix; one that does not exist reads as blank (20_memory.md R90). -/
def readCell (s : State) (mm : MatMem) (r c : Nat) : Module :=
  if cellExists r c then Memory.read (Config.freeCell mm s.resets) (s.mat mm) (cellIndex r c) else .blank

/-- Write one WMAT cell; a cell that does not exist is not written (R90). -/
def writeCell (s : State) (r c : Nat) (x : Module) : State :=
  if cellExists r c then { s with wmat := Memory.set s.wmat (cellIndex r c) x } else s

/-- All cells of a matrix in row-major order. -/
def allCells (s : State) (mm : MatMem) : List Module :=
  Memory.slice (Config.freeCell mm s.resets) (s.mat mm) 0 Config.matCells

/-- The WMAT cells of a symbol of side `side`, as rows (44_matrix.md R240). -/
def symbolRows (s : State) (side : Nat) : List (List Module) :=
  (List.range side).map fun r => Memory.slice (Config.freeCell .wmat s.resets) s.wmat (cellIndex r 0) side

/-- Replace every WMAT cell (r, c) by `f r c` of its present value. -/
def mapCells (f : Nat → Nat → Module → Module) (s : State) : State :=
  { s with
    wmat := Memory.number 0
      ((s.allCells .wmat).zipIdx.map fun x => f (x.2 / Config.matDim) (x.2 % Config.matDim) x.1) }

end State

/-- A list of cell writes, grouped by row. -/
def writesByRow (writes : List ((Nat × Nat) × Module)) : List (List ((Nat × Nat) × Module)) :=
  (List.range Config.matDim).map fun r => writes.filter fun w => w.1.1 == r

/-- The value that grouped cell writes give to cell (r, c), if they write it. -/
def writtenCell (byRow : List (List ((Nat × Nat) × Module))) (r c : Nat) : Option Module :=
  ((byRow.getD r []).find? fun w => w.1.2 == c).map (·.2)

/-- Write a list of WMAT cells, all other cells unchanged. -/
def State.writeCells (writes : List ((Nat × Nat) × Module)) (s : State) : State :=
  let byRow := writesByRow writes
  s.mapCells fun r c old => (writtenCell byRow r c).getD old

/-- The commit of a successful BUILD copies every WMAT cell (47_build.md R334). -/
def State.commitCells (s : State) : State :=
  { s with cmat := Memory.number 0 (s.allCells .wmat) }

/-! ### The command lifecycle -/

/-- The error codes (60_exceptions.md R350). -/
inductive ErrCode where
  | illegalCmd | config | overflow | invalidChar | segFull | range | gfDomain | internal | state
  deriving DecidableEq, Repr

/-- STATUS.ERRCODE of an error (R350). -/
def ErrCode.value : ErrCode → Byte
  | .illegalCmd => 0x01
  | .config => 0x02
  | .overflow => 0x03
  | .invalidChar => 0x04
  | .segFull => 0x05
  | .range => 0x06
  | .gfDomain => 0x07
  | .internal => 0x08
  | .state => 0x09

/-- What `raise Error(CODE, info)` carries (00_scope.md R18). -/
structure CmdError where
  code : ErrCode
  info : Word
  deriving DecidableEq, Repr

/-- The rule of a command: its effect on the state, or the error it raises. -/
abbrev Rule := State → Except CmdError State

/-- Accept of the command word `w` (10_state.md R31): the bookkeeping, and the word becomes pending, so BUSY is 1. -/
def State.accept (w : Word) (s : State) : State :=
  { s with
    lastcmd := w
    status := { s.status with done := false, err := false, errcode := 0 }
    errinfo := 0
    pending := some w }

/-- Successful completion (R31): BUSY 0, DONE 1. -/
def State.complete (s : State) : State :=
  { s with pending := none, status := { s.status with done := true } }

/-- Taking an error at completion (60_exceptions.md R352): BUSY 0, ERR 1, ERRCODE, ERRINFO, and FATAL for
ERR_INTERNAL. LASTCMD holds the command since the accept; no control goes anywhere (R357). -/
def State.raiseError (e : CmdError) (s : State) : State :=
  { s with
    pending := none
    status := { s.status with
      err := true
      errcode := e.code.value
      fatal := s.status.fatal || e.code == .internal }
    errinfo := e.info }

/-- The way back from an error (R358): a write of 1 to STATUS.ERR clears ERR and ERRCODE and leaves ERRINFO and FATAL. -/
def State.clearError (s : State) : State :=
  { s with status := { s.status with err := false, errcode := 0 } }

/-- The completion step of a command with rule `rule`: its effect and DONE, or no effect and the error state (R353). -/
def finish (rule : Rule) (s : State) : Host.Outcome State Fault Refusal :=
  match rule s with
  | .ok t => .next t.complete
  | .error e => .next (s.raiseError e)

/-- Every item takes its reset value and every memory content is drawn afresh (70_reset_and_hazards.md R390, R391). The
moves still to come and the model's draw counter stay. -/
def State.applyReset (s : State) : State :=
  { State.reset with agenda := s.agenda, resets := s.resets + 1, draws := s.draws }

end Sys2Proof.Machine
end

