-- ==== Sys2Proof/Machine/Flags.lean ====
section
/-! DEFINITION. The status and metadata registers as the host reads and writes them (10_state.md R35 to R51), and the
interrupt line (60_exceptions.md R360). -/
namespace Sys2Proof.Machine

/-- One bit as a 1-bit field. -/
def bit (b : Bool) : BitVec 1 := BitVec.ofBool b

namespace State

/-- STATUS as read (R38). -/
def statusWord (s : State) : Word :=
  0#16 ++ s.status.errcode ++ 0#3 ++ bit s.status.werr ++ bit s.status.fatal ++ bit s.status.err ++ bit s.status.done
    ++ bit s.busy

/-- CTRL as read (R37): SRST and the reserved fields read 0. -/
def ctrlWord (s : State) : Word := 0#16 ++ s.ctrl.minrun ++ 0#7 ++ bit s.ctrl.ie

/-- SEGCOUNT as read (R44). -/
def segcountWord (s : State) : Word := s.segused ++ 0#8 ++ BitVec.ofNat 8 s.nseg

/-- STREAMMETA as read (R45). -/
def streamMetaWord (s : State) : Word :=
  bit s.streamMeta.svalid ++ 0#20 ++ s.streamMeta.sec ++ 0#2 ++ s.streamMeta.sver

/-- MATMETA as read (R46). -/
def matMetaWord (s : State) : Word :=
  0#15 ++ bit s.matMeta.fmtdone ++ bit s.matMeta.mmasked ++ s.matMeta.mmask ++ 0#6 ++ s.matMeta.mver

/-- OUTMETA as read (R47). -/
def outMetaWord (s : State) : Word :=
  bit s.outMeta.valid ++ 0#7 ++ s.outMeta.side ++ 0#1 ++ s.outMeta.mask ++ 0#1 ++ s.outMeta.ec ++ 0#2 ++ s.outMeta.ver

/-- The interrupt line (60_exceptions.md R360): a level computed from the present registers. -/
def irq (s : State) : Bool := s.ctrl.ie && (s.status.done || s.status.err)

/-- The register at byte offset `o` of the CSR region, as a 32-bit read returns it (R34, 20_memory.md R88). CMD reads 0
(R36) and so do reserved offsets (R51). -/
def csrRead (s : State) (o : Nat) : Word :=
  match o with
  | 0x00 => Config.idValue
  | 0x08 => s.statusWord
  | 0x0C => s.errinfo
  | 0x10 => s.ctrlWord
  | 0x14 => s.arg0
  | 0x18 => s.arg1
  | 0x1C => s.lastcmd
  | 0x20 => s.result
  | 0x24 => s.bitlen
  | 0x28 => s.segcountWord
  | 0x2C => s.streamMetaWord
  | 0x30 => s.matMetaWord
  | 0x34 => s.outMetaWord
  | 0x38 => s.pen.pen1
  | 0x3C => s.pen.pen2
  | 0x40 => s.pen.pen3
  | 0x44 => s.pen.pen4
  | 0x48 => s.pen.pentot
  | 0x4C => s.cap.cap0
  | 0x50 => s.cap.cap1
  | 0x54 => s.cap.cap2
  | 0x58 => s.cap.cap3
  | 0x5C => s.cap.cap4
  | o => if 0x60 ≤ o ∧ o < 0x80 ∧ o % 4 = 0 then s.maskPen.toList.getD ((o - 0x60) / 4) 0 else 0

/-- A write of `v` to STATUS (R38): DONE, ERR and WERR are cleared where `v` has a 1; clearing ERR is `clearError`. -/
def statusWrite (v : Word) (s : State) : State :=
  let s1 := if v.getLsbD 1 then { s with status := { s.status with done := false } } else s
  let s2 := if v.getLsbD 2 then s1.clearError else s1
  if v.getLsbD 4 then { s2 with status := { s2.status with werr := false } } else s2

/-- A write of `v` to CTRL (R37, 70_reset_and_hazards.md R391, R402): SRST resets and discards the rest; else IE takes
bit 0, and MINRUN takes bits 15 to 8 unless the core is busy. -/
def ctrlWrite (v : Word) (s : State) : State :=
  if v.getLsbD 1 then s.applyReset
  else { s with ctrl := ⟨v.getLsbD 0, if s.busy then s.ctrl.minrun else v.extractLsb' 8 8⟩ }

/-- A dropped write (70_reset_and_hazards.md R401): nothing changes but WERR. -/
def dropWrite (s : State) : State := { s with status := { s.status with werr := true } }

end State
end Sys2Proof.Machine
end

