-- ==== Sys2Proof/Machine/Bus.lean ====
section
/-! DEFINITION. The host agent's step: one bus access, checked and performed as 20_memory.md R81 to R92 say, with the
busy window of R95 and the dropped writes of 70_reset_and_hazards.md R401, R402. -/
namespace Sys2Proof.Machine
open Sys2Proof.Config (ByteMem MatMem)

/-- The regions of the address map (20_memory.md R87). -/
inductive Region where
  | csr
  | segtab
  | bytes (b : ByteMem)
  | matrix (mm : MatMem)
  deriving DecidableEq, Repr

/-- The address map (R87): first address, last address, region. -/
def addressMap : List (Nat × Nat × Region) :=
  [ (0x00000, 0x000FF, .csr),
    (0x01000, 0x011FF, .segtab),
    (0x02000, 0x03FFF, .bytes .segdata),
    (0x04000, 0x05FFF, .bytes .ibuf),
    (0x06000, 0x06FFF, .bytes .cwbuf),
    (0x07000, 0x07FFF, .bytes .final),
    (0x10000, 0x1FFFF, .matrix .wmat),
    (0x20000, 0x2FFFF, .matrix .cmat) ]

/-- The region an address lies in and its offset there, or `none` for an unmapped address (R86). -/
def locate (addr : Nat) : Option (Region × Nat) :=
  (addressMap.find? fun e => e.1 ≤ addr && addr ≤ e.2.1).map fun e => (e.2.2, addr - e.1)

/-- The width in bytes that the `size` port encodes; 3 is illegal (R80, R84). -/
def accessWidth (size : BitVec 2) : Option Nat :=
  match size.toNat with
  | 0 => some 1
  | 1 => some 2
  | 2 => some 4
  | _ => none

/-- The CSR region takes 4-byte accesses only (R84). -/
def widthLegal (region : Region) (n : Nat) : Bool := region != .csr || n == 4

/-- The checks of R81 in their order: mapped, width, alignment. `none` is a bus error; else the region, the offset in it
and the width. -/
def busCheck (a : Access) : Option (Region × Nat × Nat) :=
  match locate a.addr.toNat with
  | none => none
  | some (region, off) =>
    match accessWidth a.size with
    | none => none
    | some n =>
      if widthLegal region n && a.addr.toNat % n == 0 then some (region, off, n) else none

/-! ### Views of the regions -/

/-- SEGTAB.MODE of a segment (10_state.md R54). -/
def SegMode.code : SegMode → BitVec 3
  | .numeric => 1
  | .alphanumeric => 2
  | .byte => 3
  | .kanji => 4

/-- The two words of a SEGTAB entry as one 64-bit value, first word low (20_memory.md R89). -/
def Segment.entryBits (e : Segment) : BitVec 64 := e.nbytes ++ e.off ++ e.nchars ++ 0#13 ++ e.mode.code

/-- The byte at offset `k` of the SEGTAB view; entries at or above NSEG read 0 (R89). -/
def State.segtabByte (s : State) (k : Nat) : Byte :=
  match s.segtab[k / 8]? with
  | none => 0
  | some e => e.entryBits.extractLsb' (8 * (k % 8)) 8

/-- A cell as a byte on the bus (10_state.md R58). -/
def moduleByte (m : Module) : Byte := 0#5 ++ bit m.p ++ bit m.f ++ bit m.v

/-- The cell a byte on the bus stands for: bits 7 to 3 are ignored (R58). -/
def moduleOfByte (b : Byte) : Module := ⟨b.getLsbD 0, b.getLsbD 1, b.getLsbD 2⟩

/-- The row a matrix window offset lies in (20_memory.md R90). -/
def windowRow (k : Nat) : Nat := k / Config.matStride
/-- The column a matrix window offset lies in (R90). -/
def windowCol (k : Nat) : Nat := k % Config.matStride

/-- The stable value of the byte at offset `k` of a region other than the CSR region (R89 to R91). -/
def State.viewByte (s : State) (region : Region) (k : Nat) : Byte :=
  match region with
  | .csr => (s.csrRead (k / 4 * 4)).extractLsb' (8 * (k % 4)) 8
  | .segtab => s.segtabByte k
  | .bytes b => s.readByte b k
  | .matrix mm => moduleByte (s.readCell mm (windowRow k) (windowCol k))

/-! ### The busy window (R95) -/

/-- The write set of a command (the table of R95): which offsets of which region it may be part way through writing. -/
def commandWrites (i : Instr) (s : State) (region : Region) (k : Nat) : Bool :=
  match i with
  | .nop => false
  | .capq _ _ => false
  | .gfMul _ _ => false
  | .gfExp _ => false
  | .gfLog _ => false
  | .maskScore _ => false
  | .fmtCalc _ _ => false
  | .verCalc _ => false
  | .clear => region == .segtab
  | .append _ => region == .segtab || (region == .bytes .segdata && s.segused.toNat ≤ k)
  | .gfGenpoly e => region == .bytes .cwbuf && s.arg1.toNat ≤ k && k ≤ s.arg1.toNat + e.toNat
  | .rsEnc _ e => region == .bytes .cwbuf && s.arg1.toNat ≤ k && k < s.arg1.toNat + e.toNat
  | .eccInterleave _ _ => region == .bytes .final
  | .bitstream _ _ => region == .bytes .cwbuf
  | .matrixInit _ => region == .matrix .wmat
  | .place => region == .matrix .wmat
  | .maskSelect => region == .matrix .wmat
  | .fmtInsert _ _ => region == .matrix .wmat
  | .build _ _ => region == .bytes .cwbuf || region == .bytes .final || region == .matrix .wmat

/-- The location at offset `k` is in the write set of the pending command (R95). A pending word that decodes to no
command writes nothing (log entry 5). -/
def State.inWriteSet (s : State) (region : Region) (k : Nat) : Bool :=
  match s.pending with
  | none => false
  | some w =>
    match decode w with
    | .error _ => false
    | .ok i => commandWrites i s region k

/-- A byte of a location whose read returns any value (R95): a free value for this draw and address. A matrix location is
a cell, so bits 7 to 3 and the bytes outside the matrix read 0 (R90, log entry 5). -/
def State.drawnByte (s : State) (region : Region) (k addr : Nat) : Byte :=
  match region with
  | .matrix _ =>
    if State.cellExists (windowRow k) (windowCol k) then moduleByte (Config.freeBusyCell s.draws addr) else 0
  | _ => Config.freeBusyByte s.draws addr

/-- The byte a host read of offset `k` returns. -/
def State.hostByte (s : State) (region : Region) (k addr : Nat) : Byte :=
  if s.inWriteSet region k then s.drawnByte region k addr else s.viewByte region k

/-- The value of an n-byte host read (R82); the CSR region answers the whole register (R88). -/
def State.hostRead (s : State) (region : Region) (off n addr : Nat) : Word :=
  match region with
  | .csr => s.csrRead off
  | region =>
    BitVec.ofNat 32 ((List.range n).map fun k => (s.hostByte region (off + k) (addr + k)).toNat * 2 ^ (8 * k)).sum

/-! ### Writes -/

/-- One byte written at offset `k` of a region (R90, R91): SEGTAB, SEGDATA and CMAT ignore it. -/
def State.writeViewByte (region : Region) (k : Nat) (x : Byte) (s : State) : State :=
  match region with
  | .csr => s
  | .segtab => s
  | .bytes .segdata => s
  | .bytes .ibuf => s.writeByte .ibuf k x
  | .bytes .cwbuf => s.writeByte .cwbuf k x
  | .bytes .final => s.writeByte .final k x
  | .matrix .wmat => s.writeCell (windowRow k) (windowCol k) (moduleOfByte x)
  | .matrix .cmat => s

/-- A 32-bit write at offset `o` of the CSR region in the idle state (R88): CMD issues the command, read-only registers
and reserved offsets ignore it. -/
def State.csrWrite (o : Nat) (v : Word) (s : State) : State :=
  match o with
  | 0x04 => s.accept v
  | 0x08 => s.statusWrite v
  | 0x10 => s.ctrlWrite v
  | 0x14 => { s with arg0 := v }
  | 0x18 => { s with arg1 := v }
  | _ => s

/-- The bytes of an n-byte write, lowest address first (R82). -/
def writeLanes (n : Nat) (v : Word) : List (Nat × Byte) :=
  (List.range n).map fun k => (k, v.extractLsb' (8 * k) 8)

/-- A write that passed the bus checks, in the idle state (R88 to R91). -/
def State.performWrite (region : Region) (off n : Nat) (v : Word) (s : State) : State :=
  match region with
  | .csr => s.csrWrite off v
  | region => (writeLanes n v).foldl (fun t lane => t.writeViewByte region (off + lane.1) lane.2) s

/-- A write to this location is dropped (70_reset_and_hazards.md R401): any write but CTRL and STATUS while busy, a CMD
write while fatal. -/
def State.dropsWrite (s : State) (region : Region) (off : Nat) : Bool :=
  if s.busy then !(region == .csr && (off == 0x08 || off == 0x10))
  else s.status.fatal && region == .csr && off == 0x04

/-- One host access, an atomic step (20_memory.md R81): a bus error changes no state (R85), a dropped write sets WERR
(R401), a read has no side effect (R92; the draw counter is the model's own). -/
def State.hostAccess (a : Access) (s : State) : State :=
  match busCheck a with
  | none => { s with reply := ⟨true, true, if a.we then none else some 0⟩ }
  | some (region, off, n) =>
    if a.we then
      let t := if s.dropsWrite region off then s.dropWrite else s.performWrite region off n a.wdata
      { t with reply := ⟨true, false, none⟩ }
    else
      { s with
        reply := ⟨true, false, some (s.hostRead region off n a.addr.toNat)⟩
        draws := s.draws + 1 }

end Sys2Proof.Machine
end

