-- ==== Sys2Proof/Machine/Operands.lean ====
section
/-! DEFINITION. The operand forms of the commands: the field legality checks (30_encoding.md R121, 60_exceptions.md R351,
R354) and the range checks (20_memory.md R102). Each check answers the operand's value or the error it raises. -/
namespace Sys2Proof.Machine

/-- The four EC levels, in selector order (30_encoding.md R115). -/
inductive EcLevel where
  | L | M | Q | H
  deriving DecidableEq, Repr

/-- The mode hint of APPEND (30_encoding.md R112). -/
inductive ModeHint where
  | auto
  | forced (mode : SegMode)
  deriving DecidableEq, Repr

/-- `raise Error(CODE, info)`. -/
def raise {α : Type} (code : ErrCode) (info : Word) : Except CmdError α := .error ⟨code, info⟩

/-- VER of a command that needs a version from `lo` to 40: ERR_CONFIG 1 outside. -/
def versionFrom (lo : Nat) (ver : BitVec 6) : Except CmdError Nat :=
  if lo ≤ ver.toNat ∧ ver.toNat ≤ 40 then .ok ver.toNat else raise .config 1

/-- VER, 1 to 40 (R115). -/
def operandVersion (ver : BitVec 6) : Except CmdError Nat := versionFrom 1 ver

/-- VER with AUTO allowed, 0 to 40 (R115); 0 is AUTO. -/
def operandVersionOrAuto (ver : BitVec 6) : Except CmdError Nat := versionFrom 0 ver

/-- VER of VER_CALC, 7 to 40 (46_fmtver.md R317). -/
def operandVersionWord (ver : BitVec 6) : Except CmdError Nat := versionFrom 7 ver

/-- EC, 0 L to 3 H: ERR_CONFIG 2 for 4 to 7 (R115). -/
def operandEc (ec : BitVec 3) : Except CmdError EcLevel :=
  match ec.toNat with
  | 0 => .ok .L
  | 1 => .ok .M
  | 2 => .ok .Q
  | 3 => .ok .H
  | _ => raise .config 2

/-- E, 1 to 30: ERR_CONFIG 3 outside (R114). -/
def operandEcCount (e : BitVec 6) : Except CmdError Nat :=
  if e.toNat = 0 ∨ e.toNat > Config.rsMaxEc then raise .config 3 else .ok e.toNat

/-- MODE: ERR_CONFIG 4 for 5 to 7 (R112). -/
def operandMode (mode : BitVec 3) : Except CmdError ModeHint :=
  match mode.toNat with
  | 0 => .ok .auto
  | 1 => .ok (.forced .numeric)
  | 2 => .ok (.forced .alphanumeric)
  | 3 => .ok (.forced .byte)
  | 4 => .ok (.forced .kanji)
  | _ => raise .config 4

/-- The range of `n` bytes at a full 32-bit offset fits in a memory of `size` bytes, else ERR_RANGE; the sum is exact
(30_encoding.md R117). -/
def operandRange (off : Word) (n size : Nat) (info : Word) : Except CmdError Nat :=
  if off.toNat + n > size then raise .range info else .ok off.toNat

/-- A matrix command needs an initialised matrix: MATMETA.MVER, else ERR_STATE 1 (60_exceptions.md R354). -/
def operandMatrix (s : State) : Except CmdError Nat :=
  if s.matMeta.mver = 0 then raise .state 1 else .ok s.matMeta.mver.toNat

end Sys2Proof.Machine
end

