-- ==== Sys2Proof/Machine/Capacity.lean ====
section
/-! DEFINITION. The capacity table (40_capacity.md R140 to R147), the segment lengths it is stated with (43_bitstream.md
R207, R208), and CAPQ (R146). -/
namespace Sys2Proof.Machine

/-- The side of a symbol: `4*v + 17` (00_scope.md R12, 44_matrix.md R240). -/
def side (v : Nat) : Nat := 4 * v + 17

/-- DM(v), the data-module count, in closed form (40_capacity.md R141). -/
def dataModules (v : Nat) : Nat :=
  let k := v / 7 + 2
  let alignment := if v = 1 then 0 else (25 * k - 10) * k - 55
  let version := if v ≥ 7 then 36 else 0
  (16 * v + 128) * v + 64 - alignment - version

/-- T(v), the total codeword count (R142). -/
def totalCodewords (v : Nat) : Nat := dataModules v / 8

/-- rem(v), the remainder-bit count (R142). -/
def remainderBits (v : Nat) : Nat := dataModules v % 8

/-- E for versions 1 to 40, per level (R143, the tables of R145). -/
def ecCountTable : EcLevel → List Nat
  | .L => [7, 10, 15, 20, 26, 18, 20, 24, 30, 18, 20, 24, 26, 30, 22, 24, 28, 30, 28, 28] ++
          [28, 28, 30, 30, 26, 28, 30, 30, 30, 30, 30, 30, 30, 30, 30, 30, 30, 30, 30, 30]
  | .M => [10, 16, 26, 18, 24, 16, 18, 22, 22, 26, 30, 22, 22, 24, 24, 28, 28, 26, 26, 26] ++
          [26, 28, 28, 28, 28, 28, 28, 28, 28, 28, 28, 28, 28, 28, 28, 28, 28, 28, 28, 28]
  | .Q => [13, 22, 18, 26, 18, 24, 18, 22, 20, 24, 28, 26, 24, 20, 30, 24, 28, 28, 26, 30] ++
          [28, 30, 30, 30, 30, 28, 30, 30, 30, 30, 30, 30, 30, 30, 30, 30, 30, 30, 30, 30]
  | .H => [17, 28, 22, 16, 22, 28, 26, 26, 24, 28, 24, 28, 22, 24, 24, 30, 28, 28, 26, 28] ++
          [30, 24, 30, 30, 30, 30, 30, 30, 30, 30, 30, 30, 30, 30, 30, 30, 30, 30, 30, 30]

/-- NB for versions 1 to 40, per level (R143, the tables of R145). -/
def blockCountTable : EcLevel → List Nat
  | .L => [1, 1, 1, 1, 1, 2, 2, 2, 2, 4, 4, 4, 4, 4, 6, 6, 6, 6, 7, 8] ++
          [8, 9, 9, 10, 12, 12, 12, 13, 14, 15, 16, 17, 18, 19, 19, 20, 21, 22, 24, 25]
  | .M => [1, 1, 1, 2, 2, 4, 4, 4, 5, 5, 5, 8, 9, 9, 10, 10, 11, 13, 14, 16] ++
          [17, 17, 18, 20, 21, 23, 25, 26, 28, 29, 31, 33, 35, 37, 38, 40, 43, 45, 47, 49]
  | .Q => [1, 1, 2, 2, 4, 4, 6, 6, 8, 8, 8, 10, 12, 16, 12, 17, 16, 18, 21, 20] ++
          [23, 23, 25, 27, 29, 34, 34, 35, 38, 40, 43, 45, 48, 51, 53, 56, 59, 62, 65, 68]
  | .H => [1, 1, 2, 4, 4, 4, 5, 6, 8, 8, 11, 11, 16, 16, 18, 16, 19, 21, 25, 25] ++
          [25, 34, 30, 32, 35, 37, 40, 42, 45, 48, 51, 54, 57, 60, 63, 66, 70, 74, 77, 81]

/-- E(v, ec), the EC codewords per block (R143). -/
def ecCount (v : Nat) (l : EcLevel) : Nat := (ecCountTable l).getD (v - 1) 0

/-- NB(v, ec), the block count (R143). -/
def blockCount (v : Nat) (l : EcLevel) : Nat := (blockCountTable l).getD (v - 1) 0

/-- NL(v, ec), the long blocks (R144). -/
def longBlocks (v : Nat) (l : EcLevel) : Nat := totalCodewords v % blockCount v l

/-- NS(v, ec), the short blocks (R144). -/
def shortBlocks (v : Nat) (l : EcLevel) : Nat := blockCount v l - longBlocks v l

/-- SD(v, ec), the data codewords of a short block (R144). -/
def shortData (v : Nat) (l : EcLevel) : Nat := totalCodewords v / blockCount v l - ecCount v l

/-- D(v, ec), the data codeword count (R145). -/
def dataCodewords (v : Nat) (l : EcLevel) : Nat :=
  shortBlocks v l * shortData v l + longBlocks v l * (shortData v l + 1)

/-- cap(v, ec), the bit capacity (43_bitstream.md R222). -/
def bitCapacity (v : Nat) (l : EcLevel) : Nat := 8 * dataCodewords v l

/-- CCI(m, v), the count-indicator width (43_bitstream.md R207). -/
def countBits (m : SegMode) (v : Nat) : Nat :=
  match m with
  | .numeric => if v ≤ 9 then 10 else if v ≤ 26 then 12 else 14
  | .alphanumeric => if v ≤ 9 then 9 else if v ≤ 26 then 11 else 13
  | .byte => if v ≤ 9 then 8 else 16
  | .kanji => if v ≤ 9 then 8 else if v ≤ 26 then 10 else 12

/-- PB(m, c), the payload length of `c` characters (43_bitstream.md R208). -/
def payloadBits (m : SegMode) (c : Nat) : Nat :=
  match m with
  | .numeric => 10 * (c / 3) + (if c % 3 = 0 then 0 else if c % 3 = 1 then 4 else 7)
  | .alphanumeric => 11 * (c / 2) + 6 * (c % 2)
  | .byte => 8 * c
  | .kanji => 13 * c

/-- The most characters of mode `m` whose payload fits in `room` bits: R208 solved for the count. -/
def charsInBits (m : SegMode) (room : Nat) : Nat :=
  match m with
  | .numeric => 3 * (room / 10) + (if room % 10 ≥ 7 then 2 else if room % 10 ≥ 4 then 1 else 0)
  | .alphanumeric => 2 * (room / 11) + (if room % 11 ≥ 6 then 1 else 0)
  | .byte => room / 8
  | .kanji => room / 13

/-- CAPC(m, v, ec), the largest single segment of mode `m` that fits (R147, log entry 9). -/
def charCapacity (m : SegMode) (v : Nat) (l : EcLevel) : Nat :=
  charsInBits m (bitCapacity v l - (4 + countBits m v))

/-- The five capacity registers for (v, ec) (10_state.md R49, R146). -/
def capacityRegisters (v : Nat) (l : EcLevel) : Cap where
  cap0 := BitVec.ofNat 16 (dataCodewords v l) ++ BitVec.ofNat 16 (totalCodewords v)
  cap1 := BitVec.ofNat 8 (longBlocks v l) ++ BitVec.ofNat 8 (shortData v l) ++ BitVec.ofNat 8 (shortBlocks v l)
    ++ BitVec.ofNat 8 (ecCount v l)
  cap2 := 0#12 ++ BitVec.ofNat 4 (remainderBits v) ++ BitVec.ofNat 16 (dataModules v)
  cap3 := BitVec.ofNat 16 (charCapacity .alphanumeric v l) ++ BitVec.ofNat 16 (charCapacity .numeric v l)
  cap4 := BitVec.ofNat 16 (charCapacity .kanji v l) ++ BitVec.ofNat 16 (charCapacity .byte v l)

/-- CAPQ's rule (R146). -/
def ruleCapq (ver : BitVec 6) (ec : BitVec 3) : Rule := fun s => do
  let v ← operandVersion ver
  let l ← operandEc ec
  .ok { s with cap := capacityRegisters v l }

/-- CAPQ ver, ec (R146). -/
def execCapq (ver : BitVec 6) (ec : BitVec 3) (s : State) : Host.Outcome State Fault Refusal :=
  finish (ruleCapq ver ec) s

end Sys2Proof.Machine
end

