-- ==== Sys2Proof/Machine/Segments.lean ====
section
/-! DEFINITION. Character classes (43_bitstream.md R200 to R204), the segment analyzer (R210, R211), the segment table
(R212), and the commands CLEAR (R213) and APPEND (R214). -/
namespace Sys2Proof.Machine

/-- A numeric byte: '0' to '9' (R200). -/
def isNumeric (b : Byte) : Bool := 0x30 ≤ b && b ≤ 0x39

/-- AV(b), the value of an alphanumeric byte in the 45-symbol table (R201). -/
def alphaValue? (b : Byte) : Option Nat :=
  if isNumeric b then some (b.toNat - 0x30)
  else if 0x41 ≤ b && b ≤ 0x5A then some (b.toNat - 0x41 + 10)
  else
    match b.toNat with
    | 0x20 => some 36
    | 0x24 => some 37
    | 0x25 => some 38
    | 0x2A => some 39
    | 0x2B => some 40
    | 0x2D => some 41
    | 0x2E => some 42
    | 0x2F => some 43
    | 0x3A => some 44
    | _ => none

/-- An alphanumeric byte: one of the 45 (R201). -/
def isAlphanumeric (b : Byte) : Bool := (alphaValue? b).isSome

/-- The 16-bit value of a byte pair (R203). -/
def kanjiWord (hi lo : Byte) : Nat := hi.toNat * 256 + lo.toNat

/-- A valid Kanji pair (R203). -/
def isKanji (hi lo : Byte) : Bool :=
  let w := kanjiWord hi lo
  ((0x8140 ≤ w && w ≤ 0x9FFC) || (0xE040 ≤ w && w ≤ 0xEBBF))
    && (0x40 ≤ lo && lo ≤ 0xFC) && lo != 0x7F

/-- KV(hi, lo), the 13-bit value of a Kanji pair (R204). -/
def kanjiValue (hi lo : Byte) : Nat :=
  let w := kanjiWord hi lo
  let t := if w ≤ 0x9FFC then w - 0x8140 else w - 0xC140
  t / 256 * 0xC0 + t % 256

/-- A contiguous, non-empty part of a chunk with its mode (R210). -/
structure Piece where
  mode : SegMode
  start : Nat
  len : Nat
  deriving DecidableEq, Repr

/-! ### Forced modes (R210) -/

/-- The chunk offset of the first unpaired or invalid Kanji pair, scanning from offset `k`. -/
def firstBadPair : (k : Nat) → List Byte → Option Nat
  | _, [] => none
  | k, [_] => some k
  | k, hi :: lo :: rest => if isKanji hi lo then firstBadPair (k + 2) rest else some k

/-- The chunk offset of the first violation of a forced mode. -/
def firstViolation (m : SegMode) (c : List Byte) : Option Nat :=
  match m with
  | .numeric => c.findIdx? fun b => !isNumeric b
  | .alphanumeric => c.findIdx? fun b => !isAlphanumeric b
  | .byte => none
  | .kanji => firstBadPair 0 c

/-! ### The AUTO analyzer (R211) -/

/-- The most compact mode valid for all bytes of `x`. -/
def wholeMode (x : List Byte) : SegMode :=
  if x.all isNumeric then .numeric
  else if x.all isAlphanumeric then .alphanumeric
  else .byte

/-- Split `x` into maximal runs of bytes on which `p` is constant, with that constant. -/
def maximalRuns (p : Byte → Bool) : List Byte → List (Bool × List Byte)
  | [] => []
  | b :: rest =>
    match maximalRuns p rest with
    | [] => [(p b, [b])]
    | (k, r) :: runs => if k = p b then (k, b :: r) :: runs else (p b, [b]) :: (k, r) :: runs

/-- Join adjacent parts that are not matching into one. -/
def joinOthers : List (Bool × List Byte) → List (Bool × List Byte)
  | [] => []
  | (true, r) :: rest => (true, r) :: joinOthers rest
  | (false, r) :: rest =>
    match joinOthers rest with
    | (false, q) :: tail => (false, r ++ q) :: tail
    | tail => (false, r) :: tail

/-- RUNS(x, class, M): the maximal class runs of length at least `m` (true: matching) and the maximal remainders between
them (false: other), in order. -/
def classRuns (p : Byte → Bool) (m : Nat) (x : List Byte) : List (Bool × List Byte) :=
  joinOthers ((maximalRuns p x).map fun run => (run.1 && m ≤ run.2.length, run.2))

/-- The modes and bytes of an AUTO chunk's pieces, with `m` = CTRL.MINRUN (R211). -/
def autoParts (m : Nat) (c : List Byte) : List (SegMode × List Byte) :=
  if m = 0 ∨ c.length ≤ m then [(wholeMode c, c)]
  else
    (classRuns isNumeric m c).flatMap fun p =>
      if p.1 then [(.numeric, p.2)]
      else (classRuns isAlphanumeric m p.2).map fun q => (if q.1 then .alphanumeric else .byte, q.2)

/-- Give consecutive parts their chunk offsets. -/
def locatePieces : (start : Nat) → List (SegMode × List Byte) → List Piece
  | _, [] => []
  | start, (m, x) :: rest => ⟨m, start, x.length⟩ :: locatePieces (start + x.length) rest

/-- SPLIT(c, MODE, MINRUN) of a non-empty chunk (R214): its pieces, or the offset of the first violation. -/
def splitChunk (hint : ModeHint) (minrun : Nat) (c : List Byte) : Except Nat (List Piece) :=
  match hint with
  | .auto => .ok (locatePieces 0 (autoParts minrun c))
  | .forced m =>
    match firstViolation m c with
    | some p => .error p
    | none => .ok [⟨m, 0, c.length⟩]

/-! ### Storing (R212) -/

/-- The SEGTAB entry of a piece of a chunk stored at `base`. -/
def Piece.segment (base : Nat) (p : Piece) : Segment where
  mode := p.mode
  nchars := BitVec.ofNat 16 (if p.mode = .kanji then p.len / 2 else p.len)
  off := BitVec.ofNat 16 (base + p.start)
  nbytes := BitVec.ofNat 16 p.len

/-- Store a chunk and its pieces (R212). -/
def State.storeChunk (c : List Byte) (pieces : List Piece) (s : State) : State :=
  let base := s.segused.toNat
  { s.writeBytes .segdata base c with
    segtab := s.segtab ++ pieces.map (Piece.segment base)
    segused := BitVec.ofNat 16 (base + c.length) }

/-- ERRINFO of ERR_INVALID_CHAR: `{p[15:0], NSEG[15:0]}` (R214). -/
def invalidCharInfo (p nseg : Nat) : Word := BitVec.ofNat 16 p ++ BitVec.ofNat 16 nseg

/-- APPEND's rule for a chunk that is not empty (R214). -/
def appendChunk (hint : ModeHint) (c : List Byte) : Rule := fun s =>
  match splitChunk hint s.ctrl.minrun.toNat c with
  | .error p => raise .invalidChar (invalidCharInfo p s.nseg)
  | .ok pieces =>
    if s.nseg + pieces.length > Config.maxSegments then raise .segFull 1
    else if s.segused.toNat + c.length > Config.segdataBytes then raise .segFull 2
    else .ok (s.storeChunk c pieces)

/-- APPEND's rule (R214); an empty chunk adds nothing (R210). -/
def ruleAppend (mode : BitVec 3) : Rule := fun s => do
  let hint ← operandMode mode
  let off ← operandRange s.arg0 s.arg1.toNat Config.ibufBytes 1
  if s.arg1 = 0 then .ok s
  else appendChunk hint (s.readBytes .ibuf off s.arg1.toNat) s

/-- APPEND mode (R214). -/
def execAppend (mode : BitVec 3) (s : State) : Host.Outcome State Fault Refusal := finish (ruleAppend mode) s

/-- CLEAR's rule (R213): the segment list is empty, SEGDATA keeps its bytes. -/
def ruleClear : Rule := fun s => .ok { s with segtab := [], segused := 0 }

/-- CLEAR (R213). -/
def execClear (s : State) : Host.Outcome State Fault Refusal := finish ruleClear s

end Sys2Proof.Machine
end

