-- ==== Sys2Proof/Machine/BitStream.lean ====
section
/-! DEFINITION. The bit stream (43_bitstream.md R206, R209, R220 to R225) and BITSTREAM (R226). -/
namespace Sys2Proof.Machine

/-- The `n` low bits of `x`, most-significant bit first (20_memory.md R93). -/
def bitsMsb (n x : Nat) : List Bool := (List.range n).map fun i => x.testBit (n - 1 - i)

/-- The number whose bits, most-significant first, are `bits`. -/
def ofBitsMsb (bits : List Bool) : Nat := bits.foldl (fun acc b => 2 * acc + b.toNat) 0

/-- The mode indicator, 4 bits (R206). -/
def modeIndicator : SegMode → Nat
  | .numeric => 0b0001
  | .alphanumeric => 0b0010
  | .byte => 0b0100
  | .kanji => 0b1000

/-- The digit value of a numeric byte (R200). -/
def digitValue (b : Byte) : Nat := b.toNat - 0x30

/-- AV(b); a byte outside the 45 symbols stands in no alphanumeric segment (R210, log entry 9). -/
def alphaValue (b : Byte) : Nat := (alphaValue? b).getD 0

/-- Numeric payload: groups of 3, 2 or 1 digits in 10, 7 or 4 bits (R209). -/
def numericPayload : List Byte → List Bool
  | a :: b :: c :: rest =>
    bitsMsb 10 (100 * digitValue a + 10 * digitValue b + digitValue c) ++ numericPayload rest
  | [a, b] => bitsMsb 7 (10 * digitValue a + digitValue b)
  | [a] => bitsMsb 4 (digitValue a)
  | [] => []

/-- Alphanumeric payload: pairs in 11 bits, a final single in 6 (R209). -/
def alphaPayload : List Byte → List Bool
  | x :: y :: rest => bitsMsb 11 (45 * alphaValue x + alphaValue y) ++ alphaPayload rest
  | [x] => bitsMsb 6 (alphaValue x)
  | [] => []

/-- Byte payload: 8 bits a byte (R209). -/
def bytePayload (bs : List Byte) : List Bool := bs.flatMap fun b => bitsMsb 8 b.toNat

/-- Kanji payload: 13 bits a pair (R209). -/
def kanjiPayload : List Byte → List Bool
  | hi :: lo :: rest => bitsMsb 13 (kanjiValue hi lo) ++ kanjiPayload rest
  | _ => []

/-- The payload of a segment (R209). -/
def payload (m : SegMode) (bs : List Byte) : List Bool :=
  match m with
  | .numeric => numericPayload bs
  | .alphanumeric => alphaPayload bs
  | .byte => bytePayload bs
  | .kanji => kanjiPayload bs

/-- ENC(seg, v): mode indicator, character count, payload (R209). -/
def encodeSegment (v : Nat) (seg : Segment) (bs : List Byte) : List Bool :=
  bitsMsb 4 (modeIndicator seg.mode) ++ bitsMsb (countBits seg.mode v) seg.nchars.toNat ++ payload seg.mode bs

/-- The bytes of a segment in SEGDATA (10_state.md R54). -/
def State.segmentBytes (s : State) (seg : Segment) : List Byte :=
  s.readBytes .segdata seg.off.toNat seg.nbytes.toNat

/-- S(v), the segments' stream (R220). -/
def State.segmentStream (s : State) (v : Nat) : List Bool :=
  s.segtab.flatMap fun seg => encodeSegment v seg (s.segmentBytes seg)

/-- The length of ENC(seg, v) (R209). -/
def segmentBits (v : Nat) (seg : Segment) : Nat :=
  4 + countBits seg.mode v + payloadBits seg.mode seg.nchars.toNat

/-- bits(v), the length of S(v) (R220). -/
def State.streamBits (s : State) (v : Nat) : Nat := (s.segtab.map (segmentBits v)).sum

/-- The stream fits in version v (R223). -/
def State.fits (s : State) (l : EcLevel) (v : Nat) : Bool := s.streamBits v ≤ bitCapacity v l

/-- Version selection (R223): a fixed version must fit; AUTO (0) takes the smallest that fits. -/
def State.selectVersion (s : State) (ver : Nat) (l : EcLevel) : Except CmdError Nat :=
  if ver = 0 then
    match (List.range' 1 40).find? (s.fits l) with
    | some v => .ok v
    | none => raise .overflow (BitVec.ofNat 32 (s.streamBits 40))
  else if s.fits l ver then .ok ver
  else raise .overflow (BitVec.ofNat 32 (s.streamBits ver))

/-- Terminator, shortened to fit, and zero bits to the next byte boundary (R225). -/
def terminate (cap : Nat) (x : List Bool) : List Bool :=
  let y := x ++ List.replicate (min 4 (cap - x.length)) false
  y ++ List.replicate ((8 - y.length % 8) % 8) false

/-- `k` codewords of the stream, its first bit in bit 7 of the first (20_memory.md R93). -/
def packCodewords : Nat → List Bool → List Byte
  | 0, _ => []
  | k + 1, bits => BitVec.ofNat 8 (ofBitsMsb (bits.take 8)) :: packCodewords k (bits.drop 8)

/-- `n` pad codewords, 0xEC and 0x11 in turn (R225). -/
def padCodewords (n : Nat) : List Byte := (List.range n).map fun j => if j % 2 = 0 then 0xEC else 0x11

/-- The D data codewords of a segment stream (R225). -/
def codewordsOf (v : Nat) (l : EcLevel) (stream : List Bool) : List Byte :=
  let x := terminate (bitCapacity v l) stream
  let k := min (x.length / 8) (dataCodewords v l)
  packCodewords k x ++ padCodewords (dataCodewords v l - k)

/-- BITSTREAM's rule (R226). -/
def ruleBitstream (ver : BitVec 6) (ec : BitVec 3) : Rule := fun s => do
  let ver' ← operandVersionOrAuto ver
  let l ← operandEc ec
  let v ← s.selectVersion ver' l
  .ok { s.writeBytes .cwbuf 0 (codewordsOf v l (s.segmentStream v)) with
    bitlen := BitVec.ofNat 32 (s.streamBits v)
    streamMeta := ⟨BitVec.ofNat 6 v, ec, true⟩
    result := BitVec.ofNat 32 v }

/-- BITSTREAM ver, ec (R226). -/
def execBitstream (ver : BitVec 6) (ec : BitVec 3) (s : State) : Host.Outcome State Fault Refusal :=
  finish (ruleBitstream ver ec) s

end Sys2Proof.Machine
end

