-- ==== Sys2Proof/Machine/Matrix.lean ====
section
/-! DEFINITION. The symbol's geometry (44_matrix.md R240 to R250), MATRIX_INIT (R251), the zig-zag order and the placement
stream (R253, R254), and PLACE (R256). -/
namespace Sys2Proof.Machine

/-- `|a - b|`. -/
def distance (a b : Nat) : Nat := (a - b) + (b - a)

/-- The Chebyshev distance of cell (r, c) from a centre (R241, R242, R245). -/
def ringOf (r c : Nat) (centre : Nat × Nat) : Nat := max (distance r centre.1) (distance c centre.2)

/-- The centres of the three finder patterns: their corners (R241) plus (3, 3). -/
def finderCentres (v : Nat) : List (Nat × Nat) := [(3, 3), (3, side v - 4), (side v - 4, 3)]

/-- The colour of a finder or separator cell: ring 0, 1 and 3 Dark, ring 2 Light (R241), ring 4, the separator, Light
(R242). -/
def finderColour? (v r c : Nat) : Option Bool :=
  ((finderCentres v).find? fun x => ringOf r c x ≤ 4).map fun x =>
    ringOf r c x != 2 && ringOf r c x != 4

/-- The colour of a timing cell: Dark at even index (R243). -/
def timingColour? (v r c : Nat) : Option Bool :=
  if r = 6 ∧ 8 ≤ c ∧ c + 9 ≤ side v then some (c % 2 == 0)
  else if c = 6 ∧ 8 ≤ r ∧ r + 9 ≤ side v then some (r % 2 == 0)
  else none

/-- AP(v), the alignment-pattern positions (R244). -/
def alignmentPositions (v : Nat) : List Nat :=
  if v ≤ 1 then []
  else
    let n := v / 7 + 2
    let step := if v = 32 then 26 else (4 * v + 2 * n + 1) / (2 * n - 2) * 2
    6 :: (List.range (n - 1)).map fun i => side v - 7 - (n - 2 - i) * step

/-- The centres of the alignment patterns: every pair of positions but the three that lie in finders (R245). -/
def alignmentCentres (v : Nat) : List (Nat × Nat) :=
  let ap := alignmentPositions v
  let last := ap.length - 1
  (ap.zipIdx.flatMap fun a => ap.zipIdx.map fun b => (a, b)).filterMap fun x =>
    if (x.1.2, x.2.2) = (0, 0) ∨ (x.1.2, x.2.2) = (0, last) ∨ (x.1.2, x.2.2) = (last, 0) then none
    else some (x.1.1, x.2.1)

/-- The colour of an alignment cell: Dark on rings 0 and 2, Light on ring 1 (R245). -/
def alignmentColour? (centres : List (Nat × Nat)) (r c : Nat) : Option Bool :=
  (centres.find? fun x => ringOf r c x ≤ 2).map fun x => ringOf r c x != 1

/-- The dark module (R248). -/
def darkModule (v : Nat) : Nat × Nat := (side v - 8, 8)

/-- FP1(i), the cell of format bit i in copy 1 (R246). -/
def fp1 (i : Nat) : Nat × Nat :=
  if i ≤ 5 then (i, 8) else if i = 6 then (7, 8) else if i = 7 then (8, 8) else if i = 8 then (8, 7) else (8, 14 - i)

/-- FP2(i), the cell of format bit i in copy 2 (R246). -/
def fp2 (v i : Nat) : Nat × Nat := if i ≤ 7 then (8, side v - 1 - i) else (side v - 15 + i, 8)

/-- VP1(i), the cell of version bit i above the top-right finder (R247). -/
def vp1 (v i : Nat) : Nat × Nat := (i / 3, side v - 11 + i % 3)

/-- VP2(i), the cell of version bit i left of the bottom-left finder (R247). -/
def vp2 (v i : Nat) : Nat × Nat := (side v - 11 + i % 3, i / 3)

/-- The cells of the format and version strips (R246, R247). -/
def stripCells (v : Nat) : List (Nat × Nat) :=
  (List.range 15).map fp1 ++ (List.range 15).map (fp2 v) ++
    (if v ≥ 7 then (List.range 18).map (vp1 v) ++ (List.range 18).map (vp2 v) else [])

/-- The template's cell (r, c) (R251). The component sets are disjoint or agree, so the order of the tests does not matter
(R249). `centres` and `strips` are `alignmentCentres v` and `stripCells v`. -/
def templateCellWith (v : Nat) (centres strips : List (Nat × Nat)) (r c : Nat) : Module :=
  if r < side v ∧ c < side v then
    match finderColour? v r c with
    | some dark => ⟨dark, true, false⟩
    | none =>
      match timingColour? v r c with
      | some dark => ⟨dark, true, false⟩
      | none =>
        match alignmentColour? centres r c with
        | some dark => ⟨dark, true, false⟩
        | none =>
          if (r, c) = darkModule v then ⟨true, true, false⟩
          else if strips.contains (r, c) then ⟨false, true, true⟩
          else ⟨false, false, true⟩
  else .blank

/-- The template's cell (r, c) (R251). -/
def templateCell (v r c : Nat) : Module := templateCellWith v (alignmentCentres v) (stripCells v) r c

/-- MATRIX_INIT's rule (R251). -/
def ruleMatrixInit (ver : BitVec 6) : Rule := fun s => do
  let v ← operandVersion ver
  let centres := alignmentCentres v
  let strips := stripCells v
  .ok { s.mapCells fun r c _ => templateCellWith v centres strips r c with
    matMeta := ⟨BitVec.ofNat 6 v, 0, false, false⟩ }

/-- MATRIX_INIT ver (R251). -/
def execMatrixInit (ver : BitVec 6) (s : State) : Host.Outcome State Fault Refusal := finish (ruleMatrixInit ver) s

/-! ### Zig-zag placement -/

/-- The right columns of the column pairs, from the right edge, skipping the vertical timing column 6 (R253). -/
def pairColumns (s : Nat) : List Nat :=
  (List.range ((s - 1) / 2)).map fun p =>
    let right := s - 1 - 2 * p
    if right ≤ 6 then right - 1 else right

/-- The cells of one column pair, upward or downward, right column first (R253). -/
def pairCells (s right : Nat) : List (Nat × Nat) :=
  let upward := (right + 1) &&& 2 == 0
  (List.range s).flatMap fun k =>
    let r := if upward then s - 1 - k else k
    [(r, right), (r, right - 1)]

/-- ZZ(v), the zig-zag order (R253). -/
def zigzag (v : Nat) : List (Nat × Nat) := (pairColumns (side v)).flatMap (pairCells (side v))

/-- The cell at row `r`, column `c` of a list of rows. -/
def cellOf (rows : List (List Module)) (r c : Nat) : Module := (rows.getD r []).getD c .blank

/-- DC, the data cells of ZZ(v) in order (R255). -/
def dataCells (v : Nat) (rows : List (List Module)) : List (Nat × Nat) :=
  (zigzag v).filter fun x => !(cellOf rows x.1 x.2).f

/-- The bits of a byte, most-significant first (R254). -/
def byteBits (b : Byte) : List Bool := [7, 6, 5, 4, 3, 2, 1, 0].map b.getLsbD

/-- PBIT, the placement bit sequence: the codeword bits, then the remainder bits (R254). -/
def placementBits (v : Nat) (codewords : List Byte) : List Bool :=
  codewords.flatMap byteBits ++ List.replicate (remainderBits v) false

/-- PLACE's rule (R256). -/
def rulePlace : Rule := fun s => do
  let v ← operandMatrix s
  let dc := dataCells v (s.symbolRows (side v))
  let expected := 8 * totalCodewords v + remainderBits v
  if dc.length ≠ expected then raise .internal (BitVec.ofNat 16 expected ++ BitVec.ofNat 16 dc.length)
  else
    let bits := placementBits v (s.readBytes .final 0 (totalCodewords v))
    let writes := dc.zip (bits.map fun b => (⟨b, false, false⟩ : Module))
    .ok { s.writeCells writes with matMeta := { s.matMeta with mmasked := false } }

/-- PLACE (R256). -/
def execPlace (s : State) : Host.Outcome State Fault Refusal := finish rulePlace s

end Sys2Proof.Machine
end

