-- ==== Sys2Proof/Machine/FmtVer.lean ====
section
/-! DEFINITION. Format and version information (46_fmtver.md R310 to R315), and FMT_CALC (R316), VER_CALC (R317) and
FMT_INSERT (R318). -/
namespace Sys2Proof.Machine

/-- The 2-bit EC-level code (R310): L 01, M 00, Q 11, H 10. -/
def ecCode : EcLevel → BitVec 2
  | .L => 0b01
  | .M => 0b00
  | .Q => 0b11
  | .H => 0b10

/-- fd(ec, m), the 5 format data bits (R311). -/
def formatData (l : EcLevel) (m : BitVec 3) : BitVec 5 := ecCode l ++ m

/-- The BCH remainder loop of R312 and R314: for each bit position i of `positions`, if the bit is set, cancel it with
the generator shifted so that its leading term stands at i (`degree` is the generator's). -/
def bchReduce {n : Nat} (gen : BitVec n) (degree : Nat) (positions : List Nat) (r : BitVec n) : BitVec n :=
  positions.foldl (fun r i => if r.getLsbD i then r ^^^ (gen <<< (i - degree)) else r) r

/-- FMT(ec, m), the 15-bit format word (R312). -/
def formatWord (l : EcLevel) (m : BitVec 3) : BitVec 15 :=
  let shifted : BitVec 15 := formatData l m ++ 0#10
  let parity := bchReduce 0x537#15 10 [14, 13, 12, 11, 10] shifted &&& 0x3FF#15
  (shifted ||| parity) ^^^ 0x5412#15

/-- VERW(v), the 18-bit version word (R314). -/
def versionWord (v : BitVec 6) : BitVec 18 :=
  let shifted : BitVec 18 := v ++ 0#12
  let parity := bchReduce 0x1F25#18 12 [17, 16, 15, 14, 13, 12] shifted &&& 0xFFF#18
  shifted ||| parity

/-- FMT_CALC's rule (R316). -/
def ruleFmtCalc (ec mask : BitVec 3) : Rule := fun s => do
  let l ← operandEc ec
  .ok { s with result := (formatWord l mask).setWidth 32 }

/-- FMT_CALC ec, mask (R316). -/
def execFmtCalc (ec mask : BitVec 3) (s : State) : Host.Outcome State Fault Refusal := finish (ruleFmtCalc ec mask) s

/-- VER_CALC's rule (R317). -/
def ruleVerCalc (ver : BitVec 6) : Rule := fun s => do
  let v ← operandVersionWord ver
  .ok { s with result := (versionWord (BitVec.ofNat 6 v)).setWidth 32 }

/-- VER_CALC ver (R317). -/
def execVerCalc (ver : BitVec 6) (s : State) : Host.Outcome State Fault Refusal := finish (ruleVerCalc ver) s

/-- A written strip cell: function, not pending (R318). -/
def stripModule (dark : Bool) : Module := ⟨dark, true, false⟩

/-- The cells FMT_INSERT writes (R318): both format copies, and both version blocks from version 7 on. -/
def stripWrites (v : Nat) (f : BitVec 15) (g : BitVec 18) : List ((Nat × Nat) × Module) :=
  ((List.range 15).flatMap fun i => [(fp1 i, stripModule (f.getLsbD i)), (fp2 v i, stripModule (f.getLsbD i))]) ++
    (if v ≥ 7 then
      (List.range 18).flatMap fun i => [(vp1 v i, stripModule (g.getLsbD i)), (vp2 v i, stripModule (g.getLsbD i))]
    else [])

/-- FMT_INSERT's rule (R318): its own EC and MASK fields, the version of WMAT. -/
def ruleFmtInsert (ec mask : BitVec 3) : Rule := fun s => do
  let l ← operandEc ec
  let v ← operandMatrix s
  .ok { s.writeCells (stripWrites v (formatWord l mask) (versionWord s.matMeta.mver)) with
    matMeta := { s.matMeta with fmtdone := true } }

/-- FMT_INSERT ec, mask (R318). -/
def execFmtInsert (ec mask : BitVec 3) (s : State) : Host.Outcome State Fault Refusal :=
  finish (ruleFmtInsert ec mask) s

end Sys2Proof.Machine
end

