-- ==== Sys2Proof/Machine/Mask.lean ====
section
/-! DEFINITION. The mask predicates (45_mask.md R280, R281), the candidate matrix (R282), the four penalty rules (R283 to
R287), the selection (R289), and MASK_SCORE (R290) and MASK_SELECT (R291). -/
namespace Sys2Proof.Machine

/-- MASK_m(i, j) (R280). -/
def maskBit (m i j : Nat) : Bool :=
  match m with
  | 0 => (i + j) % 2 == 0
  | 1 => i % 2 == 0
  | 2 => j % 3 == 0
  | 3 => (i + j) % 3 == 0
  | 4 => (i / 2 + j / 3) % 2 == 0
  | 5 => i * j % 2 + i * j % 3 == 0
  | 6 => (i * j % 2 + i * j % 3) % 2 == 0
  | _ => ((i + j) % 2 + i * j % 3) % 2 == 0

/-- The colour of cell (r, c) in the scoring view SV_m (R282); `dark` is DARK_MODULE_SCORED_AS. -/
def scoredColour (dark : Bool) (v m r c : Nat) (cell : Module) : Bool :=
  if !cell.f then cell.v ^^ maskBit m r c
  else if cell.p then false
  else if (r, c) = darkModule v then dark
  else cell.v

/-- SV_m, the candidate matrix (R282). -/
def scoringView (dark : Bool) (v m : Nat) (rows : List (List Module)) : List (List Bool) :=
  rows.zipIdx.map fun row => row.1.zipIdx.map fun cell => scoredColour dark v m row.2 cell.2 cell.1

/-- The columns of a grid of `n` columns, as lines. -/
def columns (n : Nat) (g : List (List Bool)) : List (List Bool) :=
  g.foldr (fun row acc => List.zipWith List.cons row acc) (List.replicate n [])

/-- The lengths of the maximal runs of equal colour in a line (R283). -/
def runLengths : List Bool → List (Bool × Nat)
  | [] => []
  | b :: rest =>
    match runLengths rest with
    | [] => [(b, 1)]
    | (k, n) :: runs => if k = b then (k, n + 1) :: runs else (b, 1) :: (k, n) :: runs

/-- What a run of length `n` adds (R283). -/
def runPenalty (n : Nat) : Nat := if n ≥ 5 then 3 + (n - 5) else 0

/-- Rule (a) of one line (R283). -/
def linePenalty (line : List Bool) : Nat := ((runLengths line).map fun run => runPenalty run.2).sum

/-- PEN1 of a grid of side `n` (R283). -/
def penalty1 (n : Nat) (g : List (List Bool)) : Nat :=
  (g.map linePenalty).sum + ((columns n g).map linePenalty).sum

/-- The 2x2 windows of two adjacent rows whose four cells are equal (R284). -/
def equalWindows : List Bool → List Bool → Nat
  | a :: b :: top, c :: d :: bottom =>
    (if a = b ∧ a = c ∧ a = d then 1 else 0) + equalWindows (b :: top) (d :: bottom)
  | _, _ => 0

/-- The number of equal 2x2 windows of a grid (R284). -/
def countBlocks : List (List Bool) → Nat
  | top :: bottom :: rest => equalWindows top bottom + countBlocks (bottom :: rest)
  | _ => 0

/-- PEN2 (R284). -/
def penalty2 (g : List (List Bool)) : Nat := 3 * countBlocks g

/-- `10111010000`, Dark as true (R285). -/
def finderLike : List Bool := [true, false, true, true, true, false, true, false, false, false, false]

/-- The 11-cell windows of a line equal to the finder-like pattern or to its reverse `00001011101` (R285). -/
def countFinderLike : List Bool → Nat
  | [] => 0
  | b :: rest =>
    let window := (b :: rest).take 11
    (if window = finderLike ∨ window = finderLike.reverse then 1 else 0) + countFinderLike rest

/-- PEN3 of a grid of side `n` (R285). -/
def penalty3 (n : Nat) (g : List (List Bool)) : Nat :=
  40 * ((g.map countFinderLike).sum + ((columns n g).map countFinderLike).sum)

/-- The number of Dark cells of a grid (R286). -/
def darkCount (g : List (List Bool)) : Nat := (g.map fun row => row.count true).sum

/-- PEN4 of a grid of side `n`, in exact integers (R286). -/
def penalty4 (n : Nat) (g : List (List Bool)) : Nat :=
  10 * (distance (100 * darkCount g) (50 * (n * n)) / (5 * (n * n)))

/-- TOTAL of a grid of side `n` (R287). -/
def totalPenalty (n : Nat) (g : List (List Bool)) : Nat := penalty1 n g + penalty2 g + penalty3 n g + penalty4 n g

/-- The candidate matrix of mask `m` on the present WMAT (R282). -/
def State.candidate (s : State) (v m : Nat) : List (List Bool) :=
  scoringView Config.darkModuleScoredAs v m (s.symbolRows (side v))

/-- MASK_SCORE's rule (R290). -/
def ruleMaskScore (mask : BitVec 3) : Rule := fun s => do
  let v ← operandMatrix s
  let g := s.candidate v mask.toNat
  let n := side v
  .ok { s with
    pen := ⟨BitVec.ofNat 32 (penalty1 n g), BitVec.ofNat 32 (penalty2 g), BitVec.ofNat 32 (penalty3 n g),
      BitVec.ofNat 32 (penalty4 n g), BitVec.ofNat 32 (totalPenalty n g)⟩ }

/-- MASK_SCORE mask (R290). -/
def execMaskScore (mask : BitVec 3) (s : State) : Host.Outcome State Fault Refusal := finish (ruleMaskScore mask) s

/-- The selected mask: ascending ids, strict-less update, so the lowest id wins a tie (R289). -/
def selectMask (total : Nat → Nat) : Nat :=
  [1, 2, 3, 4, 5, 6, 7].foldl (fun best m => if total m < total best then m else best) 0

/-- Apply mask `m` to the data cells of the symbol of side `n` (R281, R291): F and P unchanged. -/
def State.applyMask (m n : Nat) (s : State) : State :=
  s.mapCells fun r c cell =>
    if r < n ∧ c < n ∧ !cell.f then { cell with v := cell.v ^^ maskBit m r c } else cell

/-- MASK_SELECT's rule (R291). -/
def ruleMaskSelect : Rule := fun s => do
  let v ← operandMatrix s
  if s.matMeta.mmasked then raise .state 2
  else
    let totals := (List.range 8).map fun m => totalPenalty (side v) (s.candidate v m)
    let total := fun m => totals.getD m 0
    let best := selectMask total
    .ok { s.applyMask best (side v) with
      maskPen := Vector.ofFn fun m => BitVec.ofNat 32 (total m.val)
      matMeta := { s.matMeta with mmask := BitVec.ofNat 3 best, mmasked := true }
      result := BitVec.ofNat 32 best }

/-- MASK_SELECT (R291). -/
def execMaskSelect (s : State) : Host.Outcome State Fault Refusal := finish ruleMaskSelect s

end Sys2Proof.Machine
end

