-- ==== Sys2Proof/Machine/Gf.lean ====
section
/-! DEFINITION. GF(256) arithmetic and generator polynomials (41_gf256.md R160 to R167), and the commands GF_MUL, GF_EXP,
GF_LOG and GF_GENPOLY (R168 to R171). -/
namespace Sys2Proof.Machine

/-- Multiplication by x modulo the field polynomial 0x11D, on a 9-bit intermediate (R161). -/
def gfDouble (r : Byte) : Byte :=
  let t : BitVec 9 := r.setWidth 9 <<< 1
  (if t.getLsbD 8 then t ^^^ 0x11D#9 else t).setWidth 8

/-- `a ⊗ b`, bit-serially from bit 7 of `b` down (R161). -/
def gfMul (a b : Byte) : Byte :=
  [7, 6, 5, 4, 3, 2, 1, 0].foldl (fun r i => if b.getLsbD i then gfDouble r ^^^ a else gfDouble r) 0

/-- `α^i` with α = 0x02 (R162). -/
def gfExp : Nat → Byte
  | 0 => 0x01
  | i + 1 => gfDouble (gfExp i)

/-- The search for `LOG[a]`: `x` is `EXP[i]`, and the exponents i, i+1, … are tried. -/
def gfLogFrom (a x : Byte) (i : Nat) : Nat → Nat
  | 0 => i
  | fuel + 1 => if x = a then i else gfLogFrom a (gfDouble x) (i + 1) fuel

/-- `LOG[a]` for a ≠ 0: the i in 0 to 254 with `EXP[i] = a` (R162). -/
def gfLog (a : Byte) : Nat := gfLogFrom a 0x01 0 254

/-- The product of a polynomial, coefficients highest degree first, with `x ⊕ c`. -/
def polyMulLinear (g : List Byte) (c : Byte) : List Byte :=
  List.zipWith (· ^^^ ·) (g ++ [0]) (0 :: g.map fun a => gfMul a c)

/-- The generator polynomial `g_e`, coefficients highest degree first (R167). -/
def genPoly : Nat → List Byte
  | 0 => [0x01]
  | e + 1 => polyMulLinear (genPoly e) (gfExp e)

/-- GF_MUL's rule (R168). -/
def ruleGfMul (a b : Byte) : Rule := fun s => .ok { s with result := (gfMul a b).setWidth 32 }

/-- GF_MUL a, b (R168). -/
def execGfMul (a b : Byte) (s : State) : Host.Outcome State Fault Refusal := finish (ruleGfMul a b) s

/-- GF_EXP's rule (R169): the exponent is taken modulo 255. -/
def ruleGfExp (a : Byte) : Rule := fun s => .ok { s with result := (gfExp (a.toNat % 255)).setWidth 32 }

/-- GF_EXP a (R169). -/
def execGfExp (a : Byte) (s : State) : Host.Outcome State Fault Refusal := finish (ruleGfExp a) s

/-- GF_LOG's rule (R170): the logarithm of 0 does not exist. -/
def ruleGfLog (a : Byte) : Rule := fun s =>
  if a = 0 then raise .gfDomain 0 else .ok { s with result := BitVec.ofNat 32 (gfLog a) }

/-- GF_LOG a (R170). -/
def execGfLog (a : Byte) (s : State) : Host.Outcome State Fault Refusal := finish (ruleGfLog a) s

/-- GF_GENPOLY's rule (R171). -/
def ruleGfGenpoly (e : BitVec 6) : Rule := fun s => do
  let n ← operandEcCount e
  let dst ← operandRange s.arg1 (n + 1) Config.cwbufBytes 2
  .ok (s.writeBytes .cwbuf dst (genPoly n))

/-- GF_GENPOLY e (R171). -/
def execGfGenpoly (e : BitVec 6) (s : State) : Host.Outcome State Fault Refusal := finish (ruleGfGenpoly e) s

end Sys2Proof.Machine
end

