-- ==== Sys2Proof/Machine/ReedSolomon.lean ====
section
/-! DEFINITION. The Reed-Solomon encoder and the block interleaver (42_reed_solomon.md R180 to R188): RS_ENC and
ECC_INTERLEAVE. -/
namespace Sys2Proof.Machine

/-- One step of the long division (R181): `g` holds the generator's coefficients after the leading 1, `r` the shift
register, `d` the next data codeword. -/
def rsStep (g r : List Byte) (d : Byte) : List Byte :=
  let f := d ^^^ r.headD 0
  List.zipWith (fun rj gj => rj ^^^ gfMul gj f) (r.tail ++ [0]) g

/-- `RS(d, e)`: the e EC codewords of the data codewords `d` (R180, R181). -/
def rsEncode (d : List Byte) (e : Nat) : List Byte :=
  d.foldl (rsStep (genPoly e).tail) (List.replicate e 0)

/-- RS_ENC's rule (R182): every read comes before any write. -/
def ruleRsEnc (n : Byte) (e : BitVec 6) : Rule := fun s => do
  let ecs ← operandEcCount e
  let src ← operandRange s.arg0 n.toNat Config.cwbufBytes 1
  let dst ← operandRange s.arg1 ecs Config.cwbufBytes 2
  .ok (s.writeBytes .cwbuf dst (rsEncode (s.readBytes .cwbuf src n.toNat) ecs))

/-- RS_ENC n, e (R182). -/
def execRsEnc (n : Byte) (e : BitVec 6) (s : State) : Host.Outcome State Fault Refusal := finish (ruleRsEnc n e) s

/-- The data sizes of the blocks, short blocks first (40_capacity.md R144, R183). -/
def blockSizes (v : Nat) (l : EcLevel) : List Nat :=
  List.replicate (shortBlocks v l) (shortData v l) ++ List.replicate (longBlocks v l) (shortData v l + 1)

/-- Split the data codewords in order into blocks of the given sizes (R183). -/
def splitBlocks : List Nat → List Byte → List (List Byte)
  | [], _ => []
  | n :: sizes, dc => dc.take n :: splitBlocks sizes (dc.drop n)

/-- Codeword i of every block that has one, for i from 0 to `n - 1` (R185, R186). -/
def roundRobin (n : Nat) (blocks : List (List Byte)) : List Byte :=
  (List.range n).flatMap fun i => blocks.filterMap fun block => block[i]?

/-- The final codeword stream of the data codewords `dc` (R183 to R186). -/
def finalStream (v : Nat) (l : EcLevel) (dc : List Byte) : List Byte :=
  let blocks := splitBlocks (blockSizes v l) dc
  let ecBlocks := blocks.map fun block => rsEncode block (ecCount v l)
  roundRobin (shortData v l + 1) blocks ++ roundRobin (ecCount v l) ecBlocks

/-- ECC_INTERLEAVE's rule (R187): it reads whatever CWBUF holds. -/
def ruleEccInterleave (ver : BitVec 6) (ec : BitVec 3) : Rule := fun s => do
  let v ← operandVersion ver
  let l ← operandEc ec
  .ok (s.writeBytes .final 0 (finalStream v l (s.readBytes .cwbuf 0 (dataCodewords v l))))

/-- ECC_INTERLEAVE ver, ec (R187). -/
def execEccInterleave (ver : BitVec 6) (ec : BitVec 3) (s : State) : Host.Outcome State Fault Refusal :=
  finish (ruleEccInterleave ver ec) s

end Sys2Proof.Machine
end

