-- ==== Sys2Proof/Machine/Build.lean ====
section
/-! DEFINITION. NOP (47_build.md R330) and BUILD: its stages and its commit (R331 to R334). -/
namespace Sys2Proof.Machine

/-- NOP's rule (R330). -/
def ruleNop : Rule := fun s => .ok s

/-- NOP (R330). -/
def execNop (s : State) : Host.Outcome State Fault Refusal := finish ruleNop s

/-- The stages of BUILD (R332): each is the named command's rule, on the state the previous stage left. v is
STREAMMETA.SVER, the version stage 1 selected. -/
def buildStages (ver : BitVec 6) (ec : BitVec 3) : List Rule :=
  [ ruleBitstream ver ec,
    fun s => ruleEccInterleave s.streamMeta.sver ec s,
    fun s => ruleMatrixInit s.streamMeta.sver s,
    rulePlace,
    ruleMaskSelect,
    fun s => ruleFmtInsert ec s.matMeta.mmask s ]

/-- Run stages in order; a failing stage ends the run with the state the completed stages left (R333). -/
def runStages : List Rule → State → Except (CmdError × State) State
  | [], s => .ok s
  | stage :: rest, s =>
    match stage s with
    | .ok t => runStages rest t
    | .error e => .error (e, s)

/-- The commit of R334, and BUILD's own result (R331). -/
def State.commit (ec : BitVec 3) (s : State) : State :=
  let v := s.streamMeta.sver
  { s.commitCells with
    outMeta := ⟨v, ec, s.matMeta.mmask, BitVec.ofNat 8 (side v.toNat), true⟩
    result := v.setWidth 32 }

/-- BUILD ver, ec (R331): its checks, the stages, the commit. An error ends it with what R333 leaves. -/
def execBuild (ver : BitVec 6) (ec : BitVec 3) (s : State) : Host.Outcome State Fault Refusal :=
  match operandVersionOrAuto ver, operandEc ec with
  | .error e, _ => .next (s.raiseError e)
  | .ok _, .error e => .next (s.raiseError e)
  | .ok _, .ok _ =>
    match runStages (buildStages ver ec) s with
    | .ok t => .next (t.commit ec).complete
    | .error (e, t) => .next (t.raiseError e)

end Sys2Proof.Machine
end

