-- ==== Sys2Proof/Machine/Dispatch.lean ====
section
/-! DEFINITION. One arm per constructor of Instr: the meaning each command runs at its completion step. -/
namespace Sys2Proof.Machine

def exec (i : Instr) (s : State) : Host.Outcome State Fault Refusal :=
  match i with
  | .nop => Sys2Proof.Machine.execNop s
  | .clear => Sys2Proof.Machine.execClear s
  | .append mode => Sys2Proof.Machine.execAppend mode s
  | .capq ver ec => Sys2Proof.Machine.execCapq ver ec s
  | .gfMul a b => Sys2Proof.Machine.execGfMul a b s
  | .gfExp a => Sys2Proof.Machine.execGfExp a s
  | .gfLog a => Sys2Proof.Machine.execGfLog a s
  | .gfGenpoly e => Sys2Proof.Machine.execGfGenpoly e s
  | .rsEnc n e => Sys2Proof.Machine.execRsEnc n e s
  | .eccInterleave ver ec => Sys2Proof.Machine.execEccInterleave ver ec s
  | .bitstream ver ec => Sys2Proof.Machine.execBitstream ver ec s
  | .matrixInit ver => Sys2Proof.Machine.execMatrixInit ver s
  | .place => Sys2Proof.Machine.execPlace s
  | .maskScore mask => Sys2Proof.Machine.execMaskScore mask s
  | .maskSelect => Sys2Proof.Machine.execMaskSelect s
  | .fmtCalc ec mask => Sys2Proof.Machine.execFmtCalc ec mask s
  | .verCalc ver => Sys2Proof.Machine.execVerCalc ver s
  | .fmtInsert ec mask => Sys2Proof.Machine.execFmtInsert ec mask s
  | .build ver ec => Sys2Proof.Machine.execBuild ver ec s

end Sys2Proof.Machine
end

