-- ==== Sys2Proof/Machine/Turn.lean ====
section
/-! DEFINITION. Whose turn it is: the core's completion step, the host's access, the reset pin, in the order of the
agenda (20_memory.md R94, log entry 1). -/
namespace Sys2Proof.Machine

/-- The error a command word ends with when it selects no command (30_encoding.md R118). -/
def illegalCommand : DecodeError → CmdError
  | .unknownOp => ⟨.illegalCmd, 0⟩
  | .reservedBit => ⟨.illegalCmd, 1⟩

/-- The core's turn (10_state.md R31): complete the pending command by the rule it decodes to. An idle core does nothing
(60_exceptions.md R369). -/
def coreTurn (s : State) : Host.Outcome State Fault Refusal :=
  match s.pending with
  | none => .next s
  | some w =>
    match decode w with
    | .error e => .next (s.raiseError (illegalCommand e))
    | .ok i => exec i s

/-- One step: the first move of the agenda; with an empty agenda the core moves, so a command always completes
(70_reset_and_hazards.md R420). -/
def takeTurn (s : State) : Host.Outcome State Fault Refusal :=
  match s.agenda with
  | [] => coreTurn s
  | .core :: rest => coreTurn { s with agenda := rest }
  | .host a :: rest => .next (State.hostAccess a { s with agenda := rest })
  | .hardReset :: rest => .next (State.applyReset { s with agenda := rest })

/-- The state right after the accept of `w` (10_state.md R31), with the core to move next. -/
def State.issue (w : Word) (s : State) : State :=
  { s.accept w with agenda := .core :: s.agenda }

end Sys2Proof.Machine
end

