-- ==== Sys2Proof/Machine/Step.lean ====
section
/-! DEFINITION. The step of the machine, and how the host's checks place a command word. -/
namespace Sys2Proof.Machine

/-- One step of the machine: one move of the total order of host accesses, completions and resets (20_memory.md R94). -/
def step (s : State) : Host.Outcome State Fault Refusal := takeTurn s

/-- The state in which the next step completes the command whose word is the low `nbits` bits of `w`: that word has been
accepted and the core moves next (log entry 2). -/
def State.withFetchWord (s : State) (nbits w : Nat) : State := s.issue (tableWord nbits w)

end Sys2Proof.Machine
end

