-- ==== Sys2Proof/WellFormed.lean ====
section
/-! DEFINITION. Which operand values are legal (30_encoding.md R121). An instruction with an illegal one still decodes
and encodes; it ends with ERR_CONFIG (60_exceptions.md R354). -/
namespace Sys2Proof

/-- VER of a command that needs a fixed version: 1 to 40 (30_encoding.md R115). -/
def wfVersion (ver : BitVec 6) : Bool := 1 ≤ ver.toNat && ver.toNat ≤ 40

/-- VER where AUTO (0) is allowed: 0 to 40 (R115). -/
def wfVersionOrAuto (ver : BitVec 6) : Bool := ver.toNat ≤ 40

/-- VER of VER_CALC: 7 to 40 (46_fmtver.md R317). -/
def wfVersionWord (ver : BitVec 6) : Bool := 7 ≤ ver.toNat && ver.toNat ≤ 40

/-- EC: 0 L, 1 M, 2 Q, 3 H (R115). -/
def wfEc (ec : BitVec 3) : Bool := ec.toNat ≤ 3

/-- E: 1 to 30 (R114). -/
def wfEcCount (e : BitVec 6) : Bool := 1 ≤ e.toNat && e.toNat ≤ 30

/-- MODE: 0 AUTO to 4 KANJI (R112). -/
def wfMode (mode : BitVec 3) : Bool := mode.toNat ≤ 4

/-- Every operand field holds a legal value for its command (R121). -/
def Instr.wf : Instr → Bool
  | .nop => true
  | .clear => true
  | .append mode => wfMode mode
  | .capq ver ec => wfVersion ver && wfEc ec
  | .gfMul _ _ => true
  | .gfExp _ => true
  | .gfLog _ => true
  | .gfGenpoly e => wfEcCount e
  | .rsEnc _ e => wfEcCount e
  | .eccInterleave ver ec => wfVersion ver && wfEc ec
  | .bitstream ver ec => wfVersionOrAuto ver && wfEc ec
  | .matrixInit ver => wfVersion ver
  | .place => true
  | .maskScore _ => true
  | .maskSelect => true
  | .fmtCalc ec _ => wfEc ec
  | .verCalc ver => wfVersionWord ver
  | .fmtInsert ec _ => wfEc ec
  | .build ver ec => wfVersionOrAuto ver && wfEc ec

end Sys2Proof
end

