-- ==== Sys2Proof/Safety.lean ====
section
/-! DEFINITION. What a state must satisfy in every run (`Inv`), which states a run reaches, and the words the statements
about the machine are written with. -/
namespace Sys2Proof.Machine
open Sys2Proof.Config (ByteMem MatMem)

/-! ### The invariant -/

/-- The six memories are in canonical form: indexes rising and inside the memory (10_state.md R52 to R61). -/
structure MemoriesWf (s : State) : Prop where
  bytes : ∀ b, Memory.wf b.size (s.bytes b)
  matrix : ∀ mm, Memory.wf Config.matCells (s.mat mm)

/-- The segment table and SEGDATA fit their stores, and every segment lies below SEGUSED with the character count of its
mode (R44, R53, R54, 43_bitstream.md R205, R212). -/
structure SegmentsWf (s : State) : Prop where
  count : s.segtab.length ≤ Config.maxSegments
  used : s.segused.toNat ≤ Config.segdataBytes
  inside : ∀ e ∈ s.segtab, e.off.toNat + e.nbytes.toNat ≤ s.segused.toNat
  nonempty : ∀ e ∈ s.segtab, 0 < e.nbytes.toNat
  chars : ∀ e ∈ s.segtab, e.nbytes.toNat = if e.mode = .kanji then 2 * e.nchars.toNat else e.nchars.toNat

/-- The lifecycle flags agree (R31, R38, R39, R41, R64): a busy core has accepted LASTCMD with a clean STATUS and is not
fatal; DONE and ERR are not both 1; ERRCODE is 0 exactly while ERR is 0, and at most 9. -/
structure LifecycleWf (s : State) : Prop where
  busy : ∀ w, s.pending = some w →
    w = s.lastcmd ∧ s.status.done = false ∧ s.status.err = false ∧ s.status.fatal = false ∧ s.errinfo = 0
  oneEnd : ¬ (s.status.done = true ∧ s.status.err = true)
  code : s.status.err = false ↔ s.status.errcode = 0
  codeMax : s.status.errcode.toNat ≤ 9

/-- The metadata registers are 0 until the command that writes them succeeds, and hold legal values from then on (R45 to
R47). -/
structure MetadataWf (s : State) : Prop where
  stream : if s.streamMeta.svalid then 1 ≤ s.streamMeta.sver.toNat ∧ s.streamMeta.sver.toNat ≤ 40
      ∧ s.streamMeta.sec.toNat ≤ 3
    else s.streamMeta = ⟨0, 0, false⟩
  matrix : s.matMeta.mver.toNat ≤ 40 ∧ (s.matMeta.mver = 0 → s.matMeta = ⟨0, 0, false, false⟩)
  out : if s.outMeta.valid then 1 ≤ s.outMeta.ver.toNat ∧ s.outMeta.ver.toNat ≤ 40 ∧ s.outMeta.ec.toNat ≤ 3
      ∧ s.outMeta.side.toNat = 4 * s.outMeta.ver.toNat + 17
    else s.outMeta = ⟨0, 0, 0, 0, false⟩

/-- The invariant that every step keeps. -/
structure Inv (s : State) : Prop where
  memories : MemoriesWf s
  segments : SegmentsWf s
  lifecycle : LifecycleWf s
  metadata : MetadataWf s

/-! ### Runs -/

/-- The states a run reaches from reset: by a step, or by the outside world adding moves at the end of the agenda (log
entry 1). -/
inductive Reachable : State → Prop where
  | reset : Reachable State.reset
  | step {s t : State} : Reachable s → step s = .next t → Reachable t
  | offer {s : State} (moves : List Move) : Reachable s → Reachable { s with agenda := s.agenda ++ moves }

/-- The state after `n` steps, if all of them answer a next state. -/
def stepMany : Nat → State → Option State
  | 0, s => some s
  | n + 1, s =>
    match step s with
    | .next t => stepMany n t
    | _ => none

/-- `u` is `s` at the core's turn: the agenda is empty, or the core is its first entry and is taken off. -/
def CoreMoves (s u : State) : Prop :=
  (s.agenda = [] ∧ u = s) ∨ ∃ rest, s.agenda = .core :: rest ∧ u = { s with agenda := rest }

/-- `u` is `s` at the turn of the host, which presents the access `a`. -/
def HostMoves (s : State) (a : Access) (u : State) : Prop :=
  ∃ rest, s.agenda = .host a :: rest ∧ u = { s with agenda := rest }

/-! ### Words of the statements -/

/-- The encoding of one command (30_encoding.md R116, R118): a word whose opcode is `op` and which has no bit of `reserved`
decodes to `instr w`, and the core's turn runs that; one with a reserved bit ends with ERR_ILLEGAL_CMD, ERRINFO 1. -/
def Encoded (op : Byte) (reserved : Word) (instr : Word → Instr) : Prop :=
  ∀ w : Word, w.extractLsb' 0 8 = op →
    (w &&& reserved = 0 → decode w = .ok (instr w) ∧
      ∀ s u : State, CoreMoves s u → s.pending = some w → step s = exec (instr w) u) ∧
    (w &&& reserved ≠ 0 → decode w = .error .reservedBit ∧
      ∀ s u : State, CoreMoves s u → s.pending = some w → step s = .next (u.raiseError ⟨.illegalCmd, 1⟩))

/-- The selector of an EC level (30_encoding.md R115). -/
def EcLevel.selector : EcLevel → BitVec 3
  | .L => 0
  | .M => 1
  | .Q => 2
  | .H => 3

/-- Every byte memory but `b` reads as before. -/
def SameBytesBut (b : ByteMem) (s t : State) : Prop := ∀ d k, d ≠ b → t.readByte d k = s.readByte d k

/-- Every byte of every byte memory reads as before. -/
def SameBytes (s t : State) : Prop := ∀ d k, t.readByte d k = s.readByte d k

/-- Every cell of a matrix reads as before. -/
def SameCells (mm : MatMem) (s t : State) : Prop := ∀ r c, t.readCell mm r c = s.readCell mm r c

/-- The MODE field of a mode hint (30_encoding.md R112). -/
def ModeHint.code : ModeHint → BitVec 3
  | .auto => 0
  | .forced m => m.code

/-- The ERRINFO of ERR_CONFIG for an instruction with an illegal field (60_exceptions.md R351, R354): the version before
the EC level. -/
def configInfo : Instr → Word
  | .capq ver _ => if wfVersion ver then 2 else 1
  | .eccInterleave ver _ => if wfVersion ver then 2 else 1
  | .bitstream ver _ => if wfVersionOrAuto ver then 2 else 1
  | .build ver _ => if wfVersionOrAuto ver then 2 else 1
  | .matrixInit _ => 1
  | .verCalc _ => 1
  | .fmtCalc _ _ => 2
  | .fmtInsert _ _ => 2
  | .gfGenpoly _ => 3
  | .rsEnc _ _ => 3
  | .append _ => 4
  | .nop => 0
  | .clear => 0
  | .gfMul _ _ => 0
  | .gfExp _ => 0
  | .gfLog _ => 0
  | .place => 0
  | .maskScore _ => 0
  | .maskSelect => 0

/-- An address inside a region of the map (20_memory.md R87). -/
def Mapped (addr : Nat) : Prop :=
  addr ≤ 0x000FF ∨ (0x01000 ≤ addr ∧ addr ≤ 0x011FF) ∨ (0x02000 ≤ addr ∧ addr ≤ 0x07FFF) ∨
    (0x10000 ≤ addr ∧ addr ≤ 0x2FFFF)

/-- An access that passes the bus checks: mapped, a legal width, aligned (R81, R83, R84). -/
def LegalAccess (a : Access) : Prop :=
  Mapped a.addr.toNat ∧ a.size ≠ 3 ∧ (a.addr.toNat ≤ 0x000FF → a.size = 2) ∧ a.addr.toNat % 2 ^ a.size.toNat = 0

/-- A soft reset: a host write of 1 to CTRL.SRST (70_reset_and_hazards.md R391). -/
def SoftReset (a : Access) : Prop := a.we = true ∧ a.addr = 0x10 ∧ a.size = 2 ∧ a.wdata.getLsbD 1 = true

/-- The next move of `s` is a reset, by the pin or by CTRL.SRST (R390, R391). -/
def ResetMoves (s : State) : Prop :=
  ∃ rest, s.agenda = .hardReset :: rest ∨ ∃ a, s.agenda = .host a :: rest ∧ SoftReset a

/-- The next move of `s` is the completion of a command that decodes to `i`. -/
def Completes (s : State) (i : Instr) : Prop :=
  (∃ u, CoreMoves s u) ∧ ∃ w, s.pending = some w ∧ decode w = .ok i

/-- Offset `k` of a region lies in the write set that the table of 20_memory.md R95 gives the pending command: what a host
read returns any value for. A pending word that decodes to no command has none (log entry 5). -/
def BusyWrites (s : State) (region : Region) (k : Nat) : Prop :=
  ∃ w i, s.pending = some w ∧ decode w = .ok i ∧
    match i with
    | .nop | .capq _ _ | .gfMul _ _ | .gfExp _ | .gfLog _ | .maskScore _ | .fmtCalc _ _ | .verCalc _ => False
    | .clear => region = .segtab
    | .append _ => region = .segtab ∨ (region = .bytes .segdata ∧ s.segused.toNat ≤ k)
    | .gfGenpoly e => region = .bytes .cwbuf ∧ s.arg1.toNat ≤ k ∧ k ≤ s.arg1.toNat + e.toNat
    | .rsEnc _ e => region = .bytes .cwbuf ∧ s.arg1.toNat ≤ k ∧ k < s.arg1.toNat + e.toNat
    | .eccInterleave _ _ => region = .bytes .final
    | .bitstream _ _ => region = .bytes .cwbuf
    | .matrixInit _ | .place | .maskSelect | .fmtInsert _ _ => region = .matrix .wmat
    | .build _ _ => region = .bytes .cwbuf ∨ region = .bytes .final ∨ region = .matrix .wmat

/-- The `width` bits of a stream from position `pos` on are those of `value`, most-significant first (20_memory.md R93,
43_bitstream.md R209). -/
def FieldAt (x : List Bool) (pos width value : Nat) : Prop :=
  ∀ i < width, x.getD (pos + i) false = value.testBit (width - 1 - i)

/-- The grid of `n` by `n` colours `G r c`, as rows. -/
def gridOf (n : Nat) (G : Nat → Nat → Bool) : List (List Bool) :=
  (List.range n).map fun r => (List.range n).map fun c => G r c

/-- The colour of cell (r, c) of the scoring view SV_m of version `v` (45_mask.md R282, with DARK_MODULE_SCORED_AS DARK,
00_scope.md R13). -/
def candidateColour (s : State) (v m r c : Nat) : Bool :=
  let cell := s.readCell .wmat r c
  if cell.f = false then cell.v != maskBit m r c
  else if cell.p = true then false
  else if (r, c) = (side v - 8, 8) then true
  else cell.v

/-- The five-cell windows of one colour in a line of length `n` (R283). -/
def fiveRuns (n : Nat) (line : Nat → Bool) : Finset Nat :=
  (Finset.range (n - 4)).filter fun k => ∀ j ∈ List.range 4, line (k + j) = line (k + j + 1)

/-- Those of `fiveRuns` that begin a maximal run. -/
def runStarts (n : Nat) (line : Nat → Bool) : Finset Nat :=
  (fiveRuns n line).filter fun k => k = 0 ∨ line (k - 1) ≠ line k

/-- The 11-cell windows of a line equal to `10111010000` or `00001011101` (R285). -/
def finderWindows (n : Nat) (line : Nat → Bool) : Finset Nat :=
  (Finset.range (n - 10)).filter fun k =>
    (List.range 11).map (fun j => line (k + j)) =
        [true, false, true, true, true, false, true, false, false, false, false] ∨
      (List.range 11).map (fun j => line (k + j)) =
        [false, false, false, false, true, false, true, true, true, false, true]

/-- The value of a polynomial, coefficients highest degree first, at `x` (41_gf256.md R160, R161). -/
def polyEval (p : List Byte) (x : Byte) : Byte := p.foldl (fun acc a => gfMul acc x ^^^ a) 0

/-- The index of block `b`'s first data codeword (42_reed_solomon.md R183). -/
def blockOffset (v : Nat) (l : EcLevel) (b : Nat) : Nat := b * shortData v l + (b - shortBlocks v l)

/-- The number of data codewords of block `b` (R183). -/
def blockSize (v : Nat) (l : EcLevel) (b : Nat) : Nat :=
  if b < shortBlocks v l then shortData v l else shortData v l + 1

end Sys2Proof.Machine
end

