-- ==== Sys2Proof/Certificates/Slice0/Obligations.lean ====
section
/-! DEFINITION. The statements about the model, each an `Obligations.<Name> : Prop` listed in OBLIGATIONS.json. -/
open Sys2Proof Sys2Proof.Machine
open Sys2Proof.Config (ByteMem MatMem)

/-! ### Encoding (30_encoding.md) -/

/-- Decoding an encoded instruction gives it back, with every value of every operand field; and a word has at most one
meaning, whose encoding is that word (R111 to R116, R118, R123). -/
def Obligations.DecodeAndEncodeAgree : Prop :=
  (∀ i : Instr, decode (encode i) = .ok i) ∧ ∀ (w : Word) (i : Instr), decode w = .ok i → encode i = w

/-- Words of the spec's examples, one of each format and family (R146, R168, R171, R182, R226, R251, R290, R318, R331). -/
def Obligations.SampleWordsDecode : Prop :=
  decode 0x00000001 = .ok .clear ∧ decode 0x00000302 = .ok (.append 3) ∧ decode 0x00000910 = .ok (.capq 1 1) ∧
    decode 0x00CA5320 = .ok (.gfMul 0x53 0xCA) ∧ decode 0x00020330 = .ok (.rsEnc 3 2) ∧
    decode 0x00000940 = .ok (.bitstream 1 1) ∧ decode 0x00000850 = .ok (.matrixInit 1) ∧
    decode 0x00020060 = .ok (.maskScore 1) ∧ decode 0x00020172 = .ok (.fmtInsert 1 1) ∧
    decode 0x00000980 = .ok (.build 1 1) ∧ decode 0x00010000 = .error .reservedBit ∧
    decode 0x00000003 = .error .unknownOp

/-- R120: the illegal OP values are exactly those the rule lists, and a command with one ends with ERR_ILLEGAL_CMD and
ERRINFO 0 and changes nothing else. -/
def Obligations.IllegalOpcodeEndsWithError : Prop :=
  ∀ w : Word,
    let op := w.toNat % 256
    let illegal := (0x03 ≤ op ∧ op ≤ 0x0F) ∨ (0x11 ≤ op ∧ op ≤ 0x1F) ∨ (0x24 ≤ op ∧ op ≤ 0x2F) ∨
      (0x32 ≤ op ∧ op ≤ 0x3F) ∨ (0x41 ≤ op ∧ op ≤ 0x4F) ∨ (0x52 ≤ op ∧ op ≤ 0x5F) ∨ (0x62 ≤ op ∧ op ≤ 0x6F) ∨
      (0x73 ≤ op ∧ op ≤ 0x7F) ∨ (0x81 ≤ op ∧ op ≤ 0xFF)
    (decode w = .error .unknownOp ↔ illegal) ∧
      ∀ s u : State, CoreMoves s u → s.pending = some w → illegal →
        step s = .next { u with
          pending := none
          status := { u.status with err := true, errcode := 0x01 }
          errinfo := 0 }

/-- R121: an instruction whose operand field is not legal ends with ERR_CONFIG, its ERRINFO naming the first bad field in
the order version 1, EC 2, E 3, MODE 4; one whose fields are all legal never ends with ERR_CONFIG. -/
def Obligations.IllegalFieldEndsWithConfigError : Prop :=
  ∀ (i : Instr) (s : State),
    (i.wf = false → exec i s = .next (s.raiseError ⟨.config, configInfo i⟩)) ∧
      (i.wf = true → ∀ t, exec i s = .next t → t.status.err = true → s.status.err = false → t.status.errcode ≠ 0x02)

/-! ### The command lifecycle (10_state.md R31, 60_exceptions.md) -/

/-- At the core's turn a step runs the instruction the pending word decodes to; a word that decodes to none ends with
ERR_ILLEGAL_CMD, ERRINFO 0 or 1; an idle core changes nothing (R31, R118, R369). -/
def Obligations.StepRunsDecodedInstruction : Prop :=
  ∀ s u : State, CoreMoves s u →
    (s.pending = none → step s = .next u) ∧
      ∀ w, s.pending = some w →
        (∀ i, decode w = .ok i → step s = exec i u) ∧
          (decode w = .error .unknownOp → step s = .next (u.raiseError ⟨.illegalCmd, 0⟩)) ∧
          (decode w = .error .reservedBit → step s = .next (u.raiseError ⟨.illegalCmd, 1⟩))

/-- R31: a CMD write in the idle state performs the accept's writes and no other; the completion step leaves BUSY 0 and
exactly one of DONE and ERR; a CMD write while BUSY or FATAL is not accepted. The host port's own outputs apart. -/
def Obligations.CommandLifecycle : Prop :=
  ∀ (s u : State),
    (∀ w, HostMoves s ⟨true, 0x04, 2, w⟩ u →
      (u.pending = none ∧ u.status.fatal = false →
        ∃ d, step s = .next { u with
          lastcmd := w
          status := { u.status with done := false, err := false, errcode := 0 }
          errinfo := 0
          pending := some w
          reply := ⟨true, false, d⟩ }) ∧
      (u.pending ≠ none ∨ u.status.fatal = true →
        ∃ d, step s = .next { u with
          status := { u.status with werr := true }
          reply := ⟨true, false, d⟩ })) ∧
    (Inv s → CoreMoves s u → s.pending ≠ none →
      ∃ t, step s = .next t ∧ t.pending = none ∧ (t.status.done = true ↔ t.status.err = false))

/-- R352 and R353, with the nine codes of R350: a command that raises an error writes BUSY 0, ERR 1, its code, its ERRINFO,
FATAL for ERR_INTERNAL, and nothing else; this holds of BUILD too (R333), and of a word that decodes to no command. Every
other command ends with DONE. -/
def Obligations.NoPartialEffects : Prop :=
  (∀ (i : Instr) (s : State),
    (∃ e : CmdError, exec i s = .next { s with
      pending := none
      status := { s.status with
        err := true
        errcode := e.code.value
        fatal := s.status.fatal || e.code.value == 0x08 }
      errinfo := e.info }) ∨
      ∃ t, exec i s = .next t ∧ t.pending = none ∧ t.status = { s.status with done := true } ∧ t.errinfo = s.errinfo) ∧
    (∀ (s u : State) (w : Word) (e : DecodeError), CoreMoves s u → s.pending = some w → decode w = .error e →
      step s = .next { u with
        pending := none
        status := { u.status with err := true, errcode := 0x01 }
        errinfo := if e = .unknownOp then 0 else 1 }) ∧
    [ErrCode.illegalCmd, .config, .overflow, .invalidChar, .segFull, .range, .gfDomain, .internal, .state].map
      ErrCode.value = [0x01, 0x02, 0x03, 0x04, 0x05, 0x06, 0x07, 0x08, 0x09]

/-- R355: the errors each command can raise, with their ERRINFO where R351 fixes it. -/
def Obligations.PossibleErrors : Prop :=
  ∀ (i : Instr) (s : State) (e : CmdError), s.status.err = false → exec i s = .next (s.raiseError e) →
    match i with
    | .nop => False
    | .clear => False
    | .append _ => e ∈ [⟨.config, 4⟩, ⟨.range, 1⟩, ⟨.segFull, 1⟩, ⟨.segFull, 2⟩] ∨ e.code = .invalidChar
    | .capq _ _ => e ∈ [⟨.config, 1⟩, ⟨.config, 2⟩]
    | .gfMul _ _ => False
    | .gfExp _ => False
    | .gfLog _ => e = ⟨.gfDomain, 0⟩
    | .gfGenpoly _ => e ∈ [⟨.config, 3⟩, ⟨.range, 2⟩]
    | .rsEnc _ _ => e ∈ [⟨.config, 3⟩, ⟨.range, 1⟩, ⟨.range, 2⟩]
    | .eccInterleave _ _ => e ∈ [⟨.config, 1⟩, ⟨.config, 2⟩]
    | .bitstream _ _ => e ∈ [⟨.config, 1⟩, ⟨.config, 2⟩] ∨ e.code = .overflow
    | .matrixInit _ => e = ⟨.config, 1⟩
    | .place => e = ⟨.state, 1⟩ ∨ e.code = .internal
    | .maskScore _ => e = ⟨.state, 1⟩
    | .maskSelect => e ∈ [⟨.state, 1⟩, ⟨.state, 2⟩]
    | .fmtCalc _ _ => e = ⟨.config, 2⟩
    | .verCalc _ => e = ⟨.config, 1⟩
    | .fmtInsert _ _ => e ∈ [⟨.config, 2⟩, ⟨.state, 1⟩]
    | .build _ _ => e ∈ [⟨.config, 1⟩, ⟨.config, 2⟩] ∨ e.code = .overflow

/-- R360: the interrupt line, and that it is asserted right after a completion exactly when IE is set. -/
def Obligations.InterruptLine : Prop :=
  (∀ s : State, s.irq = (s.ctrl.ie && (s.status.done || s.status.err))) ∧
    ∀ s u t : State, Inv s → CoreMoves s u → s.pending ≠ none → step s = .next t → t.irq = s.ctrl.ie

/-! ### Control and segment commands -/

/-- R330: NOP. -/
def Obligations.NopCommand : Prop :=
  Encoded 0x00 0xFFFFFF00 (fun _ => .nop) ∧ ∀ s : State, exec .nop s = .next s.complete

/-- R213: CLEAR empties the segment list, and every SEGTAB byte reads 0 afterwards. -/
def Obligations.ClearCommand : Prop :=
  Encoded 0x01 0xFFFFFF00 (fun _ => .clear) ∧
    ∀ s : State, ∃ t, exec .clear s = .next t ∧ t = { s with segtab := [], segused := 0 }.complete ∧
      t.segcountWord = 0 ∧ ∀ k, t.segtabByte k = 0

/-- R214 with R212: APPEND's checks in their order, and what a successful one stores. The pieces are `splitChunk`'s, which
`SplitChunkPieces` and `AutoSplitRules` describe. -/
def Obligations.AppendCommand : Prop :=
  Encoded 0x02 0xFFFFF800 (fun w => .append (w.extractLsb' 8 3)) ∧
    ∀ (s : State) (mode : BitVec 3), Inv s →
      let off := s.arg0.toNat
      let n := s.arg1.toNat
      let chunk := (List.range n).map fun k => s.readByte .ibuf (off + k)
      let used := s.segused.toNat
      (mode.toNat > 4 → exec (.append mode) s = .next (s.raiseError ⟨.config, 4⟩)) ∧
      (mode.toNat ≤ 4 → off + n > 8192 → exec (.append mode) s = .next (s.raiseError ⟨.range, 1⟩)) ∧
      (mode.toNat ≤ 4 → off + n ≤ 8192 → n = 0 → exec (.append mode) s = .next s.complete) ∧
      (off + n ≤ 8192 → n ≠ 0 → ∀ hint : ModeHint, hint.code = mode →
        (∀ p, splitChunk hint s.ctrl.minrun.toNat chunk = .error p →
          p < 2 ^ 16 ∧
          exec (.append mode) s = .next (s.raiseError ⟨.invalidChar, BitVec.ofNat 32 (p * 2 ^ 16 + s.nseg)⟩)) ∧
        (∀ pieces, splitChunk hint s.ctrl.minrun.toNat chunk = .ok pieces →
          (s.nseg + pieces.length > 64 → exec (.append mode) s = .next (s.raiseError ⟨.segFull, 1⟩)) ∧
          (s.nseg + pieces.length ≤ 64 → used + n > 8192 →
            exec (.append mode) s = .next (s.raiseError ⟨.segFull, 2⟩)) ∧
          (s.nseg + pieces.length ≤ 64 → used + n ≤ 8192 →
            ∃ t, exec (.append mode) s = .next t ∧
              { t with segdata := s.segdata } =
                { s with
                  segtab := s.segtab ++ pieces.map fun (p : Piece) => ({
                    mode := p.mode
                    nchars := BitVec.ofNat 16 (if p.mode = SegMode.kanji then p.len / 2 else p.len)
                    off := BitVec.ofNat 16 (used + p.start)
                    nbytes := BitVec.ofNat 16 p.len } : Segment)
                  segused := BitVec.ofNat 16 (used + n) }.complete ∧
              SameBytesBut .segdata s t ∧
              (∀ k, k < n → t.readByte .segdata (used + k) = s.readByte .ibuf (off + k)) ∧
              (∀ k, (k < used ∨ used + n ≤ k) → t.readByte .segdata k = s.readByte .segdata k) ∧
              SameCells .wmat s t ∧ SameCells .cmat s t)))

/-- R210: the pieces of a chunk are not empty, cover it in order with no gap, and every byte is valid for its piece's
mode; a forced mode gives one piece or the position of the first violation; AUTO never fails and gives no Kanji piece. -/
def Obligations.SplitChunkPieces : Prop :=
  ∀ (minrun : Nat) (c : List Byte), c ≠ [] →
    (∀ (hint : ModeHint) (pieces : List Piece), splitChunk hint minrun c = .ok pieces →
      (pieces.flatMap fun p => (c.drop p.start).take p.len) = c ∧
      (∀ k (h : k < pieces.length), (pieces[k]).start = ((pieces.take k).map Piece.len).sum ∧ 0 < (pieces[k]).len) ∧
      ∀ p ∈ pieces, ∀ k, k < p.len →
        (p.mode = .numeric → isNumeric (c.getD (p.start + k) 0) = true) ∧
        (p.mode = .alphanumeric → isAlphanumeric (c.getD (p.start + k) 0) = true) ∧
        (p.mode = .kanji → p.len % 2 = 0 ∧
          (k % 2 = 0 → isKanji (c.getD (p.start + k) 0) (c.getD (p.start + k + 1) 0) = true))) ∧
    (∃ pieces, splitChunk .auto minrun c = .ok pieces ∧ ∀ p ∈ pieces, p.mode ≠ .kanji) ∧
    (∀ m pieces, splitChunk (.forced m) minrun c = .ok pieces → pieces = [⟨m, 0, c.length⟩]) ∧
    splitChunk (.forced .byte) minrun c = .ok [⟨.byte, 0, c.length⟩] ∧
    (∀ p, splitChunk (.forced .numeric) minrun c = .error p ↔
      p < c.length ∧ isNumeric (c.getD p 0) = false ∧ ∀ k < p, isNumeric (c.getD k 0) = true) ∧
    (∀ p, splitChunk (.forced .alphanumeric) minrun c = .error p ↔
      p < c.length ∧ isAlphanumeric (c.getD p 0) = false ∧ ∀ k < p, isAlphanumeric (c.getD k 0) = true) ∧
    (∀ p, splitChunk (.forced .kanji) minrun c = .error p ↔
      p < c.length ∧ p % 2 = 0 ∧ (p + 1 = c.length ∨ isKanji (c.getD p 0) (c.getD (p + 1) 0) = false) ∧
        ∀ k < p, k % 2 = 0 → isKanji (c.getD k 0) (c.getD (k + 1) 0) = true)

/-- R211: a chunk of at most MINRUN bytes, or MINRUN 0, gives one piece of the most compact mode valid for all of it; a
longer one has each maximal digit run of at least MINRUN bytes as a Numeric piece, each maximal alphanumeric run of at least
MINRUN bytes of the remainders between those as an Alphanumeric piece, and no two Byte pieces adjacent. With
`SplitChunkPieces` this fixes the pieces. -/
def Obligations.AutoSplitRules : Prop :=
  ∀ (m : Nat) (c : List Byte) (pieces : List Piece), c ≠ [] → splitChunk .auto m c = .ok pieces →
    (m = 0 ∨ c.length ≤ m →
      pieces = [⟨if c.all isNumeric then .numeric else if c.all isAlphanumeric then .alphanumeric else .byte, 0,
        c.length⟩]) ∧
    (m ≠ 0 → m < c.length →
      (∀ p ∈ pieces, p.mode = .numeric → m ≤ p.len ∧
        (p.start = 0 ∨ isNumeric (c.getD (p.start - 1) 0) = false) ∧
        (p.start + p.len = c.length ∨ isNumeric (c.getD (p.start + p.len) 0) = false)) ∧
      (∀ a, a + m ≤ c.length → (∀ k < m, isNumeric (c.getD (a + k) 0) = true) →
        ∃ p ∈ pieces, p.mode = .numeric ∧ p.start ≤ a ∧ a + m ≤ p.start + p.len) ∧
      (∀ p ∈ pieces, p.mode = .alphanumeric → m ≤ p.len ∧
        (p.start = 0 ∨ isAlphanumeric (c.getD (p.start - 1) 0) = false ∨
          ∃ q ∈ pieces, q.mode = .numeric ∧ q.start + q.len = p.start) ∧
        (p.start + p.len = c.length ∨ isAlphanumeric (c.getD (p.start + p.len) 0) = false ∨
          ∃ q ∈ pieces, q.mode = .numeric ∧ q.start = p.start + p.len)) ∧
      (∀ a, a + m ≤ c.length → (∀ k < m, isAlphanumeric (c.getD (a + k) 0) = true) →
        (∃ p ∈ pieces, p.mode = .alphanumeric ∧ p.start ≤ a ∧ a + m ≤ p.start + p.len) ∨
          ∃ q ∈ pieces, q.mode = .numeric ∧ q.start < a + m ∧ a < q.start + q.len) ∧
      (∀ k (h : k + 1 < pieces.length), ¬ ((pieces[k]).mode = .byte ∧ (pieces[k + 1]).mode = .byte)))

/-! ### Capacity -/

/-- R146: CAPQ's checks and the five capacity registers. -/
def Obligations.CapqCommand : Prop :=
  Encoded 0x10 0xFFFE0000 (fun w => .capq (w.extractLsb' 11 6) (w.extractLsb' 8 3)) ∧
    (∀ (s : State) (ver : BitVec 6) (ec : BitVec 3),
      (ver = 0 ∨ ver.toNat > 40 → exec (.capq ver ec) s = .next (s.raiseError ⟨.config, 1⟩)) ∧
      (¬ (ver = 0 ∨ ver.toNat > 40) → ec.toNat > 3 → exec (.capq ver ec) s = .next (s.raiseError ⟨.config, 2⟩))) ∧
    ∀ (s : State) (v : Nat) (l : EcLevel), 1 ≤ v → v ≤ 40 →
      ∃ cap : Cap, exec (.capq (BitVec.ofNat 6 v) l.selector) s = .next { s with cap := cap }.complete ∧
        cap.cap0.toNat = totalCodewords v + dataCodewords v l * 2 ^ 16 ∧
        cap.cap1.toNat =
          ecCount v l + shortBlocks v l * 2 ^ 8 + shortData v l * 2 ^ 16 + longBlocks v l * 2 ^ 24 ∧
        cap.cap2.toNat = dataModules v + remainderBits v * 2 ^ 16 ∧
        cap.cap3.toNat = charCapacity .numeric v l + charCapacity .alphanumeric v l * 2 ^ 16 ∧
        cap.cap4.toNat = charCapacity .byte v l + charCapacity .kanji v l * 2 ^ 16

/-- R145: the 160 entries of its tables (E, NB, NS, SD, NL, D; the LD column is SD + 1 where NL is not 0); the block sizes of
every entry sum to the total codewords, D = T - NB*E, and every block has at most 153 codewords, reached by 27-L, 37-L and
38-L alone. -/
def Obligations.CapacityTableConsistent : Prop :=
  let row := fun (l : EcLevel) (v : Nat) =>
    (ecCount v l, blockCount v l, shortBlocks v l, shortData v l, longBlocks v l, dataCodewords v l)
  (
    (List.range' 1 40).map (row .L) =
      [(7, 1, 1, 19, 0, 19), (10, 1, 1, 34, 0, 34), (15, 1, 1, 55, 0, 55), (20, 1, 1, 80, 0, 80), (26, 1, 1, 108, 0, 108)] ++
      [(18, 2, 2, 68, 0, 136), (20, 2, 2, 78, 0, 156), (24, 2, 2, 97, 0, 194), (30, 2, 2, 116, 0, 232), (18, 4, 2, 68, 2, 274)] ++
      [(20, 4, 4, 81, 0, 324), (24, 4, 2, 92, 2, 370), (26, 4, 4, 107, 0, 428), (30, 4, 3, 115, 1, 461), (22, 6, 5, 87, 1, 523)] ++
      [(24, 6, 5, 98, 1, 589), (28, 6, 1, 107, 5, 647), (30, 6, 5, 120, 1, 721), (28, 7, 3, 113, 4, 795), (28, 8, 3, 107, 5, 861)] ++
      [(28, 8, 4, 116, 4, 932), (28, 9, 2, 111, 7, 1006), (30, 9, 4, 121, 5, 1094), (30, 10, 6, 117, 4, 1174), (26, 12, 8, 106, 4, 1276)] ++
      [(28, 12, 10, 114, 2, 1370), (30, 12, 8, 122, 4, 1468), (30, 13, 3, 117, 10, 1531), (30, 14, 7, 116, 7, 1631), (30, 15, 5, 115, 10, 1735)] ++
      [(30, 16, 13, 115, 3, 1843), (30, 17, 17, 115, 0, 1955), (30, 18, 17, 115, 1, 2071), (30, 19, 13, 115, 6, 2191), (30, 19, 12, 121, 7, 2306)] ++
      [(30, 20, 6, 121, 14, 2434), (30, 21, 17, 122, 4, 2566), (30, 22, 4, 122, 18, 2702), (30, 24, 20, 117, 4, 2812), (30, 25, 19, 118, 6, 2956)] ∧
    (List.range' 1 40).map (row .M) =
      [(10, 1, 1, 16, 0, 16), (16, 1, 1, 28, 0, 28), (26, 1, 1, 44, 0, 44), (18, 2, 2, 32, 0, 64), (24, 2, 2, 43, 0, 86)] ++
      [(16, 4, 4, 27, 0, 108), (18, 4, 4, 31, 0, 124), (22, 4, 2, 38, 2, 154), (22, 5, 3, 36, 2, 182), (26, 5, 4, 43, 1, 216)] ++
      [(30, 5, 1, 50, 4, 254), (22, 8, 6, 36, 2, 290), (22, 9, 8, 37, 1, 334), (24, 9, 4, 40, 5, 365), (24, 10, 5, 41, 5, 415)] ++
      [(28, 10, 7, 45, 3, 453), (28, 11, 10, 46, 1, 507), (26, 13, 9, 43, 4, 563), (26, 14, 3, 44, 11, 627), (26, 16, 3, 41, 13, 669)] ++
      [(26, 17, 17, 42, 0, 714), (28, 17, 17, 46, 0, 782), (28, 18, 4, 47, 14, 860), (28, 20, 6, 45, 14, 914), (28, 21, 8, 47, 13, 1000)] ++
      [(28, 23, 19, 46, 4, 1062), (28, 25, 22, 45, 3, 1128), (28, 26, 3, 45, 23, 1193), (28, 28, 21, 45, 7, 1267), (28, 29, 19, 47, 10, 1373)] ++
      [(28, 31, 2, 46, 29, 1455), (28, 33, 10, 46, 23, 1541), (28, 35, 14, 46, 21, 1631), (28, 37, 14, 46, 23, 1725), (28, 38, 12, 47, 26, 1812)] ++
      [(28, 40, 6, 47, 34, 1914), (28, 43, 29, 46, 14, 1992), (28, 45, 13, 46, 32, 2102), (28, 47, 40, 47, 7, 2216), (28, 49, 18, 47, 31, 2334)] ∧
    (List.range' 1 40).map (row .Q) =
      [(13, 1, 1, 13, 0, 13), (22, 1, 1, 22, 0, 22), (18, 2, 2, 17, 0, 34), (26, 2, 2, 24, 0, 48), (18, 4, 2, 15, 2, 62)] ++
      [(24, 4, 4, 19, 0, 76), (18, 6, 2, 14, 4, 88), (22, 6, 4, 18, 2, 110), (20, 8, 4, 16, 4, 132), (24, 8, 6, 19, 2, 154)] ++
      [(28, 8, 4, 22, 4, 180), (26, 10, 4, 20, 6, 206), (24, 12, 8, 20, 4, 244), (20, 16, 11, 16, 5, 261), (30, 12, 5, 24, 7, 295)] ++
      [(24, 17, 15, 19, 2, 325), (28, 16, 1, 22, 15, 367), (28, 18, 17, 22, 1, 397), (26, 21, 17, 21, 4, 445), (30, 20, 15, 24, 5, 485)] ++
      [(28, 23, 17, 22, 6, 512), (30, 23, 7, 24, 16, 568), (30, 25, 11, 24, 14, 614), (30, 27, 11, 24, 16, 664), (30, 29, 7, 24, 22, 718)] ++
      [(28, 34, 28, 22, 6, 754), (30, 34, 8, 23, 26, 808), (30, 35, 4, 24, 31, 871), (30, 38, 1, 23, 37, 911), (30, 40, 15, 24, 25, 985)] ++
      [(30, 43, 42, 24, 1, 1033), (30, 45, 10, 24, 35, 1115), (30, 48, 29, 24, 19, 1171), (30, 51, 44, 24, 7, 1231), (30, 53, 39, 24, 14, 1286)] ++
      [(30, 56, 46, 24, 10, 1354), (30, 59, 49, 24, 10, 1426), (30, 62, 48, 24, 14, 1502), (30, 65, 43, 24, 22, 1582), (30, 68, 34, 24, 34, 1666)] ∧
    (List.range' 1 40).map (row .H) =
      [(17, 1, 1, 9, 0, 9), (28, 1, 1, 16, 0, 16), (22, 2, 2, 13, 0, 26), (16, 4, 4, 9, 0, 36), (22, 4, 2, 11, 2, 46)] ++
      [(28, 4, 4, 15, 0, 60), (26, 5, 4, 13, 1, 66), (26, 6, 4, 14, 2, 86), (24, 8, 4, 12, 4, 100), (28, 8, 6, 15, 2, 122)] ++
      [(24, 11, 3, 12, 8, 140), (28, 11, 7, 14, 4, 158), (22, 16, 12, 11, 4, 180), (24, 16, 11, 12, 5, 197), (24, 18, 11, 12, 7, 223)] ++
      [(30, 16, 3, 15, 13, 253), (28, 19, 2, 14, 17, 283), (28, 21, 2, 14, 19, 313), (26, 25, 9, 13, 16, 341), (28, 25, 15, 15, 10, 385)] ++
      [(30, 25, 19, 16, 6, 406), (24, 34, 34, 13, 0, 442), (30, 30, 16, 15, 14, 464), (30, 32, 30, 16, 2, 514), (30, 35, 22, 15, 13, 538)] ++
      [(30, 37, 33, 16, 4, 596), (30, 40, 12, 15, 28, 628), (30, 42, 11, 15, 31, 661), (30, 45, 19, 15, 26, 701), (30, 48, 23, 15, 25, 745)] ++
      [(30, 51, 23, 15, 28, 793), (30, 54, 19, 15, 35, 845), (30, 57, 11, 15, 46, 901), (30, 60, 59, 16, 1, 961), (30, 63, 22, 15, 41, 986)] ++
      [(30, 66, 2, 15, 64, 1054), (30, 70, 24, 15, 46, 1096), (30, 74, 42, 15, 32, 1142), (30, 77, 10, 15, 67, 1222), (30, 81, 20, 15, 61, 1276)]
  ) ∧
  ∀ (v : Nat) (l : EcLevel), 1 ≤ v → v ≤ 40 →
    shortBlocks v l * (shortData v l + ecCount v l) + longBlocks v l * (shortData v l + 1 + ecCount v l)
        = totalCodewords v ∧
      dataCodewords v l + blockCount v l * ecCount v l = totalCodewords v ∧
      blockSize v l (blockCount v l - 1) + ecCount v l ≤ 153 ∧
      (blockSize v l (blockCount v l - 1) + ecCount v l = 153 ↔ l = .L ∧ v ∈ [27, 37, 38])

/-- R147 (and R148 for the order in v): CAPC is the largest character count whose single segment fits, and it fits the
count field. -/
def Obligations.CharacterCapacityIsLargest : Prop :=
  ∀ (m : SegMode) (v : Nat) (l : EcLevel), 1 ≤ v → v ≤ 40 →
    IsGreatest {c | 4 + countBits m v + payloadBits m c ≤ 8 * dataCodewords v l} (charCapacity m v l) ∧
      charCapacity m v l < 2 ^ countBits m v

/-! ### GF(256) -/

/-- R161 and R166: the field product is the product of the polynomials modulo x^8 + x^4 + x^3 + x^2 + 1 over GF(2); with ⊕
it obeys the laws of a field, the inverse being read from the tables. -/
def Obligations.FieldArithmetic : Prop :=
  (∀ a b : Byte, ∃ q : Polynomial (ZMod 2),
    let poly := fun x : Byte => ∑ i ∈ Finset.range 8, if x.getLsbD i then (Polynomial.X : Polynomial (ZMod 2)) ^ i else 0
    poly a * poly b =
      q * (Polynomial.X ^ 8 + Polynomial.X ^ 4 + Polynomial.X ^ 3 + Polynomial.X ^ 2 + 1) + poly (gfMul a b)) ∧
    ∀ a b c : Byte,
      gfMul a b = gfMul b a ∧ gfMul (gfMul a b) c = gfMul a (gfMul b c) ∧ gfMul a 1 = a ∧ gfMul a 0 = 0 ∧
        gfMul a (b ^^^ c) = gfMul a b ^^^ gfMul a c ∧
        (a ≠ 0 → gfMul a (gfExp ((255 - gfLog a) % 255)) = 1 ∧
          (gfMul a b = 1 → b = gfExp ((255 - gfLog a) % 255))) ∧
        gfExp 255 = 1 ∧ a ^^^ a = 0

/-- R168, with the product through the tables of R165. -/
def Obligations.GfMulCommand : Prop :=
  Encoded 0x20 0xFF000000 (fun w => .gfMul (w.extractLsb' 8 8) (w.extractLsb' 16 8)) ∧
    ∀ (s : State) (a b : Byte),
      exec (.gfMul a b) s = .next { s with result := (gfMul a b).setWidth 32 }.complete ∧
        gfMul a b = if a = 0 ∨ b = 0 then 0 else gfExp ((gfLog a + gfLog b) % 255)

/-- R169: GF_EXP, with EXP[i] the i-th power of 0x02 (R162). -/
def Obligations.GfExpCommand : Prop :=
  Encoded 0x21 0xFFFF0000 (fun w => .gfExp (w.extractLsb' 8 8)) ∧
    ∀ (s : State) (i : Byte),
      exec (.gfExp i) s = .next { s with result := (gfExp (i.toNat % 255)).setWidth 32 }.complete ∧
        gfExp 0 = 1 ∧ (∀ k, gfExp (k + 1) = gfMul 0x02 (gfExp k)) ∧ gfExp (i.toNat % 255) ≠ 0

/-- R170: GF_LOG, with LOG[a] the unique exponent in 0 to 254 of a (R162); GF_LOG 0 ends with ERR_GF_DOMAIN. -/
def Obligations.GfLogCommand : Prop :=
  Encoded 0x22 0xFFFF0000 (fun w => .gfLog (w.extractLsb' 8 8)) ∧
    ∀ (s : State) (a : Byte),
      (a = 0 → exec (.gfLog a) s = .next (s.raiseError ⟨.gfDomain, 0⟩)) ∧
      (a ≠ 0 → exec (.gfLog a) s = .next { s with result := BitVec.ofNat 32 (gfLog a) }.complete ∧
        gfLog a ≤ 254 ∧ gfExp (gfLog a) = a ∧ ∀ i ≤ 254, gfExp i = a → i = gfLog a)

/-- R167: g_e is monic of degree e, and its value at every x is the product of the x ⊕ α^i, i below e; so its roots are the
first e powers of α. -/
def Obligations.GeneratorPolynomial : Prop :=
  ∀ e : Nat,
    (genPoly e).length = e + 1 ∧ (genPoly e).head? = some 1 ∧
      ∀ x : Byte, polyEval (genPoly e) x = (List.range e).foldl (fun acc i => gfMul acc (x ^^^ gfExp i)) 1

/-- R171: GF_GENPOLY's checks in their order, the bytes it writes, and that nothing else changes. -/
def Obligations.GfGenpolyCommand : Prop :=
  Encoded 0x23 0xFFC0FF00 (fun w => .gfGenpoly (w.extractLsb' 16 6)) ∧
    ∀ (s : State) (e : BitVec 6),
      let n := e.toNat
      let dst := s.arg1.toNat
      (n = 0 ∨ n > 30 → exec (.gfGenpoly e) s = .next (s.raiseError ⟨.config, 3⟩)) ∧
      (1 ≤ n → n ≤ 30 → dst + n + 1 > 4096 → exec (.gfGenpoly e) s = .next (s.raiseError ⟨.range, 2⟩)) ∧
      (1 ≤ n → n ≤ 30 → dst + n + 1 ≤ 4096 →
        ∃ t, exec (.gfGenpoly e) s = .next t ∧ { t with cwbuf := s.cwbuf } = s.complete ∧
          SameBytesBut .cwbuf s t ∧ SameCells .wmat s t ∧ SameCells .cmat s t ∧
          (∀ j, j ≤ n → t.readByte .cwbuf (dst + j) = (genPoly n).getD j 0) ∧
          (∀ k, (k < dst ∨ dst + n < k) → t.readByte .cwbuf k = s.readByte .cwbuf k))

/-! ### Reed-Solomon -/

/-- R180: the data codewords followed by their e EC codewords are a multiple of g_e: they vanish at its e distinct
roots. -/
def Obligations.RemainderMakesCodeword : Prop :=
  ∀ (d : List Byte) (e : Nat), 1 ≤ e → e ≤ 255 →
    (rsEncode d e).length = e ∧ (∀ i < e, polyEval (d ++ rsEncode d e) (gfExp i) = 0) ∧
      (∀ i < e, polyEval (genPoly e) (gfExp i) = 0) ∧ ((List.range e).map gfExp).Nodup

/-- R182 with R181: RS_ENC's checks in their order, every read before any write, the frame. -/
def Obligations.RsEncCommand : Prop :=
  Encoded 0x30 0xFFC00000 (fun w => .rsEnc (w.extractLsb' 8 8) (w.extractLsb' 16 6)) ∧
    ∀ (s : State) (n : Byte) (e : BitVec 6), Inv s →
      let src := s.arg0.toNat
      let dst := s.arg1.toNat
      let ecs := e.toNat
      let data := (List.range n.toNat).map fun k => s.readByte .cwbuf (src + k)
      (ecs = 0 ∨ ecs > 30 → exec (.rsEnc n e) s = .next (s.raiseError ⟨.config, 3⟩)) ∧
      (1 ≤ ecs → ecs ≤ 30 → src + n.toNat > 4096 → exec (.rsEnc n e) s = .next (s.raiseError ⟨.range, 1⟩)) ∧
      (1 ≤ ecs → ecs ≤ 30 → src + n.toNat ≤ 4096 → dst + ecs > 4096 →
        exec (.rsEnc n e) s = .next (s.raiseError ⟨.range, 2⟩)) ∧
      (1 ≤ ecs → ecs ≤ 30 → src + n.toNat ≤ 4096 → dst + ecs ≤ 4096 →
        ∃ t, exec (.rsEnc n e) s = .next t ∧ { t with cwbuf := s.cwbuf } = s.complete ∧
          SameBytesBut .cwbuf s t ∧ SameCells .wmat s t ∧ SameCells .cmat s t ∧
          (∀ j, j < ecs → t.readByte .cwbuf (dst + j) = (rsEncode data ecs).getD j 0) ∧
          (∀ k, (k < dst ∨ dst + ecs ≤ k) → t.readByte .cwbuf k = s.readByte .cwbuf k))

/-- R187 with R183 to R186, positions as R188: ECC_INTERLEAVE's checks, where each data and EC codeword of each block goes,
and that FINAL from T on and everything else are unchanged. -/
def Obligations.EccInterleaveCommand : Prop :=
  Encoded 0x31 0xFFFE0000 (fun w => .eccInterleave (w.extractLsb' 11 6) (w.extractLsb' 8 3)) ∧
    (∀ (s : State) (ver : BitVec 6) (ec : BitVec 3),
      (ver = 0 ∨ ver.toNat > 40 → exec (.eccInterleave ver ec) s = .next (s.raiseError ⟨.config, 1⟩)) ∧
      (¬ (ver = 0 ∨ ver.toNat > 40) → ec.toNat > 3 →
        exec (.eccInterleave ver ec) s = .next (s.raiseError ⟨.config, 2⟩))) ∧
    ∀ (s : State) (v : Nat) (l : EcLevel), Inv s → 1 ≤ v → v ≤ 40 →
      let block := fun b => (List.range (blockSize v l b)).map fun i => s.readByte .cwbuf (blockOffset v l b + i)
      ∃ t, exec (.eccInterleave (BitVec.ofNat 6 v) l.selector) s = .next t ∧ { t with final := s.final } = s.complete ∧
        SameBytesBut .final s t ∧ SameCells .wmat s t ∧ SameCells .cmat s t ∧
        (∀ b < blockCount v l, ∀ i < shortData v l,
          t.readByte .final (i * blockCount v l + b) = (block b).getD i 0) ∧
        (∀ b < blockCount v l, shortBlocks v l ≤ b →
          t.readByte .final (shortData v l * blockCount v l + (b - shortBlocks v l)) = (block b).getD (shortData v l) 0) ∧
        (∀ b < blockCount v l, ∀ i < ecCount v l,
          t.readByte .final (dataCodewords v l + i * blockCount v l + b)
            = (rsEncode (block b) (ecCount v l)).getD i 0) ∧
        (∀ k, totalCodewords v ≤ k → t.readByte .final k = s.readByte .final k)

/-! ### The bit stream -/

/-- R209 and R220 with the tables they are read by: the character classes and values (R200, R201, R203, R204), the count
widths and payload lengths (R207, R208), the mode indicator, count field and payload groups of ENC(seg, v), each field most
significant bit first (R206, R209), and S(v) as the concatenation over the segment table, bits(v) long (R220). Payload
groups are stated of bytes valid for the mode, which R210 makes every stored segment's bytes (log entry 9). -/
def Obligations.SegmentStreamBits : Prop :=
  let symbols : List Byte :=
    [0x30, 0x31, 0x32, 0x33, 0x34, 0x35, 0x36, 0x37, 0x38, 0x39, 0x41, 0x42, 0x43, 0x44, 0x45, 0x46, 0x47, 0x48, 0x49] ++
    [0x4A, 0x4B, 0x4C, 0x4D, 0x4E, 0x4F, 0x50, 0x51, 0x52, 0x53, 0x54, 0x55, 0x56, 0x57, 0x58, 0x59, 0x5A] ++
    [0x20, 0x24, 0x25, 0x2A, 0x2B, 0x2D, 0x2E, 0x2F, 0x3A]
  symbols.map alphaValue? = (List.range 45).map some ∧ (∀ b, isAlphanumeric b = true ↔ b ∈ symbols) ∧
  (∀ b, isNumeric b = true ↔ 0x30 ≤ b.toNat ∧ b.toNat ≤ 0x39) ∧
  (∀ hi lo : Byte,
    let w := hi.toNat * 256 + lo.toNat
    let w' := if w ≤ 0x9FFC then w - 0x8140 else w - 0xC140
    (isKanji hi lo = true ↔ ((0x8140 ≤ w ∧ w ≤ 0x9FFC) ∨ (0xE040 ≤ w ∧ w ≤ 0xEBBF)) ∧
      0x40 ≤ lo.toNat ∧ lo.toNat ≤ 0xFC ∧ lo.toNat ≠ 0x7F) ∧
    (isKanji hi lo = true → kanjiValue hi lo = w' / 256 * 0xC0 + w' % 256 ∧ kanjiValue hi lo ≤ 0x1FFF)) ∧
  (∀ v, 1 ≤ v → v ≤ 40 → [SegMode.numeric, .alphanumeric, .byte, .kanji].map (countBits · v) =
    if v ≤ 9 then [10, 9, 8, 8] else if v ≤ 26 then [12, 11, 16, 10] else [14, 13, 16, 12]) ∧
  (∀ c, [SegMode.numeric, .alphanumeric, .byte, .kanji].map (payloadBits · c) =
    [10 * (c / 3) + [0, 4, 7].getD (c % 3) 0, 11 * (c / 2) + 6 * (c % 2), 8 * c, 13 * c]) ∧
  (∀ (v : Nat) (e : Segment) (bs : List Byte), bs.length = e.nbytes.toNat →
    (e.nbytes.toNat = if e.mode = .kanji then 2 * e.nchars.toNat else e.nchars.toNat) →
    let x := encodeSegment v e bs
    let start := 4 + countBits e.mode v
    let n := bs.length
    let digit := fun k => (bs.getD k 0).toNat - 0x30
    let av := fun k => (alphaValue? (bs.getD k 0)).getD 0
    x.length = start + payloadBits e.mode e.nchars.toNat ∧
      FieldAt x 0 4 (match e.mode with
        | .numeric => 0b0001
        | .alphanumeric => 0b0010
        | .byte => 0b0100
        | .kanji => 0b1000) ∧
      FieldAt x 4 (countBits e.mode v) e.nchars.toNat ∧
      (e.mode = .numeric → (∀ b ∈ bs, isNumeric b = true) →
        (∀ g < n / 3, FieldAt x (start + 10 * g) 10 (100 * digit (3 * g) + 10 * digit (3 * g + 1) + digit (3 * g + 2))) ∧
        (n % 3 = 2 → FieldAt x (start + 10 * (n / 3)) 7 (10 * digit (n - 2) + digit (n - 1))) ∧
        (n % 3 = 1 → FieldAt x (start + 10 * (n / 3)) 4 (digit (n - 1)))) ∧
      (e.mode = .alphanumeric → (∀ b ∈ bs, isAlphanumeric b = true) →
        (∀ g < n / 2, FieldAt x (start + 11 * g) 11 (45 * av (2 * g) + av (2 * g + 1))) ∧
        (n % 2 = 1 → FieldAt x (start + 11 * (n / 2)) 6 (av (n - 1)))) ∧
      (e.mode = .byte → ∀ k < n, FieldAt x (start + 8 * k) 8 (bs.getD k 0).toNat) ∧
      (e.mode = .kanji → (∀ g < n / 2, isKanji (bs.getD (2 * g) 0) (bs.getD (2 * g + 1) 0) = true) →
        ∀ g < n / 2, FieldAt x (start + 13 * g) 13 (kanjiValue (bs.getD (2 * g) 0) (bs.getD (2 * g + 1) 0)))) ∧
  ∀ (s : State) (v : Nat), Inv s →
    (s.segmentStream v = s.segtab.flatMap fun e =>
      encodeSegment v e ((List.range e.nbytes.toNat).map fun k => s.readByte .segdata (e.off.toNat + k))) ∧
      (s.segmentStream v).length = s.streamBits v ∧
      s.streamBits v = (s.segtab.map fun e => 4 + countBits e.mode v + payloadBits e.mode e.nchars.toNat).sum

/-- R225 with R93: the D data codewords of a stream of L bits: the stream, the shortened terminator, zero bits to the byte
boundary, then 0xEC and 0x11 in turn. -/
def Obligations.CodewordsOfStream : Prop :=
  ∀ (v : Nat) (l : EcLevel) (x : List Bool), x.length ≤ 8 * dataCodewords v l →
    let full := x.length + min 4 (8 * dataCodewords v l - x.length)
    let k := (full + 7) / 8
    (codewordsOf v l x).length = dataCodewords v l ∧ k ≤ dataCodewords v l ∧
      (∀ j < k, ∀ i < 8, ((codewordsOf v l x).getD j 0).getLsbD (7 - i) = x.getD (8 * j + i) false) ∧
      ∀ j < dataCodewords v l, k ≤ j →
        (codewordsOf v l x).getD j 0 = if (j - k) % 2 = 0 then 0xEC else 0x11

/-- R226 with R223 and R224: BITSTREAM's checks, the version selected (a fixed one that fits, or with AUTO the smallest
that fits), ERR_OVERFLOW with bits(v), the registers and codewords written, and the frame. -/
def Obligations.BitstreamCommand : Prop :=
  Encoded 0x40 0xFFFE0000 (fun w => .bitstream (w.extractLsb' 11 6) (w.extractLsb' 8 3)) ∧
    (∀ (s : State) (ver : BitVec 6) (ec : BitVec 3),
      (ver.toNat > 40 → exec (.bitstream ver ec) s = .next (s.raiseError ⟨.config, 1⟩)) ∧
      (ver.toNat ≤ 40 → ec.toNat > 3 → exec (.bitstream ver ec) s = .next (s.raiseError ⟨.config, 2⟩))) ∧
    ∀ (s : State) (ver : Nat) (l : EcLevel), Inv s → ver ≤ 40 →
      let fits := fun v => s.streamBits v ≤ 8 * dataCodewords v l
      let run := exec (.bitstream (BitVec.ofNat 6 ver) l.selector) s
      (1 ≤ ver → ¬ fits ver → run = .next (s.raiseError ⟨.overflow, BitVec.ofNat 32 (s.streamBits ver)⟩)) ∧
      (ver = 0 → (∀ v, 1 ≤ v → v ≤ 40 → ¬ fits v) →
        run = .next (s.raiseError ⟨.overflow, BitVec.ofNat 32 (s.streamBits 40)⟩)) ∧
      ∀ v, 1 ≤ v → v ≤ 40 → fits v → (ver = v ∨ (ver = 0 ∧ ∀ u, 1 ≤ u → u < v → ¬ fits u)) →
        ∃ t, run = .next t ∧
          { t with cwbuf := s.cwbuf } =
            { s with
              bitlen := t.bitlen
              streamMeta := ⟨BitVec.ofNat 6 v, l.selector, true⟩
              result := BitVec.ofNat 32 v }.complete ∧
          t.bitlen.toNat = s.streamBits v ∧
          SameBytesBut .cwbuf s t ∧ SameCells .wmat s t ∧ SameCells .cmat s t ∧
          (∀ j < dataCodewords v l,
            t.readByte .cwbuf j = (codewordsOf v l (s.segmentStream v)).getD j 0) ∧
          (∀ k, dataCodewords v l ≤ k → t.readByte .cwbuf k = s.readByte .cwbuf k)

/-! ### The matrix -/

/-- R250: the cells of the template with F = 0, counted by rows and in the zig-zag order, are DM(v) = 8*T(v) + rem(v). -/
def Obligations.DataModuleCount : Prop :=
  ∀ v, 1 ≤ v → v ≤ 40 →
    ((List.range (side v)).map fun r =>
        ((List.range (side v)).filter fun c => !(templateCell v r c).f).length).sum = dataModules v ∧
      ((zigzag v).filter fun x => !(templateCell v x.1 x.2).f).length = dataModules v ∧
      dataModules v = 8 * totalCodewords v + remainderBits v

/-- R253: which cell stands at every index of ZZ(v), by column pair p (from the right edge, column 6 skipped) and row step
k: right column first, pairs of even p upward, of odd p downward. Its consequence: each cell of the symbol outside column 6
is listed exactly once; and where the order starts, turns and ends. -/
def Obligations.ZigzagVisitsEachCellOnce : Prop :=
  ∀ v, 1 ≤ v → v ≤ 40 →
    (zigzag v).length = side v * (side v - 1) ∧
      (∀ p < 2 * v + 8, ∀ k < side v,
        let right := if 8 ≤ side v - 1 - 2 * p then side v - 1 - 2 * p else side v - 2 - 2 * p
        let r := if p % 2 = 0 then side v - 1 - k else k
        (zigzag v)[2 * (p * side v + k)]? = some (r, right) ∧
          (zigzag v)[2 * (p * side v + k) + 1]? = some (r, right - 1)) ∧
      (zigzag v).Nodup ∧ (∀ x, x ∈ zigzag v ↔ x.1 < side v ∧ x.2 < side v ∧ x.2 ≠ 6) ∧
      (zigzag v)[0]? = some (side v - 1, side v - 1) ∧ (zigzag v)[1]? = some (side v - 1, side v - 2) ∧
      (zigzag v)[2]? = some (side v - 2, side v - 1) ∧
      (zigzag v)[2 * side v]? = some (0, side v - 3) ∧ (zigzag v)[2 * side v + 2]? = some (1, side v - 3) ∧
      (zigzag v).getLast? = some (side v - 1, 0)

/-- R251 with R241 to R248: the alignment positions of versions 1 to 40 (the table of R244); MATRIX_INIT's check, MATMETA, every WMAT cell of the template by the rule that draws it, and
the frame. `FmtInsertCommand` gives the coordinates of `fp1` and `fp2`. -/
def Obligations.MatrixInitCommand : Prop :=
  Encoded 0x50 0xFFFE0700 (fun w => .matrixInit (w.extractLsb' 11 6)) ∧
    ((List.range' 1 40).map alignmentPositions =
        [[], [6, 18], [6, 22], [6, 26], [6, 30]] ++
        [[6, 34], [6, 22, 38], [6, 24, 42], [6, 26, 46], [6, 28, 50]] ++
        [[6, 30, 54], [6, 32, 58], [6, 34, 62], [6, 26, 46, 66], [6, 26, 48, 70]] ++
        [[6, 26, 50, 74], [6, 30, 54, 78], [6, 30, 56, 82], [6, 30, 58, 86], [6, 34, 62, 90]] ++
        [[6, 28, 50, 72, 94], [6, 26, 50, 74, 98], [6, 30, 54, 78, 102], [6, 28, 54, 80, 106], [6, 32, 58, 84, 110]] ++
        [[6, 30, 58, 86, 114], [6, 34, 62, 90, 118], [6, 26, 50, 74, 98, 122], [6, 30, 54, 78, 102, 126],
         [6, 26, 52, 78, 104, 130]] ++
        [[6, 30, 56, 82, 108, 134], [6, 34, 60, 86, 112, 138], [6, 30, 58, 86, 114, 142],
         [6, 34, 62, 90, 118, 146], [6, 30, 54, 78, 102, 126, 150]] ++
        [[6, 24, 50, 76, 102, 128, 154], [6, 28, 54, 80, 106, 132, 158], [6, 32, 58, 84, 110, 136, 162],
         [6, 26, 54, 82, 110, 138, 166], [6, 30, 58, 86, 114, 142, 170]]) ∧
    (∀ (s : State) (ver : BitVec 6), ver = 0 ∨ ver.toNat > 40 →
      exec (.matrixInit ver) s = .next (s.raiseError ⟨.config, 1⟩)) ∧
    ∀ (s : State) (v : Nat), Inv s → 1 ≤ v → v ≤ 40 →
      let n := 4 * v + 17
      let ap := alignmentPositions v
      ∃ t, exec (.matrixInit (BitVec.ofNat 6 v)) s = .next t ∧
        { t with wmat := s.wmat } = { s with matMeta := ⟨BitVec.ofNat 6 v, 0, false, false⟩ }.complete ∧
        SameBytes s t ∧ SameCells .cmat s t ∧
        (∀ r c, n ≤ r ∨ n ≤ c → t.readCell .wmat r c = ⟨false, false, false⟩) ∧
        (∀ corner ∈ [(0, 0), (0, n - 7), (n - 7, 0)], ∀ dr ≤ 6, ∀ dc ≤ 6,
          t.readCell .wmat (corner.1 + dr) (corner.2 + dc) = ⟨ringOf dr dc (3, 3) != 2, true, false⟩) ∧
        (∀ k ≤ 7, ∀ x ∈ [(7, k), (k, 7), (7, n - 8 + k), (k, n - 8), (n - 8, k), (n - 8 + k, 7)],
          t.readCell .wmat x.1 x.2 = ⟨false, true, false⟩) ∧
        (∀ k, 8 ≤ k → k ≤ n - 9 → t.readCell .wmat 6 k = ⟨k % 2 == 0, true, false⟩ ∧
          t.readCell .wmat k 6 = ⟨k % 2 == 0, true, false⟩) ∧
        (∀ i j, i < ap.length → j < ap.length → (i, j) ∉ [(0, 0), (0, ap.length - 1), (ap.length - 1, 0)] →
          ∀ dr ≤ 4, ∀ dc ≤ 4,
            t.readCell .wmat (ap.getD i 0 + dr - 2) (ap.getD j 0 + dc - 2)
              = ⟨ringOf dr dc (2, 2) != 1, true, false⟩) ∧
        (∀ i < 15, t.readCell .wmat (fp1 i).1 (fp1 i).2 = ⟨false, true, true⟩ ∧
          t.readCell .wmat (fp2 v i).1 (fp2 v i).2 = ⟨false, true, true⟩) ∧
        (7 ≤ v → ∀ i < 18, t.readCell .wmat (i / 3) (n - 11 + i % 3) = ⟨false, true, true⟩ ∧
          t.readCell .wmat (n - 11 + i % 3) (i / 3) = ⟨false, true, true⟩) ∧
        t.readCell .wmat (n - 8) 8 = ⟨true, true, false⟩ ∧
        (∀ r c, r < n → c < n → (t.readCell .wmat r c).f = false → t.readCell .wmat r c = ⟨false, false, true⟩) ∧
        ((List.range n).map fun r =>
          ((List.range n).filter fun c => !(t.readCell .wmat r c).f).length).sum = dataModules v

/-- R256 with R254 and R255: PLACE's checks, the fatal count mismatch, the data cells written in zig-zag order, and the
frame: every cell with F = 1 and every cell outside ZZ is unchanged. -/
def Obligations.PlaceCommand : Prop :=
  Encoded 0x51 0xFFFFFF00 (fun _ => .place) ∧
    ∀ s : State, Inv s →
      let v := s.matMeta.mver.toNat
      let dc := (zigzag v).filter fun x => !(s.readCell .wmat x.1 x.2).f
      let expected := 8 * totalCodewords v + remainderBits v
      (v = 0 → exec .place s = .next (s.raiseError ⟨.state, 1⟩)) ∧
      (v ≠ 0 → dc.length ≠ expected →
        exec .place s = .next (s.raiseError ⟨.internal, BitVec.ofNat 32 (expected * 2 ^ 16 + dc.length)⟩)) ∧
      (v ≠ 0 → dc.length = expected →
        ∃ t, exec .place s = .next t ∧
          { t with wmat := s.wmat } = { s with matMeta := { s.matMeta with mmasked := false } }.complete ∧
          SameBytes s t ∧ SameCells .cmat s t ∧
          (∀ k, (h : k < dc.length) →
            t.readCell .wmat dc[k].1 dc[k].2 =
              ⟨if k < 8 * totalCodewords v then (s.readByte .final (k / 8)).getLsbD (7 - k % 8) else false,
                false, false⟩) ∧
          (∀ r c, (r, c) ∉ dc → t.readCell .wmat r c = s.readCell .wmat r c))

/-! ### Masks -/

/-- R283 to R287 on an n by n grid: PEN1 by runs (a maximal run of length L >= 5 holds L - 4 five-cell windows, one of
which begins it, so it adds L - 2), PEN2 by equal 2x2 windows, PEN3 by 11-cell windows, PEN4 by the dark proportion. -/
def Obligations.PenaltyRules : Prop :=
  ∀ (n : Nat) (G : Nat → Nat → Bool), 1 ≤ n →
    let g := gridOf n G
    let lineScore := fun line : Nat → Bool => (fiveRuns n line).card + 2 * (runStarts n line).card
    penalty1 n g =
        (∑ r ∈ Finset.range n, lineScore (G r)) + ∑ c ∈ Finset.range n, lineScore (fun r => G r c) ∧
      penalty2 g = 3 * ((Finset.range (n - 1) ×ˢ Finset.range (n - 1)).filter fun x =>
        G x.1 x.2 = G x.1 (x.2 + 1) ∧ G x.1 x.2 = G (x.1 + 1) x.2 ∧ G x.1 x.2 = G (x.1 + 1) (x.2 + 1)).card ∧
      penalty3 n g = 40 * ((∑ r ∈ Finset.range n, (finderWindows n (G r)).card) +
        ∑ c ∈ Finset.range n, (finderWindows n (fun r => G r c)).card) ∧
      (let dk := ((Finset.range n ×ˢ Finset.range n).filter fun x => G x.1 x.2 = true).card
       penalty4 n g = 10 * ((100 * (dk : Int) - 50 * (n * n : Nat)).natAbs / (5 * (n * n)))) ∧
      totalPenalty n g = penalty1 n g + penalty2 g + penalty3 n g + penalty4 n g

/-- R290 with R282 and R287: MASK_SCORE's check, the five registers without truncation, and that nothing else changes. -/
def Obligations.MaskScoreCommand : Prop :=
  Encoded 0x60 0xFFF1FF00 (fun w => .maskScore (w.extractLsb' 17 3)) ∧
    ∀ (s : State) (m : BitVec 3), Inv s →
      let v := s.matMeta.mver.toNat
      let n := 4 * v + 17
      let g := gridOf n (candidateColour s v m.toNat)
      (v = 0 → exec (.maskScore m) s = .next (s.raiseError ⟨.state, 1⟩)) ∧
      (v ≠ 0 → ∃ pen : Pen, exec (.maskScore m) s = .next { s with pen := pen }.complete ∧
        pen.pen1.toNat = penalty1 n g ∧ pen.pen2.toNat = penalty2 g ∧ pen.pen3.toNat = penalty3 n g ∧
        pen.pen4.toNat = penalty4 n g ∧ pen.pentot.toNat = totalPenalty n g)

/-- R291 with R280, R281, R282 and R289: the eight mask predicates; MASK_SELECT's checks, the eight totals, the lowest id of
least total, the mask applied to the cells with F = 0 of the symbol, and the frame. -/
def Obligations.MaskSelectCommand : Prop :=
  Encoded 0x61 0xFFFFFF00 (fun _ => .maskSelect) ∧
    (∀ i j,
      (maskBit 0 i j = true ↔ (i + j) % 2 = 0) ∧ (maskBit 1 i j = true ↔ i % 2 = 0) ∧
      (maskBit 2 i j = true ↔ j % 3 = 0) ∧ (maskBit 3 i j = true ↔ (i + j) % 3 = 0) ∧
      (maskBit 4 i j = true ↔ (i / 2 + j / 3) % 2 = 0) ∧
      (maskBit 5 i j = true ↔ (i * j) % 2 + (i * j) % 3 = 0) ∧
      (maskBit 6 i j = true ↔ ((i * j) % 2 + (i * j) % 3) % 2 = 0) ∧
      (maskBit 7 i j = true ↔ ((i + j) % 2 + (i * j) % 3) % 2 = 0)) ∧
    ∀ s : State, Inv s →
      let v := s.matMeta.mver.toNat
      let n := 4 * v + 17
      let total := fun m => totalPenalty n (gridOf n (candidateColour s v m))
      (v = 0 → exec .maskSelect s = .next (s.raiseError ⟨.state, 1⟩)) ∧
      (v ≠ 0 → s.matMeta.mmasked = true → exec .maskSelect s = .next (s.raiseError ⟨.state, 2⟩)) ∧
      (v ≠ 0 → s.matMeta.mmasked = false →
        ∃ t, ∃ best ≤ 7, exec .maskSelect s = .next t ∧
          (∀ m ≤ 7, total best ≤ total m) ∧ (∀ m < best, total best < total m) ∧
          { t with wmat := s.wmat, maskPen := s.maskPen } =
            { s with
              matMeta := { s.matMeta with mmask := BitVec.ofNat 3 best, mmasked := true }
              result := BitVec.ofNat 32 best }.complete ∧
          (∀ m, (h : m < 8) → t.maskPen[m].toNat = total m) ∧
          SameBytes s t ∧ SameCells .cmat s t ∧
          ∀ r c,
            let cell := s.readCell .wmat r c
            t.readCell .wmat r c =
              if r < n ∧ c < n ∧ cell.f = false then { cell with v := cell.v != maskBit best r c } else cell)

/-! ### Format and version information -/

/-- R316 with R312, R313 and R319: FMT_CALC's check, its result, the 32 format words, and that each decodes to its EC code
and mask. -/
def Obligations.FmtCalcCommand : Prop :=
  Encoded 0x70 0xFFF1F800 (fun w => .fmtCalc (w.extractLsb' 8 3) (w.extractLsb' 17 3)) ∧
    (∀ (s : State) (ec m : BitVec 3), ec.toNat > 3 →
      exec (.fmtCalc ec m) s = .next (s.raiseError ⟨.config, 2⟩)) ∧
    (∀ (s : State) (l : EcLevel) (m : BitVec 3),
      exec (.fmtCalc l.selector m) s = .next { s with result := (formatWord l m).setWidth 32 }.complete ∧
        (formatWord l m ^^^ 0x5412#15).extractLsb' 10 5 = ecCode l ++ m) ∧
    ([EcLevel.L, .M, .Q, .H].flatMap fun l => (List.range 8).map fun m => (formatWord l (BitVec.ofNat 3 m)).toNat) =
      [0x77C4, 0x72F3, 0x7DAA, 0x789D, 0x662F, 0x6318, 0x6C41, 0x6976] ++
      [0x5412, 0x5125, 0x5E7C, 0x5B4B, 0x45F9, 0x40CE, 0x4F97, 0x4AA0] ++
      [0x355F, 0x3068, 0x3F31, 0x3A06, 0x24B4, 0x2183, 0x2EDA, 0x2BED] ++
      [0x1689, 0x13BE, 0x1CE7, 0x19D0, 0x0762, 0x0255, 0x0D0C, 0x083B]

/-- R317 with R314 and R315: VER_CALC's check, its result, the 34 version words, and that the version stands in bits 17 to
12 of its word. -/
def Obligations.VerCalcCommand : Prop :=
  Encoded 0x71 0xFFFE0700 (fun w => .verCalc (w.extractLsb' 11 6)) ∧
    (∀ (s : State) (ver : BitVec 6),
      (ver.toNat < 7 ∨ ver.toNat > 40 → exec (.verCalc ver) s = .next (s.raiseError ⟨.config, 1⟩)) ∧
      (7 ≤ ver.toNat → ver.toNat ≤ 40 →
        exec (.verCalc ver) s = .next { s with result := (versionWord ver).setWidth 32 }.complete ∧
          (versionWord ver).extractLsb' 12 6 = ver)) ∧
    ((List.range' 7 34).map fun v => (versionWord (BitVec.ofNat 6 v)).toNat) =
      [0x07C94, 0x085BC, 0x09A99, 0x0A4D3, 0x0BBF6, 0x0C762, 0x0D847, 0x0E60D, 0x0F928, 0x10B78] ++
      [0x1145D, 0x12A17, 0x13532, 0x149A6, 0x15683, 0x168C9, 0x177EC, 0x18EC4, 0x191E1, 0x1AFAB] ++
      [0x1B08E, 0x1CC1A, 0x1D33F, 0x1ED75, 0x1F250, 0x209D5, 0x216F0, 0x228BA, 0x2379F, 0x24B0B] ++
      [0x2542E, 0x26A64, 0x27541, 0x28C69]

/-- R318: the coordinates of the format and version cells (R246, R247); FMT_INSERT's checks, the format cells and from
version 7 on the version cells it writes, and the frame. -/
def Obligations.FmtInsertCommand : Prop :=
  Encoded 0x72 0xFFF1F800 (fun w => .fmtInsert (w.extractLsb' 8 3) (w.extractLsb' 17 3)) ∧
    ((List.range 15).map fp1 =
      [(0, 8), (1, 8), (2, 8), (3, 8), (4, 8), (5, 8), (7, 8), (8, 8), (8, 7), (8, 5), (8, 4), (8, 3), (8, 2), (8, 1), (8, 0)]) ∧
    (∀ v, 1 ≤ v →
      let n := 4 * v + 17
      (∀ i ≤ 7, fp2 v i = (8, n - 1 - i)) ∧ (∀ i, 8 ≤ i → i ≤ 14 → fp2 v i = (n - 15 + i, 8)) ∧
        ∀ i < 18, vp1 v i = (i / 3, n - 11 + i % 3) ∧ vp2 v i = (n - 11 + i % 3, i / 3)) ∧
    (∀ (s : State) (ec m : BitVec 3), ec.toNat > 3 →
      exec (.fmtInsert ec m) s = .next (s.raiseError ⟨.config, 2⟩)) ∧
    ∀ (s : State) (l : EcLevel) (m : BitVec 3), Inv s →
      let v := s.matMeta.mver.toNat
      let f := formatWord l m
      let g := versionWord s.matMeta.mver
      (v = 0 → exec (.fmtInsert l.selector m) s = .next (s.raiseError ⟨.state, 1⟩)) ∧
      (v ≠ 0 → ∃ t, exec (.fmtInsert l.selector m) s = .next t ∧
        { t with wmat := s.wmat } = { s with matMeta := { s.matMeta with fmtdone := true } }.complete ∧
        SameBytes s t ∧ SameCells .cmat s t ∧
        (∀ i < 15, t.readCell .wmat (fp1 i).1 (fp1 i).2 = ⟨f.getLsbD i, true, false⟩ ∧
          t.readCell .wmat (fp2 v i).1 (fp2 v i).2 = ⟨f.getLsbD i, true, false⟩) ∧
        (7 ≤ v → ∀ i < 18, t.readCell .wmat (vp1 v i).1 (vp1 v i).2 = ⟨g.getLsbD i, true, false⟩ ∧
          t.readCell .wmat (vp2 v i).1 (vp2 v i).2 = ⟨g.getLsbD i, true, false⟩) ∧
        ∀ r c, (∀ i < 15, (r, c) ≠ fp1 i ∧ (r, c) ≠ fp2 v i) →
          (7 ≤ v → ∀ i < 18, (r, c) ≠ vp1 v i ∧ (r, c) ≠ vp2 v i) →
          t.readCell .wmat r c = s.readCell .wmat r c)

/-! ### BUILD -/

/-- R331 and R333 with R223: BUILD's checks, ERR_OVERFLOW from stage 1 with no effect, and otherwise its completion: the
version of R223, RESULT, OUTMETA, every CMAT cell the WMAT cell, and the registers and memories it does not write. -/
def Obligations.BuildCommand : Prop :=
  Encoded 0x80 0xFFFE0000 (fun w => .build (w.extractLsb' 11 6) (w.extractLsb' 8 3)) ∧
    (∀ (s : State) (ver : BitVec 6) (ec : BitVec 3),
      (ver.toNat > 40 → exec (.build ver ec) s = .next (s.raiseError ⟨.config, 1⟩)) ∧
      (ver.toNat ≤ 40 → ec.toNat > 3 → exec (.build ver ec) s = .next (s.raiseError ⟨.config, 2⟩))) ∧
    ∀ (s : State) (ver : Nat) (l : EcLevel), Inv s → ver ≤ 40 →
      let fits := fun v => s.streamBits v ≤ 8 * dataCodewords v l
      let run := exec (.build (BitVec.ofNat 6 ver) l.selector) s
      (1 ≤ ver → ¬ fits ver → run = .next (s.raiseError ⟨.overflow, BitVec.ofNat 32 (s.streamBits ver)⟩)) ∧
      (ver = 0 → (∀ v, 1 ≤ v → v ≤ 40 → ¬ fits v) →
        run = .next (s.raiseError ⟨.overflow, BitVec.ofNat 32 (s.streamBits 40)⟩)) ∧
      ∀ v, 1 ≤ v → v ≤ 40 → fits v → (ver = v ∨ (ver = 0 ∧ ∀ u, 1 ≤ u → u < v → ¬ fits u)) →
        ∃ t, run = .next t ∧
          { t with
            bitlen := s.bitlen, streamMeta := s.streamMeta, matMeta := s.matMeta, maskPen := s.maskPen
            outMeta := s.outMeta, result := s.result
            cwbuf := s.cwbuf, final := s.final, wmat := s.wmat, cmat := s.cmat } = s.complete ∧
          t.result = BitVec.ofNat 32 v ∧ t.bitlen.toNat = s.streamBits v ∧
          t.streamMeta = ⟨BitVec.ofNat 6 v, l.selector, true⟩ ∧
          t.matMeta = ⟨BitVec.ofNat 6 v, t.matMeta.mmask, true, true⟩ ∧
          t.outMeta = ⟨BitVec.ofNat 6 v, l.selector, t.matMeta.mmask, BitVec.ofNat 8 (4 * v + 17), true⟩ ∧
          (∀ r c, t.readCell .cmat r c = t.readCell .wmat r c) ∧
          (∀ k, dataCodewords v l ≤ k → t.readByte .cwbuf k = s.readByte .cwbuf k) ∧
          (∀ k, totalCodewords v ≤ k → t.readByte .final k = s.readByte .final k) ∧
          (∀ k, t.readByte .ibuf k = s.readByte .ibuf k ∧ t.readByte .segdata k = s.readByte .segdata k)

/-- R407: a successful BUILD leaves what its six stages, issued one after the other, leave, and commits: CMAT, OUTMETA and
RESULT are the only differences. -/
def Obligations.BuildEqualsItsStages : Prop :=
  ∀ (s s1 s2 s3 s4 s5 s6 : State) (ver : BitVec 6) (ec : BitVec 3), Inv s → s.status.err = false →
    exec (.bitstream ver ec) s = .next s1 → s1.status.err = false →
    exec (.eccInterleave s1.streamMeta.sver ec) s1 = .next s2 →
    exec (.matrixInit s1.streamMeta.sver) s2 = .next s3 →
    exec .place s3 = .next s4 →
    exec .maskSelect s4 = .next s5 →
    exec (.fmtInsert ec s5.matMeta.mmask) s5 = .next s6 →
    ∃ t, exec (.build ver ec) s = .next t ∧ t.status.err = false ∧
      { t with cmat := s6.cmat } =
        { s6 with
          outMeta := ⟨s1.streamMeta.sver, ec, s5.matMeta.mmask,
            BitVec.ofNat 8 (4 * s1.streamMeta.sver.toNat + 17), true⟩
          result := s1.streamMeta.sver.setWidth 32 } ∧
      ∀ r c, t.readCell .cmat r c = s6.readCell .wmat r c

/-- R335, R257 and R319: after a successful BUILD every committed cell inside the symbol has P = 0, every other is 0, the F
bits are the template's, the finder, timing, alignment and dark modules are as MATRIX_INIT drew them, and both format
copies (coordinates in `FmtInsertCommand`) hold the word that decodes to the EC code and mask of OUTMETA. -/
def Obligations.BuildOutputContract : Prop :=
  ∀ (s t : State) (ver : BitVec 6) (l : EcLevel), Inv s → s.status.err = false →
    exec (.build ver l.selector) s = .next t → t.status.err = false →
    let v := t.outMeta.ver.toNat
    t.outMeta.valid = true ∧ 1 ≤ v ∧ v ≤ 40 ∧ t.outMeta.side.toNat = 4 * v + 17 ∧ t.outMeta.ec = l.selector ∧
      (∀ r c, r < 4 * v + 17 → c < 4 * v + 17 →
        (t.readCell .cmat r c).p = false ∧ (t.readCell .cmat r c).f = (templateCell v r c).f ∧
        ((templateCell v r c).f = true → (templateCell v r c).p = false →
          t.readCell .cmat r c = templateCell v r c)) ∧
      (∀ r c, (4 * v + 17 ≤ r ∨ 4 * v + 17 ≤ c) → t.readCell .cmat r c = ⟨false, false, false⟩) ∧
      ∃ f : BitVec 15, (f ^^^ 0x5412#15).extractLsb' 10 5 = ecCode l ++ t.outMeta.mask ∧
        ∀ i < 15, (t.readCell .cmat (fp1 i).1 (fp1 i).2).v = f.getLsbD i ∧
          (t.readCell .cmat (fp2 v i).1 (fp2 v i).2).v = f.getLsbD i

/-- R336 and R408: the symbol BUILD commits depends on the segments, VER and EC alone; nothing else of the state before it
is seen, and a failing BUILD fails alike. -/
def Obligations.BuildDependsOnSegmentsOnly : Prop :=
  ∀ (s s' t t' : State) (ver : BitVec 6) (ec : BitVec 3), Inv s → Inv s' →
    s.status.err = false → s'.status.err = false → s.segtab = s'.segtab →
    (∀ e ∈ s.segtab, ∀ k < e.nbytes.toNat,
      s.readByte .segdata (e.off.toNat + k) = s'.readByte .segdata (e.off.toNat + k)) →
    exec (.build ver ec) s = .next t → exec (.build ver ec) s' = .next t' →
    t.status.err = t'.status.err ∧
      (t.status.err = true → t.status.errcode = t'.status.errcode ∧ t.errinfo = t'.errinfo) ∧
      (t.status.err = false → t.outMeta = t'.outMeta ∧ t.result = t'.result ∧ t.maskPen = t'.maskPen ∧
        ∀ r c, t.readCell .cmat r c = t'.readCell .cmat r c)

/-! ### Reset and the host interface -/

/-- R66, R390, R391 and R394: after either reset every register reads its reset value, the core is idle, `irq` is 0, the
segment table is empty and no memory byte or cell is one written before. SRST acts in every state, busy or fatal. The
agenda and the draw counters are the model's own (log entries 1, 3, 4). -/
def Obligations.ResetState : Prop :=
  ∀ s : State, ResetMoves s → ∃ t, step s = .next t ∧
    t.pending = none ∧ t.statusWord = 0 ∧ t.errinfo = 0 ∧ t.ctrlWord = 0x00001400 ∧ t.arg0 = 0 ∧ t.arg1 = 0 ∧
      t.lastcmd = 0 ∧ t.result = 0 ∧ t.bitlen = 0 ∧ t.segcountWord = 0 ∧ t.streamMetaWord = 0 ∧ t.matMetaWord = 0 ∧
      t.outMetaWord = 0 ∧ t.pen = ⟨0, 0, 0, 0, 0⟩ ∧ t.cap = ⟨0, 0, 0, 0, 0⟩ ∧ (∀ m, (h : m < 8) → t.maskPen[m] = 0) ∧
      t.irq = false ∧ t.csrRead 0x00 = 0x51524331 ∧ t.csrRead 0x04 = 0 ∧ (∀ k, t.segtabByte k = 0) ∧
      t.resets = s.resets + 1 ∧ (∀ b k, t.readByte b k = Config.freeByte b t.resets k) ∧
      ∀ mm r c, r < 177 → c < 177 → t.readCell mm r c = Config.freeCell mm t.resets (177 * r + c)

/-- R34 to R51: a 32-bit read of the CSR region returns the register at its offset, in every state; the fields of the packed
registers stand where the rules put them and their reserved bits read 0. -/
def Obligations.CsrReadsReturnRegisters : Prop :=
  ∀ (s u : State) (o : Nat) (x : Word), o < 0x100 → o % 4 = 0 →
    HostMoves s ⟨false, BitVec.ofNat 18 o, 2, x⟩ u →
    ∃ t d, step s = .next t ∧ t.reply = ⟨true, false, some d⟩ ∧ { t with reply := u.reply, draws := u.draws } = u ∧
      (o = 0x00 → d = 0x51524331) ∧ (o = 0x04 → d = 0) ∧
      (o = 0x08 → d.toNat = u.busy.toNat + 2 * u.status.done.toNat + 4 * u.status.err.toNat +
        8 * u.status.fatal.toNat + 16 * u.status.werr.toNat + 256 * u.status.errcode.toNat) ∧
      (o = 0x0C → d = u.errinfo) ∧ (o = 0x10 → d.toNat = u.ctrl.ie.toNat + 256 * u.ctrl.minrun.toNat) ∧
      (o = 0x14 → d = u.arg0) ∧ (o = 0x18 → d = u.arg1) ∧ (o = 0x1C → d = u.lastcmd) ∧ (o = 0x20 → d = u.result) ∧
      (o = 0x24 → d = u.bitlen) ∧
      (o = 0x28 → u.segtab.length ≤ 64 → d.toNat = u.segtab.length + 2 ^ 16 * u.segused.toNat) ∧
      (o = 0x2C → d.toNat = u.streamMeta.sver.toNat + 2 ^ 8 * u.streamMeta.sec.toNat +
        2 ^ 31 * u.streamMeta.svalid.toNat) ∧
      (o = 0x30 → d.toNat = u.matMeta.mver.toNat + 2 ^ 12 * u.matMeta.mmask.toNat +
        2 ^ 15 * u.matMeta.mmasked.toNat + 2 ^ 16 * u.matMeta.fmtdone.toNat) ∧
      (o = 0x34 → d.toNat = u.outMeta.ver.toNat + 2 ^ 8 * u.outMeta.ec.toNat + 2 ^ 12 * u.outMeta.mask.toNat +
        2 ^ 16 * u.outMeta.side.toNat + 2 ^ 31 * u.outMeta.valid.toNat) ∧
      (o = 0x38 → d = u.pen.pen1) ∧ (o = 0x3C → d = u.pen.pen2) ∧ (o = 0x40 → d = u.pen.pen3) ∧
      (o = 0x44 → d = u.pen.pen4) ∧ (o = 0x48 → d = u.pen.pentot) ∧ (o = 0x4C → d = u.cap.cap0) ∧
      (o = 0x50 → d = u.cap.cap1) ∧ (o = 0x54 → d = u.cap.cap2) ∧ (o = 0x58 → d = u.cap.cap3) ∧
      (o = 0x5C → d = u.cap.cap4) ∧ (∀ m, (h : m < 8) → o = 0x60 + 4 * m → d = u.maskPen[m]) ∧ (0x80 ≤ o → d = 0)

/-- R37, R38, R40, R51 and R88 in the idle state, R402 while busy: what a CSR write changes, and that a write to a read-only
register or a reserved offset is ignored, answered with err = 0 (log entry 6). CMD and SRST apart (`CommandLifecycle`,
`ResetState`). -/
def Obligations.CsrWrites : Prop :=
  ∀ (s u : State) (o : Nat) (x : Word), o < 0x100 → o % 4 = 0 →
    HostMoves s ⟨true, BitVec.ofNat 18 o, 2, x⟩ u →
    ∃ t d, step s = .next { t with reply := ⟨true, false, d⟩ } ∧
      (o = 0x08 → t = { u with status := {
        done := u.status.done && !x.getLsbD 1
        err := u.status.err && !x.getLsbD 2
        fatal := u.status.fatal
        werr := u.status.werr && !x.getLsbD 4
        errcode := if x.getLsbD 2 then 0 else u.status.errcode } }) ∧
      (o = 0x10 → x.getLsbD 1 = false → t = { u with ctrl := {
        ie := x.getLsbD 0
        minrun := if u.pending = none then x.extractLsb' 8 8 else u.ctrl.minrun } }) ∧
      (u.pending = none → o = 0x14 → t = { u with arg0 := x }) ∧
      (u.pending = none → o = 0x18 → t = { u with arg1 := x }) ∧
      (u.pending = none → o ∉ [0x04, 0x08, 0x10, 0x14, 0x18] → t = u)

/-- R81 to R86 and R362: an access that is unmapped, of an illegal width or misaligned is a bus error, answered with
err = 1, a read with rdata = 0, and changes nothing else; every other access is answered with err = 0. That a write to a
read-only region is among the latter (R88 to R91, over 93_implementation_defined.md section 1.3) is log entry 6. -/
def Obligations.BusErrorChangesNothing : Prop :=
  ∀ (s u : State) (a : Access), HostMoves s a u →
    (¬ LegalAccess a → ∃ d, step s = .next { u with reply := ⟨true, true, d⟩ } ∧ (a.we = false → d = some 0)) ∧
      (LegalAccess a → ∃ t d, step s = .next t ∧ t.reply = ⟨true, false, d⟩)

/-- R401: while BUSY every write but one to CTRL or STATUS is dropped: WERR is set, nothing else changes; while FATAL only a
CMD write is, and every other write acts as in the idle state; WERR stays until a STATUS write clears it or a reset. -/
def Obligations.DroppedWrites : Prop :=
  ∀ (s u : State),
    (∀ a : Access, HostMoves s a u → LegalAccess a → a.we = true →
      (u.pending ≠ none → a.addr ≠ 0x08 → a.addr ≠ 0x10 →
        ∃ d, step s = .next { u with status := { u.status with werr := true }, reply := ⟨true, false, d⟩ }) ∧
      (u.pending = none → u.status.fatal = true → a.addr = 0x04 →
        ∃ d, step s = .next { u with status := { u.status with werr := true }, reply := ⟨true, false, d⟩ }) ∧
      (u.pending = none → a.addr ≠ 0x04 → ∀ t, step s = .next t →
        step { s with status := { s.status with fatal := false } } =
          .next { t with status := { t.status with fatal := false } })) ∧
    ∀ t, Inv s → s.status.werr = true → step s = .next t →
      t.status.werr = true ∨ ResetMoves s ∨
        ∃ rest a, s.agenda = .host a :: rest ∧ a.we = true ∧ a.addr = 0x08 ∧ a.wdata.getLsbD 4 = true

/-- R82, R91, R95, R403 and R52, R53, R60, R61: an aligned access of 1, 2 or 4 bytes to a byte memory. A write in the idle
state writes exactly its bytes, least significant byte at the lowest address, SEGDATA ignoring it; a read, in every state,
returns every byte outside the pending command's write set. The model's choices: rdata is 0 above a narrow read's width (log
entry 7); a SEGDATA write is answered with err = 0, IBUF is in no write set (log entry 6), a word that decodes to no command
has none (log entry 5). -/
def Obligations.ByteMemoryAccess : Prop :=
  ∀ (s u : State) (b : ByteMem) (base z off : Nat) (x : Word),
    (base, b) ∈ [(0x2000, ByteMem.segdata), (0x4000, .ibuf), (0x6000, .cwbuf), (0x7000, .final)] →
    z ≤ 2 → off % 2 ^ z = 0 → off + 2 ^ z ≤ b.size →
    (u.pending = none → HostMoves s ⟨true, BitVec.ofNat 18 (base + off), BitVec.ofNat 2 z, x⟩ u →
      ∃ t d, step s = .next t ∧ t.setBytes b (u.bytes b) = { u with reply := ⟨true, false, d⟩ } ∧
        SameBytesBut b u t ∧ SameCells .wmat u t ∧ SameCells .cmat u t ∧
        ∀ k, t.readByte b k =
          if b ≠ .segdata ∧ off ≤ k ∧ k < off + 2 ^ z then x.extractLsb' (8 * (k - off)) 8 else u.readByte b k) ∧
    (HostMoves s ⟨false, BitVec.ofNat 18 (base + off), BitVec.ofNat 2 z, x⟩ u →
      ∃ t d, step s = .next t ∧ t.reply = ⟨true, false, some d⟩ ∧
        { t with reply := u.reply, draws := u.draws } = u ∧
        (∀ k < 2 ^ z, ¬ BusyWrites u (.bytes b) (off + k) → d.extractLsb' (8 * k) 8 = u.readByte b (off + k)) ∧
        ∀ k < 4, 2 ^ z ≤ k → d.extractLsb' (8 * k) 8 = 0)

/-- R58, R90, R95 and R403: an aligned access to a matrix window, of a cell for each byte. Cells outside 177 x 177 read 0
and ignore writes; bits 7 to 3 read 0 and are ignored on a write; CMAT ignores writes. Writes are stated of the idle state;
reads of every state, for WMAT while no command that writes it is pending. The model's choices: rdata is 0 above a narrow
read's width (log entry 7); a CMAT write is answered with err = 0 (log entry 6); a word that decodes to no command has an
empty write set (log entry 5). -/
def Obligations.MatrixWindowAccess : Prop :=
  ∀ (s u : State) (mm : MatMem) (base z r c : Nat) (x : Word),
    (base, mm) ∈ [(0x10000, MatMem.wmat), (0x20000, .cmat)] →
    z ≤ 2 → c % 2 ^ z = 0 → r ≤ 255 → c + 2 ^ z ≤ 256 →
    (u.pending = none → HostMoves s ⟨true, BitVec.ofNat 18 (base + r * 256 + c), BitVec.ofNat 2 z, x⟩ u →
      ∃ t d, step s = .next t ∧ { t with wmat := u.wmat } = { u with reply := ⟨true, false, d⟩ } ∧
        SameBytes u t ∧ SameCells .cmat u t ∧
        ∀ i j, t.readCell .wmat i j =
          if mm = .wmat ∧ i = r ∧ c ≤ j ∧ j < c + 2 ^ z ∧ r < 177 ∧ j < 177 then
            ⟨x.getLsbD (8 * (j - c)), x.getLsbD (8 * (j - c) + 1), x.getLsbD (8 * (j - c) + 2)⟩
          else u.readCell .wmat i j) ∧
    (HostMoves s ⟨false, BitVec.ofNat 18 (base + r * 256 + c), BitVec.ofNat 2 z, x⟩ u →
      ∃ t d, step s = .next t ∧ t.reply = ⟨true, false, some d⟩ ∧
        { t with reply := u.reply, draws := u.draws } = u ∧
        (∀ k < 2 ^ z, ¬ BusyWrites u (.matrix mm) (r * 256 + c + k) →
          (d.extractLsb' (8 * k) 8).toNat =
            if r < 177 ∧ c + k < 177 then
              (u.readCell mm r (c + k)).v.toNat + 2 * (u.readCell mm r (c + k)).f.toNat +
                4 * (u.readCell mm r (c + k)).p.toNat
            else 0) ∧
        ∀ k < 4, 2 ^ z ≤ k → d.extractLsb' (8 * k) 8 = 0)

/-- R54, R89, R95 and R403: the SEGTAB view. A read, in every state but while a CLEAR or an APPEND is pending, returns
entry k's two words, 0 at and above NSEG, narrower reads their bytes; a write in the idle state is ignored. The model's
choices: rdata is 0 above a narrow read's width (log entry 7); the write is answered with err = 0 (log entry 6); a word that
decodes to no command has an empty write set (log entry 5). -/
def Obligations.SegmentTableView : Prop :=
  ∀ (s u : State) (z off : Nat) (x : Word), z ≤ 2 → off % 2 ^ z = 0 → off + 2 ^ z ≤ 512 →
    (u.pending = none → HostMoves s ⟨true, BitVec.ofNat 18 (0x1000 + off), BitVec.ofNat 2 z, x⟩ u →
      ∃ d, step s = .next { u with reply := ⟨true, false, d⟩ }) ∧
    (HostMoves s ⟨false, BitVec.ofNat 18 (0x1000 + off), BitVec.ofNat 2 z, x⟩ u →
      ∃ t d, step s = .next t ∧ t.reply = ⟨true, false, some d⟩ ∧
        { t with reply := u.reply, draws := u.draws } = u ∧
        (¬ BusyWrites u .segtab off →
          (u.segtab.length ≤ off / 8 → d = 0) ∧
          ∀ h : off / 8 < u.segtab.length,
            let e := u.segtab[off / 8]
            d.toNat = (e.mode.code.toNat + 2 ^ 16 * e.nchars.toNat + 2 ^ 32 * e.off.toNat + 2 ^ 48 * e.nbytes.toNat)
              / 2 ^ (8 * (off % 8)) % 2 ^ (8 * 2 ^ z)))

/-- R92 and R403: a read changes nothing but the port's outputs, in every state, so an idle core's read repeated gives the
same result. The draw counter is the model's own (log entry 4, which follows R95 for the busy window). -/
def Obligations.ReadsHaveNoSideEffect : Prop :=
  ∀ (s : State) (a : Access) (rest : List Move), a.we = false → s.agenda = .host a :: rest →
    ∃ t, step s = .next t ∧ { t with reply := s.reply, draws := s.draws } = { s with agenda := rest } ∧
      (s.pending = none → ∀ rest', rest = .host a :: rest' → ∃ t', step t = .next t' ∧ t'.reply = t.reply)

/-! ### Whole-machine rules -/

/-- R96 and R56: CMAT and OUTMETA change only by a reset (R391, R66) or at the completion of a BUILD that ends with DONE, and
a read of a CMAT cell returns it exactly in every state, a running BUILD's busy window included. That rdata is 0 above the
byte read is the model's choice (log entry 7). -/
def Obligations.CommittedMatrixFrozen : Prop :=
  (∀ s t : State, Inv s → step s = .next t →
    (t.outMeta = s.outMeta ∧ SameCells .cmat s t) ∨ ResetMoves s ∨
      ((∃ ver ec, Completes s (.build ver ec)) ∧ t.status.done = true)) ∧
    ∀ (s u : State) (r c : Nat) (x : Word), r < 177 → c < 177 →
      HostMoves s ⟨false, BitVec.ofNat 18 (0x20000 + r * 256 + c), 0, x⟩ u →
      ∃ t d, step s = .next t ∧ t.reply = ⟨true, false, some d⟩ ∧
        d.toNat = (u.readCell .cmat r c).v.toNat + 2 * (u.readCell .cmat r c).f.toNat +
          4 * (u.readCell .cmat r c).p.toNat

/-- R64, R65 and R356: FATAL is set only by a completion with ERR_INTERNAL and cleared only by a reset, and while it is set
no command is accepted. -/
def Obligations.FatalUntilReset : Prop :=
  ∀ s t : State, Inv s → step s = .next t →
    (s.status.fatal = false → t.status.fatal = true →
      (∃ u, CoreMoves s u) ∧ s.pending ≠ none ∧ t.status.err = true ∧ t.status.errcode = 0x08) ∧
    (s.status.fatal = true → ¬ ResetMoves s → t.status.fatal = true ∧ t.pending = none ∧ t.lastcmd = s.lastcmd)

/-- R53 and R54: until a CLEAR or a reset, no step changes an entry of the segment table below NSEG or a byte of SEGDATA
below SEGUSED. -/
def Obligations.SegmentsAreImmutable : Prop :=
  ∀ s t : State, Inv s → step s = .next t → ¬ ResetMoves s → ¬ Completes s .clear →
    s.segtab <+: t.segtab ∧ s.segused.toNat ≤ t.segused.toNat ∧
      ∀ k < s.segused.toNat, t.readByte .segdata k = s.readByte .segdata k

/-- Which items a command's completion may write (R37, R40 to R50, R52, R55, R60, R61): every other command leaves the
register or memory as it was. -/
def Obligations.OnlyNamedCommandsWrite : Prop :=
  ∀ (i : Instr) (s t : State), exec i s = .next t →
    t.arg0 = s.arg0 ∧ t.arg1 = s.arg1 ∧ t.ctrl = s.ctrl ∧ t.lastcmd = s.lastcmd ∧ t.ibuf = s.ibuf ∧
      t.status.werr = s.status.werr ∧ t.reply = s.reply ∧ t.agenda = s.agenda ∧ t.resets = s.resets ∧
      (t.result ≠ s.result → match i with
        | .gfMul _ _ | .gfExp _ | .gfLog _ | .bitstream _ _ | .build _ _ | .maskSelect | .fmtCalc _ _ | .verCalc _ => True
        | _ => False) ∧
      ((t.bitlen, t.streamMeta) ≠ (s.bitlen, s.streamMeta) → match i with
        | .bitstream _ _ | .build _ _ => True
        | _ => False) ∧
      ((t.segtab, t.segused, t.segdata) ≠ (s.segtab, s.segused, s.segdata) → match i with
        | .clear | .append _ => True
        | _ => False) ∧
      ((t.matMeta, t.wmat) ≠ (s.matMeta, s.wmat) → match i with
        | .matrixInit _ | .place | .maskSelect | .fmtInsert _ _ | .build _ _ => True
        | _ => False) ∧
      (t.pen ≠ s.pen → ∃ m, i = .maskScore m) ∧ (t.cap ≠ s.cap → ∃ ver ec, i = .capq ver ec) ∧
      (t.maskPen ≠ s.maskPen → match i with
        | .maskSelect | .build _ _ => True
        | _ => False) ∧
      ((t.outMeta, t.cmat) ≠ (s.outMeta, s.cmat) → ∃ ver ec, i = .build ver ec) ∧
      (t.cwbuf ≠ s.cwbuf → match i with
        | .gfGenpoly _ | .rsEnc _ _ | .bitstream _ _ | .build _ _ => True
        | _ => False) ∧
      (t.final ≠ s.final → match i with
        | .eccInterleave _ _ | .build _ _ => True
        | _ => False)

/-- R257 (2): no command but MATRIX_INIT (alone or in BUILD) changes a cell with F = 1, other than FMT_INSERT in the format
and version strips. -/
def Obligations.FunctionCellsSurvive : Prop :=
  ∀ (i : Instr) (s t : State), Inv s → exec i s = .next t → (∀ v, i ≠ .matrixInit v) → (∀ v e, i ≠ .build v e) →
    ∀ r c, (s.readCell .wmat r c).f = true →
      t.readCell .wmat r c = s.readCell .wmat r c ∨
        ((∃ ec m, i = .fmtInsert ec m) ∧ (r, c) ∈ stripCells s.matMeta.mver.toNat)

/-- R420 and R31: a pending command stays pending until, within the moves still on the agenda and one more step, either the
core takes its turn and completes it or a reset aborts it (R391), whatever the host does in between. That the moves to come
are an agenda, and that the core moves when it is empty, is the model's choice (log entry 1). -/
def Obligations.EveryCommandCompletes : Prop :=
  ∀ s : State, s.pending ≠ none →
    ∃ k ≤ s.agenda.length, ∃ u t, stepMany k s = some u ∧ u.pending = s.pending ∧ step u = .next t ∧ t.pending = none ∧
      ((∃ v, CoreMoves u v) ∧ (t.status.done = true ∨ t.status.err = true) ∨ ResetMoves u)

/-- The invariant holds after reset. -/
def Obligations.InvHoldsAtReset : Prop := Inv State.reset

/-- Every step keeps the invariant, from every state that has it: the memories' canonical form, the segment table's bounds,
the lifecycle flags and the metadata registers' ranges. -/
def Obligations.StepKeepsInv : Prop := ∀ s t : State, Inv s → step s = .next t → Inv t
end

