-- ==== Sys2Proof/Laws/BitStream.lean ====
section
/-! SUPPORT. Fields of the bit stream: where the bits of `bitsMsb` stand after an append (20_memory.md R93). -/
namespace Sys2Proof.Machine

@[simp] theorem length_bitsMsb (n x : Nat) : (bitsMsb n x).length = n := by simp [bitsMsb]

theorem getD_bitsMsb {n i : Nat} (x : Nat) (h : i < n) : (bitsMsb n x).getD i false = x.testBit (n - 1 - i) := by
  simp [bitsMsb, h]

/-- A field appended first stands at position 0. -/
theorem fieldAt_bitsMsb (n value : Nat) (rest : List Bool) : FieldAt (bitsMsb n value ++ rest) 0 n value := by
  intro i hi
  rw [Nat.zero_add, List.getD_append _ _ _ _ (by simpa using hi), getD_bitsMsb value hi]

/-- A field moves by the length of what stands before it. -/
theorem fieldAt_append {x y : List Bool} {pos width value : Nat} (h : FieldAt y pos width value) :
    FieldAt (x ++ y) (x.length + pos) width value := by
  intro i hi
  rw [← h i hi, Nat.add_assoc, List.getD_append_right _ _ _ _ (Nat.le_add_right _ _), Nat.add_sub_cancel_left]

end Sys2Proof.Machine
end

