-- ==== Sys2Proof/Laws/Operands.lean ====
section
/-! SUPPORT. What each operand check answers: the operand's value, or the error it raises. -/
namespace Sys2Proof.Machine

theorem versionFrom_ok {lo : Nat} {ver : BitVec 6} (h : lo ≤ ver.toNat) (h40 : ver.toNat ≤ 40) :
    versionFrom lo ver = .ok ver.toNat := by
  simp [versionFrom, h, h40]

theorem versionFrom_error {lo : Nat} {ver : BitVec 6} (h : ver.toNat < lo ∨ 40 < ver.toNat) :
    versionFrom lo ver = .error ⟨.config, 1⟩ := by
  unfold versionFrom
  rw [if_neg (by omega)]
  rfl

/-- A version check answers the version when it is legal, ERR_CONFIG 1 otherwise. -/
theorem versionFrom_cases (lo : Nat) (ver : BitVec 6) :
    (lo ≤ ver.toNat ∧ ver.toNat ≤ 40 ∧ versionFrom lo ver = .ok ver.toNat) ∨
      ((ver.toNat < lo ∨ 40 < ver.toNat) ∧ versionFrom lo ver = .error ⟨.config, 1⟩) := by
  by_cases h : lo ≤ ver.toNat ∧ ver.toNat ≤ 40
  · exact .inl ⟨h.1, h.2, versionFrom_ok h.1 h.2⟩
  · have : ver.toNat < lo ∨ 40 < ver.toNat := by omega
    exact .inr ⟨this, versionFrom_error this⟩

/-- The EC level a legal selector stands for; ERR_CONFIG 2 for 4 to 7. -/
theorem operandEc_cases (ec : BitVec 3) :
    (∃ l, ec.toNat ≤ 3 ∧ operandEc ec = .ok l) ∨ (3 < ec.toNat ∧ operandEc ec = .error ⟨.config, 2⟩) := by
  unfold operandEc
  split
  · exact .inl ⟨.L, by omega, rfl⟩
  · exact .inl ⟨.M, by omega, rfl⟩
  · exact .inl ⟨.Q, by omega, rfl⟩
  · exact .inl ⟨.H, by omega, rfl⟩
  · rename_i h0 h1 h2 h3
    have : ec.toNat ≠ 0 ∧ ec.toNat ≠ 1 ∧ ec.toNat ≠ 2 ∧ ec.toNat ≠ 3 := ⟨h0, h1, h2, h3⟩
    exact .inr ⟨by omega, rfl⟩

theorem operandEcCount_cases (e : BitVec 6) :
    (1 ≤ e.toNat ∧ e.toNat ≤ 30 ∧ operandEcCount e = .ok e.toNat) ∨
      ((e.toNat = 0 ∨ 30 < e.toNat) ∧ operandEcCount e = .error ⟨.config, 3⟩) := by
  by_cases h : e.toNat = 0 ∨ 30 < e.toNat
  · exact .inr ⟨h, by simp [operandEcCount, h, raise]⟩
  · exact .inl ⟨by omega, by omega, by simp only [operandEcCount, Config.rsMaxEc]; rw [if_neg (by omega)]⟩

theorem operandMode_cases (mode : BitVec 3) :
    (∃ hint, mode.toNat ≤ 4 ∧ operandMode mode = .ok hint) ∨
      (4 < mode.toNat ∧ operandMode mode = .error ⟨.config, 4⟩) := by
  unfold operandMode
  split
  · exact .inl ⟨.auto, by omega, rfl⟩
  · exact .inl ⟨.forced .numeric, by omega, rfl⟩
  · exact .inl ⟨.forced .alphanumeric, by omega, rfl⟩
  · exact .inl ⟨.forced .byte, by omega, rfl⟩
  · exact .inl ⟨.forced .kanji, by omega, rfl⟩
  · rename_i h0 h1 h2 h3 h4
    have : mode.toNat ≠ 0 ∧ mode.toNat ≠ 1 ∧ mode.toNat ≠ 2 ∧ mode.toNat ≠ 3 ∧ mode.toNat ≠ 4 := ⟨h0, h1, h2, h3, h4⟩
    exact .inr ⟨by omega, rfl⟩

theorem operandRange_cases (off : Word) (n size : Nat) (info : Word) :
    (off.toNat + n ≤ size ∧ operandRange off n size info = .ok off.toNat) ∨
      (size < off.toNat + n ∧ operandRange off n size info = .error ⟨.range, info⟩) := by
  unfold operandRange
  by_cases h : size < off.toNat + n
  · exact .inr ⟨h, by rw [if_pos h]; rfl⟩
  · exact .inl ⟨by omega, by rw [if_neg h]⟩

theorem operandMatrix_cases (s : State) :
    (s.matMeta.mver ≠ 0 ∧ operandMatrix s = .ok s.matMeta.mver.toNat) ∨
      (s.matMeta.mver = 0 ∧ operandMatrix s = .error ⟨.state, 1⟩) := by
  unfold operandMatrix
  by_cases h : s.matMeta.mver = 0
  · exact .inr ⟨h, by rw [if_pos h]; rfl⟩
  · exact .inl ⟨h, by rw [if_neg h]⟩

end Sys2Proof.Machine
end

