-- ==== Sys2Proof/Laws/Memory.lean ====
section
/-! SUPPORT. What the memory operations do: read after write, and that every operation keeps the canonical form. -/
namespace Sys2Proof.Machine.Memory

variable {α : Type} {free : Nat → α} {m : Memory α}

/-! ### Lookup and single writes -/

@[simp] theorem get?_nil (k : Nat) : get? ([] : Memory α) k = none := rfl

@[simp] theorem read_nil (k : Nat) : read free ([] : Memory α) k = free k := rfl

theorem get?_cons (i k : Nat) (y : α) (m : Memory α) : get? ((i, y) :: m) k = if k = i then some y else get? m k := by
  rw [get?]; by_cases h : i = k
  · rw [if_pos h, if_pos h.symm]
  · rw [if_neg h, if_neg (Ne.symm h)]

theorem get?_set (m : Memory α) (k j : Nat) (x : α) : get? (set m k x) j = if j = k then some x else get? m j := by
  induction m with
  | nil => rw [set, get?_cons]
  | cons cell rest ih =>
    obtain ⟨i, y⟩ := cell
    rw [set]
    split
    · rw [get?_cons]
    · split
      · rename_i _ heq
        subst heq
        rw [get?_cons, get?_cons]; split <;> rfl
      · rename_i _ hne
        rw [get?_cons, ih, get?_cons]
        by_cases hj : j = i
        · rw [if_pos hj, if_neg (by omega), if_pos hj]
        · rw [if_neg hj, if_neg hj]

@[simp] theorem get?_set_same (m : Memory α) (k : Nat) (x : α) : get? (set m k x) k = some x := by simp [get?_set]

theorem read_set (m : Memory α) (k j : Nat) (x : α) :
    read free (set m k x) j = if j = k then x else read free m j := by
  unfold read; rw [get?_set]; split <;> rfl

/-- An index below every listed one is not listed. -/
theorem get?_eq_none_of_lt {k : Nat} (h : ∀ cell ∈ m, k < cell.1) : get? m k = none := by
  induction m with
  | nil => rfl
  | cons cell rest ih =>
    have := h cell (by simp)
    rw [get?, if_neg (by omega)]
    exact ih fun c hc => h c (by simp [hc])

/-! ### The canonical form -/

theorem wf_nil (size : Nat) : wf size ([] : Memory α) := ⟨List.Pairwise.nil, fun _ h => absurd h List.not_mem_nil⟩

theorem mem_set {k : Nat} {x : α} {cell : Nat × α} (h : cell ∈ set m k x) : cell = (k, x) ∨ cell ∈ m := by
  induction m with
  | nil => simpa [set] using h
  | cons c rest ih =>
    obtain ⟨j, y⟩ := c
    simp only [set] at h
    split at h
    · simpa using h
    · split at h <;> simp only [List.mem_cons] at h ⊢
      · tauto
      · rcases h with h | h
        · tauto
        · have := ih h; tauto

theorem wf_set {size k : Nat} {x : α} (h : wf size m) (hk : k < size) : wf size (set m k x) := by
  obtain ⟨hs, hb⟩ := h
  refine ⟨?_, fun cell hc => ?_⟩
  · clear hb
    induction m with
    | nil => simp [set]
    | cons c rest ih =>
      obtain ⟨j, y⟩ := c
      rw [List.pairwise_cons] at hs
      simp only [set]
      split
      · rename_i hlt
        refine List.pairwise_cons.2 ⟨fun c hc => ?_, List.pairwise_cons.2 hs⟩
        rcases List.mem_cons.1 hc with rfl | hc
        · exact hlt
        · exact lt_trans hlt (hs.1 c hc)
      · split
        · rename_i _ heq
          subst heq
          exact List.pairwise_cons.2 ⟨hs.1, hs.2⟩
        · refine List.pairwise_cons.2 ⟨fun c hc => ?_, ih hs.2⟩
          rcases mem_set hc with rfl | hc
          · simp only; omega
          · exact hs.1 c hc
  · rcases mem_set hc with rfl | hc
    · exact hk
    · exact hb cell hc

/-! ### Numbered lists and range writes -/

theorem get?_number (xs : List α) (lo k : Nat) : get? (number lo xs) k = if lo ≤ k then xs[k - lo]? else none := by
  induction xs generalizing lo with
  | nil => simp [number]
  | cons x xs ih =>
    rw [number, get?_cons, ih]
    rcases Nat.lt_trichotomy lo k with h | h | h
    · obtain ⟨d, rfl⟩ : ∃ d, k = lo + 1 + d := ⟨k - lo - 1, by omega⟩
      simp [show lo + 1 + d - lo = d + 1 by omega, show ¬(lo + 1 + d = lo) by omega, show lo ≤ lo + 1 + d by omega]
    · subst h; simp
    · rw [if_neg (by omega), if_neg (by omega), if_neg (by omega)]

theorem mem_number {xs : List α} {lo : Nat} {cell : Nat × α} (h : cell ∈ number lo xs) :
    lo ≤ cell.1 ∧ cell.1 < lo + xs.length := by
  induction xs generalizing lo with
  | nil => simp [number] at h
  | cons x xs ih =>
    rcases List.mem_cons.1 h with rfl | h
    · simp
    · have := ih h; simp only [List.length_cons]; omega

theorem pairwise_number (xs : List α) (lo : Nat) : List.Pairwise (fun a b => a.1 < b.1) (number lo xs) := by
  induction xs generalizing lo with
  | nil => simp [number]
  | cons x xs ih => exact List.pairwise_cons.2 ⟨fun c hc => (mem_number hc).1, ih _⟩

theorem wf_number {size lo : Nat} {xs : List α} (h : lo + xs.length ≤ size) : wf size (number lo xs) :=
  ⟨pairwise_number xs lo, fun _ hc => lt_of_lt_of_le (mem_number hc).2 h⟩

theorem wf_writeList {size lo : Nat} {xs : List α} (h : wf size m) (hlo : lo + xs.length ≤ size) :
    wf size (writeList m lo xs) := by
  obtain ⟨hs, hb⟩ := h
  refine ⟨?_, fun cell hc => ?_⟩
  · refine List.pairwise_append.2 ⟨List.pairwise_append.2 ⟨hs.filter _, pairwise_number xs lo, ?_⟩, hs.filter _, ?_⟩
    · intro a ha b hb'
      have ha := (List.mem_filter.1 ha).2
      have hb' := (mem_number hb').1
      simp at ha; omega
    · intro a ha b hb'
      have hb' := (List.mem_filter.1 hb').2
      simp at hb'
      rcases List.mem_append.1 ha with ha | ha
      · have ha := (List.mem_filter.1 ha).2
        simp at ha; omega
      · have := (mem_number ha).2; omega
  · rcases List.mem_append.1 hc with hc | hc
    · rcases List.mem_append.1 hc with hc | hc
      · exact hb _ (List.mem_filter.1 hc).1
      · exact lt_of_lt_of_le (mem_number hc).2 hlo
    · exact hb _ (List.mem_filter.1 hc).1

theorem get?_append (a b : Memory α) (k : Nat) : get? (a ++ b) k = (get? a k).or (get? b k) := by
  induction a with
  | nil => rfl
  | cons cell rest ih =>
    obtain ⟨j, x⟩ := cell
    simp only [List.cons_append, get?]
    split <;> simp_all

theorem get?_filter (p : Nat → Bool) (k : Nat) :
    get? (m.filter fun cell => p cell.1) k = if p k then get? m k else none := by
  induction m with
  | nil => simp
  | cons cell rest ih =>
    obtain ⟨j, x⟩ := cell
    rw [List.filter_cons, get?_cons]
    by_cases hk : k = j
    · subst hk
      by_cases hp : p k = true
      · rw [if_pos hp, if_pos hp, get?_cons, if_pos rfl, if_pos rfl]
      · rw [if_neg hp, if_neg hp, ih, if_neg hp]
    · rw [if_neg hk]
      split
      · rw [get?_cons, if_neg hk, ih]
      · exact ih

/-- A range write: the values written inside the range, the old ones outside. -/
theorem get?_writeList (m : Memory α) (lo k : Nat) (xs : List α) :
    get? (writeList m lo xs) k = if lo ≤ k ∧ k < lo + xs.length then xs[k - lo]? else get? m k := by
  have h1 := get?_filter (m := m) (fun j => decide (j < lo)) k
  have h2 := get?_filter (m := m) (fun j => decide (lo + xs.length ≤ j)) k
  rw [writeList, get?_append, get?_append, h1, h2, get?_number]
  simp only [decide_eq_true_eq]
  rcases Nat.lt_or_ge k lo with h | h
  · rw [if_pos h, if_neg (by omega : ¬ lo ≤ k), if_neg (by omega : ¬ lo + xs.length ≤ k),
      if_neg (by omega : ¬(lo ≤ k ∧ k < lo + xs.length))]
    simp
  · rw [if_neg (by omega : ¬ k < lo), if_pos h]
    rcases Nat.lt_or_ge k (lo + xs.length) with h' | h'
    · rw [if_neg (by omega : ¬ lo + xs.length ≤ k), if_pos ⟨h, h'⟩]
      simp
    · rw [if_pos h', if_neg (by omega : ¬(lo ≤ k ∧ k < lo + xs.length)), List.getElem?_eq_none (by omega)]
      simp

theorem read_writeList (m : Memory α) (lo k : Nat) (xs : List α) :
    read free (writeList m lo xs) k
      = if h : lo ≤ k ∧ k < lo + xs.length then xs[k - lo]'(by omega) else read free m k := by
  unfold read
  rw [get?_writeList]
  by_cases h : lo ≤ k ∧ k < lo + xs.length
  · rw [if_pos h, dif_pos h, List.getElem?_eq_getElem (by omega), Option.getD_some]
  · rw [if_neg h, dif_neg h]

/-! ### Slices -/

theorem get?_skip (lo k : Nat) (m : Memory α) (h : lo ≤ k) : get? (skip lo m) k = get? m k := by
  induction m with
  | nil => rfl
  | cons cell rest ih =>
    obtain ⟨j, x⟩ := cell
    rw [skip]
    split
    · rw [ih, get?, if_neg (by omega)]
    · rfl

theorem skip_head {lo j : Nat} {x : α} {rest : Memory α} (h : skip lo m = (j, x) :: rest) : lo ≤ j := by
  induction m with
  | nil => simp [skip] at h
  | cons cell tail ih =>
    obtain ⟨i, y⟩ := cell
    rw [skip] at h
    split at h
    · exact ih h
    · rename_i hlt
      obtain ⟨⟨rfl, -⟩, -⟩ := by simpa using h
      omega

theorem pairwise_skip (lo : Nat) (h : List.Pairwise (fun a b => a.1 < b.1) m) :
    List.Pairwise (fun a b => a.1 < b.1) (skip lo m) := by
  induction m with
  | nil => simp [skip]
  | cons cell rest ih =>
    obtain ⟨j, x⟩ := cell
    rw [skip]
    split
    · exact ih (List.pairwise_cons.1 h).2
    · exact h

/-- A slice of a memory in canonical form lists the values read at its indexes. -/
theorem slice_eq_map_read (h : List.Pairwise (fun a b => a.1 < b.1) m) (lo n : Nat) :
    slice free m lo n = (List.range' lo n).map (read free m) := by
  induction n generalizing m lo with
  | zero => rfl
  | succ n ih =>
    have hskip := fun k hk => get?_skip lo k m hk
    have hread : ∀ k, lo ≤ k → read free m k = read free (skip lo m) k := fun k hk => by
      unfold read; rw [hskip k hk]
    have hp := pairwise_skip lo h
    rw [List.range'_succ, List.map_cons, hread lo (le_refl _), slice]
    have htail : (List.range' (lo + 1) n).map (read free m) = (List.range' (lo + 1) n).map (read free (skip lo m)) :=
      List.map_congr_left fun k hk => hread k (by have := List.mem_range'_1.1 hk; omega)
    rw [htail]
    cases hs : skip lo m with
    | nil => simp [ih, read_nil]
    | cons cell rest =>
      obtain ⟨j, x⟩ := cell
      have hj := skip_head hs
      rw [hs] at hp
      obtain ⟨hhead, hrest⟩ := List.pairwise_cons.1 hp
      simp only
      split
      · rename_i heq
        subst heq
        congr 1
        · simp [read, get?]
        · rw [ih hrest]
          refine List.map_congr_left fun k hk => ?_
          have := List.mem_range'_1.1 hk
          unfold read
          rw [get?, if_neg (by omega)]
      · congr 1
        · unfold read
          rw [get?, if_neg (by omega), get?_eq_none_of_lt (fun c hc => lt_of_le_of_lt hj (hhead c hc)), Option.getD_none]
        · exact ih hp (lo + 1)

@[simp] theorem length_slice (m : Memory α) (lo n : Nat) : (slice free m lo n).length = n := by
  induction n generalizing m lo with
  | zero => rfl
  | succ n ih =>
    rw [slice]
    split
    · simp [ih]
    · split <;> simp [ih]

end Sys2Proof.Machine.Memory
end

