-- ==== Sys2Proof/Laws/State.lean ====
section
/-! SUPPORT. For each named update of the state, what each field holds after it. -/
namespace Sys2Proof.Machine.State
open Sys2Proof.Config (ByteMem MatMem)

variable (s : State)


/-! ### `accept` -/

@[simp] theorem accept_pending (w : Word) : (s.accept w).pending = some w := rfl
@[simp] theorem accept_status (w : Word) : (s.accept w).status = { s.status with done := false, err := false, errcode := 0 } := rfl
@[simp] theorem accept_errinfo (w : Word) : (s.accept w).errinfo = 0 := rfl
@[simp] theorem accept_ctrl (w : Word) : (s.accept w).ctrl = s.ctrl := rfl
@[simp] theorem accept_arg0 (w : Word) : (s.accept w).arg0 = s.arg0 := rfl
@[simp] theorem accept_arg1 (w : Word) : (s.accept w).arg1 = s.arg1 := rfl
@[simp] theorem accept_lastcmd (w : Word) : (s.accept w).lastcmd = w := rfl
@[simp] theorem accept_result (w : Word) : (s.accept w).result = s.result := rfl
@[simp] theorem accept_bitlen (w : Word) : (s.accept w).bitlen = s.bitlen := rfl
@[simp] theorem accept_segtab (w : Word) : (s.accept w).segtab = s.segtab := rfl
@[simp] theorem accept_segused (w : Word) : (s.accept w).segused = s.segused := rfl
@[simp] theorem accept_streamMeta (w : Word) : (s.accept w).streamMeta = s.streamMeta := rfl
@[simp] theorem accept_matMeta (w : Word) : (s.accept w).matMeta = s.matMeta := rfl
@[simp] theorem accept_outMeta (w : Word) : (s.accept w).outMeta = s.outMeta := rfl
@[simp] theorem accept_pen (w : Word) : (s.accept w).pen = s.pen := rfl
@[simp] theorem accept_cap (w : Word) : (s.accept w).cap = s.cap := rfl
@[simp] theorem accept_maskPen (w : Word) : (s.accept w).maskPen = s.maskPen := rfl
@[simp] theorem accept_ibuf (w : Word) : (s.accept w).ibuf = s.ibuf := rfl
@[simp] theorem accept_segdata (w : Word) : (s.accept w).segdata = s.segdata := rfl
@[simp] theorem accept_cwbuf (w : Word) : (s.accept w).cwbuf = s.cwbuf := rfl
@[simp] theorem accept_final (w : Word) : (s.accept w).final = s.final := rfl
@[simp] theorem accept_wmat (w : Word) : (s.accept w).wmat = s.wmat := rfl
@[simp] theorem accept_cmat (w : Word) : (s.accept w).cmat = s.cmat := rfl
@[simp] theorem accept_reply (w : Word) : (s.accept w).reply = s.reply := rfl
@[simp] theorem accept_agenda (w : Word) : (s.accept w).agenda = s.agenda := rfl
@[simp] theorem accept_resets (w : Word) : (s.accept w).resets = s.resets := rfl
@[simp] theorem accept_draws (w : Word) : (s.accept w).draws = s.draws := rfl

/-! ### `complete` -/

@[simp] theorem complete_pending : (s.complete).pending = none := rfl
@[simp] theorem complete_status : (s.complete).status = { s.status with done := true } := rfl
@[simp] theorem complete_errinfo : (s.complete).errinfo = s.errinfo := rfl
@[simp] theorem complete_ctrl : (s.complete).ctrl = s.ctrl := rfl
@[simp] theorem complete_arg0 : (s.complete).arg0 = s.arg0 := rfl
@[simp] theorem complete_arg1 : (s.complete).arg1 = s.arg1 := rfl
@[simp] theorem complete_lastcmd : (s.complete).lastcmd = s.lastcmd := rfl
@[simp] theorem complete_result : (s.complete).result = s.result := rfl
@[simp] theorem complete_bitlen : (s.complete).bitlen = s.bitlen := rfl
@[simp] theorem complete_segtab : (s.complete).segtab = s.segtab := rfl
@[simp] theorem complete_segused : (s.complete).segused = s.segused := rfl
@[simp] theorem complete_streamMeta : (s.complete).streamMeta = s.streamMeta := rfl
@[simp] theorem complete_matMeta : (s.complete).matMeta = s.matMeta := rfl
@[simp] theorem complete_outMeta : (s.complete).outMeta = s.outMeta := rfl
@[simp] theorem complete_pen : (s.complete).pen = s.pen := rfl
@[simp] theorem complete_cap : (s.complete).cap = s.cap := rfl
@[simp] theorem complete_maskPen : (s.complete).maskPen = s.maskPen := rfl
@[simp] theorem complete_ibuf : (s.complete).ibuf = s.ibuf := rfl
@[simp] theorem complete_segdata : (s.complete).segdata = s.segdata := rfl
@[simp] theorem complete_cwbuf : (s.complete).cwbuf = s.cwbuf := rfl
@[simp] theorem complete_final : (s.complete).final = s.final := rfl
@[simp] theorem complete_wmat : (s.complete).wmat = s.wmat := rfl
@[simp] theorem complete_cmat : (s.complete).cmat = s.cmat := rfl
@[simp] theorem complete_reply : (s.complete).reply = s.reply := rfl
@[simp] theorem complete_agenda : (s.complete).agenda = s.agenda := rfl
@[simp] theorem complete_resets : (s.complete).resets = s.resets := rfl
@[simp] theorem complete_draws : (s.complete).draws = s.draws := rfl

/-! ### `raiseError` -/

@[simp] theorem raiseError_pending (e : CmdError) : (s.raiseError e).pending = none := rfl
@[simp] theorem raiseError_status (e : CmdError) : (s.raiseError e).status = { s.status with err := true, errcode := e.code.value, fatal := s.status.fatal || e.code == .internal } := rfl
@[simp] theorem raiseError_errinfo (e : CmdError) : (s.raiseError e).errinfo = e.info := rfl
@[simp] theorem raiseError_ctrl (e : CmdError) : (s.raiseError e).ctrl = s.ctrl := rfl
@[simp] theorem raiseError_arg0 (e : CmdError) : (s.raiseError e).arg0 = s.arg0 := rfl
@[simp] theorem raiseError_arg1 (e : CmdError) : (s.raiseError e).arg1 = s.arg1 := rfl
@[simp] theorem raiseError_lastcmd (e : CmdError) : (s.raiseError e).lastcmd = s.lastcmd := rfl
@[simp] theorem raiseError_result (e : CmdError) : (s.raiseError e).result = s.result := rfl
@[simp] theorem raiseError_bitlen (e : CmdError) : (s.raiseError e).bitlen = s.bitlen := rfl
@[simp] theorem raiseError_segtab (e : CmdError) : (s.raiseError e).segtab = s.segtab := rfl
@[simp] theorem raiseError_segused (e : CmdError) : (s.raiseError e).segused = s.segused := rfl
@[simp] theorem raiseError_streamMeta (e : CmdError) : (s.raiseError e).streamMeta = s.streamMeta := rfl
@[simp] theorem raiseError_matMeta (e : CmdError) : (s.raiseError e).matMeta = s.matMeta := rfl
@[simp] theorem raiseError_outMeta (e : CmdError) : (s.raiseError e).outMeta = s.outMeta := rfl
@[simp] theorem raiseError_pen (e : CmdError) : (s.raiseError e).pen = s.pen := rfl
@[simp] theorem raiseError_cap (e : CmdError) : (s.raiseError e).cap = s.cap := rfl
@[simp] theorem raiseError_maskPen (e : CmdError) : (s.raiseError e).maskPen = s.maskPen := rfl
@[simp] theorem raiseError_ibuf (e : CmdError) : (s.raiseError e).ibuf = s.ibuf := rfl
@[simp] theorem raiseError_segdata (e : CmdError) : (s.raiseError e).segdata = s.segdata := rfl
@[simp] theorem raiseError_cwbuf (e : CmdError) : (s.raiseError e).cwbuf = s.cwbuf := rfl
@[simp] theorem raiseError_final (e : CmdError) : (s.raiseError e).final = s.final := rfl
@[simp] theorem raiseError_wmat (e : CmdError) : (s.raiseError e).wmat = s.wmat := rfl
@[simp] theorem raiseError_cmat (e : CmdError) : (s.raiseError e).cmat = s.cmat := rfl
@[simp] theorem raiseError_reply (e : CmdError) : (s.raiseError e).reply = s.reply := rfl
@[simp] theorem raiseError_agenda (e : CmdError) : (s.raiseError e).agenda = s.agenda := rfl
@[simp] theorem raiseError_resets (e : CmdError) : (s.raiseError e).resets = s.resets := rfl
@[simp] theorem raiseError_draws (e : CmdError) : (s.raiseError e).draws = s.draws := rfl

/-! ### `clearError` -/

@[simp] theorem clearError_pending : (s.clearError).pending = s.pending := rfl
@[simp] theorem clearError_status : (s.clearError).status = { s.status with err := false, errcode := 0 } := rfl
@[simp] theorem clearError_errinfo : (s.clearError).errinfo = s.errinfo := rfl
@[simp] theorem clearError_ctrl : (s.clearError).ctrl = s.ctrl := rfl
@[simp] theorem clearError_arg0 : (s.clearError).arg0 = s.arg0 := rfl
@[simp] theorem clearError_arg1 : (s.clearError).arg1 = s.arg1 := rfl
@[simp] theorem clearError_lastcmd : (s.clearError).lastcmd = s.lastcmd := rfl
@[simp] theorem clearError_result : (s.clearError).result = s.result := rfl
@[simp] theorem clearError_bitlen : (s.clearError).bitlen = s.bitlen := rfl
@[simp] theorem clearError_segtab : (s.clearError).segtab = s.segtab := rfl
@[simp] theorem clearError_segused : (s.clearError).segused = s.segused := rfl
@[simp] theorem clearError_streamMeta : (s.clearError).streamMeta = s.streamMeta := rfl
@[simp] theorem clearError_matMeta : (s.clearError).matMeta = s.matMeta := rfl
@[simp] theorem clearError_outMeta : (s.clearError).outMeta = s.outMeta := rfl
@[simp] theorem clearError_pen : (s.clearError).pen = s.pen := rfl
@[simp] theorem clearError_cap : (s.clearError).cap = s.cap := rfl
@[simp] theorem clearError_maskPen : (s.clearError).maskPen = s.maskPen := rfl
@[simp] theorem clearError_ibuf : (s.clearError).ibuf = s.ibuf := rfl
@[simp] theorem clearError_segdata : (s.clearError).segdata = s.segdata := rfl
@[simp] theorem clearError_cwbuf : (s.clearError).cwbuf = s.cwbuf := rfl
@[simp] theorem clearError_final : (s.clearError).final = s.final := rfl
@[simp] theorem clearError_wmat : (s.clearError).wmat = s.wmat := rfl
@[simp] theorem clearError_cmat : (s.clearError).cmat = s.cmat := rfl
@[simp] theorem clearError_reply : (s.clearError).reply = s.reply := rfl
@[simp] theorem clearError_agenda : (s.clearError).agenda = s.agenda := rfl
@[simp] theorem clearError_resets : (s.clearError).resets = s.resets := rfl
@[simp] theorem clearError_draws : (s.clearError).draws = s.draws := rfl

/-! ### `dropWrite` -/

@[simp] theorem dropWrite_pending : (s.dropWrite).pending = s.pending := rfl
@[simp] theorem dropWrite_status : (s.dropWrite).status = { s.status with werr := true } := rfl
@[simp] theorem dropWrite_errinfo : (s.dropWrite).errinfo = s.errinfo := rfl
@[simp] theorem dropWrite_ctrl : (s.dropWrite).ctrl = s.ctrl := rfl
@[simp] theorem dropWrite_arg0 : (s.dropWrite).arg0 = s.arg0 := rfl
@[simp] theorem dropWrite_arg1 : (s.dropWrite).arg1 = s.arg1 := rfl
@[simp] theorem dropWrite_lastcmd : (s.dropWrite).lastcmd = s.lastcmd := rfl
@[simp] theorem dropWrite_result : (s.dropWrite).result = s.result := rfl
@[simp] theorem dropWrite_bitlen : (s.dropWrite).bitlen = s.bitlen := rfl
@[simp] theorem dropWrite_segtab : (s.dropWrite).segtab = s.segtab := rfl
@[simp] theorem dropWrite_segused : (s.dropWrite).segused = s.segused := rfl
@[simp] theorem dropWrite_streamMeta : (s.dropWrite).streamMeta = s.streamMeta := rfl
@[simp] theorem dropWrite_matMeta : (s.dropWrite).matMeta = s.matMeta := rfl
@[simp] theorem dropWrite_outMeta : (s.dropWrite).outMeta = s.outMeta := rfl
@[simp] theorem dropWrite_pen : (s.dropWrite).pen = s.pen := rfl
@[simp] theorem dropWrite_cap : (s.dropWrite).cap = s.cap := rfl
@[simp] theorem dropWrite_maskPen : (s.dropWrite).maskPen = s.maskPen := rfl
@[simp] theorem dropWrite_ibuf : (s.dropWrite).ibuf = s.ibuf := rfl
@[simp] theorem dropWrite_segdata : (s.dropWrite).segdata = s.segdata := rfl
@[simp] theorem dropWrite_cwbuf : (s.dropWrite).cwbuf = s.cwbuf := rfl
@[simp] theorem dropWrite_final : (s.dropWrite).final = s.final := rfl
@[simp] theorem dropWrite_wmat : (s.dropWrite).wmat = s.wmat := rfl
@[simp] theorem dropWrite_cmat : (s.dropWrite).cmat = s.cmat := rfl
@[simp] theorem dropWrite_reply : (s.dropWrite).reply = s.reply := rfl
@[simp] theorem dropWrite_agenda : (s.dropWrite).agenda = s.agenda := rfl
@[simp] theorem dropWrite_resets : (s.dropWrite).resets = s.resets := rfl
@[simp] theorem dropWrite_draws : (s.dropWrite).draws = s.draws := rfl

/-! ### `setBytes` -/

@[simp] theorem setBytes_pending (b : ByteMem) (m : Memory Byte) : (s.setBytes b m).pending = s.pending := by cases b <;> rfl
@[simp] theorem setBytes_status (b : ByteMem) (m : Memory Byte) : (s.setBytes b m).status = s.status := by cases b <;> rfl
@[simp] theorem setBytes_errinfo (b : ByteMem) (m : Memory Byte) : (s.setBytes b m).errinfo = s.errinfo := by cases b <;> rfl
@[simp] theorem setBytes_ctrl (b : ByteMem) (m : Memory Byte) : (s.setBytes b m).ctrl = s.ctrl := by cases b <;> rfl
@[simp] theorem setBytes_arg0 (b : ByteMem) (m : Memory Byte) : (s.setBytes b m).arg0 = s.arg0 := by cases b <;> rfl
@[simp] theorem setBytes_arg1 (b : ByteMem) (m : Memory Byte) : (s.setBytes b m).arg1 = s.arg1 := by cases b <;> rfl
@[simp] theorem setBytes_lastcmd (b : ByteMem) (m : Memory Byte) : (s.setBytes b m).lastcmd = s.lastcmd := by cases b <;> rfl
@[simp] theorem setBytes_result (b : ByteMem) (m : Memory Byte) : (s.setBytes b m).result = s.result := by cases b <;> rfl
@[simp] theorem setBytes_bitlen (b : ByteMem) (m : Memory Byte) : (s.setBytes b m).bitlen = s.bitlen := by cases b <;> rfl
@[simp] theorem setBytes_segtab (b : ByteMem) (m : Memory Byte) : (s.setBytes b m).segtab = s.segtab := by cases b <;> rfl
@[simp] theorem setBytes_segused (b : ByteMem) (m : Memory Byte) : (s.setBytes b m).segused = s.segused := by cases b <;> rfl
@[simp] theorem setBytes_streamMeta (b : ByteMem) (m : Memory Byte) : (s.setBytes b m).streamMeta = s.streamMeta := by cases b <;> rfl
@[simp] theorem setBytes_matMeta (b : ByteMem) (m : Memory Byte) : (s.setBytes b m).matMeta = s.matMeta := by cases b <;> rfl
@[simp] theorem setBytes_outMeta (b : ByteMem) (m : Memory Byte) : (s.setBytes b m).outMeta = s.outMeta := by cases b <;> rfl
@[simp] theorem setBytes_pen (b : ByteMem) (m : Memory Byte) : (s.setBytes b m).pen = s.pen := by cases b <;> rfl
@[simp] theorem setBytes_cap (b : ByteMem) (m : Memory Byte) : (s.setBytes b m).cap = s.cap := by cases b <;> rfl
@[simp] theorem setBytes_maskPen (b : ByteMem) (m : Memory Byte) : (s.setBytes b m).maskPen = s.maskPen := by cases b <;> rfl
@[simp] theorem setBytes_wmat (b : ByteMem) (m : Memory Byte) : (s.setBytes b m).wmat = s.wmat := by cases b <;> rfl
@[simp] theorem setBytes_cmat (b : ByteMem) (m : Memory Byte) : (s.setBytes b m).cmat = s.cmat := by cases b <;> rfl
@[simp] theorem setBytes_reply (b : ByteMem) (m : Memory Byte) : (s.setBytes b m).reply = s.reply := by cases b <;> rfl
@[simp] theorem setBytes_agenda (b : ByteMem) (m : Memory Byte) : (s.setBytes b m).agenda = s.agenda := by cases b <;> rfl
@[simp] theorem setBytes_resets (b : ByteMem) (m : Memory Byte) : (s.setBytes b m).resets = s.resets := by cases b <;> rfl
@[simp] theorem setBytes_draws (b : ByteMem) (m : Memory Byte) : (s.setBytes b m).draws = s.draws := by cases b <;> rfl
@[simp] theorem setBytes_bytes (b d : ByteMem) (m : Memory Byte) : (s.setBytes b m).bytes d = if d = b then m else s.bytes d := by
  cases b <;> cases d <;> rfl

/-! ### `writeByte` -/

@[simp] theorem writeByte_pending (b : ByteMem) (k : Nat) (x : Byte) : (s.writeByte b k x).pending = s.pending := setBytes_pending ..
@[simp] theorem writeByte_status (b : ByteMem) (k : Nat) (x : Byte) : (s.writeByte b k x).status = s.status := setBytes_status ..
@[simp] theorem writeByte_errinfo (b : ByteMem) (k : Nat) (x : Byte) : (s.writeByte b k x).errinfo = s.errinfo := setBytes_errinfo ..
@[simp] theorem writeByte_ctrl (b : ByteMem) (k : Nat) (x : Byte) : (s.writeByte b k x).ctrl = s.ctrl := setBytes_ctrl ..
@[simp] theorem writeByte_arg0 (b : ByteMem) (k : Nat) (x : Byte) : (s.writeByte b k x).arg0 = s.arg0 := setBytes_arg0 ..
@[simp] theorem writeByte_arg1 (b : ByteMem) (k : Nat) (x : Byte) : (s.writeByte b k x).arg1 = s.arg1 := setBytes_arg1 ..
@[simp] theorem writeByte_lastcmd (b : ByteMem) (k : Nat) (x : Byte) : (s.writeByte b k x).lastcmd = s.lastcmd := setBytes_lastcmd ..
@[simp] theorem writeByte_result (b : ByteMem) (k : Nat) (x : Byte) : (s.writeByte b k x).result = s.result := setBytes_result ..
@[simp] theorem writeByte_bitlen (b : ByteMem) (k : Nat) (x : Byte) : (s.writeByte b k x).bitlen = s.bitlen := setBytes_bitlen ..
@[simp] theorem writeByte_segtab (b : ByteMem) (k : Nat) (x : Byte) : (s.writeByte b k x).segtab = s.segtab := setBytes_segtab ..
@[simp] theorem writeByte_segused (b : ByteMem) (k : Nat) (x : Byte) : (s.writeByte b k x).segused = s.segused := setBytes_segused ..
@[simp] theorem writeByte_streamMeta (b : ByteMem) (k : Nat) (x : Byte) : (s.writeByte b k x).streamMeta = s.streamMeta := setBytes_streamMeta ..
@[simp] theorem writeByte_matMeta (b : ByteMem) (k : Nat) (x : Byte) : (s.writeByte b k x).matMeta = s.matMeta := setBytes_matMeta ..
@[simp] theorem writeByte_outMeta (b : ByteMem) (k : Nat) (x : Byte) : (s.writeByte b k x).outMeta = s.outMeta := setBytes_outMeta ..
@[simp] theorem writeByte_pen (b : ByteMem) (k : Nat) (x : Byte) : (s.writeByte b k x).pen = s.pen := setBytes_pen ..
@[simp] theorem writeByte_cap (b : ByteMem) (k : Nat) (x : Byte) : (s.writeByte b k x).cap = s.cap := setBytes_cap ..
@[simp] theorem writeByte_maskPen (b : ByteMem) (k : Nat) (x : Byte) : (s.writeByte b k x).maskPen = s.maskPen := setBytes_maskPen ..
@[simp] theorem writeByte_wmat (b : ByteMem) (k : Nat) (x : Byte) : (s.writeByte b k x).wmat = s.wmat := setBytes_wmat ..
@[simp] theorem writeByte_cmat (b : ByteMem) (k : Nat) (x : Byte) : (s.writeByte b k x).cmat = s.cmat := setBytes_cmat ..
@[simp] theorem writeByte_reply (b : ByteMem) (k : Nat) (x : Byte) : (s.writeByte b k x).reply = s.reply := setBytes_reply ..
@[simp] theorem writeByte_agenda (b : ByteMem) (k : Nat) (x : Byte) : (s.writeByte b k x).agenda = s.agenda := setBytes_agenda ..
@[simp] theorem writeByte_resets (b : ByteMem) (k : Nat) (x : Byte) : (s.writeByte b k x).resets = s.resets := setBytes_resets ..
@[simp] theorem writeByte_draws (b : ByteMem) (k : Nat) (x : Byte) : (s.writeByte b k x).draws = s.draws := setBytes_draws ..

/-! ### `writeBytes` -/

@[simp] theorem writeBytes_pending (b : ByteMem) (off : Nat) (xs : List Byte) : (s.writeBytes b off xs).pending = s.pending := setBytes_pending ..
@[simp] theorem writeBytes_status (b : ByteMem) (off : Nat) (xs : List Byte) : (s.writeBytes b off xs).status = s.status := setBytes_status ..
@[simp] theorem writeBytes_errinfo (b : ByteMem) (off : Nat) (xs : List Byte) : (s.writeBytes b off xs).errinfo = s.errinfo := setBytes_errinfo ..
@[simp] theorem writeBytes_ctrl (b : ByteMem) (off : Nat) (xs : List Byte) : (s.writeBytes b off xs).ctrl = s.ctrl := setBytes_ctrl ..
@[simp] theorem writeBytes_arg0 (b : ByteMem) (off : Nat) (xs : List Byte) : (s.writeBytes b off xs).arg0 = s.arg0 := setBytes_arg0 ..
@[simp] theorem writeBytes_arg1 (b : ByteMem) (off : Nat) (xs : List Byte) : (s.writeBytes b off xs).arg1 = s.arg1 := setBytes_arg1 ..
@[simp] theorem writeBytes_lastcmd (b : ByteMem) (off : Nat) (xs : List Byte) : (s.writeBytes b off xs).lastcmd = s.lastcmd := setBytes_lastcmd ..
@[simp] theorem writeBytes_result (b : ByteMem) (off : Nat) (xs : List Byte) : (s.writeBytes b off xs).result = s.result := setBytes_result ..
@[simp] theorem writeBytes_bitlen (b : ByteMem) (off : Nat) (xs : List Byte) : (s.writeBytes b off xs).bitlen = s.bitlen := setBytes_bitlen ..
@[simp] theorem writeBytes_segtab (b : ByteMem) (off : Nat) (xs : List Byte) : (s.writeBytes b off xs).segtab = s.segtab := setBytes_segtab ..
@[simp] theorem writeBytes_segused (b : ByteMem) (off : Nat) (xs : List Byte) : (s.writeBytes b off xs).segused = s.segused := setBytes_segused ..
@[simp] theorem writeBytes_streamMeta (b : ByteMem) (off : Nat) (xs : List Byte) : (s.writeBytes b off xs).streamMeta = s.streamMeta := setBytes_streamMeta ..
@[simp] theorem writeBytes_matMeta (b : ByteMem) (off : Nat) (xs : List Byte) : (s.writeBytes b off xs).matMeta = s.matMeta := setBytes_matMeta ..
@[simp] theorem writeBytes_outMeta (b : ByteMem) (off : Nat) (xs : List Byte) : (s.writeBytes b off xs).outMeta = s.outMeta := setBytes_outMeta ..
@[simp] theorem writeBytes_pen (b : ByteMem) (off : Nat) (xs : List Byte) : (s.writeBytes b off xs).pen = s.pen := setBytes_pen ..
@[simp] theorem writeBytes_cap (b : ByteMem) (off : Nat) (xs : List Byte) : (s.writeBytes b off xs).cap = s.cap := setBytes_cap ..
@[simp] theorem writeBytes_maskPen (b : ByteMem) (off : Nat) (xs : List Byte) : (s.writeBytes b off xs).maskPen = s.maskPen := setBytes_maskPen ..
@[simp] theorem writeBytes_wmat (b : ByteMem) (off : Nat) (xs : List Byte) : (s.writeBytes b off xs).wmat = s.wmat := setBytes_wmat ..
@[simp] theorem writeBytes_cmat (b : ByteMem) (off : Nat) (xs : List Byte) : (s.writeBytes b off xs).cmat = s.cmat := setBytes_cmat ..
@[simp] theorem writeBytes_reply (b : ByteMem) (off : Nat) (xs : List Byte) : (s.writeBytes b off xs).reply = s.reply := setBytes_reply ..
@[simp] theorem writeBytes_agenda (b : ByteMem) (off : Nat) (xs : List Byte) : (s.writeBytes b off xs).agenda = s.agenda := setBytes_agenda ..
@[simp] theorem writeBytes_resets (b : ByteMem) (off : Nat) (xs : List Byte) : (s.writeBytes b off xs).resets = s.resets := setBytes_resets ..
@[simp] theorem writeBytes_draws (b : ByteMem) (off : Nat) (xs : List Byte) : (s.writeBytes b off xs).draws = s.draws := setBytes_draws ..

/-! ### `mapCells` -/

@[simp] theorem mapCells_pending (f : Nat → Nat → Module → Module) : (s.mapCells f).pending = s.pending := rfl
@[simp] theorem mapCells_status (f : Nat → Nat → Module → Module) : (s.mapCells f).status = s.status := rfl
@[simp] theorem mapCells_errinfo (f : Nat → Nat → Module → Module) : (s.mapCells f).errinfo = s.errinfo := rfl
@[simp] theorem mapCells_ctrl (f : Nat → Nat → Module → Module) : (s.mapCells f).ctrl = s.ctrl := rfl
@[simp] theorem mapCells_arg0 (f : Nat → Nat → Module → Module) : (s.mapCells f).arg0 = s.arg0 := rfl
@[simp] theorem mapCells_arg1 (f : Nat → Nat → Module → Module) : (s.mapCells f).arg1 = s.arg1 := rfl
@[simp] theorem mapCells_lastcmd (f : Nat → Nat → Module → Module) : (s.mapCells f).lastcmd = s.lastcmd := rfl
@[simp] theorem mapCells_result (f : Nat → Nat → Module → Module) : (s.mapCells f).result = s.result := rfl
@[simp] theorem mapCells_bitlen (f : Nat → Nat → Module → Module) : (s.mapCells f).bitlen = s.bitlen := rfl
@[simp] theorem mapCells_segtab (f : Nat → Nat → Module → Module) : (s.mapCells f).segtab = s.segtab := rfl
@[simp] theorem mapCells_segused (f : Nat → Nat → Module → Module) : (s.mapCells f).segused = s.segused := rfl
@[simp] theorem mapCells_streamMeta (f : Nat → Nat → Module → Module) : (s.mapCells f).streamMeta = s.streamMeta := rfl
@[simp] theorem mapCells_matMeta (f : Nat → Nat → Module → Module) : (s.mapCells f).matMeta = s.matMeta := rfl
@[simp] theorem mapCells_outMeta (f : Nat → Nat → Module → Module) : (s.mapCells f).outMeta = s.outMeta := rfl
@[simp] theorem mapCells_pen (f : Nat → Nat → Module → Module) : (s.mapCells f).pen = s.pen := rfl
@[simp] theorem mapCells_cap (f : Nat → Nat → Module → Module) : (s.mapCells f).cap = s.cap := rfl
@[simp] theorem mapCells_maskPen (f : Nat → Nat → Module → Module) : (s.mapCells f).maskPen = s.maskPen := rfl
@[simp] theorem mapCells_ibuf (f : Nat → Nat → Module → Module) : (s.mapCells f).ibuf = s.ibuf := rfl
@[simp] theorem mapCells_segdata (f : Nat → Nat → Module → Module) : (s.mapCells f).segdata = s.segdata := rfl
@[simp] theorem mapCells_cwbuf (f : Nat → Nat → Module → Module) : (s.mapCells f).cwbuf = s.cwbuf := rfl
@[simp] theorem mapCells_final (f : Nat → Nat → Module → Module) : (s.mapCells f).final = s.final := rfl
@[simp] theorem mapCells_cmat (f : Nat → Nat → Module → Module) : (s.mapCells f).cmat = s.cmat := rfl
@[simp] theorem mapCells_reply (f : Nat → Nat → Module → Module) : (s.mapCells f).reply = s.reply := rfl
@[simp] theorem mapCells_agenda (f : Nat → Nat → Module → Module) : (s.mapCells f).agenda = s.agenda := rfl
@[simp] theorem mapCells_resets (f : Nat → Nat → Module → Module) : (s.mapCells f).resets = s.resets := rfl
@[simp] theorem mapCells_draws (f : Nat → Nat → Module → Module) : (s.mapCells f).draws = s.draws := rfl

/-! ### `writeCells` -/

@[simp] theorem writeCells_pending (w : List ((Nat × Nat) × Module)) : (s.writeCells w).pending = s.pending := rfl
@[simp] theorem writeCells_status (w : List ((Nat × Nat) × Module)) : (s.writeCells w).status = s.status := rfl
@[simp] theorem writeCells_errinfo (w : List ((Nat × Nat) × Module)) : (s.writeCells w).errinfo = s.errinfo := rfl
@[simp] theorem writeCells_ctrl (w : List ((Nat × Nat) × Module)) : (s.writeCells w).ctrl = s.ctrl := rfl
@[simp] theorem writeCells_arg0 (w : List ((Nat × Nat) × Module)) : (s.writeCells w).arg0 = s.arg0 := rfl
@[simp] theorem writeCells_arg1 (w : List ((Nat × Nat) × Module)) : (s.writeCells w).arg1 = s.arg1 := rfl
@[simp] theorem writeCells_lastcmd (w : List ((Nat × Nat) × Module)) : (s.writeCells w).lastcmd = s.lastcmd := rfl
@[simp] theorem writeCells_result (w : List ((Nat × Nat) × Module)) : (s.writeCells w).result = s.result := rfl
@[simp] theorem writeCells_bitlen (w : List ((Nat × Nat) × Module)) : (s.writeCells w).bitlen = s.bitlen := rfl
@[simp] theorem writeCells_segtab (w : List ((Nat × Nat) × Module)) : (s.writeCells w).segtab = s.segtab := rfl
@[simp] theorem writeCells_segused (w : List ((Nat × Nat) × Module)) : (s.writeCells w).segused = s.segused := rfl
@[simp] theorem writeCells_streamMeta (w : List ((Nat × Nat) × Module)) : (s.writeCells w).streamMeta = s.streamMeta := rfl
@[simp] theorem writeCells_matMeta (w : List ((Nat × Nat) × Module)) : (s.writeCells w).matMeta = s.matMeta := rfl
@[simp] theorem writeCells_outMeta (w : List ((Nat × Nat) × Module)) : (s.writeCells w).outMeta = s.outMeta := rfl
@[simp] theorem writeCells_pen (w : List ((Nat × Nat) × Module)) : (s.writeCells w).pen = s.pen := rfl
@[simp] theorem writeCells_cap (w : List ((Nat × Nat) × Module)) : (s.writeCells w).cap = s.cap := rfl
@[simp] theorem writeCells_maskPen (w : List ((Nat × Nat) × Module)) : (s.writeCells w).maskPen = s.maskPen := rfl
@[simp] theorem writeCells_ibuf (w : List ((Nat × Nat) × Module)) : (s.writeCells w).ibuf = s.ibuf := rfl
@[simp] theorem writeCells_segdata (w : List ((Nat × Nat) × Module)) : (s.writeCells w).segdata = s.segdata := rfl
@[simp] theorem writeCells_cwbuf (w : List ((Nat × Nat) × Module)) : (s.writeCells w).cwbuf = s.cwbuf := rfl
@[simp] theorem writeCells_final (w : List ((Nat × Nat) × Module)) : (s.writeCells w).final = s.final := rfl
@[simp] theorem writeCells_cmat (w : List ((Nat × Nat) × Module)) : (s.writeCells w).cmat = s.cmat := rfl
@[simp] theorem writeCells_reply (w : List ((Nat × Nat) × Module)) : (s.writeCells w).reply = s.reply := rfl
@[simp] theorem writeCells_agenda (w : List ((Nat × Nat) × Module)) : (s.writeCells w).agenda = s.agenda := rfl
@[simp] theorem writeCells_resets (w : List ((Nat × Nat) × Module)) : (s.writeCells w).resets = s.resets := rfl
@[simp] theorem writeCells_draws (w : List ((Nat × Nat) × Module)) : (s.writeCells w).draws = s.draws := rfl

/-! ### `commitCells` -/

@[simp] theorem commitCells_pending : (s.commitCells).pending = s.pending := rfl
@[simp] theorem commitCells_status : (s.commitCells).status = s.status := rfl
@[simp] theorem commitCells_errinfo : (s.commitCells).errinfo = s.errinfo := rfl
@[simp] theorem commitCells_ctrl : (s.commitCells).ctrl = s.ctrl := rfl
@[simp] theorem commitCells_arg0 : (s.commitCells).arg0 = s.arg0 := rfl
@[simp] theorem commitCells_arg1 : (s.commitCells).arg1 = s.arg1 := rfl
@[simp] theorem commitCells_lastcmd : (s.commitCells).lastcmd = s.lastcmd := rfl
@[simp] theorem commitCells_result : (s.commitCells).result = s.result := rfl
@[simp] theorem commitCells_bitlen : (s.commitCells).bitlen = s.bitlen := rfl
@[simp] theorem commitCells_segtab : (s.commitCells).segtab = s.segtab := rfl
@[simp] theorem commitCells_segused : (s.commitCells).segused = s.segused := rfl
@[simp] theorem commitCells_streamMeta : (s.commitCells).streamMeta = s.streamMeta := rfl
@[simp] theorem commitCells_matMeta : (s.commitCells).matMeta = s.matMeta := rfl
@[simp] theorem commitCells_outMeta : (s.commitCells).outMeta = s.outMeta := rfl
@[simp] theorem commitCells_pen : (s.commitCells).pen = s.pen := rfl
@[simp] theorem commitCells_cap : (s.commitCells).cap = s.cap := rfl
@[simp] theorem commitCells_maskPen : (s.commitCells).maskPen = s.maskPen := rfl
@[simp] theorem commitCells_ibuf : (s.commitCells).ibuf = s.ibuf := rfl
@[simp] theorem commitCells_segdata : (s.commitCells).segdata = s.segdata := rfl
@[simp] theorem commitCells_cwbuf : (s.commitCells).cwbuf = s.cwbuf := rfl
@[simp] theorem commitCells_final : (s.commitCells).final = s.final := rfl
@[simp] theorem commitCells_wmat : (s.commitCells).wmat = s.wmat := rfl
@[simp] theorem commitCells_reply : (s.commitCells).reply = s.reply := rfl
@[simp] theorem commitCells_agenda : (s.commitCells).agenda = s.agenda := rfl
@[simp] theorem commitCells_resets : (s.commitCells).resets = s.resets := rfl
@[simp] theorem commitCells_draws : (s.commitCells).draws = s.draws := rfl

/-! ### `writeCell` -/

@[simp] theorem writeCell_pending (r c : Nat) (x : Module) : (s.writeCell r c x).pending = s.pending := by unfold writeCell; split <;> rfl
@[simp] theorem writeCell_status (r c : Nat) (x : Module) : (s.writeCell r c x).status = s.status := by unfold writeCell; split <;> rfl
@[simp] theorem writeCell_errinfo (r c : Nat) (x : Module) : (s.writeCell r c x).errinfo = s.errinfo := by unfold writeCell; split <;> rfl
@[simp] theorem writeCell_ctrl (r c : Nat) (x : Module) : (s.writeCell r c x).ctrl = s.ctrl := by unfold writeCell; split <;> rfl
@[simp] theorem writeCell_arg0 (r c : Nat) (x : Module) : (s.writeCell r c x).arg0 = s.arg0 := by unfold writeCell; split <;> rfl
@[simp] theorem writeCell_arg1 (r c : Nat) (x : Module) : (s.writeCell r c x).arg1 = s.arg1 := by unfold writeCell; split <;> rfl
@[simp] theorem writeCell_lastcmd (r c : Nat) (x : Module) : (s.writeCell r c x).lastcmd = s.lastcmd := by unfold writeCell; split <;> rfl
@[simp] theorem writeCell_result (r c : Nat) (x : Module) : (s.writeCell r c x).result = s.result := by unfold writeCell; split <;> rfl
@[simp] theorem writeCell_bitlen (r c : Nat) (x : Module) : (s.writeCell r c x).bitlen = s.bitlen := by unfold writeCell; split <;> rfl
@[simp] theorem writeCell_segtab (r c : Nat) (x : Module) : (s.writeCell r c x).segtab = s.segtab := by unfold writeCell; split <;> rfl
@[simp] theorem writeCell_segused (r c : Nat) (x : Module) : (s.writeCell r c x).segused = s.segused := by unfold writeCell; split <;> rfl
@[simp] theorem writeCell_streamMeta (r c : Nat) (x : Module) : (s.writeCell r c x).streamMeta = s.streamMeta := by unfold writeCell; split <;> rfl
@[simp] theorem writeCell_matMeta (r c : Nat) (x : Module) : (s.writeCell r c x).matMeta = s.matMeta := by unfold writeCell; split <;> rfl
@[simp] theorem writeCell_outMeta (r c : Nat) (x : Module) : (s.writeCell r c x).outMeta = s.outMeta := by unfold writeCell; split <;> rfl
@[simp] theorem writeCell_pen (r c : Nat) (x : Module) : (s.writeCell r c x).pen = s.pen := by unfold writeCell; split <;> rfl
@[simp] theorem writeCell_cap (r c : Nat) (x : Module) : (s.writeCell r c x).cap = s.cap := by unfold writeCell; split <;> rfl
@[simp] theorem writeCell_maskPen (r c : Nat) (x : Module) : (s.writeCell r c x).maskPen = s.maskPen := by unfold writeCell; split <;> rfl
@[simp] theorem writeCell_ibuf (r c : Nat) (x : Module) : (s.writeCell r c x).ibuf = s.ibuf := by unfold writeCell; split <;> rfl
@[simp] theorem writeCell_segdata (r c : Nat) (x : Module) : (s.writeCell r c x).segdata = s.segdata := by unfold writeCell; split <;> rfl
@[simp] theorem writeCell_cwbuf (r c : Nat) (x : Module) : (s.writeCell r c x).cwbuf = s.cwbuf := by unfold writeCell; split <;> rfl
@[simp] theorem writeCell_final (r c : Nat) (x : Module) : (s.writeCell r c x).final = s.final := by unfold writeCell; split <;> rfl
@[simp] theorem writeCell_cmat (r c : Nat) (x : Module) : (s.writeCell r c x).cmat = s.cmat := by unfold writeCell; split <;> rfl
@[simp] theorem writeCell_reply (r c : Nat) (x : Module) : (s.writeCell r c x).reply = s.reply := by unfold writeCell; split <;> rfl
@[simp] theorem writeCell_agenda (r c : Nat) (x : Module) : (s.writeCell r c x).agenda = s.agenda := by unfold writeCell; split <;> rfl
@[simp] theorem writeCell_resets (r c : Nat) (x : Module) : (s.writeCell r c x).resets = s.resets := by unfold writeCell; split <;> rfl
@[simp] theorem writeCell_draws (r c : Nat) (x : Module) : (s.writeCell r c x).draws = s.draws := by unfold writeCell; split <;> rfl

/-! ### `applyReset` -/

@[simp] theorem applyReset_pending : s.applyReset.pending = State.reset.pending := rfl
@[simp] theorem applyReset_status : s.applyReset.status = State.reset.status := rfl
@[simp] theorem applyReset_errinfo : s.applyReset.errinfo = State.reset.errinfo := rfl
@[simp] theorem applyReset_ctrl : s.applyReset.ctrl = State.reset.ctrl := rfl
@[simp] theorem applyReset_arg0 : s.applyReset.arg0 = State.reset.arg0 := rfl
@[simp] theorem applyReset_arg1 : s.applyReset.arg1 = State.reset.arg1 := rfl
@[simp] theorem applyReset_lastcmd : s.applyReset.lastcmd = State.reset.lastcmd := rfl
@[simp] theorem applyReset_result : s.applyReset.result = State.reset.result := rfl
@[simp] theorem applyReset_bitlen : s.applyReset.bitlen = State.reset.bitlen := rfl
@[simp] theorem applyReset_segtab : s.applyReset.segtab = State.reset.segtab := rfl
@[simp] theorem applyReset_segused : s.applyReset.segused = State.reset.segused := rfl
@[simp] theorem applyReset_streamMeta : s.applyReset.streamMeta = State.reset.streamMeta := rfl
@[simp] theorem applyReset_matMeta : s.applyReset.matMeta = State.reset.matMeta := rfl
@[simp] theorem applyReset_outMeta : s.applyReset.outMeta = State.reset.outMeta := rfl
@[simp] theorem applyReset_pen : s.applyReset.pen = State.reset.pen := rfl
@[simp] theorem applyReset_cap : s.applyReset.cap = State.reset.cap := rfl
@[simp] theorem applyReset_maskPen : s.applyReset.maskPen = State.reset.maskPen := rfl
@[simp] theorem applyReset_ibuf : s.applyReset.ibuf = State.reset.ibuf := rfl
@[simp] theorem applyReset_segdata : s.applyReset.segdata = State.reset.segdata := rfl
@[simp] theorem applyReset_cwbuf : s.applyReset.cwbuf = State.reset.cwbuf := rfl
@[simp] theorem applyReset_final : s.applyReset.final = State.reset.final := rfl
@[simp] theorem applyReset_wmat : s.applyReset.wmat = State.reset.wmat := rfl
@[simp] theorem applyReset_cmat : s.applyReset.cmat = State.reset.cmat := rfl
@[simp] theorem applyReset_reply : s.applyReset.reply = State.reset.reply := rfl
@[simp] theorem applyReset_agenda : s.applyReset.agenda = s.agenda := rfl
@[simp] theorem applyReset_resets : s.applyReset.resets = s.resets + 1 := rfl
@[simp] theorem applyReset_draws : s.applyReset.draws = s.draws := rfl

end Sys2Proof.Machine.State
end

