-- ==== Sys2Proof/Laws/Ops.lean ====
section
/-! SUPPORT. What reading gives after each shared operation, that each keeps the memories' canonical form, and the two ways
a command finishes. -/
namespace Sys2Proof.Machine
open Sys2Proof.Config (ByteMem MatMem)

namespace State

/-! ### Byte memories -/

theorem readByte_writeBytes (s : State) (b d : ByteMem) (off k : Nat) (xs : List Byte) :
    (s.writeBytes b off xs).readByte d k
      = if h : d = b ∧ off ≤ k ∧ k < off + xs.length then xs[k - off]'(by omega) else s.readByte d k := by
  unfold readByte writeBytes
  rw [setBytes_bytes, setBytes_resets]
  by_cases hd : d = b
  · subst hd
    rw [if_pos rfl, Memory.read_writeList]
    by_cases h : off ≤ k ∧ k < off + xs.length
    · rw [dif_pos h, dif_pos ⟨rfl, h⟩]
    · rw [dif_neg h, dif_neg (fun hc => h hc.2)]
  · rw [if_neg hd, dif_neg (fun hc => hd hc.1)]

theorem readByte_writeByte (s : State) (b d : ByteMem) (k j : Nat) (x : Byte) :
    (s.writeByte b k x).readByte d j = if d = b ∧ j = k then x else s.readByte d j := by
  unfold readByte writeByte
  rw [setBytes_bytes, setBytes_resets]
  by_cases hd : d = b
  · subst hd
    rw [if_pos rfl, Memory.read_set]
    by_cases h : j = k
    · rw [if_pos h, if_pos ⟨rfl, h⟩]
    · rw [if_neg h, if_neg (fun hc => h hc.2)]
  · rw [if_neg hd, if_neg (fun hc => hd hc.1)]

@[simp] theorem length_readBytes (s : State) (b : ByteMem) (off n : Nat) : (s.readBytes b off n).length = n :=
  Memory.length_slice ..

/-- A range read lists the bytes at its offsets. -/
theorem readBytes_eq_map (s : State) (b : ByteMem) (off n : Nat)
    (h : List.Pairwise (fun x y => x.1 < y.1) (s.bytes b)) :
    s.readBytes b off n = (List.range' off n).map (s.readByte b) :=
  Memory.slice_eq_map_read h off n

theorem wf_writeBytes (s : State) (b : ByteMem) (off : Nat) (xs : List Byte)
    (h : Memory.wf b.size (s.bytes b)) (hfit : off + xs.length ≤ b.size) :
    Memory.wf b.size ((s.writeBytes b off xs).bytes b) := by
  unfold writeBytes
  rw [setBytes_bytes, if_pos rfl]
  exact Memory.wf_writeList h hfit

theorem wf_writeByte (s : State) (b : ByteMem) (k : Nat) (x : Byte)
    (h : Memory.wf b.size (s.bytes b)) (hk : k < b.size) : Memory.wf b.size ((s.writeByte b k x).bytes b) := by
  unfold writeByte
  rw [setBytes_bytes, if_pos rfl]
  exact Memory.wf_set h hk

/-! ### Matrices -/

theorem cellExists_iff (r c : Nat) : cellExists r c = true ↔ r < 177 ∧ c < 177 := by simp [cellExists]

theorem cellIndex_inj {r c r' c' : Nat} (hc : c < 177) (hc' : c' < 177) (h : cellIndex r c = cellIndex r' c') :
    r = r' ∧ c = c' := by
  simp only [cellIndex, Config.matDim] at h; omega

theorem cellIndex_lt {r c : Nat} (hr : r < 177) (hc : c < 177) : cellIndex r c < Config.matCells := by
  simp only [cellIndex, Config.matDim, Config.matCells]; omega

theorem cellIndex_div {r c : Nat} (hc : c < 177) : cellIndex r c / 177 = r := by
  simp only [cellIndex, Config.matDim]; omega

theorem cellIndex_mod {r c : Nat} (hc : c < 177) : cellIndex r c % 177 = c := by
  simp only [cellIndex, Config.matDim]; omega

theorem readCell_writeCell (s : State) (mm : MatMem) (r c i j : Nat) (x : Module) :
    (s.writeCell r c x).readCell mm i j
      = if mm = .wmat ∧ i = r ∧ j = c ∧ cellExists r c then x else s.readCell mm i j := by
  unfold writeCell
  by_cases he : cellExists r c = true
  · rw [if_pos he]
    unfold readCell
    by_cases hij : cellExists i j = true
    · rw [if_pos hij, if_pos hij]
      cases mm with
      | cmat => rw [if_neg (by simp)]; rfl
      | wmat =>
        simp only [mat]
        rw [Memory.read_set]
        by_cases h : i = r ∧ j = c
        · rw [if_pos (by rw [h.1, h.2]), if_pos ⟨trivial, h.1, h.2, he⟩]
        · rw [if_neg (fun hc => h (cellIndex_inj ((cellExists_iff ..).1 hij).2 ((cellExists_iff ..).1 he).2 hc)),
            if_neg (fun hc => h ⟨hc.2.1, hc.2.2.1⟩)]
    · rw [if_neg hij, if_neg hij, if_neg]
      rintro ⟨-, rfl, rfl, -⟩
      exact hij he
  · rw [if_neg he, if_neg (fun hc => he hc.2.2.2)]

@[simp] theorem length_allCells (s : State) (mm : MatMem) : (s.allCells mm).length = Config.matCells :=
  Memory.length_slice ..

theorem allCells_getElem? (s : State) (mm : MatMem) (h : List.Pairwise (fun x y => x.1 < y.1) (s.mat mm)) (k : Nat)
    (hk : k < Config.matCells) :
    (s.allCells mm)[k]? = some (Memory.read (Config.freeCell mm s.resets) (s.mat mm) k) := by
  unfold allCells
  rw [Memory.slice_eq_map_read h, List.getElem?_map, List.getElem?_range' hk]
  simp

/-- `mapCells` replaces every cell that exists by `f` of its present value. -/
theorem readCell_mapCells (f : Nat → Nat → Module → Module) (s : State)
    (h : List.Pairwise (fun x y => x.1 < y.1) s.wmat) {r c : Nat} (hr : r < 177) (hc : c < 177) :
    (s.mapCells f).readCell .wmat r c = f r c (s.readCell .wmat r c) := by
  have he : cellExists r c = true := (cellExists_iff ..).2 ⟨hr, hc⟩
  unfold readCell
  rw [if_pos he, if_pos he]
  simp only [mapCells, mat]
  unfold Memory.read
  rw [Memory.get?_number, if_pos (Nat.zero_le _), Nat.sub_zero, List.getElem?_map, List.getElem?_zipIdx,
    allCells_getElem? s .wmat h _ (cellIndex_lt hr hc)]
  simp [cellIndex_div hc, cellIndex_mod hc, Memory.read, mat]

theorem readCell_mapCells_cmat (f : Nat → Nat → Module → Module) (s : State) (r c : Nat) :
    (s.mapCells f).readCell .cmat r c = s.readCell .cmat r c := rfl

theorem wf_mapCells (f : Nat → Nat → Module → Module) (s : State) :
    Memory.wf Config.matCells (s.mapCells f).wmat :=
  Memory.wf_number (by simp)

theorem wf_writeCell (s : State) (r c : Nat) (x : Module) (h : Memory.wf Config.matCells s.wmat) :
    Memory.wf Config.matCells (s.writeCell r c x).wmat := by
  unfold writeCell
  split
  · rename_i he
    obtain ⟨hr, hc⟩ := (cellExists_iff ..).1 he
    exact Memory.wf_set h (cellIndex_lt hr hc)
  · exact h

theorem wf_commitCells (s : State) : Memory.wf Config.matCells s.commitCells.cmat :=
  Memory.wf_number (by simp)

/-- After the commit every CMAT cell is the WMAT cell. -/
theorem readCell_commitCells (s : State) (h : List.Pairwise (fun x y => x.1 < y.1) s.wmat) (r c : Nat) :
    s.commitCells.readCell .cmat r c = s.readCell .wmat r c := by
  unfold readCell
  by_cases he : cellExists r c = true
  · obtain ⟨hr, hc⟩ := (cellExists_iff ..).1 he
    rw [if_pos he, if_pos he]
    simp only [commitCells, mat]
    unfold Memory.read
    rw [Memory.get?_number, if_pos (Nat.zero_le _), Nat.sub_zero, allCells_getElem? s .wmat h _ (cellIndex_lt hr hc)]
    simp [Memory.read, mat]
  · rw [if_neg he, if_neg he]

end State

/-- The value grouped writes give a cell is the first write to it in the list. -/
theorem writtenCell_writesByRow (writes : List ((Nat × Nat) × Module)) {r : Nat} (c : Nat) (hr : r < 177) :
    writtenCell (writesByRow writes) r c = (writes.find? fun w => w.1 = (r, c)).map (·.2) := by
  have hrow : (writesByRow writes).getD r [] = writes.filter fun w => w.1.1 == r := by
    simp [writesByRow, List.getD_eq_getElem?_getD, hr]
  rw [writtenCell, hrow, List.find?_filter]
  congr 2
  funext w
  simp [Prod.ext_iff]

/-- `writeCells` gives each cell the first value written to it, and leaves the cells it does not write. -/
theorem State.readCell_writeCells (writes : List ((Nat × Nat) × Module)) (s : State)
    (h : List.Pairwise (fun x y => x.1 < y.1) s.wmat) {r c : Nat} (hr : r < 177) (hc : c < 177) :
    (s.writeCells writes).readCell .wmat r c
      = ((writes.find? fun w => w.1 = (r, c)).map (·.2)).getD (s.readCell .wmat r c) := by
  unfold writeCells
  rw [readCell_mapCells _ s h hr hc, writtenCell_writesByRow writes c hr]

theorem State.wf_writeCells (writes : List ((Nat × Nat) × Module)) (s : State) :
    Memory.wf Config.matCells (s.writeCells writes).wmat :=
  wf_mapCells ..

/-- A command always ends at a next state: its rule's state completed, or its own state with the error raised. -/
theorem finish_cases (rule : Rule) (s : State) :
    (∃ t, rule s = .ok t ∧ finish rule s = .next t.complete) ∨
      ∃ e, rule s = .error e ∧ finish rule s = .next (s.raiseError e) := by
  unfold finish
  cases h : rule s with
  | ok t => exact .inl ⟨t, rfl, rfl⟩
  | error e => exact .inr ⟨e, rfl, rfl⟩

theorem finish_ok {rule : Rule} {s t : State} (h : rule s = .ok t) : finish rule s = .next t.complete := by
  simp [finish, h]

theorem finish_error {rule : Rule} {s : State} {e : CmdError} (h : rule s = .error e) :
    finish rule s = .next (s.raiseError e) := by
  simp [finish, h]

end Sys2Proof.Machine
end

