-- ==== Sys2Proof/Laws/Rules.lean ====
section
/-! SUPPORT. For each command's rule, everything it can do: the states it can answer and the errors it can raise. Claims
about the commands cite these and do not unfold the rules. -/
namespace Sys2Proof.Machine

theorem ruleCapq_cases (ver : BitVec 6) (ec : BitVec 3) (s : State) :
    (∃ l, 1 ≤ ver.toNat ∧ ver.toNat ≤ 40 ∧ operandEc ec = .ok l ∧
      ruleCapq ver ec s = .ok { s with cap := capacityRegisters ver.toNat l }) ∨
    ((ver.toNat < 1 ∨ 40 < ver.toNat) ∧ ruleCapq ver ec s = .error ⟨.config, 1⟩) ∨
    (1 ≤ ver.toNat ∧ ver.toNat ≤ 40 ∧ 3 < ec.toNat ∧ ruleCapq ver ec s = .error ⟨.config, 2⟩) := by
  rcases versionFrom_cases 1 ver with ⟨h1, h2, hv⟩ | ⟨h, hv⟩
  · rcases operandEc_cases ec with ⟨l, -, hl⟩ | ⟨hec, hl⟩
    · exact .inl ⟨l, h1, h2, hl, by simp only [ruleCapq, operandVersion, hv, hl, bind, Except.bind]⟩
    · exact .inr (.inr ⟨h1, h2, hec, by simp only [ruleCapq, operandVersion, hv, hl, bind, Except.bind]⟩)
  · exact .inr (.inl ⟨h, by simp only [ruleCapq, operandVersion, hv, bind, Except.bind]⟩)

theorem ruleGfLog_cases (a : Byte) (s : State) :
    (a ≠ 0 ∧ ruleGfLog a s = .ok { s with result := BitVec.ofNat 32 (gfLog a) }) ∨
    (a = 0 ∧ ruleGfLog a s = .error ⟨.gfDomain, 0⟩) := by
  unfold ruleGfLog
  by_cases h : a = 0
  · exact .inr ⟨h, by rw [if_pos h]; rfl⟩
  · exact .inl ⟨h, by rw [if_neg h]⟩

theorem ruleGfGenpoly_cases (e : BitVec 6) (s : State) :
    (1 ≤ e.toNat ∧ e.toNat ≤ 30 ∧ s.arg1.toNat + (e.toNat + 1) ≤ 4096 ∧
      ruleGfGenpoly e s = .ok (s.writeBytes .cwbuf s.arg1.toNat (genPoly e.toNat))) ∨
    ((e.toNat = 0 ∨ 30 < e.toNat) ∧ ruleGfGenpoly e s = .error ⟨.config, 3⟩) ∨
    (1 ≤ e.toNat ∧ e.toNat ≤ 30 ∧ 4096 < s.arg1.toNat + (e.toNat + 1) ∧
      ruleGfGenpoly e s = .error ⟨.range, 2⟩) := by
  rcases operandEcCount_cases e with ⟨h1, h2, he⟩ | ⟨h, he⟩
  · rcases operandRange_cases s.arg1 (e.toNat + 1) Config.cwbufBytes 2 with ⟨hr, h⟩ | ⟨hr, h⟩
    · exact .inl ⟨h1, h2, hr, by simp only [ruleGfGenpoly, he, h, bind, Except.bind]⟩
    · exact .inr (.inr ⟨h1, h2, hr, by simp only [ruleGfGenpoly, he, h, bind, Except.bind]⟩)
  · exact .inr (.inl ⟨h, by simp only [ruleGfGenpoly, he, bind, Except.bind]⟩)

theorem ruleRsEnc_cases (n : Byte) (e : BitVec 6) (s : State) :
    (1 ≤ e.toNat ∧ e.toNat ≤ 30 ∧ s.arg0.toNat + n.toNat ≤ 4096 ∧ s.arg1.toNat + e.toNat ≤ 4096 ∧
      ruleRsEnc n e s = .ok (s.writeBytes .cwbuf s.arg1.toNat
        (rsEncode (s.readBytes .cwbuf s.arg0.toNat n.toNat) e.toNat))) ∨
    ((e.toNat = 0 ∨ 30 < e.toNat) ∧ ruleRsEnc n e s = .error ⟨.config, 3⟩) ∨
    (1 ≤ e.toNat ∧ e.toNat ≤ 30 ∧ 4096 < s.arg0.toNat + n.toNat ∧ ruleRsEnc n e s = .error ⟨.range, 1⟩) ∨
    (1 ≤ e.toNat ∧ e.toNat ≤ 30 ∧ s.arg0.toNat + n.toNat ≤ 4096 ∧ 4096 < s.arg1.toNat + e.toNat ∧
      ruleRsEnc n e s = .error ⟨.range, 2⟩) := by
  rcases operandEcCount_cases e with ⟨h1, h2, he⟩ | ⟨h, he⟩
  · rcases operandRange_cases s.arg0 n.toNat Config.cwbufBytes 1 with ⟨hr, h⟩ | ⟨hr, h⟩
    · rcases operandRange_cases s.arg1 e.toNat Config.cwbufBytes 2 with ⟨hr', h'⟩ | ⟨hr', h'⟩
      · exact .inl ⟨h1, h2, hr, hr', by simp only [ruleRsEnc, he, h, h', bind, Except.bind]⟩
      · exact .inr (.inr (.inr ⟨h1, h2, hr, hr', by simp only [ruleRsEnc, he, h, h', bind, Except.bind]⟩))
    · exact .inr (.inr (.inl ⟨h1, h2, hr, by simp only [ruleRsEnc, he, h, bind, Except.bind]⟩))
  · exact .inr (.inl ⟨h, by simp only [ruleRsEnc, he, bind, Except.bind]⟩)

theorem ruleEccInterleave_cases (ver : BitVec 6) (ec : BitVec 3) (s : State) :
    (∃ l, 1 ≤ ver.toNat ∧ ver.toNat ≤ 40 ∧ operandEc ec = .ok l ∧
      ruleEccInterleave ver ec s = .ok (s.writeBytes .final 0
        (finalStream ver.toNat l (s.readBytes .cwbuf 0 (dataCodewords ver.toNat l))))) ∨
    ((ver.toNat < 1 ∨ 40 < ver.toNat) ∧ ruleEccInterleave ver ec s = .error ⟨.config, 1⟩) ∨
    (1 ≤ ver.toNat ∧ ver.toNat ≤ 40 ∧ 3 < ec.toNat ∧ ruleEccInterleave ver ec s = .error ⟨.config, 2⟩) := by
  rcases versionFrom_cases 1 ver with ⟨h1, h2, hv⟩ | ⟨h, hv⟩
  · rcases operandEc_cases ec with ⟨l, -, hl⟩ | ⟨hec, hl⟩
    · exact .inl ⟨l, h1, h2, hl, by simp only [ruleEccInterleave, operandVersion, hv, hl, bind, Except.bind]⟩
    · exact .inr (.inr ⟨h1, h2, hec, by simp only [ruleEccInterleave, operandVersion, hv, hl, bind, Except.bind]⟩)
  · exact .inr (.inl ⟨h, by simp only [ruleEccInterleave, operandVersion, hv, bind, Except.bind]⟩)

/-- What APPEND answers for a chunk that is not empty. -/
theorem appendChunk_cases (hint : ModeHint) (c : List Byte) (s : State) :
    (∃ pieces, splitChunk hint s.ctrl.minrun.toNat c = .ok pieces ∧ s.nseg + pieces.length ≤ 64 ∧
      s.segused.toNat + c.length ≤ 8192 ∧ appendChunk hint c s = .ok (s.storeChunk c pieces)) ∨
    (∃ p, splitChunk hint s.ctrl.minrun.toNat c = .error p ∧
      appendChunk hint c s = .error ⟨.invalidChar, invalidCharInfo p s.nseg⟩) ∨
    (∃ pieces, splitChunk hint s.ctrl.minrun.toNat c = .ok pieces ∧ 64 < s.nseg + pieces.length ∧
      appendChunk hint c s = .error ⟨.segFull, 1⟩) ∨
    (∃ pieces, splitChunk hint s.ctrl.minrun.toNat c = .ok pieces ∧ s.nseg + pieces.length ≤ 64 ∧
      8192 < s.segused.toNat + c.length ∧ appendChunk hint c s = .error ⟨.segFull, 2⟩) := by
  unfold appendChunk
  split
  · rename_i p hp
    exact .inr (.inl ⟨p, hp, rfl⟩)
  · rename_i pieces hp
    by_cases h1 : 64 < s.nseg + pieces.length
    · exact .inr (.inr (.inl ⟨pieces, hp, h1, by rw [if_pos h1]; rfl⟩))
    · by_cases h2 : 8192 < s.segused.toNat + c.length
      · exact .inr (.inr (.inr ⟨pieces, hp, by omega, h2, by rw [if_neg h1, if_pos h2]; rfl⟩))
      · exact .inl ⟨pieces, hp, by omega, by omega, by rw [if_neg h1, if_neg h2]⟩

theorem ruleAppend_cases (mode : BitVec 3) (s : State) :
    (∃ hint, operandMode mode = .ok hint ∧ s.arg0.toNat + s.arg1.toNat ≤ 8192 ∧
      ((s.arg1 = 0 ∧ ruleAppend mode s = .ok s) ∨
        (s.arg1 ≠ 0 ∧ ruleAppend mode s = appendChunk hint (s.readBytes .ibuf s.arg0.toNat s.arg1.toNat) s))) ∨
    (4 < mode.toNat ∧ ruleAppend mode s = .error ⟨.config, 4⟩) ∨
    (mode.toNat ≤ 4 ∧ 8192 < s.arg0.toNat + s.arg1.toNat ∧ ruleAppend mode s = .error ⟨.range, 1⟩) := by
  rcases operandMode_cases mode with ⟨hint, hm, h⟩ | ⟨hm, h⟩
  · rcases operandRange_cases s.arg0 s.arg1.toNat Config.ibufBytes 1 with ⟨hr, h'⟩ | ⟨hr, h'⟩
    · refine .inl ⟨hint, h, hr, ?_⟩
      by_cases h0 : s.arg1 = 0
      · refine .inl ⟨h0, ?_⟩
        simp only [ruleAppend, h, h', bind, Except.bind]
        rw [if_pos h0]
      · refine .inr ⟨h0, ?_⟩
        simp only [ruleAppend, h, h', bind, Except.bind]
        rw [if_neg h0]
    · exact .inr (.inr ⟨hm, hr, by simp only [ruleAppend, h, h', bind, Except.bind]⟩)
  · exact .inr (.inl ⟨hm, by simp only [ruleAppend, h, bind, Except.bind]⟩)

/-- Version selection answers a version in 1 to 40 that fits, the smallest with AUTO, or ERR_OVERFLOW. -/
theorem selectVersion_cases (s : State) (ver : Nat) (l : EcLevel) (hver : ver ≤ 40) :
    (∃ v, 1 ≤ v ∧ v ≤ 40 ∧ s.fits l v = true ∧ (ver = v ∨ (ver = 0 ∧ ∀ u, 1 ≤ u → u < v → s.fits l u = false)) ∧
      s.selectVersion ver l = .ok v) ∨
    (1 ≤ ver ∧ s.fits l ver = false ∧
      s.selectVersion ver l = .error ⟨.overflow, BitVec.ofNat 32 (s.streamBits ver)⟩) ∨
    (ver = 0 ∧ (∀ v, 1 ≤ v → v ≤ 40 → s.fits l v = false) ∧
      s.selectVersion ver l = .error ⟨.overflow, BitVec.ofNat 32 (s.streamBits 40)⟩) := by
  unfold State.selectVersion
  by_cases h0 : ver = 0
  · rw [if_pos h0]
    split
    · rename_i v hv
      obtain ⟨hfit, i, hi, hget, hlt⟩ := List.find?_eq_some_iff_getElem.1 hv
      rw [List.getElem_range'] at hget
      simp only [List.length_range'] at hi
      refine .inl ⟨v, by omega, by omega, hfit, .inr ⟨h0, fun u h1 h2 => ?_⟩, rfl⟩
      have := hlt (u - 1) (by omega)
      rw [List.getElem_range', show 1 + 1 * (u - 1) = u by omega] at this
      simpa using this
    · rename_i hv
      refine .inr (.inr ⟨h0, fun v h1 h2 => ?_, rfl⟩)
      have := List.find?_eq_none.1 hv v (List.mem_range'_1.2 ⟨h1, by omega⟩)
      simpa using this
  · rw [if_neg h0]
    by_cases hf : s.fits l ver = true
    · exact .inl ⟨ver, by omega, hver, hf, .inl rfl, by rw [if_pos hf]⟩
    · exact .inr (.inl ⟨by omega, by simpa using hf, by rw [if_neg hf]; rfl⟩)

/-- The state a BITSTREAM that selects version `v` answers. -/
def State.streamed (v : Nat) (l : EcLevel) (ec : BitVec 3) (s : State) : State :=
  { s.writeBytes .cwbuf 0 (codewordsOf v l (s.segmentStream v)) with
    bitlen := BitVec.ofNat 32 (s.streamBits v)
    streamMeta := ⟨BitVec.ofNat 6 v, ec, true⟩
    result := BitVec.ofNat 32 v }

theorem ruleBitstream_cases (ver : BitVec 6) (ec : BitVec 3) (s : State) :
    (∃ l, ver.toNat ≤ 40 ∧ operandEc ec = .ok l ∧
      ((∃ v, s.selectVersion ver.toNat l = .ok v ∧ ruleBitstream ver ec s = .ok (s.streamed v l ec)) ∨
        ∃ e, s.selectVersion ver.toNat l = .error e ∧ ruleBitstream ver ec s = .error e)) ∨
    (40 < ver.toNat ∧ ruleBitstream ver ec s = .error ⟨.config, 1⟩) ∨
    (ver.toNat ≤ 40 ∧ 3 < ec.toNat ∧ ruleBitstream ver ec s = .error ⟨.config, 2⟩) := by
  rcases versionFrom_cases 0 ver with ⟨-, h2, hv⟩ | ⟨h, hv⟩
  · rcases operandEc_cases ec with ⟨l, -, hl⟩ | ⟨hec, hl⟩
    · refine .inl ⟨l, h2, hl, ?_⟩
      cases hs : s.selectVersion ver.toNat l with
      | ok v => exact .inl ⟨v, rfl, by simp only [ruleBitstream, operandVersionOrAuto, hv, hl, hs, bind, Except.bind]; rfl⟩
      | error e => exact .inr ⟨e, rfl, by simp only [ruleBitstream, operandVersionOrAuto, hv, hl, hs, bind, Except.bind]⟩
    · exact .inr (.inr ⟨h2, hec, by simp only [ruleBitstream, operandVersionOrAuto, hv, hl, bind, Except.bind]⟩)
  · exact .inr (.inl ⟨by omega, by simp only [ruleBitstream, operandVersionOrAuto, hv, bind, Except.bind]⟩)

/-- The state MATRIX_INIT of version `v` answers. -/
def State.templated (v : Nat) (s : State) : State :=
  { s.mapCells fun r c _ => templateCell v r c with matMeta := ⟨BitVec.ofNat 6 v, 0, false, false⟩ }

theorem ruleMatrixInit_cases (ver : BitVec 6) (s : State) :
    (1 ≤ ver.toNat ∧ ver.toNat ≤ 40 ∧ ruleMatrixInit ver s = .ok (s.templated ver.toNat)) ∨
    ((ver.toNat < 1 ∨ 40 < ver.toNat) ∧ ruleMatrixInit ver s = .error ⟨.config, 1⟩) := by
  rcases versionFrom_cases 1 ver with ⟨h1, h2, hv⟩ | ⟨h, hv⟩
  · exact .inl ⟨h1, h2, by simp only [ruleMatrixInit, operandVersion, hv, bind, Except.bind]; rfl⟩
  · exact .inr ⟨h, by simp only [ruleMatrixInit, operandVersion, hv, bind, Except.bind]⟩

/-- The state PLACE answers on a matrix of version `v` whose data cells are `dc`. -/
def State.placed (v : Nat) (dc : List (Nat × Nat)) (s : State) : State :=
  { s.writeCells (dc.zip ((placementBits v (s.readBytes .final 0 (totalCodewords v))).map
      fun b => (⟨b, false, false⟩ : Module))) with
    matMeta := { s.matMeta with mmasked := false } }

theorem rulePlace_cases (s : State) :
    let v := s.matMeta.mver.toNat
    let dc := dataCells v (s.symbolRows (side v))
    let expected := 8 * totalCodewords v + remainderBits v
    (s.matMeta.mver ≠ 0 ∧ dc.length = expected ∧ rulePlace s = .ok (s.placed v dc)) ∨
    (s.matMeta.mver = 0 ∧ rulePlace s = .error ⟨.state, 1⟩) ∨
    (s.matMeta.mver ≠ 0 ∧ dc.length ≠ expected ∧
      rulePlace s = .error ⟨.internal, BitVec.ofNat 16 expected ++ BitVec.ofNat 16 dc.length⟩) := by
  intro v dc expected
  rcases operandMatrix_cases s with ⟨hm, h⟩ | ⟨hm, h⟩
  · by_cases hc : dc.length = expected
    · refine .inl ⟨hm, hc, ?_⟩
      simp only [rulePlace, h, bind, Except.bind]
      rw [if_neg (fun hne => hne hc)]
      rfl
    · refine .inr (.inr ⟨hm, hc, ?_⟩)
      simp only [rulePlace, h, bind, Except.bind]
      rw [if_pos hc]
      rfl
  · exact .inr (.inl ⟨hm, by simp only [rulePlace, h, bind, Except.bind]⟩)

/-- The penalty registers of a candidate grid of side `n`. -/
def penOf (n : Nat) (g : List (List Bool)) : Pen :=
  ⟨BitVec.ofNat 32 (penalty1 n g), BitVec.ofNat 32 (penalty2 g), BitVec.ofNat 32 (penalty3 n g),
    BitVec.ofNat 32 (penalty4 n g), BitVec.ofNat 32 (totalPenalty n g)⟩

theorem ruleMaskScore_cases (mask : BitVec 3) (s : State) :
    let v := s.matMeta.mver.toNat
    (s.matMeta.mver ≠ 0 ∧ ruleMaskScore mask s = .ok { s with pen := penOf (side v) (s.candidate v mask.toNat) }) ∨
    (s.matMeta.mver = 0 ∧ ruleMaskScore mask s = .error ⟨.state, 1⟩) := by
  intro v
  rcases operandMatrix_cases s with ⟨hm, h⟩ | ⟨hm, h⟩
  · exact .inl ⟨hm, by simp only [ruleMaskScore, h, bind, Except.bind]; rfl⟩
  · exact .inr ⟨hm, by simp only [ruleMaskScore, h, bind, Except.bind]⟩

/-- The eight totals of MASK_SELECT. -/
def State.maskTotals (s : State) : List Nat :=
  (List.range 8).map fun m =>
    totalPenalty (side s.matMeta.mver.toNat) (s.candidate s.matMeta.mver.toNat m)

/-- The mask MASK_SELECT chooses. -/
def State.bestMask (s : State) : Nat := selectMask fun m => s.maskTotals.getD m 0

/-- The state MASK_SELECT answers. -/
def State.masked (s : State) : State :=
  { s.applyMask s.bestMask (side s.matMeta.mver.toNat) with
    maskPen := Vector.ofFn fun m => BitVec.ofNat 32 (s.maskTotals.getD m.val 0)
    matMeta := { s.matMeta with mmask := BitVec.ofNat 3 s.bestMask, mmasked := true }
    result := BitVec.ofNat 32 s.bestMask }

theorem ruleMaskSelect_cases (s : State) :
    (s.matMeta.mver ≠ 0 ∧ s.matMeta.mmasked = false ∧ ruleMaskSelect s = .ok s.masked) ∨
    (s.matMeta.mver = 0 ∧ ruleMaskSelect s = .error ⟨.state, 1⟩) ∨
    (s.matMeta.mver ≠ 0 ∧ s.matMeta.mmasked = true ∧ ruleMaskSelect s = .error ⟨.state, 2⟩) := by
  rcases operandMatrix_cases s with ⟨hm, h⟩ | ⟨hm, h⟩
  · cases hk : s.matMeta.mmasked with
    | false =>
      refine .inl ⟨hm, rfl, ?_⟩
      simp only [ruleMaskSelect, h, bind, Except.bind]
      rw [if_neg (by simp [hk])]
      rfl
    | true =>
      refine .inr (.inr ⟨hm, rfl, ?_⟩)
      simp only [ruleMaskSelect, h, bind, Except.bind]
      rw [if_pos hk]
      rfl
  · exact .inr (.inl ⟨hm, by simp only [ruleMaskSelect, h, bind, Except.bind]⟩)

theorem ruleFmtCalc_cases (ec mask : BitVec 3) (s : State) :
    (∃ l, operandEc ec = .ok l ∧
      ruleFmtCalc ec mask s = .ok { s with result := (formatWord l mask).setWidth 32 }) ∨
    (3 < ec.toNat ∧ ruleFmtCalc ec mask s = .error ⟨.config, 2⟩) := by
  rcases operandEc_cases ec with ⟨l, -, hl⟩ | ⟨hec, hl⟩
  · exact .inl ⟨l, hl, by simp only [ruleFmtCalc, hl, bind, Except.bind]⟩
  · exact .inr ⟨hec, by simp only [ruleFmtCalc, hl, bind, Except.bind]⟩

theorem ruleVerCalc_cases (ver : BitVec 6) (s : State) :
    (7 ≤ ver.toNat ∧ ver.toNat ≤ 40 ∧
      ruleVerCalc ver s = .ok { s with result := (versionWord ver).setWidth 32 }) ∨
    ((ver.toNat < 7 ∨ 40 < ver.toNat) ∧ ruleVerCalc ver s = .error ⟨.config, 1⟩) := by
  rcases versionFrom_cases 7 ver with ⟨h1, h2, hv⟩ | ⟨h, hv⟩
  · refine .inl ⟨h1, h2, ?_⟩
    simp only [ruleVerCalc, operandVersionWord, hv, bind, Except.bind, BitVec.ofNat_toNat, BitVec.setWidth_eq]
  · exact .inr ⟨h, by simp only [ruleVerCalc, operandVersionWord, hv, bind, Except.bind]⟩

/-- The state FMT_INSERT answers. -/
def State.inserted (l : EcLevel) (mask : BitVec 3) (s : State) : State :=
  { s.writeCells (stripWrites s.matMeta.mver.toNat (formatWord l mask) (versionWord s.matMeta.mver)) with
    matMeta := { s.matMeta with fmtdone := true } }

theorem ruleFmtInsert_cases (ec mask : BitVec 3) (s : State) :
    (∃ l, operandEc ec = .ok l ∧ s.matMeta.mver ≠ 0 ∧ ruleFmtInsert ec mask s = .ok (s.inserted l mask)) ∨
    (3 < ec.toNat ∧ ruleFmtInsert ec mask s = .error ⟨.config, 2⟩) ∨
    (ec.toNat ≤ 3 ∧ s.matMeta.mver = 0 ∧ ruleFmtInsert ec mask s = .error ⟨.state, 1⟩) := by
  rcases operandEc_cases ec with ⟨l, hle, hl⟩ | ⟨hec, hl⟩
  · rcases operandMatrix_cases s with ⟨hm, h⟩ | ⟨hm, h⟩
    · exact .inl ⟨l, hl, hm, by simp only [ruleFmtInsert, hl, h, bind, Except.bind]; rfl⟩
    · exact .inr (.inr ⟨hle, hm, by simp only [ruleFmtInsert, hl, h, bind, Except.bind]⟩)
  · exact .inr (.inl ⟨hec, by simp only [ruleFmtInsert, hl, bind, Except.bind]⟩)

/-! ### BUILD -/

/-- A run of stages whose first stage succeeds goes on from the state it left. -/
theorem runStages_cons_ok {stage : Rule} {rest : List Rule} {s t : State} (h : stage s = .ok t) :
    runStages (stage :: rest) s = runStages rest t := by
  simp [runStages, h]

theorem runStages_cons_error {stage : Rule} {rest : List Rule} {s : State} {e : CmdError} (h : stage s = .error e) :
    runStages (stage :: rest) s = .error (e, s) := by
  simp [runStages, h]

/-- What every stage keeps, every run of stages keeps, whether it ends well or with an error. -/
theorem runStages_keeps {P : State → Prop} {stages : List Rule}
    (hstep : ∀ stage ∈ stages, ∀ s t, P s → stage s = .ok t → P t) {s : State} (hs : P s) :
    (∀ t, runStages stages s = .ok t → P t) ∧ ∀ e t, runStages stages s = .error (e, t) → P t := by
  induction stages generalizing s with
  | nil => exact ⟨fun t h => by cases h; exact hs, fun e t h => by cases h⟩
  | cons stage rest ih =>
    cases h : stage s with
    | ok u =>
      rw [runStages_cons_ok h]
      exact ih (fun st hst => hstep st (List.mem_cons_of_mem _ hst)) (hstep stage List.mem_cons_self s u hs h)
    | error e =>
      rw [runStages_cons_error h]
      refine ⟨fun t ht => ?_, fun e' t ht => ?_⟩
      · cases ht
      · cases ht; exact hs

/-- BUILD answers the commit of what its stages leave, or the error of its own checks or of a stage. -/
theorem execBuild_cases (ver : BitVec 6) (ec : BitVec 3) (s : State) :
    (∃ l t, ver.toNat ≤ 40 ∧ operandEc ec = .ok l ∧ runStages (buildStages ver ec) s = .ok t ∧
      execBuild ver ec s = .next (t.commit ec).complete) ∨
    (∃ l e t, ver.toNat ≤ 40 ∧ operandEc ec = .ok l ∧ runStages (buildStages ver ec) s = .error (e, t) ∧
      execBuild ver ec s = .next (t.raiseError e)) ∨
    (40 < ver.toNat ∧ execBuild ver ec s = .next (s.raiseError ⟨.config, 1⟩)) ∨
    (ver.toNat ≤ 40 ∧ 3 < ec.toNat ∧ execBuild ver ec s = .next (s.raiseError ⟨.config, 2⟩)) := by
  unfold execBuild
  rcases versionFrom_cases 0 ver with ⟨-, h2, hv⟩ | ⟨h, hv⟩
  · rcases operandEc_cases ec with ⟨l, -, hl⟩ | ⟨hec, hl⟩
    · cases hr : runStages (buildStages ver ec) s with
      | ok t => exact .inl ⟨l, t, h2, hl, rfl, by simp [operandVersionOrAuto, hv, hl]⟩
      | error p => exact .inr (.inl ⟨l, p.1, p.2, h2, hl, rfl, by simp [operandVersionOrAuto, hv, hl]⟩)
    · exact .inr (.inr (.inr ⟨h2, hec, by simp [operandVersionOrAuto, hv, hl]⟩))
  · exact .inr (.inr (.inl ⟨by omega, by simp [operandVersionOrAuto, hv]⟩))

end Sys2Proof.Machine
end

