-- ==== Sys2Proof/Laws/Step.lean ====
section
/-! SUPPORT. What one step is, by whose turn it is; and what every completion leaves. -/
namespace Sys2Proof.Machine

theorem step_core {s u : State} (h : CoreMoves s u) : step s = coreTurn u := by
  rcases h with ⟨ha, rfl⟩ | ⟨rest, ha, rfl⟩ <;> simp [step, takeTurn, ha]

theorem step_host {s u : State} {a : Access} (h : HostMoves s a u) : step s = .next (State.hostAccess a u) := by
  obtain ⟨rest, ha, rfl⟩ := h
  simp [step, takeTurn, ha]

theorem step_hardReset {s : State} {rest : List Move} (h : s.agenda = .hardReset :: rest) :
    step s = .next (State.applyReset { s with agenda := rest }) := by
  simp [step, takeTurn, h]

/-- Whose turn it is, and what the step is then. -/
theorem step_cases (s : State) :
    (∃ u, CoreMoves s u ∧ step s = coreTurn u) ∨
    (∃ a u, HostMoves s a u ∧ step s = .next (State.hostAccess a u)) ∨
    ∃ rest, s.agenda = .hardReset :: rest ∧ step s = .next (State.applyReset { s with agenda := rest }) := by
  cases ha : s.agenda with
  | nil => exact .inl ⟨s, .inl ⟨ha, rfl⟩, step_core (.inl ⟨ha, rfl⟩)⟩
  | cons m rest =>
    cases m with
    | core => exact .inl ⟨_, .inr ⟨rest, ha, rfl⟩, step_core (.inr ⟨rest, ha, rfl⟩)⟩
    | host a => exact .inr (.inl ⟨a, _, ⟨rest, ha, rfl⟩, step_host ⟨rest, ha, rfl⟩⟩)
    | hardReset => exact .inr (.inr ⟨rest, rfl, step_hardReset ha⟩)

/-- The core's turn does not change the state before the completion but for the agenda. -/
theorem CoreMoves.eq {s u : State} (h : CoreMoves s u) : u = { s with agenda := u.agenda } := by
  rcases h with ⟨-, rfl⟩ | ⟨rest, -, rfl⟩ <;> rfl

theorem HostMoves.eq {s u : State} {a : Access} (h : HostMoves s a u) : u = { s with agenda := u.agenda } := by
  obtain ⟨rest, -, rfl⟩ := h; rfl

/-- The core's turn: idle, an illegal word, or the instruction the word decodes to. -/
theorem coreTurn_cases (s : State) :
    (s.pending = none ∧ coreTurn s = .next s) ∨
    (∃ w e, s.pending = some w ∧ decode w = .error e ∧ coreTurn s = .next (s.raiseError (illegalCommand e))) ∨
    ∃ w i, s.pending = some w ∧ decode w = .ok i ∧ coreTurn s = exec i s := by
  cases hp : s.pending with
  | none => exact .inl ⟨rfl, by simp [coreTurn, hp]⟩
  | some w =>
    cases hd : decode w with
    | error e => exact .inr (.inl ⟨w, e, rfl, hd, by simp [coreTurn, hp, hd]⟩)
    | ok i => exact .inr (.inr ⟨w, i, rfl, hd, by simp [coreTurn, hp, hd]⟩)

/-! ### The busy window (20_memory.md R95) -/

/-- The write set the bus works with is the one the statements name. -/
theorem inWriteSet_iff (s : State) (region : Region) (k : Nat) :
    s.inWriteSet region k = true ↔ BusyWrites s region k := by
  cases hp : s.pending with
  | none => simp [State.inWriteSet, BusyWrites, hp]
  | some w =>
    cases hd : decode w with
    | error e => simp [State.inWriteSet, BusyWrites, hp, hd]
    | ok i => cases i <;> simp [State.inWriteSet, BusyWrites, commandWrites, hp, hd, or_assoc, and_assoc]

/-- An idle core has an empty write set. -/
theorem not_busyWrites_of_idle {s : State} (h : s.pending = none) (region : Region) (k : Nat) :
    ¬ BusyWrites s region k := by
  rintro ⟨w, i, hw, -⟩
  rw [h] at hw
  cases hw

/-- A host read outside the write set returns the stable byte, in every state. -/
theorem hostByte_stable {s : State} {region : Region} {k : Nat} (h : ¬ BusyWrites s region k) (addr : Nat) :
    s.hostByte region k addr = s.viewByte region k := by
  have hf : s.inWriteSet region k = false := by
    rw [← Bool.not_eq_true, inWriteSet_iff]
    exact h
  simp [State.hostByte, hf]

end Sys2Proof.Machine
end

