-- ==== Sys2Proof/Laws/Decode.lean ====
section
/-! SUPPORT. When a word selects a row of the opcode map, and what the decoder answers then. -/
namespace Sys2Proof
open Sys2Proof.Machine

theorem low_byte_bit (i : Nat) (h : i < 32) : (0xFF#32).getLsbD i = decide (i < 8) := by
  interval_cases i <;> rfl

/-- The bits of `w` below bit 8 are its opcode. -/
theorem opcode_bit (w : Word) (op : Byte) (h : w.extractLsb' 0 8 = op) (i : Nat) (hi : i < 8) :
    w.getLsbD i = op.getLsbD i := by
  rw [← h, BitVec.getLsbD_extractLsb']
  simp [hi]

/-- A word whose opcode is `op` matches a row of mask `reserved ||| 0xFF` exactly when it has no reserved bit. -/
theorem matches_iff (w reserved : Word) (op : Byte) (h : w.extractLsb' 0 8 = op) (hr : reserved &&& 0xFF = 0) :
    w &&& (reserved ||| 0xFF) = op.setWidth 32 ↔ w &&& reserved = 0 := by
  have low : ∀ i, i < 8 → reserved.getLsbD i = false := fun i hi => by
    have := congrArg (fun x : Word => x.getLsbD i) hr
    simpa [low_byte_bit i (by omega), hi] using this
  have bits : ∀ i, i < 32 → ((w &&& (reserved ||| 0xFF)).getLsbD i = (op.setWidth 32).getLsbD i ↔
      (w &&& reserved).getLsbD i = (0 : Word).getLsbD i) := fun i hi => by
    simp only [BitVec.getLsbD_and, BitVec.getLsbD_or, BitVec.getLsbD_setWidth, hi, decide_true, Bool.true_and,
      BitVec.ofNat_eq_ofNat, low_byte_bit i hi, BitVec.getLsbD_zero]
    rcases Nat.lt_or_ge i 8 with h8 | h8
    · simp only [low i h8, h8, decide_true, Bool.false_or, Bool.and_true, Bool.and_false, iff_true]
      exact opcode_bit w op h i h8
    · rw [BitVec.getLsbD_of_ge op i h8]
      simp [Nat.not_lt.2 h8]
  constructor
  · intro hm
    exact BitVec.eq_of_getLsbD_eq fun i hi => (bits i hi).1 (by rw [hm])
  · intro hm
    exact BitVec.eq_of_getLsbD_eq fun i hi => (bits i hi).2 (by rw [hm])

/-- The core's turn with a pending word that decodes to `i`. -/
theorem Machine.step_of_decode_ok {s u : State} {w : Word} {i : Instr} (h : CoreMoves s u) (hp : s.pending = some w)
    (hd : decode w = .ok i) : step s = exec i u := by
  have hu : u.pending = some w := by rw [CoreMoves.eq h]; exact hp
  rw [step_core h, coreTurn, hu]
  simp only [hd]

/-- The core's turn with a pending word that decodes to no command. -/
theorem Machine.step_of_decode_error {s u : State} {w : Word} {e : DecodeError} (h : CoreMoves s u)
    (hp : s.pending = some w) (hd : decode w = .error e) : step s = .next (u.raiseError (illegalCommand e)) := by
  have hu : u.pending = some w := by rw [CoreMoves.eq h]; exact hp
  rw [step_core h, coreTurn, hu]
  simp only [hd]

/-- The words of one row of the opcode map. -/
theorem Machine.encoded_of_row {row : OpRow} {reserved : Word}
    (hf : opRows.find? (fun r => r.op == row.op) = some row) (hm : row.mask = reserved ||| 0xFF)
    (hr : reserved &&& 0xFF = 0) : Encoded row.op reserved row.operands := by
  intro w h
  have hd : decode w = if w &&& row.mask = row.op.setWidth 32 then .ok (row.operands w) else .error .reservedBit := by
    unfold decode
    rw [show fieldOp w = row.op from h, hf]
  rw [hm] at hd
  constructor
  · intro hres
    rw [if_pos ((matches_iff w reserved row.op h hr).2 hres)] at hd
    exact ⟨hd, fun _ _ hc hp => step_of_decode_ok hc hp hd⟩
  · intro hres
    rw [if_neg (fun hc => hres ((matches_iff w reserved row.op h hr).1 hc))] at hd
    exact ⟨hd, fun _ _ hc hp => step_of_decode_error hc hp hd⟩

end Sys2Proof
end

