-- ==== Sys2Proof/Laws/Geometry.lean ====
section
/-! SUPPORT. The function modules of a row as the bits of one number, so that the kernel counts them (44_matrix.md R249,
R250): `testBit_rowMask` says that bit c of `rowMask v r` is the F bit of the template's cell (r, c). -/
namespace Sys2Proof.Machine

/-- The number whose bits `lo` to `lo + len - 1` are 1. -/
def bitSpan (lo len : Nat) : Nat := (2 ^ len - 1) <<< lo

theorem testBit_bitSpan (lo len c : Nat) : (bitSpan lo len).testBit c = decide (lo ≤ c ∧ c < lo + len) := by
  simp only [bitSpan, Nat.testBit_shiftLeft, Nat.testBit_two_pow_sub_one]
  by_cases h : lo ≤ c
  · simp [h]; omega
  · simp [h]

/-- The columns of row `r` that lie in an alignment pattern of one of the centres. -/
def alignmentMask (r : Nat) : List (Nat × Nat) → Nat
  | [] => 0
  | (a, b) :: rest =>
    if Nat.ble a (r + 2) && Nat.ble r (a + 2) then bitSpan (b - 2) (b + 3 - (b - 2)) ||| alignmentMask r rest
    else alignmentMask r rest

/-- The function modules of row `r` of a symbol of side `s`, apart from the alignment patterns of `centres`, and with
them. -/
def rowMask (v s : Nat) (centres : List (Nat × Nat)) (r : Nat) : Nat :=
  (if Nat.ble r 8 then bitSpan 0 9 ||| bitSpan (s - 8) 8 else 0) |||
  (if Nat.ble (s - 8) r then bitSpan 0 9 else 0) |||
  (if Nat.beq r 6 then bitSpan 0 s else 0) ||| bitSpan 6 1 |||
  (if Nat.ble 7 v then
    (if Nat.ble r 5 then bitSpan (s - 11) 3 else 0) |||
      (if Nat.ble (s - 11) r && Nat.ble (r + 9) s then bitSpan 0 6 else 0)
  else 0) |||
  alignmentMask r centres

/-- How many of the bits 0 to n-1 are 1. -/
def bitCount : Nat → Nat → Nat
  | 0, _ => 0
  | n + 1, m => m % 2 + bitCount n (m / 2)

theorem bitCount_eq (n m : Nat) : bitCount n m = ((List.range n).filter fun c => m.testBit c).length := by
  induction n generalizing m with
  | zero => rfl
  | succ n ih =>
    have hsucc : (fun c => m.testBit c) ∘ Nat.succ = fun c => (m / 2).testBit c := by
      funext c; simp [Nat.testBit_succ]
    rw [bitCount, ih, List.range_succ_eq_map, List.filter_cons, List.filter_map, hsucc]
    rcases Nat.mod_two_eq_zero_or_one m with h | h <;> simp [Nat.testBit_zero, h, Nat.add_comm]

theorem testBit_alignmentMask (r c : Nat) (centres : List (Nat × Nat)) :
    (alignmentMask r centres).testBit c = (centres.find? fun x => ringOf r c x ≤ 2).isSome := by
  induction centres with
  | nil => simp [alignmentMask]
  | cons x rest ih =>
    obtain ⟨a, b⟩ := x
    rw [List.find?_cons, alignmentMask]
    have hring : ringOf r c (a, b) ≤ 2 ↔ (a ≤ r + 2 ∧ r ≤ a + 2) ∧ b - 2 ≤ c ∧ c < b - 2 + (b + 3 - (b - 2)) := by
      simp only [ringOf, distance]; omega
    by_cases hr : a ≤ r + 2 ∧ r ≤ a + 2
    · rw [if_pos (by simpa using hr), Nat.testBit_or, ih, testBit_bitSpan]
      by_cases hc : b - 2 ≤ c ∧ c < b - 2 + (b + 3 - (b - 2))
      · rw [decide_eq_true hc, decide_eq_true (hring.2 ⟨hr, hc⟩)]; rfl
      · rw [decide_eq_false hc, decide_eq_false (fun h => hc (hring.1 h).2), Bool.false_or]
    · rw [if_neg (by simpa using hr), ih]
      simp [hring, hr]

/-! ### The template's function modules -/

/-- The template's F bit is 1 exactly when some rule draws the cell. -/
theorem templateCell_f {v r c : Nat} (hr : r < side v) (hc : c < side v) :
    (templateCell v r c).f = ((finderColour? v r c).isSome || (timingColour? v r c).isSome ||
      (alignmentColour? (alignmentCentres v) r c).isSome || decide ((r, c) = darkModule v) ||
      (stripCells v).contains (r, c)) := by
  unfold templateCell templateCellWith
  rw [if_pos ⟨hr, hc⟩]
  cases finderColour? v r c <;> simp only [Option.isSome_some, Option.isSome_none, Bool.true_or, Bool.false_or]
  cases timingColour? v r c <;> simp only [Option.isSome_some, Option.isSome_none, Bool.true_or, Bool.false_or]
  cases alignmentColour? (alignmentCentres v) r c <;>
    simp only [Option.isSome_some, Option.isSome_none, Bool.true_or, Bool.false_or]
  by_cases hd : (r, c) = darkModule v
  · simp [hd]
  · rw [if_neg hd, decide_eq_false hd, Bool.false_or]
    cases (stripCells v).contains (r, c) <;> rfl

theorem finderColour_isSome (v r c : Nat) : (finderColour? v r c).isSome = true ↔
    ringOf r c (3, 3) ≤ 4 ∨ ringOf r c (3, side v - 4) ≤ 4 ∨ ringOf r c (side v - 4, 3) ≤ 4 := by
  simp [finderColour?, finderCentres, List.find?_isSome]

theorem timingColour_isSome (v r c : Nat) : (timingColour? v r c).isSome = true ↔
    (r = 6 ∧ 8 ≤ c ∧ c + 9 ≤ side v) ∨ (c = 6 ∧ 8 ≤ r ∧ r + 9 ≤ side v) := by
  unfold timingColour?
  split
  · simp [*]
  · split <;> simp [*]

theorem mem_stripCells (v r c : Nat) : (stripCells v).contains (r, c) = true ↔
    (∃ i < 15, fp1 i = (r, c)) ∨ (∃ i < 15, fp2 v i = (r, c)) ∨
      (7 ≤ v ∧ ((∃ i < 18, vp1 v i = (r, c)) ∨ ∃ i < 18, vp2 v i = (r, c))) := by
  simp only [stripCells, List.contains_iff_mem, List.mem_append, List.mem_map, List.mem_range]
  by_cases h : 7 ≤ v <;> simp [h, or_assoc]

/-! Every cell of each region is drawn: by a finder with its separator, by a timing line or the dark module, or by a strip. -/

theorem corner_topLeft {r c : Nat} (h : r ≤ 8 ∧ c ≤ 8) :
    (r ≤ 7 ∧ c ≤ 7) ∨ (r = 6 ∧ c = 8) ∨ (c = 6 ∧ r = 8) ∨ ∃ i < 15, fp1 i = (r, c) := by
  obtain ⟨hr, hc⟩ := h
  rcases (by omega : (r ≤ 7 ∧ c ≤ 7) ∨ r = 8 ∨ (c = 8 ∧ r < 8)) with h | rfl | ⟨rfl, h⟩
  · exact .inl h
  · refine .inr ?_
    interval_cases c
    · exact .inr (.inr ⟨14, by decide, rfl⟩)
    · exact .inr (.inr ⟨13, by decide, rfl⟩)
    · exact .inr (.inr ⟨12, by decide, rfl⟩)
    · exact .inr (.inr ⟨11, by decide, rfl⟩)
    · exact .inr (.inr ⟨10, by decide, rfl⟩)
    · exact .inr (.inr ⟨9, by decide, rfl⟩)
    · exact .inr (.inl ⟨rfl, rfl⟩)
    · exact .inr (.inr ⟨8, by decide, rfl⟩)
    · exact .inr (.inr ⟨7, by decide, rfl⟩)
  · refine .inr ?_
    rcases (by omega : r ≤ 5 ∨ r = 6 ∨ r = 7) with h5 | rfl | rfl
    · exact .inr (.inr ⟨r, by omega, by rw [fp1, if_pos h5]⟩)
    · exact .inl ⟨rfl, rfl⟩
    · exact .inr (.inr ⟨6, by decide, rfl⟩)

theorem strip_topRight {v c : Nat} (h : side v - 8 ≤ c) (hc : c < side v) : ∃ i < 15, fp2 v i = (8, c) := by
  refine ⟨side v - 1 - c, by omega, ?_⟩
  rw [fp2, if_pos (by omega), show side v - 1 - (side v - 1 - c) = c by omega]

theorem strip_bottomLeft {v r : Nat} (hv : 15 ≤ side v) (h : side v - 7 ≤ r) (hr : r < side v) :
    ∃ i < 15, fp2 v i = (r, 8) := by
  refine ⟨r + 15 - side v, by omega, ?_⟩
  rw [fp2, if_neg (by omega), show side v - 15 + (r + 15 - side v) = r by omega]

theorem block_topRight {v r c : Nat} (hr : r ≤ 5) (h : side v - 11 ≤ c) (hc : c < side v - 8) :
    ∃ i < 18, vp1 v i = (r, c) := by
  refine ⟨3 * r + (c - (side v - 11)), by omega, ?_⟩
  rw [vp1, show (3 * r + (c - (side v - 11))) / 3 = r by omega,
    show side v - 11 + (3 * r + (c - (side v - 11))) % 3 = c by omega]

theorem block_bottomLeft {v r c : Nat} (hc : c ≤ 5) (h : side v - 11 ≤ r) (hr : r < side v - 8) :
    ∃ i < 18, vp2 v i = (r, c) := by
  refine ⟨3 * c + (r - (side v - 11)), by omega, ?_⟩
  rw [vp2, show (3 * c + (r - (side v - 11))) / 3 = c by omega,
    show side v - 11 + (3 * c + (r - (side v - 11))) % 3 = r by omega]

theorem fp1_region {i r c : Nat} (hi : i < 15) (h : fp1 i = (r, c)) : r ≤ 8 ∧ c ≤ 8 := by
  interval_cases i <;> simp [fp1] at h <;> omega

theorem fp2_region {v i r c : Nat} (hv : 15 ≤ side v) (hi : i < 15) (h : fp2 v i = (r, c)) :
    (r = 8 ∧ side v - 8 ≤ c) ∨ (c = 8 ∧ side v - 7 ≤ r) := by
  unfold fp2 at h
  split at h <;> simp only [Prod.mk.injEq] at h <;> omega

/-- The function modules of the template, by regions of the symbol: the three corners with their format strips, the timing
lines, the version blocks, the alignment patterns (R241 to R249). -/
theorem templateCell_f_iff {v r c : Nat} (hv : 1 ≤ v) (hr : r < side v) (hc : c < side v) :
    (templateCell v r c).f = true ↔
      (r ≤ 8 ∧ c ≤ 8) ∨ (r ≤ 8 ∧ side v - 8 ≤ c) ∨ (side v - 8 ≤ r ∧ c ≤ 8) ∨ r = 6 ∨ c = 6 ∨
        (7 ≤ v ∧ ((r ≤ 5 ∧ side v - 11 ≤ c ∧ c + 9 ≤ side v) ∨ (side v - 11 ≤ r ∧ r + 9 ≤ side v ∧ c ≤ 5))) ∨
        (alignmentColour? (alignmentCentres v) r c).isSome = true := by
  have hs : 21 ≤ side v := by simp only [side]; omega
  rw [templateCell_f hr hc]
  simp only [Bool.or_eq_true, finderColour_isSome, timingColour_isSome, mem_stripCells, decide_eq_true_eq, darkModule,
    Prod.mk.injEq]
  constructor
  · rintro ((((h | h) | h) | h) | h)
    · simp only [ringOf, distance] at h; omega
    · omega
    · simp [h]
    · omega
    · rcases h with ⟨i, hi, h⟩ | ⟨i, hi, h⟩ | ⟨h7, ⟨i, hi, h⟩ | ⟨i, hi, h⟩⟩
      · exact .inl (fp1_region hi h)
      · have := fp2_region (by omega) hi h; omega
      · simp only [vp1, Prod.mk.injEq] at h; omega
      · simp only [vp2, Prod.mk.injEq] at h; omega
  · rintro (h | h | h | h | h | ⟨h7, h | h⟩ | h)
    · rcases corner_topLeft h with h | h | h | h
      · refine .inl (.inl (.inl (.inl (.inl ?_)))); simp only [ringOf, distance]; omega
      · exact .inl (.inl (.inl (.inr (.inl ⟨h.1, by omega, by omega⟩))))
      · exact .inl (.inl (.inl (.inr (.inr ⟨h.1, by omega, by omega⟩))))
      · exact .inr (.inl h)
    · rcases (by omega : r ≤ 7 ∨ r = 8) with h7 | rfl
      · refine .inl (.inl (.inl (.inl (.inr (.inl ?_))))); simp only [ringOf, distance]; omega
      · exact .inr (.inr (.inl (strip_topRight h.2 hc)))
    · rcases (by omega : c ≤ 7 ∨ (c = 8 ∧ r = side v - 8) ∨ (c = 8 ∧ side v - 7 ≤ r)) with h7 | h8 | ⟨rfl, h8⟩
      · refine .inl (.inl (.inl (.inl (.inr (.inr ?_))))); simp only [ringOf, distance]; omega
      · exact .inl (.inr ⟨h8.2, h8.1⟩)
      · exact .inr (.inr (.inl (strip_bottomLeft (by omega) h8 hr)))
    · subst h
      rcases (by omega : c ≤ 7 ∨ side v - 8 ≤ c ∨ (8 ≤ c ∧ c + 9 ≤ side v)) with h | h | h
      · refine .inl (.inl (.inl (.inl (.inl ?_)))); simp only [ringOf, distance]; omega
      · refine .inl (.inl (.inl (.inl (.inr (.inl ?_))))); simp only [ringOf, distance]; omega
      · exact .inl (.inl (.inl (.inr (.inl ⟨rfl, h⟩))))
    · subst h
      rcases (by omega : r ≤ 7 ∨ side v - 8 ≤ r ∨ (8 ≤ r ∧ r + 9 ≤ side v)) with h | h | h
      · refine .inl (.inl (.inl (.inl (.inl ?_)))); simp only [ringOf, distance]; omega
      · refine .inl (.inl (.inl (.inl (.inr (.inr ?_))))); simp only [ringOf, distance]; omega
      · exact .inl (.inl (.inl (.inr (.inr ⟨rfl, h⟩))))
    · exact .inr (.inr (.inr ⟨h7, .inl (block_topRight h.1 h.2.1 (by omega))⟩))
    · exact .inr (.inr (.inr ⟨h7, .inr (block_bottomLeft h.2.2 h.1 (by omega))⟩))
    · exact .inl (.inl (.inr h))

/-- Bit c of `rowMask` is the F bit of the template's cell (r, c). -/
theorem testBit_rowMask {v r c : Nat} (hv : 1 ≤ v) (hr : r < side v) (hc : c < side v) :
    (rowMask v (side v) (alignmentCentres v) r).testBit c = (templateCell v r c).f := by
  rw [Bool.eq_iff_iff, templateCell_f_iff hv hr hc]
  have hal : (alignmentMask r (alignmentCentres v)).testBit c = (alignmentColour? (alignmentCentres v) r c).isSome := by
    rw [testBit_alignmentMask, alignmentColour?, Option.isSome_map]
  have hs : 21 ≤ side v := by simp only [side]; omega
  simp only [rowMask, Nat.testBit_or, hal]
  generalize (alignmentColour? (alignmentCentres v) r c).isSome = al
  generalize side v = s at *
  have ite0 : ∀ (p : Prop) [Decidable p] (m : Nat), (if p then m else 0).testBit c = (decide p && m.testBit c) := by
    intro p _ m
    by_cases h : p <;> simp [h]
  simp only [ite0, Nat.testBit_or, testBit_bitSpan, Bool.or_eq_true, Bool.and_eq_true, decide_eq_true_eq,
    Nat.ble_eq, Nat.beq_eq]
  cases al <;> simp only [Bool.false_eq_true, or_false, or_true]
  omega

/-- The data modules of the template of version `v`, by rows. -/
theorem length_templateRow {v r : Nat} (hv : 1 ≤ v) (hr : r < side v) :
    ((List.range (side v)).filter fun c => !(templateCell v r c).f).length
      = side v - bitCount (side v) (rowMask v (side v) (alignmentCentres v) r) := by
  have hf : ((List.range (side v)).filter fun c => !(templateCell v r c).f)
      = (List.range (side v)).filter fun c => !(rowMask v (side v) (alignmentCentres v) r).testBit c :=
    List.filter_congr fun c hc => by rw [testBit_rowMask hv hr (List.mem_range.1 hc)]
  rw [hf, bitCount_eq]
  have := List.length_eq_length_filter_add (l := List.range (side v))
    fun c => (rowMask v (side v) (alignmentCentres v) r).testBit c
  simp only [List.length_range] at this
  omega

end Sys2Proof.Machine
end

