-- ==== Sys2Proof/Laws/Matrix.lean ====
section
/-! SUPPORT. The rows of a symbol as the commands read them, and the cells of the zig-zag order (44_matrix.md R253,
R255; 45_mask.md R282). -/
namespace Sys2Proof.Machine

/-- The cell (r, c) of `symbolRows` is the WMAT cell. -/
theorem cellOf_symbolRows (s : State) (h : List.Pairwise (fun a b => a.1 < b.1) s.wmat) {n r c : Nat} (hn : n ≤ 177)
    (hr : r < n) (hc : c < n) : cellOf (s.symbolRows n) r c = s.readCell .wmat r c := by
  unfold cellOf State.symbolRows
  rw [List.getD_eq_getElem?_getD, List.getD_eq_getElem?_getD, List.getElem?_map, List.getElem?_range hr]
  simp only [Option.map_some, Option.getD_some]
  rw [Memory.slice_eq_map_read h, List.getElem?_map, List.getElem?_range' hc]
  simp [State.readCell, State.cellExists_iff, show r < 177 by omega, show c < 177 by omega, State.cellIndex, State.mat]

@[simp] theorem length_pairCells (s right : Nat) : (pairCells s right).length = 2 * s := by
  simp [pairCells, List.length_flatMap, Nat.mul_comm]

@[simp] theorem length_pairColumns (s : Nat) : (pairColumns s).length = (s - 1) / 2 := by simp [pairColumns]

/-- Every cell of ZZ(v) lies in the symbol. -/
theorem mem_zigzag {v : Nat} {x : Nat × Nat} (h : x ∈ zigzag v) : x.1 < side v ∧ x.2 < side v := by
  simp only [zigzag, List.mem_flatMap, pairColumns, pairCells, List.mem_map, List.mem_range] at h
  obtain ⟨right, ⟨p, hp, rfl⟩, k, hk, hx⟩ := h
  have hs : 17 ≤ side v := by simp only [side]; omega
  generalize side v = s at *
  have hrow : ∀ up : Bool, (if up then s - 1 - k else k) < s := fun up => by cases up <;> simp <;> omega
  have hcol : (if s - 1 - 2 * p ≤ 6 then s - 1 - 2 * p - 1 else s - 1 - 2 * p) < s := by split <;> omega
  simp only [List.mem_cons, List.not_mem_nil, or_false] at hx
  rcases hx with rfl | rfl
  · exact ⟨hrow _, hcol⟩
  · exact ⟨hrow _, Nat.lt_of_le_of_lt (Nat.sub_le ..) hcol⟩

/-- DC by the WMAT cells themselves. -/
theorem dataCells_symbolRows (s : State) (h : List.Pairwise (fun a b => a.1 < b.1) s.wmat) {v : Nat} (hv : v ≤ 40) :
    dataCells v (s.symbolRows (side v)) = (zigzag v).filter fun x => !(s.readCell .wmat x.1 x.2).f := by
  refine List.filter_congr fun x hx => ?_
  have hb := mem_zigzag hx
  rw [cellOf_symbolRows s h (by simp only [side]; omega) hb.1 hb.2]

end Sys2Proof.Machine
end

