-- ==== Sys2Proof/Laws/PerInstr.lean ====
section
/-! SUPPORT. The statement made once per instruction: that its command word matches its row of the opcode map and that
the row's operand fields give the instruction back (30_encoding.md R111 to R116, R123). -/
namespace Sys2Proof.Laws

/-- The command word of `i` lies in some row of the map: its fixed bits are the row's, its fields are `i`'s operands. -/
def EncodeMatchesRow.Statement (i : Instr) : Prop :=
  ∃ row ∈ opRows, encode i &&& row.mask = row.op.setWidth 32 ∧ row.operands (encode i) = i

/-! ### The bits, the fields and the fixed bits of each format -/

theorem formatA_bit (op : Byte) (mode : BitVec 3) (i : Nat) : (formatA op mode).getLsbD i =
    if i < 8 then op.getLsbD i else if i - 8 < 3 then mode.getLsbD (i - 8) else (0#21).getLsbD (i - 8 - 3) := by
  change BitVec.getLsbD (w := 21 + 3 + 8) (0#21 ++ mode ++ op) i = _
  simp only [BitVec.getLsbD_append]

theorem formatG_bit (op a b : Byte) (i : Nat) : (formatG op a b).getLsbD i =
    if i < 8 then op.getLsbD i else if i - 8 < 8 then a.getLsbD (i - 8)
    else if i - 8 - 8 < 8 then b.getLsbD (i - 8 - 8) else (0#8).getLsbD (i - 8 - 8 - 8) := by
  change BitVec.getLsbD (w := 8 + 8 + 8 + 8) (0#8 ++ b ++ a ++ op) i = _
  simp only [BitVec.getLsbD_append]

theorem formatR_bit (op n : Byte) (e : BitVec 6) (i : Nat) : (formatR op n e).getLsbD i =
    if i < 8 then op.getLsbD i else if i - 8 < 8 then n.getLsbD (i - 8)
    else if i - 8 - 8 < 6 then e.getLsbD (i - 8 - 8) else (0#10).getLsbD (i - 8 - 8 - 6) := by
  change BitVec.getLsbD (w := 10 + 6 + 8 + 8) (0#10 ++ e ++ n ++ op) i = _
  simp only [BitVec.getLsbD_append]

theorem formatC_bit (op : Byte) (ec : BitVec 3) (ver : BitVec 6) (mask : BitVec 3) (i : Nat) :
    (formatC op ec ver mask).getLsbD i =
    if i < 8 then op.getLsbD i else if i - 8 < 3 then ec.getLsbD (i - 8)
    else if i - 8 - 3 < 6 then ver.getLsbD (i - 8 - 3)
    else if i - 8 - 3 - 6 < 3 then mask.getLsbD (i - 8 - 3 - 6) else (0#12).getLsbD (i - 8 - 3 - 6 - 3) := by
  change BitVec.getLsbD (w := 12 + 3 + 6 + 3 + 8) (0#12 ++ mask ++ ver ++ ec ++ op) i = _
  simp only [BitVec.getLsbD_append]

theorem fields_formatA (op : Byte) (mode : BitVec 3) : fieldMode (formatA op mode) = mode := by
  refine BitVec.eq_of_getLsbD_eq fun i hi => ?_
  interval_cases i <;> simp only [BitVec.getLsbD_extractLsb', formatA_bit, fieldMode] <;> simp

theorem fixed_formatA (op : Byte) (mode : BitVec 3) : formatA op mode &&& 0xFFFFF8FF = op.setWidth 32 := by
  refine BitVec.eq_of_getLsbD_eq fun i hi => ?_
  interval_cases i <;> simp only [BitVec.getLsbD_and, formatA_bit] <;> simp

theorem fields_formatG (op a b : Byte) : fieldA (formatG op a b) = a ∧ fieldB (formatG op a b) = b := by
  constructor <;> refine BitVec.eq_of_getLsbD_eq fun i hi => ?_ <;>
    interval_cases i <;> simp only [BitVec.getLsbD_extractLsb', formatG_bit, fieldA, fieldB] <;> simp

theorem fixed_formatG (op a b : Byte) :
    formatG op a b &&& 0xFF0000FF = op.setWidth 32 ∧ formatG op a 0 &&& 0xFFFF00FF = op.setWidth 32 := by
  constructor <;> refine BitVec.eq_of_getLsbD_eq fun i hi => ?_ <;>
    interval_cases i <;> simp only [BitVec.getLsbD_and, formatG_bit] <;> simp

theorem fields_formatR (op n : Byte) (e : BitVec 6) : fieldN (formatR op n e) = n ∧ fieldE (formatR op n e) = e := by
  constructor <;> refine BitVec.eq_of_getLsbD_eq fun i hi => ?_ <;>
    interval_cases i <;> simp only [BitVec.getLsbD_extractLsb', formatR_bit, fieldN, fieldE] <;> simp

theorem fixed_formatR (op n : Byte) (e : BitVec 6) :
    formatR op n e &&& 0xFFC000FF = op.setWidth 32 ∧ formatR op 0 e &&& 0xFFC0FFFF = op.setWidth 32 := by
  constructor <;> refine BitVec.eq_of_getLsbD_eq fun i hi => ?_ <;>
    interval_cases i <;> simp only [BitVec.getLsbD_and, formatR_bit] <;> simp

theorem fields_formatC (op : Byte) (ec : BitVec 3) (ver : BitVec 6) (mask : BitVec 3) :
    fieldEc (formatC op ec ver mask) = ec ∧ fieldVer (formatC op ec ver mask) = ver ∧
      fieldMask (formatC op ec ver mask) = mask := by
  refine ⟨?_, ?_, ?_⟩ <;> refine BitVec.eq_of_getLsbD_eq fun i hi => ?_ <;>
    interval_cases i <;> simp only [BitVec.getLsbD_extractLsb', formatC_bit, fieldEc, fieldVer, fieldMask] <;> simp

/-- The fixed bits of format C, by the fields a row uses: EC and VER, VER, MASK, EC and MASK. -/
theorem fixed_formatC (op : Byte) (ec : BitVec 3) (ver : BitVec 6) (mask : BitVec 3) :
    formatC op ec ver 0 &&& 0xFFFE00FF = op.setWidth 32 ∧ formatC op 0 ver 0 &&& 0xFFFE07FF = op.setWidth 32 ∧
      formatC op 0 0 mask &&& 0xFFF1FFFF = op.setWidth 32 ∧ formatC op ec 0 mask &&& 0xFFF1F8FF = op.setWidth 32 := by
  refine ⟨?_, ?_, ?_, ?_⟩ <;> refine BitVec.eq_of_getLsbD_eq fun i hi => ?_ <;>
    interval_cases i <;> simp only [BitVec.getLsbD_and, formatC_bit] <;> simp

/-! ### The statement, instruction by instruction -/

theorem EncodeMatchesRow.nop : EncodeMatchesRow.Statement .nop :=
  ⟨⟨0x00, 0xFFFFFFFF, fun _ => .nop⟩, by simp [opRows], by decide, rfl⟩

theorem EncodeMatchesRow.clear : EncodeMatchesRow.Statement .clear :=
  ⟨⟨0x01, 0xFFFFFFFF, fun _ => .clear⟩, by simp [opRows], by decide, rfl⟩

theorem EncodeMatchesRow.append (mode : BitVec 3) : EncodeMatchesRow.Statement (.append mode) :=
  ⟨⟨0x02, 0xFFFFF8FF, fun w => .append (fieldMode w)⟩, by simp [opRows],
    fixed_formatA _ _, congrArg Instr.append (fields_formatA _ _)⟩

theorem EncodeMatchesRow.capq (ver : BitVec 6) (ec : BitVec 3) : EncodeMatchesRow.Statement (.capq ver ec) :=
  ⟨⟨0x10, 0xFFFE00FF, fun w => .capq (fieldVer w) (fieldEc w)⟩, by simp [opRows],
    (fixed_formatC 0x10 ec ver 0).1,
    congrArg₂ Instr.capq (fields_formatC 0x10 ec ver 0).2.1 (fields_formatC 0x10 ec ver 0).1⟩

theorem EncodeMatchesRow.gfMul (a : Byte) (b : Byte) : EncodeMatchesRow.Statement (.gfMul a b) :=
  ⟨⟨0x20, 0xFF0000FF, fun w => .gfMul (fieldA w) (fieldB w)⟩, by simp [opRows],
    (fixed_formatG 0x20 a b).1, congrArg₂ Instr.gfMul (fields_formatG 0x20 a b).1 (fields_formatG 0x20 a b).2⟩

theorem EncodeMatchesRow.gfExp (a : Byte) : EncodeMatchesRow.Statement (.gfExp a) :=
  ⟨⟨0x21, 0xFFFF00FF, fun w => .gfExp (fieldA w)⟩, by simp [opRows],
    (fixed_formatG 0x21 a 0).2, congrArg Instr.gfExp (fields_formatG 0x21 a 0).1⟩

theorem EncodeMatchesRow.gfLog (a : Byte) : EncodeMatchesRow.Statement (.gfLog a) :=
  ⟨⟨0x22, 0xFFFF00FF, fun w => .gfLog (fieldA w)⟩, by simp [opRows],
    (fixed_formatG 0x22 a 0).2, congrArg Instr.gfLog (fields_formatG 0x22 a 0).1⟩

theorem EncodeMatchesRow.gfGenpoly (e : BitVec 6) : EncodeMatchesRow.Statement (.gfGenpoly e) :=
  ⟨⟨0x23, 0xFFC0FFFF, fun w => .gfGenpoly (fieldE w)⟩, by simp [opRows],
    (fixed_formatR 0x23 0 e).2, congrArg Instr.gfGenpoly (fields_formatR 0x23 0 e).2⟩

theorem EncodeMatchesRow.rsEnc (n : Byte) (e : BitVec 6) : EncodeMatchesRow.Statement (.rsEnc n e) :=
  ⟨⟨0x30, 0xFFC000FF, fun w => .rsEnc (fieldN w) (fieldE w)⟩, by simp [opRows],
    (fixed_formatR 0x30 n e).1, congrArg₂ Instr.rsEnc (fields_formatR 0x30 n e).1 (fields_formatR 0x30 n e).2⟩

theorem EncodeMatchesRow.eccInterleave (ver : BitVec 6) (ec : BitVec 3) :
    EncodeMatchesRow.Statement (.eccInterleave ver ec) :=
  ⟨⟨0x31, 0xFFFE00FF, fun w => .eccInterleave (fieldVer w) (fieldEc w)⟩, by simp [opRows],
    (fixed_formatC 0x31 ec ver 0).1,
    congrArg₂ Instr.eccInterleave (fields_formatC 0x31 ec ver 0).2.1 (fields_formatC 0x31 ec ver 0).1⟩

theorem EncodeMatchesRow.bitstream (ver : BitVec 6) (ec : BitVec 3) :
    EncodeMatchesRow.Statement (.bitstream ver ec) :=
  ⟨⟨0x40, 0xFFFE00FF, fun w => .bitstream (fieldVer w) (fieldEc w)⟩, by simp [opRows],
    (fixed_formatC 0x40 ec ver 0).1,
    congrArg₂ Instr.bitstream (fields_formatC 0x40 ec ver 0).2.1 (fields_formatC 0x40 ec ver 0).1⟩

theorem EncodeMatchesRow.matrixInit (ver : BitVec 6) : EncodeMatchesRow.Statement (.matrixInit ver) :=
  ⟨⟨0x50, 0xFFFE07FF, fun w => .matrixInit (fieldVer w)⟩, by simp [opRows],
    (fixed_formatC 0x50 0 ver 0).2.1, congrArg Instr.matrixInit (fields_formatC 0x50 0 ver 0).2.1⟩

theorem EncodeMatchesRow.place : EncodeMatchesRow.Statement .place :=
  ⟨⟨0x51, 0xFFFFFFFF, fun _ => .place⟩, by simp [opRows], by decide, rfl⟩

theorem EncodeMatchesRow.maskScore (mask : BitVec 3) : EncodeMatchesRow.Statement (.maskScore mask) :=
  ⟨⟨0x60, 0xFFF1FFFF, fun w => .maskScore (fieldMask w)⟩, by simp [opRows],
    (fixed_formatC 0x60 0 0 mask).2.2.1, congrArg Instr.maskScore (fields_formatC 0x60 0 0 mask).2.2⟩

theorem EncodeMatchesRow.maskSelect : EncodeMatchesRow.Statement .maskSelect :=
  ⟨⟨0x61, 0xFFFFFFFF, fun _ => .maskSelect⟩, by simp [opRows], by decide, rfl⟩

theorem EncodeMatchesRow.fmtCalc (ec : BitVec 3) (mask : BitVec 3) : EncodeMatchesRow.Statement (.fmtCalc ec mask) :=
  ⟨⟨0x70, 0xFFF1F8FF, fun w => .fmtCalc (fieldEc w) (fieldMask w)⟩, by simp [opRows],
    (fixed_formatC 0x70 ec 0 mask).2.2.2,
    congrArg₂ Instr.fmtCalc (fields_formatC 0x70 ec 0 mask).1 (fields_formatC 0x70 ec 0 mask).2.2⟩

theorem EncodeMatchesRow.verCalc (ver : BitVec 6) : EncodeMatchesRow.Statement (.verCalc ver) :=
  ⟨⟨0x71, 0xFFFE07FF, fun w => .verCalc (fieldVer w)⟩, by simp [opRows],
    (fixed_formatC 0x71 0 ver 0).2.1, congrArg Instr.verCalc (fields_formatC 0x71 0 ver 0).2.1⟩

theorem EncodeMatchesRow.fmtInsert (ec : BitVec 3) (mask : BitVec 3) :
    EncodeMatchesRow.Statement (.fmtInsert ec mask) :=
  ⟨⟨0x72, 0xFFF1F8FF, fun w => .fmtInsert (fieldEc w) (fieldMask w)⟩, by simp [opRows],
    (fixed_formatC 0x72 ec 0 mask).2.2.2,
    congrArg₂ Instr.fmtInsert (fields_formatC 0x72 ec 0 mask).1 (fields_formatC 0x72 ec 0 mask).2.2⟩

theorem EncodeMatchesRow.build (ver : BitVec 6) (ec : BitVec 3) : EncodeMatchesRow.Statement (.build ver ec) :=
  ⟨⟨0x80, 0xFFFE00FF, fun w => .build (fieldVer w) (fieldEc w)⟩, by simp [opRows],
    (fixed_formatC 0x80 ec ver 0).1,
    congrArg₂ Instr.build (fields_formatC 0x80 ec ver 0).2.1 (fields_formatC 0x80 ec ver 0).1⟩

end Sys2Proof.Laws
end

