-- ==== Sys2Proof/Tests/Slice0.lean ====
section
/-! SUPPORT. The model's own tests: the WellFormed smoke test, decoding of words written out from the spec's encodings,
the commands on the vectors of 95_test_vectors.md and on hand calculations from the rules, and for every statement with
hypotheses a witness that meets them. -/
namespace Sys2Proof.Tests
set_option Elab.async false
open Sys2Proof.Machine
open Sys2Proof.Config (ByteMem MatMem)

/-! ### WellFormed: each check refuses one ill-formed instruction (30_encoding.md R121) -/

theorem test_wf_refuses_version_0 : (Instr.capq 0 1).wf = false := by decide
theorem test_wf_refuses_version_41 : (Instr.matrixInit 41).wf = false := by decide
theorem test_wf_refuses_auto_41 : (Instr.build 41 1).wf = false := by decide
theorem test_wf_refuses_version_word_6 : (Instr.verCalc 6).wf = false := by decide
theorem test_wf_refuses_ec_4 : (Instr.fmtCalc 4 0).wf = false := by decide
theorem test_wf_refuses_ec_count_31 : (Instr.rsEnc 1 31).wf = false := by decide
theorem test_wf_refuses_ec_count_0 : (Instr.gfGenpoly 0).wf = false := by decide
theorem test_wf_refuses_mode_5 : (Instr.append 5).wf = false := by decide
theorem test_wf_accepts_auto : (Instr.bitstream 0 3).wf = true := by decide

/-! ### Decoding: words of R123 and 95_test_vectors.md; then one word for each format written bit by bit (R111 to R115) -/

theorem test_decode_nop : decode 0x00000000 = .ok .nop := by decide
theorem test_decode_clear : decode 0x00000001 = .ok .clear := by decide
theorem test_decode_append : decode 0x00000402 = .ok (.append 4) := by decide
theorem test_decode_capq : decode 0x00014310 = .ok (.capq 40 3) := by decide
theorem test_decode_gfMul : decode 0x00CA5320 = .ok (.gfMul 0x53 0xCA) := by decide
theorem test_decode_gfExp : decode 0x0000FE21 = .ok (.gfExp 254) := by decide
theorem test_decode_gfLog : decode 0x00001D22 = .ok (.gfLog 0x1D) := by decide
theorem test_decode_gfGenpoly : decode 0x001E0023 = .ok (.gfGenpoly 30) := by decide
theorem test_decode_rsEnc : decode 0x000A1030 = .ok (.rsEnc 16 10) := by decide
theorem test_decode_eccInterleave : decode 0x00002A31 = .ok (.eccInterleave 5 2) := by decide
theorem test_decode_bitstream : decode 0x00000140 = .ok (.bitstream 0 1) := by decide
theorem test_decode_matrixInit : decode 0x00003850 = .ok (.matrixInit 7) := by decide
theorem test_decode_place : decode 0x00000051 = .ok .place := by decide
theorem test_decode_maskScore : decode 0x000E0060 = .ok (.maskScore 7) := by decide
theorem test_decode_maskSelect : decode 0x00000061 = .ok .maskSelect := by decide
theorem test_decode_fmtCalc : decode 0x000A0370 = .ok (.fmtCalc 3 5) := by decide
theorem test_decode_verCalc : decode 0x00014071 = .ok (.verCalc 40) := by decide
theorem test_decode_fmtInsert : decode 0x00020172 = .ok (.fmtInsert 1 1) := by decide
theorem test_decode_build : decode 0x00000180 = .ok (.build 0 1) := by decide

/-- One word of each format, field by field from bit 31 down to bit 0. -/
theorem test_decode_bitwise :
    decode (0b000000000000000000000000#24 ++ 0b01010001#8) = .ok .place ∧
      decode (0b000000000000000000000#21 ++ 0b011#3 ++ 0b00000010#8) = .ok (.append 3) ∧
      decode (0b00000000#8 ++ 0b11001010#8 ++ 0b01010011#8 ++ 0b00100000#8) = .ok (.gfMul 0x53 0xCA) ∧
      decode (0b0000000000#10 ++ 0b000010#6 ++ 0b00000011#8 ++ 0b00110000#8) = .ok (.rsEnc 3 2) ∧
      decode (0b000000000000#12 ++ 0b000#3 ++ 0b100111#6 ++ 0b010#3 ++ 0b10000000#8) = .ok (.build 39 2) ∧
      decode (0b000000000000#12 ++ 0b101#3 ++ 0b000000#6 ++ 0b011#3 ++ 0b01110010#8) = .ok (.fmtInsert 3 5) := by decide

theorem test_decode_reserved_bit : decode 0x01CA5320 = .error .reservedBit ∧ decode 0x00020910 = .error .reservedBit ∧
    decode 0x00020123 = .error .reservedBit ∧ decode 0x00000970 = .error .reservedBit := by decide

theorem test_decode_unknown : decode 0x00000003 = .error .unknownOp ∧ decode 0x000000FF = .error .unknownOp := by decide

theorem test_decodeTableWord : decodeTableWord 32 0x00000910 = some (.capq 1 1) ∧ decodeTableWord 8 0x00 = some .nop ∧
    decodeTableWord 32 0x00000003 = none := by decide

theorem test_withFetchWord_runs :
    step (State.reset.withFetchWord 32 0x00000721) = .next { State.reset with
      lastcmd := 0x00000721, result := 0x80, status := ⟨true, false, false, false, 0⟩ } := by rfl

/-! ### States of the tests -/

/-- A memory that holds `xs` from index `lo` on. -/
def holding (lo : Nat) (xs : List Byte) : Memory Byte := Memory.number lo xs

/-- Reset, then IBUF from offset 0 and an APPEND length. -/
def withChunk (xs : List Byte) (s : State) : State := { s with ibuf := holding 0 xs, arg1 := BitVec.ofNat 32 xs.length }

/-- Reset with ARG0 and ARG1. -/
def withArgs (a0 a1 : Word) (s : State) : State := { s with arg0 := a0, arg1 := a1 }

/-- Reset with a matrix of version `v`, its cells not yet written. -/
def withVersion (v : BitVec 6) (masked : Bool) (s : State) : State := { s with matMeta := ⟨v, 0, masked, false⟩ }

/-- The 21 by 21 cells of the version 1 template (44_matrix.md R251), the rest of WMAT not written. -/
def templateCells : Memory Module :=
  (List.range 21).flatMap fun r => (List.range 21).map fun c => (177 * r + c, templateCell 1 r c)

/-- Version 1 after MATRIX_INIT, with `codewords` at the start of FINAL. -/
def withTemplate (codewords : List Byte) (s : State) : State :=
  { withVersion 1 false s with wmat := templateCells, final := holding 0 codewords }

/-- The same with a data cell made a function cell. -/
def withWrongCount (s : State) : State :=
  { withTemplate [] s with wmat := Memory.set templateCells (177 * 9) ⟨false, true, false⟩ }

/-- A core busy with the command word `w`. -/
def busyWith (w : Word) (s : State) : State := { s with pending := some w, lastcmd := w }

/-- The host's turn, with one access. -/
def hostTurn (a : Access) (s : State) : State := { s with agenda := [.host a] }

/-- One stored segment, of `n` bytes at offset `off`. -/
def segmentOf (mode : SegMode) (nchars off n : BitVec 16) : Segment := ⟨mode, nchars, off, n⟩

/-- The bytes of an ASCII string. -/
def ascii (t : String) : List Byte := t.toList.map fun c => BitVec.ofNat 8 c.toNat

/-- The segments of a Numeric text stored alone. -/
def withDigits (t : List Byte) (s : State) : State :=
  { s with
    segdata := holding 0 t
    segtab := [segmentOf .numeric (BitVec.ofNat 16 t.length) 0 (BitVec.ofNat 16 t.length)]
    segused := BitVec.ofNat 16 t.length }

/-- What `f` says of the state an instruction ends in. -/
def after {α : Type} (i : Instr) (s : State) (f : State → α) : Option α :=
  match exec i s with
  | .next t => some (f t)
  | _ => none

theorem after_some {α : Type} {i : Instr} {s : State} {f : State → α} {x : α} (h : after i s f = some x) :
    ∃ t, exec i s = .next t ∧ f t = x := by
  unfold after at h
  split at h
  · exact ⟨_, by assumption, Option.some.inj h⟩
  · cases h

/-- What `f` says of the state a step ends in. -/
def afterStep {α : Type} (s : State) (f : State → α) : Option α :=
  match step s with
  | .next t => some (f t)
  | _ => none

/-- STATUS.ERRCODE and ERRINFO. -/
def errorOf (s : State) : Bool × Byte × Word := (s.status.err, s.status.errcode, s.errinfo)

/-! ### The commands -/

/-- B-6. -/
theorem test_nop : after .nop State.reset State.statusWord = some 0x00000002 := by decide

/-- A-15. -/
theorem test_clear : after .clear (withDigits (ascii "123") State.reset) (fun t => (t.segcountWord, t.segtabByte 0)) =
    some (0, 0) := by decide

/-- A-2: three pieces, with their SEGTAB words. -/
theorem test_append_auto : after (.append 0) (withChunk (ascii "ABC123456789012345678901234567890xyz") State.reset)
      (fun t => (t.segcountWord, t.segtab.map Segment.entryBits)) =
    some (0x00240003, [0x0003000000030003, 0x001E0003001E0001, 0x0003002100030003]) := by decide +kernel

/-- A-6 and A-7: a Kanji pair for two, and an unpaired last byte. -/
theorem test_append_kanji :
    after (.append 4) (withChunk [0x93, 0x5F, 0xE4, 0xAA] State.reset)
        (fun t => (t.segcountWord, t.segtab.map Segment.entryBits)) = some (0x00040001, [0x0004000000020004]) ∧
      after (.append 4) (withChunk [0x93, 0x5F, 0xE4] State.reset) errorOf = some (true, 0x04, 0x00020000) := by decide

/-- K-4 and K-11. -/
theorem test_capq : after (.capq 5 2) State.reset State.cap =
      some ⟨0x003E0086, 0x020F0212, 0x00070437, 0x00570090, 0x0025003C⟩ ∧
    after (.capq 1 4) State.reset errorOf = some (true, 0x02, 2) := by decide

/-- K-7. -/
theorem test_capq_largest : after (.capq 40 0) State.reset State.cap =
    some ⟨0x0B8C0E7A, 0x0676131E, 0x000073D0, 0x10C81BB1, 0x07190B89⟩ := by decide

/-- G-5 and G-6. -/
theorem test_gfMul : after (.gfMul 0xFF 0xFF) State.reset State.result = some 0xE2 ∧
    after (.gfMul 0x53 0xCA) State.reset State.result = some 0x8F := by decide

/-- G-10. -/
theorem test_gfExp : after (.gfExp 254) State.reset State.result = some 0x8E ∧
    after (.gfExp 255) State.reset State.result = some 0x01 := by decide +kernel

/-- G-12 and G-13. -/
theorem test_gfLog : after (.gfLog 0xFF) State.reset State.result = some 175 ∧
    after (.gfLog 0) { State.reset with result := 0x1D } (fun t => (t.statusWord, t.result)) =
      some (0x00000704, 0x1D) := by decide +kernel

/-- G-16. -/
theorem test_gfGenpoly : after (.gfGenpoly 7) State.reset (fun t => t.readBytes .cwbuf 0 8) =
    some [0x01, 0x7F, 0x7A, 0x9A, 0xA4, 0x0B, 0x44, 0x75] := by decide +kernel

/-- G-20 and G-21. -/
theorem test_gfGenpoly_range :
    after (.gfGenpoly 2) (withArgs 0 4093 State.reset) (fun t => t.readBytes .cwbuf 4093 3) = some [0x01, 0x03, 0x02] ∧
      after (.gfGenpoly 2) (withArgs 0 4094 State.reset) errorOf = some (true, 0x06, 2) := by decide +kernel

/-- R-5: every read before any write. -/
theorem test_rsEnc_overlap :
    after (.rsEnc 3 2) { State.reset with cwbuf := holding 0 [1, 2, 3] } (fun t => t.readBytes .cwbuf 0 3) =
      some [0x04, 0x04, 0x03] := by decide +kernel

/-- R-2. -/
theorem test_rsEnc : after (.rsEnc 16 10) (withArgs 0 16 { State.reset with
      cwbuf := holding 0 [0x10, 0x20, 0x0C, 0x56, 0x61, 0x80, 0xEC, 0x11, 0xEC, 0x11, 0xEC, 0x11, 0xEC, 0x11, 0xEC, 0x11] })
      (fun t => t.readBytes .cwbuf 16 10) =
    some [0xA5, 0x24, 0xD4, 0xC1, 0xED, 0x36, 0xC7, 0x87, 0x2C, 0x55] := by decide +kernel

/-- R-10, FINAL[56..71]: the long blocks' extra codewords, then the EC part. -/
theorem test_eccInterleave : after (.eccInterleave 5 2)
      { State.reset with cwbuf := holding 0 ((List.range 62).map (BitVec.ofNat 8)) }
      (fun t => t.readBytes .final 56 16) =
    some [0x0E, 0x1D, 0x2C, 0x3C, 0x2D, 0x3D, 0x82, 0x55, 0x12, 0x44, 0x20, 0xD8, 0x02, 0xE0, 0x39, 0x83] := by
  decide +kernel

/-- T-2. -/
theorem test_bitstream : after (.bitstream 0 1) (withDigits (ascii "12345") State.reset)
      (fun t => (t.result, t.bitlen, t.streamMetaWord, t.readBytes .cwbuf 0 16)) =
    some (1, 31, 0x80000101, [0x10, 0x14, 0x7B, 0x5A, 0x00, 0xEC, 0x11, 0xEC, 0x11, 0xEC, 0x11, 0xEC, 0x11, 0xEC, 0x11,
      0xEC]) := by decide +kernel

/-- T-3 and T-5: 34 digits fill version 1-M, 35 do not fit it. -/
theorem test_bitstream_full :
    after (.bitstream 0 1) (withDigits (ascii "1234567890123456789012345678901234") State.reset)
        (fun t => (t.result, t.bitlen, t.readBytes .cwbuf 14 2)) = some (1, 128, [0x87, 0xB4]) ∧
      after (.bitstream 1 1) (withDigits (ascii "12345678901234567890123456789012345") State.reset) errorOf =
        some (true, 0x03, 131) := by decide +kernel

/-- X-6, and the four kinds of cell of the version 1 map (R252): finder, data, reserved-pending, dark. -/
theorem test_matrixInit : after (.matrixInit 41) State.reset errorOf = some (true, 0x02, 1) ∧
    templateCell 1 0 0 = ⟨true, true, false⟩ ∧ templateCell 1 20 20 = ⟨false, false, true⟩ ∧
      templateCell 1 8 0 = ⟨false, true, true⟩ ∧ templateCell 1 13 8 = ⟨true, true, false⟩ := by decide +kernel

/-- X-7, and X-9: codewords 0 to 3 of version 1 stand at the cells listed (the first cell of each). -/
theorem test_place : after .place State.reset (fun t => t.statusWord) = some 0x00000904 ∧
    (let dc := (zigzag 1).filter fun x => !(templateCell 1 x.1 x.2).f
     [dc[0]?, dc[7]?, dc[8]?, dc[16]?, dc[24]?, dc[25]?, dc[31]?, dc[207]?] =
      [some (20, 20), some (17, 19), some (16, 20), some (12, 20), some (9, 18), some (9, 17), some (12, 17),
        some (12, 0)]) := by decide +kernel

/-- X-11: a data cell made a function cell is a fatal count mismatch. -/
theorem test_place_fatal :
    after .place (withWrongCount State.reset) (fun t => (t.statusWord, t.errinfo)) = some (0x0000080C, 0x00D000CF) := by decide +kernel

/-- M-2 to M-5, M-7: the penalty rules' corners. -/
theorem test_maskScore_rules :
    linePenalty (List.replicate 5 true) = 3 ∧ linePenalty (List.replicate 21 false) = 19 ∧
      linePenalty (List.replicate 4 true) = 0 ∧ penalty2 (List.replicate 3 (List.replicate 3 true)) = 12 ∧
      countFinderLike [false, false, false, false, true, false, true, true, true, false, true, false, false, false,
        false] = 2 ∧
      countFinderLike [true, false, true, true, true, false, true, false, false, false] = 0 ∧
      penalty4 21 (List.replicate 21 (List.replicate 21 true)) = 100 := by decide +kernel

/-- Scenario A's candidate of mask 1: the version 1 template with the codewords of an empty stream placed. -/
theorem test_maskScore :
    (let dc := (zigzag 1).filter fun x => !(templateCell 1 x.1 x.2).f
     let bits := (finalStream 1 .M (codewordsOf 1 .M [])).flatMap byteBits
     let placed := dc.zip bits
     let rows := (List.range 21).map fun r =>
       let row := placed.filter fun x => Nat.beq x.1.1 r
       (List.range 21).map fun c =>
         match row.find? fun x => Nat.beq x.1.2 c with
         | some x => (⟨x.2, false, false⟩ : Module)
         | none => templateCell 1 r c
     penOf 21 (scoringView true 1 1 rows)) = ⟨201, 195, 40, 0, 436⟩ := by decide +kernel

/-- The mask predicates, row i = 5 of the table of 45_mask.md R280 in 95_test_vectors.md. -/
theorem test_mask_predicates : (List.range 8).map (fun m => (List.range 6).map (maskBit m 5)) =
    [[false, true, false, true, false, true], [false, false, false, false, false, false],
      [true, false, false, true, false, false], [false, true, false, false, true, false],
      [true, true, true, false, false, false], [true, false, false, false, false, false],
      [true, false, false, false, true, true], [false, true, true, true, false, false]] := by decide

/-- R354: MASK_SCORE and MASK_SELECT without a matrix, MASK_SELECT on a masked one. -/
theorem test_maskSelect : after (.maskScore 0) State.reset errorOf = some (true, 0x09, 1) ∧
    after .maskSelect State.reset errorOf = some (true, 0x09, 1) ∧
      after .maskSelect (withVersion 1 true State.reset) errorOf = some (true, 0x09, 2) := by decide

/-- F-1, F-3 and F-8. -/
theorem test_fmtCalc : after (.fmtCalc 1 0) State.reset State.result = some 0x5412 ∧
    after (.fmtCalc 3 5) State.reset State.result = some 0x0255 ∧
      after (.fmtCalc 4 0) State.reset errorOf = some (true, 0x02, 2) := by decide

/-- F-6 and F-7. -/
theorem test_verCalc : after (.verCalc 20) State.reset State.result = some 0x149A6 ∧
    after (.verCalc 6) State.reset errorOf = some (true, 0x02, 1) := by decide

/-- F-10, and F-11: bit 0 of 0x5125 at (0, 8) and (8, 20), bit 14 at (8, 0) and (20, 8). -/
theorem test_fmtInsert : after (.fmtInsert 1 1) State.reset errorOf = some (true, 0x09, 1) ∧
    formatWord .M 1 = 0x5125 ∧ fp1 0 = (0, 8) ∧ fp2 1 0 = (8, 20) ∧ fp1 14 = (8, 0) ∧ fp2 1 14 = (20, 8) := by decide

/-- B-1, scenario A: BUILD ends with DONE, and OUTMETA reads version 1, EC level M, side 21, valid (its mask apart). -/
theorem test_build : after (.build 1 1) State.reset
      (fun t => (t.status, t.result, t.outMeta.ver, t.outMeta.ec, t.outMeta.side, t.outMeta.valid)) =
    some (⟨true, false, false, false, 0⟩, 1, 1, 1, 21, true) := by decide +kernel

/-! ### The host port -/

/-- I-5, I-6 and I-7: unmapped, misaligned, and a reserved CSR. -/
theorem test_bus_errors :
    afterStep (hostTurn ⟨true, 0x00100, 2, 0⟩ State.reset) (fun t => (t.reply.err, t.statusWord)) = some (true, 0) ∧
      afterStep (hostTurn ⟨true, 0x04001, 1, 0⟩ State.reset) (fun t => (t.reply.err, t.statusWord)) = some (true, 0) ∧
      afterStep (hostTurn ⟨false, 0x00080, 2, 0⟩ State.reset) (fun t => t.reply) = some ⟨true, false, some 0⟩ := by
  decide

/-- I-8: while fatal a CMD write is dropped. -/
theorem test_fatal_drops_cmd :
    afterStep (hostTurn ⟨true, 0x04, 2, 0⟩ { State.reset with status := ⟨false, true, true, false, 0x08⟩ })
      (fun t => (t.statusWord, t.lastcmd)) = some (0x0000081C, 0) := by decide

/-- I-10 and I-11: while busy ARG0 is dropped, and CTRL takes IE and keeps MINRUN. -/
theorem test_busy_writes :
    afterStep (hostTurn ⟨true, 0x14, 2, 5⟩ (busyWith 0 State.reset)) (fun t => (t.statusWord, t.arg0)) =
        some (0x00000011, 0) ∧
      afterStep (hostTurn ⟨true, 0x10, 2, 0x00000301⟩ (busyWith 0 State.reset))
        (fun t => (t.statusWord, t.ctrlWord)) = some (0x00000001, 0x00001401) := by decide

/-- I-9 and I-13: a soft reset restores CTRL and clears STATUS; ID reads its constant. -/
theorem test_soft_reset :
    afterStep (hostTurn ⟨true, 0x10, 2, 2⟩ { State.reset with status := ⟨false, true, true, true, 0x08⟩ })
        (fun t => (t.statusWord, t.ctrlWord)) = some (0, 0x00001400) ∧
      afterStep (hostTurn ⟨false, 0x00, 2, 0⟩ State.reset) (fun t => t.reply.rdata) = some (some 0x51524331) := by decide

/-- R82: a 4-byte write to IBUF puts the low byte at the lowest address, and a 2-byte read gives two of them. -/
theorem test_little_endian :
    afterStep { State.reset with agenda := [.host ⟨true, 0x04000, 2, 0x44332211⟩] } (fun t => t.ibuf) =
        some [(0, 0x11), (1, 0x22), (2, 0x33), (3, 0x44)] ∧
      afterStep (hostTurn ⟨false, 0x04002, 1, 0⟩ { State.reset with ibuf := holding 0 [0x11, 0x22, 0x33, 0x44] })
        (fun t => t.reply.rdata) = some (some 0x4433) := by decide

/-! ### Witnesses: states and operands that meet the hypotheses of each statement, clause by clause -/

/-- What `Inv` asks, as a check that runs. -/
def invChecks (s : State) : Bool :=
  decide (∀ b ∈ [ByteMem.ibuf, .segdata, .cwbuf, .final], Memory.wf b.size (s.bytes b)) &&
    decide (∀ mm ∈ [MatMem.wmat, .cmat], Memory.wf Config.matCells (s.mat mm)) &&
    decide (s.segtab.length ≤ Config.maxSegments ∧ s.segused.toNat ≤ Config.segdataBytes) &&
    decide (∀ e ∈ s.segtab, e.off.toNat + e.nbytes.toNat ≤ s.segused.toNat ∧ 0 < e.nbytes.toNat ∧
      e.nbytes.toNat = if e.mode = .kanji then 2 * e.nchars.toNat else e.nchars.toNat) &&
    (s.pending.all fun w => decide (w = s.lastcmd ∧ s.status.done = false ∧ s.status.err = false ∧
      s.status.fatal = false ∧ s.errinfo = 0)) &&
    decide (¬ (s.status.done = true ∧ s.status.err = true)) &&
    decide ((s.status.err = false ↔ s.status.errcode = 0) ∧ s.status.errcode.toNat ≤ 9) &&
    decide (if s.streamMeta.svalid then 1 ≤ s.streamMeta.sver.toNat ∧ s.streamMeta.sver.toNat ≤ 40 ∧
        s.streamMeta.sec.toNat ≤ 3
      else s.streamMeta = ⟨0, 0, false⟩) &&
    decide (s.matMeta.mver.toNat ≤ 40 ∧ (s.matMeta.mver = 0 → s.matMeta = ⟨0, 0, false, false⟩)) &&
    decide (if s.outMeta.valid then 1 ≤ s.outMeta.ver.toNat ∧ s.outMeta.ver.toNat ≤ 40 ∧ s.outMeta.ec.toNat ≤ 3 ∧
        s.outMeta.side.toNat = 4 * s.outMeta.ver.toNat + 17
      else s.outMeta = ⟨0, 0, 0, 0, false⟩)

theorem inv_of_checks {s : State} (h : invChecks s = true) : Inv s := by
  simp only [invChecks, Bool.and_eq_true, decide_eq_true_eq] at h
  obtain ⟨⟨⟨⟨⟨⟨⟨⟨⟨hb, hm⟩, hc⟩, he⟩, hp⟩, ho⟩, hcode⟩, hs⟩, hmat⟩, hout⟩ := h
  exact {
    memories := ⟨fun b => hb b (by cases b <;> decide), fun mm => hm mm (by cases mm <;> decide)⟩
    segments := ⟨hc.1, hc.2, fun e h => (he e h).1, fun e h => (he e h).2.1, fun e h => (he e h).2.2⟩
    lifecycle := ⟨fun w hw => by simpa [hw] using hp, ho, hcode.1, hcode.2⟩
    metadata := ⟨hs, hmat, hout⟩ }

/-- The core moves at a state whose agenda is empty. -/
theorem coreMoves_self {s : State} (h : s.agenda = []) : CoreMoves s s := .inl ⟨h, rfl⟩

/-- The host moves at `hostTurn`. -/
theorem hostMoves_turn (a : Access) (s : State) : HostMoves (hostTurn a s) a { s with agenda := [] } := ⟨[], rfl, rfl⟩

/-- A state the invariant holds of, other than reset: a segment stored, a matrix of version 40, a finished command. -/
def sample : State :=
  { withVersion 40 false (withDigits (ascii "12345") State.reset) with
    status := ⟨true, false, false, true, 0⟩, ibuf := holding 0 (ascii "A1"), cwbuf := holding 10 [1, 2, 3] }

theorem inv_sample : Inv sample := inv_of_checks (by decide +kernel)

/-- A core busy with a command word, from `sample`. -/
def busySample (w : Word) : State := busyWith w { sample with status := ⟨false, false, false, true, 0⟩ }

theorem inv_busySample_nop : Inv (busySample 0) := inv_of_checks (by decide +kernel)

theorem witness_DecodeAndEncodeAgree : decode 0x00000980 = .ok (.build 1 1) ∧ decode 0xFF = .error .unknownOp := by decide

/-- The ends of the illegal ranges, and their legal neighbours. -/
theorem witness_IllegalOpcodeEndsWithError :
    CoreMoves (busySample 0x03) (busySample 0x03) ∧ (busySample 0x03).pending = some 0x03 ∧
      [0x03, 0x0F, 0x11, 0x1F, 0x24, 0x2F, 0x32, 0x3F, 0x41, 0x4F, 0x52, 0x5F, 0x62, 0x6F, 0x73, 0x7F, 0x81, 0xFF].map
        decode = List.replicate 18 (.error .unknownOp) ∧
      ([0x02, 0x10, 0x20, 0x23, 0x30, 0x31, 0x40, 0x50, 0x51, 0x60, 0x61, 0x70, 0x72, 0x80].map
        fun w => (decode w).toOption.isSome) = List.replicate 14 true :=
  ⟨coreMoves_self rfl, rfl, by decide +kernel, by decide +kernel⟩

theorem witness_IllegalFieldEndsWithConfigError : (Instr.capq 41 4).wf = false ∧ (Instr.gfLog 0).wf = true ∧
    after (.gfLog 0) State.reset errorOf = some (true, 0x07, 0) ∧ State.reset.status.err = false := by decide

theorem witness_StepRunsDecodedInstruction :
    CoreMoves State.reset State.reset ∧ State.reset.pending = none ∧
      CoreMoves { busySample 0 with agenda := [.core, .core] } { busySample 0 with agenda := [.core] } ∧
      decode 0 = .ok .nop ∧ decode 0x03 = .error .unknownOp ∧ decode 0x0100 = .error .reservedBit :=
  ⟨coreMoves_self rfl, rfl, .inr ⟨_, rfl, rfl⟩, by decide, by decide, by decide⟩

theorem witness_CommandLifecycle :
    (∃ u, HostMoves (hostTurn ⟨true, 0x04, 2, 0x10⟩ sample) ⟨true, 0x04, 2, 0x10⟩ u ∧ u.pending = none ∧
      u.status.fatal = false) ∧
    (∃ u, HostMoves (hostTurn ⟨true, 0x04, 2, 0x10⟩ (busySample 0)) ⟨true, 0x04, 2, 0x10⟩ u ∧ u.pending ≠ none) ∧
    (∃ u, HostMoves (hostTurn ⟨true, 0x04, 2, 0⟩ { State.reset with status := ⟨false, true, true, false, 8⟩ })
      ⟨true, 0x04, 2, 0⟩ u ∧ u.status.fatal = true) ∧
    Inv (busySample 0) ∧ CoreMoves (busySample 0) (busySample 0) ∧ (busySample 0).pending ≠ none :=
  ⟨⟨_, hostMoves_turn _ _, rfl, rfl⟩, ⟨_, hostMoves_turn _ _, by decide⟩, ⟨_, hostMoves_turn _ _, rfl⟩,
    inv_busySample_nop, coreMoves_self rfl, by decide⟩

theorem witness_PossibleErrors : State.reset.status.err = false ∧
    exec (.gfLog 0) State.reset = .next (State.reset.raiseError ⟨.gfDomain, 0⟩) ∧
    exec (.append 5) State.reset = .next (State.reset.raiseError ⟨.config, 4⟩) ∧
    exec .place State.reset = .next (State.reset.raiseError ⟨.state, 1⟩) := ⟨rfl, rfl, rfl, rfl⟩

theorem witness_InterruptLine : Inv (busySample 0) ∧ CoreMoves (busySample 0) (busySample 0) ∧
    (busySample 0).pending ≠ none ∧ ∃ t, step (busySample 0) = .next t :=
  ⟨inv_busySample_nop, coreMoves_self rfl, by decide, _, rfl⟩

/-- Every `Encoded` clause: for each opcode a word with all its field bits 1, and one with its lowest reserved bit 1. -/
theorem witness_Encoded :
    ([0x00000000, 0x00000001, 0x00000702, 0x0001FF10, 0x00FFFF20, 0x0000FF21, 0x0000FF22, 0x003F0023, 0x003FFF30,
      0x0001FF31, 0x0001FF40, 0x0001F850, 0x00000051, 0x000E0060, 0x00000061, 0x000E0770, 0x0001F871, 0x000E0772,
      0x0001FF80].map fun w => (decode w).toOption.isSome) = List.replicate 19 true ∧
    [0x00000100, 0x00000101, 0x00000802, 0x00020010, 0x01000020, 0x00010021, 0x00010022, 0x00000123, 0x00400030,
      0x00020031, 0x00020040, 0x00000150, 0x00000151, 0x00000160, 0x00000161, 0x00000870, 0x00000171, 0x00000872,
      0x00020080].map decode = List.replicate 19 (.error .reservedBit) := by decide +kernel

/-- Sixty-four one-byte segments. -/
def fullTable : State :=
  { State.reset with
    segtab := (List.range 64).map fun k => segmentOf .byte 1 (BitVec.ofNat 16 k) 1
    segused := 64, arg1 := 1 }

/-- SEGDATA full. -/
def fullData : State := { State.reset with segtab := [segmentOf .byte 8192 0 8192], segused := 8192, arg1 := 1 }

theorem witness_AppendCommand :
    (Inv sample ∧ (5#3).toNat > 4) ∧
    (Inv (withArgs 8190 3 sample) ∧ (4#3).toNat ≤ 4 ∧ 8190 + 3 > 8192) ∧
    (Inv (withArgs 8192 0 sample) ∧ 8192 + 0 ≤ 8192) ∧
    ((ModeHint.auto).code = 0 ∧ ∀ m : SegMode, (ModeHint.forced m).code = m.code) ∧
    splitChunk (.forced .numeric) 20 (ascii "12a") = .error 2 ∧
    (Inv fullTable ∧ splitChunk .auto 20 [0x41] = .ok [⟨.alphanumeric, 0, 1⟩] ∧ fullTable.nseg + 1 > 64) ∧
    (Inv fullData ∧ fullData.nseg + 1 ≤ 64 ∧ fullData.segused.toNat + 1 > 8192) ∧
    (Inv (withArgs 0 2 sample) ∧ 0 + 2 ≤ 8192 ∧ splitChunk .auto 20 (ascii "A1") = .ok [⟨.alphanumeric, 0, 2⟩] ∧
      sample.nseg + 1 ≤ 64 ∧ sample.segused.toNat + 2 ≤ 8192) :=
  ⟨⟨inv_sample, by decide⟩, ⟨inv_of_checks (by decide +kernel), by decide⟩, ⟨inv_of_checks (by decide +kernel), by decide⟩,
    ⟨rfl, fun _ => rfl⟩, by decide, ⟨inv_of_checks (by decide +kernel), by decide +kernel⟩,
    ⟨inv_of_checks (by decide +kernel), by decide +kernel⟩, inv_of_checks (by decide +kernel), by decide +kernel⟩

theorem witness_SplitChunkPieces :
    splitChunk .auto 2 (ascii "A12") = .ok [⟨.byte, 0, 1⟩, ⟨.numeric, 1, 2⟩] ∧
      splitChunk (.forced .kanji) 20 [0x93, 0x5F] = .ok [⟨.kanji, 0, 2⟩] ∧
      splitChunk (.forced .kanji) 20 [0x93, 0x5F, 0xE4] = .error 2 ∧
      splitChunk (.forced .alphanumeric) 20 (ascii "abc") = .error 0 ∧
      splitChunk (.forced .numeric) 20 (ascii "12a") = .error 2 := by decide

/-- MINRUN 0; a chunk of exactly MINRUN bytes; one of MINRUN + 1 with a digit run of MINRUN; alphanumeric runs between Byte
pieces and beside a Numeric piece, whose window (1, 2) of alphanumeric bytes reaches into it. -/
theorem witness_AutoSplitRules :
    splitChunk .auto 0 (ascii "a1") = .ok [⟨.byte, 0, 2⟩] ∧ splitChunk .auto 3 (ascii "123") = .ok [⟨.numeric, 0, 3⟩] ∧
      splitChunk .auto 2 (ascii "12a") = .ok [⟨.numeric, 0, 2⟩, ⟨.byte, 2, 1⟩] ∧
      splitChunk .auto 2 (ascii "aBCd") = .ok [⟨.byte, 0, 1⟩, ⟨.alphanumeric, 1, 2⟩, ⟨.byte, 3, 1⟩] ∧
      splitChunk .auto 2 (ascii "AB12C") = .ok [⟨.alphanumeric, 0, 2⟩, ⟨.numeric, 2, 2⟩, ⟨.byte, 4, 1⟩] := by decide

/-- The operand bounds that CAPQ, ECC_INTERLEAVE, MATRIX_INIT, BITSTREAM, BUILD and VER_CALC test. -/
theorem witness_operand_bounds :
    (BitVec.ofNat 6 1 ≠ 0 ∧ (BitVec.ofNat 6 40).toNat = 40 ∧ (41#6).toNat > 40 ∧ (4#3).toNat > 3 ∧ (3#3).toNat ≤ 3) ∧
      ((6#6).toNat < 7 ∧ 7 ≤ (7#6).toNat ∧ (40#6).toNat ≤ 40) ∧
      ∀ l : EcLevel, l.selector.toNat ≤ 3 := ⟨by decide, by decide, fun l => by cases l <;> decide⟩

theorem witness_CapqCommand : after (.capq (BitVec.ofNat 6 1) EcLevel.L.selector) State.reset State.cap =
      some ⟨0x0013001A, 0x00130107, 0x000000D0, 0x00190029, 0x000A0011⟩ ∧
    after (.capq 0 1) State.reset errorOf = some (true, 0x02, 1) ∧
    after (.capq 41 4) State.reset errorOf = some (true, 0x02, 1) := by decide

theorem witness_GfLogCommand : (∃ i ≤ 254, gfExp i = 0x8E ∧ i = gfLog 0x8E) ∧ (0x8E : Byte) ≠ 0 :=
  ⟨⟨254, by decide, by decide +kernel⟩, by decide⟩

theorem witness_FieldArithmetic : (1 : Byte) ≠ 0 ∧ gfMul 0x02 0x8E = 1 := by decide

/-- E 0, 1, 30 and 31; a destination that just fits and one that does not. -/
theorem witness_GfGenpolyCommand : (31#6).toNat > 30 ∧ 1 ≤ (1#6).toNat ∧ (30#6).toNat ≤ 30 ∧
    (4066#32).toNat + 30 + 1 > 4096 ∧ (4065#32).toNat + 30 + 1 ≤ 4096 := by decide

theorem witness_RsEncCommand :
    Inv (withArgs 3841 4066 sample) ∧ 1 ≤ (30#6).toNat ∧ (30#6).toNat ≤ 30 ∧ (31#6).toNat > 30 ∧
      (3841#32).toNat + (255#8).toNat ≤ 4096 ∧ (4066#32).toNat + 30 ≤ 4096 ∧
      (3842#32).toNat + (255#8).toNat > 4096 ∧ (4067#32).toNat + 30 > 4096 :=
  ⟨inv_of_checks (by decide +kernel), by decide⟩

/-- A long block of version 5-Q, and the ends of its index ranges. -/
theorem witness_EccInterleaveCommand : Inv sample ∧ blockCount 5 .Q = 4 ∧ shortBlocks 5 .Q ≤ 3 ∧ shortData 5 .Q = 15 ∧
    ecCount 5 .Q = 18 ∧ totalCodewords 5 = 134 := ⟨inv_sample, by decide⟩

/-- The generator of degree 1 and of degree 255, and data that is not empty. -/
theorem witness_RemainderMakesCodeword : (1 ≤ 1 ∧ 1 ≤ 255) ∧ (1 ≤ 255 ∧ 255 ≤ 255) ∧
    rsEncode [0x10, 0x20] 1 = [0x30] ∧ polyEval ([0x10, 0x20] ++ rsEncode [0x10, 0x20] 1) (gfExp 0) = 0 := by decide +kernel

/-- A segment of each mode with a last group of each length, and a version in each range; bytes valid for the mode. -/
theorem witness_SegmentStreamBits :
    Inv sample ∧
    (∀ n ∈ [3, 4, 5], (List.replicate n (0x39 : Byte)).length = (segmentOf .numeric (BitVec.ofNat 16 n) 0 (BitVec.ofNat 16 n)).nbytes.toNat ∧
      ∀ b ∈ List.replicate n (0x39 : Byte), isNumeric b = true) ∧
    (∀ n ∈ [2, 3], (List.replicate n (0x3A : Byte)).length = (segmentOf .alphanumeric (BitVec.ofNat 16 n) 0 (BitVec.ofNat 16 n)).nbytes.toNat ∧
      ∀ b ∈ List.replicate n (0x3A : Byte), isAlphanumeric b = true) ∧
    ([0x93, 0x5F, 0xEB, 0xBF] : List Byte).length = 2 * (segmentOf .kanji 2 0 4).nchars.toNat ∧
    (isKanji 0x93 0x5F = true ∧ isKanji 0xEB 0xBF = true ∧ isKanji 0x81 0x40 = true ∧ isKanji 0x9F 0xFC = true ∧
      isKanji 0xE0 0x40 = true ∧ kanjiValue 0xEB 0xBF = 0x1FFF) ∧
    (numericPayload (ascii "012")).length = 10 ∧ encodeSegment 1 (segmentOf .alphanumeric 2 0 2) (ascii "AC") =
      [false, false, true, false, false, false, false, false, false, false, false, true, false] ++
      [false, false, true, true, true, false, false, true, true, true, false] := ⟨inv_sample, by decide⟩

theorem witness_CodewordsOfStream :
    (List.replicate 127 true).length ≤ 8 * dataCodewords 1 .M ∧ ([] : List Bool).length ≤ 8 * dataCodewords 1 .M := by
  decide +kernel

/-- A fixed version that fits and one that does not; AUTO that finds the smallest, and one with no version. -/
theorem witness_BitstreamCommand :
    Inv sample ∧ sample.streamBits 1 ≤ 8 * dataCodewords 1 .M ∧
      (Inv { fullData with arg1 := 0 } ∧ ¬ { fullData with arg1 := 0 }.streamBits 1 ≤ 8 * dataCodewords 1 .M ∧
        ∀ v ∈ List.range' 1 40, ¬ { fullData with arg1 := 0 }.streamBits v ≤ 8 * dataCodewords v .L) ∧
      (let s := withDigits (ascii "12345678901234567890123456789012345") State.reset
       s.streamBits 2 ≤ 8 * dataCodewords 2 .M ∧ ¬ s.streamBits 1 ≤ 8 * dataCodewords 1 .M) :=
  ⟨inv_sample, by decide, ⟨inv_of_checks (by decide +kernel), by decide +kernel, by decide +kernel⟩, by decide +kernel⟩

/-- The first and the last pair of version 1, the pair after the skipped column 6, and the ends of their rows; the cells are
worked out by hand from R253's loop. -/
theorem witness_ZigzagVisitsEachCellOnce : (0 < 2 * 1 + 8 ∧ 7 < 2 * 1 + 8 ∧ 9 < 2 * 1 + 8 ∧ 20 < side 1) ∧
    (zigzag 1)[2 * (0 * 21 + 20)]? = some (0, 20) ∧ (zigzag 1)[2 * (6 * 21 + 0) + 1]? = some (20, 7) ∧
    (zigzag 1)[2 * (7 * 21 + 0)]? = some (0, 5) ∧ (zigzag 1)[2 * (9 * 21 + 20) + 1]? = some (20, 0) := by decide +kernel

/-- A version with neither alignment nor version cells, and the largest; the ends of the component ranges. -/
theorem witness_MatrixInitCommand : Inv sample ∧ (alignmentPositions 1).length = 0 ∧
    alignmentPositions 40 = [6, 30, 58, 86, 114, 142, 170] ∧
    alignmentPositions 7 = [6, 22, 38] ∧ (0, 1) ∉ [(0, 0), (0, 2), (2, 0)] := ⟨inv_sample, by decide⟩

theorem wf_templateCells : Memory.wf Config.matCells templateCells := by
  refine ⟨List.pairwise_map.1 (List.isChain_iff_pairwise.1 ?_ : List.Pairwise (· < ·) (templateCells.map (·.1))), ?_⟩ <;>
    decide +kernel

/-- The invariant with other contents of WMAT and FINAL in canonical form. -/
theorem inv_withContents {s : State} (h : Inv s) {cells : Memory Module} {codewords : Memory Byte}
    (hc : Memory.wf Config.matCells cells) (hf : Memory.wf Config.finalBytes codewords) :
    Inv { s with wmat := cells, final := codewords } where
  memories := {
    bytes := fun b => by
      cases b
      · exact h.memories.bytes .ibuf
      · exact h.memories.bytes .segdata
      · exact h.memories.bytes .cwbuf
      · exact hf
    matrix := fun mm => by
      cases mm
      · exact hc
      · exact h.memories.matrix .cmat }
  segments := ⟨h.segments.count, h.segments.used, h.segments.inside, h.segments.nonempty, h.segments.chars⟩
  lifecycle := ⟨h.lifecycle.busy, h.lifecycle.oneEnd, h.lifecycle.code, h.lifecycle.codeMax⟩
  metadata := ⟨h.metadata.stream, h.metadata.matrix, h.metadata.out⟩

theorem inv_version1 : Inv (withVersion 1 false State.reset) := inv_of_checks (by decide +kernel)

theorem inv_withTemplate (codewords : List Byte) (h : codewords.length ≤ 4096) :
    Inv (withTemplate codewords State.reset) := by
  have hf : Memory.wf Config.finalBytes (holding 0 codewords) := Memory.wf_number (by rw [Nat.zero_add]; exact h)
  exact inv_withContents inv_version1 wf_templateCells hf

/-- The WMAT contents of `withWrongCount`. -/
theorem wf_wrongCells : Memory.wf Config.matCells (Memory.set templateCells (177 * 9) ⟨false, true, false⟩) :=
  Memory.wf_set wf_templateCells (by decide)

theorem inv_withWrongCount : Inv (withWrongCount State.reset) := by
  have hf : Memory.wf Config.finalBytes (holding 0 []) := Memory.wf_nil _
  exact inv_withContents inv_version1 wf_wrongCells hf

/-- PLACE without a matrix. -/
theorem witness_PlaceCommand_noMatrix : Inv { sample with matMeta := ⟨0, 0, false, false⟩ } :=
  inv_of_checks (by decide +kernel)

/-- PLACE with a wrong count. -/
theorem witness_PlaceCommand_fatal : Inv (withWrongCount State.reset) ∧
    ((zigzag 1).filter fun x => !((withWrongCount State.reset).readCell .wmat x.1 x.2).f).length ≠ 208 := by
  refine ⟨inv_withWrongCount, ?_⟩
  rw [← dataCells_symbolRows _ wf_wrongCells.1 (by decide)]
  decide +kernel

/-- PLACE with the count of version 1. -/
theorem witness_PlaceCommand : Inv (withTemplate [0x10] State.reset) ∧
    ((zigzag 1).filter fun x => !((withTemplate [0x10] State.reset).readCell .wmat x.1 x.2).f).length =
      8 * totalCodewords 1 + remainderBits 1 := by
  refine ⟨inv_withTemplate _ (by decide), ?_⟩
  rw [← dataCells_symbolRows _ wf_templateCells.1 (by decide)]
  decide +kernel

/-- The mask commands' clauses: no matrix, a masked one, one to be masked; version 1 and version 40. -/
theorem witness_MaskCommands :
    (Inv State.reset.complete ∧ State.reset.complete.matMeta.mver.toNat = 0) ∧
    (Inv (withVersion 1 true sample) ∧ (withVersion 1 true sample).matMeta.mmasked = true) ∧
    (Inv (withVersion 1 false sample) ∧ Inv sample ∧ sample.matMeta.mver.toNat = 40 ∧ sample.matMeta.mmasked = false) :=
  ⟨⟨inv_of_checks (by decide +kernel), rfl⟩, ⟨inv_of_checks (by decide +kernel), rfl⟩, inv_of_checks (by decide +kernel),
    inv_sample, rfl, rfl⟩

/-- FMT_INSERT below and from version 7 on; a cell outside every strip. -/
theorem witness_FmtInsertCommand :
    Inv (withVersion 6 false sample) ∧ Inv (withVersion 7 false sample) ∧ 7 ≤ (7#6).toNat ∧
      (∀ i ∈ List.range 15, ((10, 10) : Nat × Nat) ≠ fp1 i ∧ (10, 10) ≠ fp2 7 i) ∧
      ∀ i ∈ List.range 18, ((10, 10) : Nat × Nat) ≠ vp1 7 i ∧ (10, 10) ≠ vp2 7 i :=
  ⟨inv_of_checks (by decide +kernel), inv_of_checks (by decide +kernel), by decide, by decide, by decide⟩

/-- Every command answers a next state. -/
theorem exec_next (rule : Rule) (s : State) : ∃ t, finish rule s = .next t := by
  rcases finish_cases rule s with ⟨t, -, h⟩ | ⟨e, -, h⟩ <;> exact ⟨_, h⟩

/-- The stages of scenario A, one command after the other. -/
theorem witness_BuildEqualsItsStages : ∃ s1 s2 s3 s4 s5 s6, Inv sample ∧ sample.status.err = false ∧
    exec (.bitstream 1 1) sample = .next s1 ∧ s1.status.err = false ∧
    exec (.eccInterleave s1.streamMeta.sver 1) s1 = .next s2 ∧ exec (.matrixInit s1.streamMeta.sver) s2 = .next s3 ∧
    exec .place s3 = .next s4 ∧ exec .maskSelect s4 = .next s5 ∧
    exec (.fmtInsert 1 s5.matMeta.mmask) s5 = .next s6 := by
  obtain ⟨s1, h1, h1e⟩ : ∃ s1, exec (.bitstream 1 1) sample = .next s1 ∧ s1.status.err = false := ⟨_, rfl, by decide +kernel⟩
  obtain ⟨s2, h2⟩ := exec_next (ruleEccInterleave s1.streamMeta.sver 1) s1
  obtain ⟨s3, h3⟩ := exec_next (ruleMatrixInit s1.streamMeta.sver) s2
  obtain ⟨s4, h4⟩ := exec_next rulePlace s3
  obtain ⟨s5, h5⟩ := exec_next ruleMaskSelect s4
  obtain ⟨s6, h6⟩ := exec_next (ruleFmtInsert 1 s5.matMeta.mmask) s5
  exact ⟨s1, s2, s3, s4, s5, s6, inv_sample, rfl, h1, h1e, h2, h3, h4, h5, h6⟩

/-- BUILD from reset ends with DONE and OUTMETA.VALID: the hypotheses of `BuildOutputContract` and, with the state taken
twice, of `BuildDependsOnSegmentsOnly` and `BuildCommand`. -/
theorem witness_BuildOutputContract : ∃ t, exec (.build 1 1) State.reset = .next t ∧ t.status.err = false ∧
    EcLevel.M.selector = 1 := by
  obtain ⟨t, ht, h⟩ := after_some test_build
  exact ⟨t, ht, congrArg (fun x => x.1.err) h, rfl⟩

/-- BUILD of segments that fit no version ends with an error: the failing half of `BuildCommand`. -/
theorem witness_BuildCommand_overflow :
    after (.build 0 0) { fullData with arg1 := 0 } errorOf = some (true, 0x03, BitVec.ofNat 32 (4 + 16 + 8 * 8192)) := by
  decide +kernel

theorem witness_ResetState :
    ResetMoves { busySample 0 with agenda := [.hardReset] } ∧
      ResetMoves (hostTurn ⟨true, 0x10, 2, 2⟩ { State.reset with status := ⟨false, true, true, false, 8⟩ }) :=
  ⟨⟨[], .inl rfl⟩, ⟨[], .inr ⟨_, rfl, by decide, by decide, by decide, by decide⟩⟩⟩

/-- The first and the last offset of the CSR region, and those on either side of the reserved part. -/
theorem witness_CsrAccesses : ∀ o ∈ [0x00, 0x04, 0x7C, 0x80, 0xFC], o < 0x100 ∧ o % 4 = 0 ∧
    ∀ we, ∃ u, HostMoves (hostTurn ⟨we, BitVec.ofNat 18 o, 2, 1⟩ sample) ⟨we, BitVec.ofNat 18 o, 2, 1⟩ u ∧
      u.pending = none ∧ u.segtab.length ≤ 64 := by
  intro o ho
  refine ⟨?_, ?_, fun we => ⟨_, hostMoves_turn _ _, rfl, by decide⟩⟩ <;> revert o ho <;> decide

/-- Accesses on both sides of each check. -/
theorem witness_BusErrorChangesNothing :
    (LegalAccess ⟨false, 0x000FC, 2, 0⟩ ∧ LegalAccess ⟨true, 0x2FFFF, 0, 0⟩ ∧ LegalAccess ⟨true, 0x07FFE, 1, 0⟩) ∧
      ¬ LegalAccess ⟨true, 0x00100, 2, 0⟩ ∧ ¬ LegalAccess ⟨true, 0x30000, 0, 0⟩ ∧ ¬ LegalAccess ⟨true, 0x04001, 1, 0⟩ ∧
      ¬ LegalAccess ⟨false, 0x00008, 0, 0⟩ ∧ ¬ LegalAccess ⟨false, 0x04000, 3, 0⟩ := by
  refine ⟨⟨?_, ?_, ?_⟩, ?_, ?_, ?_, ?_, ?_⟩ <;> unfold LegalAccess Mapped <;> decide

theorem witness_DroppedWrites :
    (∃ u, HostMoves (hostTurn ⟨true, 0x14, 2, 5⟩ (busySample 0)) ⟨true, 0x14, 2, 5⟩ u ∧ u.pending ≠ none) ∧
    LegalAccess ⟨true, 0x14, 2, 5⟩ ∧
    (∃ u, HostMoves (hostTurn ⟨true, 0x04, 2, 0⟩ { sample with status := ⟨false, true, true, true, 8⟩ })
      ⟨true, 0x04, 2, 0⟩ u ∧ u.pending = none ∧ u.status.fatal = true) ∧
    Inv (hostTurn ⟨true, 0x08, 2, 0x10⟩ sample) ∧ sample.status.werr = true ∧
    ∃ t, step (hostTurn ⟨true, 0x08, 2, 0x10⟩ sample) = .next t :=
  ⟨⟨_, hostMoves_turn _ _, by decide⟩, by unfold LegalAccess Mapped; decide,
    ⟨_, hostMoves_turn _ _, rfl, rfl⟩, inv_of_checks (by decide +kernel), rfl, _, rfl⟩

/-- The last byte, the last half word and the last word of each byte memory. -/
theorem witness_ByteMemoryAccess : ∀ x ∈ [(0x2000, ByteMem.segdata), (0x4000, .ibuf), (0x6000, .cwbuf), (0x7000, .final)],
    ∀ z ∈ [0, 1, 2], (x.2.size - 2 ^ z) % 2 ^ z = 0 ∧ x.2.size - 2 ^ z + 2 ^ z ≤ x.2.size ∧ sample.pending = none := by
  decide

/-- Busy reads on both sides of a write set's ends: RS_ENC with ARG1 = 100 and E = 2, GF_GENPOLY with E = 2, APPEND's part of
SEGDATA from SEGUSED = 5 on; IBUF and CMAT are in no write set, and an undecodable word has none. -/
theorem witness_busyReads :
    (let s := withArgs 0 100 (busySample 0x00020330)
     ¬ BusyWrites s (.bytes .cwbuf) 99 ∧ BusyWrites s (.bytes .cwbuf) 100 ∧ BusyWrites s (.bytes .cwbuf) 101 ∧
       ¬ BusyWrites s (.bytes .cwbuf) 102) ∧
    (let s := withArgs 0 100 (busySample 0x00020023)
     BusyWrites s (.bytes .cwbuf) 102 ∧ ¬ BusyWrites s (.bytes .cwbuf) 103) ∧
    (¬ BusyWrites (busySample 0x02) (.bytes .segdata) 4 ∧ BusyWrites (busySample 0x02) (.bytes .segdata) 5 ∧
      BusyWrites (busySample 0x02) .segtab 0 ∧ ¬ BusyWrites (busySample 0x980) .segtab 0) ∧
    (¬ BusyWrites (busySample 0x980) (.bytes .ibuf) 0 ∧ ¬ BusyWrites (busySample 0x980) (.matrix .cmat) 0 ∧
      BusyWrites (busySample 0x51) (.matrix .wmat) 0 ∧ ¬ BusyWrites (busySample 0x60) (.matrix .wmat) 0) ∧
    ¬ BusyWrites (busySample 0x03) (.bytes .final) 0 := by
  simp only [← inWriteSet_iff]
  decide

/-- A word that crosses column 176, the last row of the window, and the last byte. -/
theorem witness_MatrixWindowAccess : 176 % 2 ^ 2 = 0 ∧ 176 + 2 ^ 2 ≤ 256 ∧ 255 ≤ 255 ∧ 255 % 2 ^ 0 = 0 ∧
    255 + 2 ^ 0 ≤ 256 ∧ sample.pending = none := by decide

/-- The first entry, the first offset above the stored ones, and the last word. -/
theorem witness_SegmentTableView : 0 / 8 < sample.segtab.length ∧ sample.segtab.length ≤ 8 / 8 ∧ 508 % 2 ^ 2 = 0 ∧
    508 + 2 ^ 2 ≤ 512 := by decide

theorem witness_ReadsHaveNoSideEffect :
    { sample with agenda := [.host ⟨false, 0x08, 2, 0⟩, .host ⟨false, 0x08, 2, 0⟩] }.agenda =
      .host ⟨false, 0x08, 2, 0⟩ :: [.host ⟨false, 0x08, 2, 0⟩] ∧ sample.pending = none := by decide

/-- Every step from a state with a BUILD pending answers a next state. -/
theorem build_step : ∃ t, step (busySample 0x980) = .next t := by
  rw [step_core (coreMoves_self rfl)]
  rcases coreTurn_cases (busySample 0x980) with ⟨-, h⟩ | ⟨w, e, -, -, h⟩ | ⟨w, i, hw, hi, h⟩
  · exact ⟨_, h⟩
  · exact ⟨_, h⟩
  · have hw' : w = 0x980 := (Option.some.inj hw).symm
    have hd : decode 0x980 = .ok (.build 1 1) := by decide
    rw [hw', hd] at hi
    rw [h, ← Except.ok.inj hi]
    rcases execBuild_cases 1 1 (busySample 0x980) with ⟨_, _, -, -, -, h⟩ | ⟨_, _, _, -, -, -, h⟩ | ⟨-, h⟩ | ⟨-, -, h⟩ <;>
      exact ⟨_, h⟩

/-- A CMAT read in a running BUILD's busy window, and a BUILD at its completion. -/
theorem witness_CommittedMatrixFrozen : Inv (busySample 0x980) ∧ (∃ t, step (busySample 0x980) = .next t) ∧
    Completes (busySample 0x980) (.build 1 1) ∧
    ∃ u, HostMoves (hostTurn ⟨false, 0x2B0B0, 0, 0⟩ (busySample 0x980)) ⟨false, 0x2B0B0, 0, 0⟩ u :=
  ⟨inv_of_checks (by decide +kernel), build_step, ⟨⟨_, coreMoves_self rfl⟩, 0x980, rfl, by decide⟩, _,
    hostMoves_turn _ _⟩

/-- A fatal state stepped by a CMD write, and one made fatal: PLACE with a wrong count. -/
theorem witness_FatalUntilReset :
    (let s := hostTurn ⟨true, 0x04, 2, 0⟩ { State.reset with status := ⟨false, true, true, false, 8⟩ }
     Inv s ∧ s.status.fatal = true ∧ (∃ t, step s = .next t) ∧ ¬ ResetMoves s) ∧
    (busyWith 0x51 (withWrongCount State.reset)).status.fatal = false ∧
    afterStep (busyWith 0x51 (withWrongCount State.reset)) (fun t => t.status.fatal) = some true := by
  refine ⟨⟨inv_of_checks (by decide +kernel), rfl, ⟨_, rfl⟩, ?_⟩, rfl, by decide +kernel⟩
  rintro ⟨rest, h | ⟨a, h, -, ha, -⟩⟩
  · exact absurd h (by simp [hostTurn])
  · have : a = ⟨true, 0x04, 2, 0⟩ := by simpa [hostTurn] using (List.cons.inj h).1.symm
    rw [this] at ha
    exact absurd ha (by decide)

/-- A state with a stored segment stepped by an APPEND. -/
theorem witness_SegmentsAreImmutable :
    (let s := busySample 0x00000302
     Inv s ∧ (∃ t, step s = .next t) ∧ ¬ ResetMoves s ∧ ¬ Completes s .clear ∧ 0 < s.segused.toNat) := by
  refine ⟨inv_of_checks (by decide +kernel), ⟨_, rfl⟩, ?_, ?_, by decide⟩
  · rintro ⟨rest, h | ⟨a, h, -⟩⟩ <;> exact absurd h (by simp [busySample, busyWith, sample, withVersion, withDigits, State.reset])
  · rintro ⟨-, w, hw, hd⟩
    have hw' : w = 0x302 := (Option.some.inj hw).symm
    rw [hw'] at hd
    exact absurd hd (by decide)

theorem witness_OnlyNamedCommandsWrite : ∃ t, exec (.gfMul 2 3) sample = .next t ∧ t.result ≠ sample.result :=
  ⟨_, rfl, by decide⟩

/-- The top left cell of the finder in version 1, and a strip cell that FMT_INSERT writes. -/
theorem witness_FunctionCellsSurvive : Inv (withTemplate [0x10] State.reset) ∧
    (∃ t, exec (.fmtInsert 1 1) (withTemplate [0x10] State.reset) = .next t) ∧
    ((withTemplate [0x10] State.reset).readCell .wmat 0 0).f = true ∧
    ((withTemplate [0x10] State.reset).readCell .wmat 8 0).f = true ∧ (8, 0) ∈ stripCells 1 :=
  ⟨inv_withTemplate _ (by decide), exec_next (ruleFmtInsert 1 1) (withTemplate [0x10] State.reset), by decide +kernel,
    by decide +kernel, by decide +kernel⟩

/-- A busy core with two host moves before its turn. -/
theorem witness_EveryCommandCompletes :
    (let s := { busySample 0x721 with agenda := [.host ⟨false, 0x08, 2, 0⟩, .host ⟨true, 0x14, 2, 5⟩] }
     s.pending ≠ none ∧ (stepMany 3 s).map (fun t => (t.pending, t.result, t.arg0)) =
      some (none, 0x80, sample.arg0)) := by decide +kernel

theorem witness_StepKeepsInv : Inv (hostTurn ⟨true, 0x04000, 2, 0x44332211⟩ sample) ∧
    ∃ t, step (hostTurn ⟨true, 0x04000, 2, 0x44332211⟩ sample) = .next t :=
  ⟨inv_of_checks (by decide +kernel), _, rfl⟩

end Sys2Proof.Tests
end

section
/-! PROOFS. What a command can leave on a state, and which items of the state it can write (10_state.md R42 to R61). -/
namespace Sys2Proof.Machine
open Sys2Proof.Config (ByteMem MatMem)

/-! ### What a rule can leave -/

/-- `Effect s i t`: the rule of a command `i` other than BUILD can leave `t` on `s`. The facts are those under which the
invariant survives. -/
inductive Effect (s : State) : Instr → State → Prop
  | nop : Effect s .nop s
  | clear : Effect s .clear { s with segtab := [], segused := 0 }
  | appendNothing (mode : BitVec 3) : Effect s (.append mode) s
  | append (mode : BitVec 3) {hint : ModeHint} {c : List Byte} {pieces : List Piece} (chunk : c ≠ [])
      (split : splitChunk hint s.ctrl.minrun.toNat c = .ok pieces) (count : s.nseg + pieces.length ≤ 64)
      (used : s.segused.toNat + c.length ≤ 8192) : Effect s (.append mode) (s.storeChunk c pieces)
  | capq (ver : BitVec 6) (ec : BitVec 3) (cap : Cap) : Effect s (.capq ver ec) { s with cap := cap }
  | gfMul (a b : Byte) (r : Word) : Effect s (.gfMul a b) { s with result := r }
  | gfExp (a : Byte) (r : Word) : Effect s (.gfExp a) { s with result := r }
  | gfLog (a : Byte) (r : Word) : Effect s (.gfLog a) { s with result := r }
  | gfGenpoly {e : BitVec 6} (range : s.arg1.toNat + (e.toNat + 1) ≤ 4096) :
      Effect s (.gfGenpoly e) (s.writeBytes .cwbuf s.arg1.toNat (genPoly e.toNat))
  | rsEnc (n : Byte) {e : BitVec 6} (data : List Byte) (range : s.arg1.toNat + e.toNat ≤ 4096) :
      Effect s (.rsEnc n e) (s.writeBytes .cwbuf s.arg1.toNat (rsEncode data e.toNat))
  | eccInterleave {ver : BitVec 6} (ec : BitVec 3) (l : EcLevel) (dc : List Byte) (low : 1 ≤ ver.toNat)
      (high : ver.toNat ≤ 40) : Effect s (.eccInterleave ver ec) (s.writeBytes .final 0 (finalStream ver.toNat l dc))
  | bitstream (ver : BitVec 6) {ec : BitVec 3} {v : Nat} (l : EcLevel) (low : 1 ≤ v) (high : v ≤ 40)
      (level : ec.toNat ≤ 3) : Effect s (.bitstream ver ec) (s.streamed v l ec)
  | matrixInit {ver : BitVec 6} (low : 1 ≤ ver.toNat) (high : ver.toNat ≤ 40) :
      Effect s (.matrixInit ver) (s.templated ver.toNat)
  | place (v : Nat) (dc : List (Nat × Nat)) (matrix : s.matMeta.mver ≠ 0) : Effect s .place (s.placed v dc)
  | maskScore (mask : BitVec 3) (pen : Pen) : Effect s (.maskScore mask) { s with pen := pen }
  | maskSelect (matrix : s.matMeta.mver ≠ 0) : Effect s .maskSelect s.masked
  | fmtCalc (ec mask : BitVec 3) (r : Word) : Effect s (.fmtCalc ec mask) { s with result := r }
  | verCalc (ver : BitVec 6) (r : Word) : Effect s (.verCalc ver) { s with result := r }
  | fmtInsert (ec mask : BitVec 3) (l : EcLevel) (matrix : s.matMeta.mver ≠ 0) :
      Effect s (.fmtInsert ec mask) (s.inserted l mask)

theorem effect_ruleAppend {s t : State} {mode : BitVec 3} (h : ruleAppend mode s = .ok t) :
    Effect s (.append mode) t := by
  rcases ruleAppend_cases mode s with ⟨hint, -, -, ⟨-, hr⟩ | ⟨hn, hr⟩⟩ | ⟨-, hr⟩ | ⟨-, -, hr⟩ <;> rw [hr] at h
  · cases h; exact .appendNothing mode
  · have chunk : s.readBytes .ibuf s.arg0.toNat s.arg1.toNat ≠ [] := fun hc => hn <| by
      have := congrArg List.length hc
      exact BitVec.eq_of_toNat_eq (by simpa using this)
    rcases appendChunk_cases hint (s.readBytes .ibuf s.arg0.toNat s.arg1.toNat) s with
      ⟨pieces, split, count, used, hc⟩ | ⟨_, -, hc⟩ | ⟨_, -, -, hc⟩ | ⟨_, -, -, -, hc⟩ <;> rw [hc] at h <;> cases h
    exact .append mode chunk split count used
  · cases h
  · cases h

theorem effect_ruleCapq {s t : State} {ver : BitVec 6} {ec : BitVec 3} (h : ruleCapq ver ec s = .ok t) :
    Effect s (.capq ver ec) t := by
  rcases ruleCapq_cases ver ec s with ⟨_, -, -, -, hr⟩ | ⟨-, hr⟩ | ⟨-, -, -, hr⟩ <;> rw [hr] at h <;> cases h
  exact .capq ..

theorem effect_ruleGfLog {s t : State} {a : Byte} (h : ruleGfLog a s = .ok t) : Effect s (.gfLog a) t := by
  rcases ruleGfLog_cases a s with ⟨-, hr⟩ | ⟨-, hr⟩ <;> rw [hr] at h <;> cases h
  exact .gfLog ..

theorem effect_ruleGfGenpoly {s t : State} {e : BitVec 6} (h : ruleGfGenpoly e s = .ok t) :
    Effect s (.gfGenpoly e) t := by
  rcases ruleGfGenpoly_cases e s with ⟨-, -, range, hr⟩ | ⟨-, hr⟩ | ⟨-, -, -, hr⟩ <;> rw [hr] at h <;> cases h
  exact .gfGenpoly range

theorem effect_ruleRsEnc {s t : State} {n : Byte} {e : BitVec 6} (h : ruleRsEnc n e s = .ok t) :
    Effect s (.rsEnc n e) t := by
  rcases ruleRsEnc_cases n e s with ⟨-, -, -, range, hr⟩ | ⟨-, hr⟩ | ⟨-, -, -, hr⟩ | ⟨-, -, -, -, hr⟩ <;>
    rw [hr] at h <;> cases h
  exact .rsEnc n _ range

theorem effect_ruleEccInterleave {s t : State} {ver : BitVec 6} {ec : BitVec 3}
    (h : ruleEccInterleave ver ec s = .ok t) : Effect s (.eccInterleave ver ec) t := by
  rcases ruleEccInterleave_cases ver ec s with ⟨l, low, high, -, hr⟩ | ⟨-, hr⟩ | ⟨-, -, -, hr⟩ <;>
    rw [hr] at h <;> cases h
  exact .eccInterleave ec l _ low high

theorem toNat_le_of_operandEc {ec : BitVec 3} {l : EcLevel} (h : operandEc ec = .ok l) : ec.toNat ≤ 3 := by
  rcases operandEc_cases ec with ⟨_, hle, -⟩ | ⟨-, he⟩
  · exact hle
  · rw [he] at h; cases h

theorem effect_ruleBitstream {s t : State} {ver : BitVec 6} {ec : BitVec 3} (h : ruleBitstream ver ec s = .ok t) :
    Effect s (.bitstream ver ec) t := by
  rcases ruleBitstream_cases ver ec s with ⟨l, hver, hl, ⟨v, hv, hr⟩ | ⟨_, -, hr⟩⟩ | ⟨-, hr⟩ | ⟨-, -, hr⟩ <;>
    rw [hr] at h <;> cases h
  have level := toNat_le_of_operandEc hl
  rcases selectVersion_cases s ver.toNat l hver with ⟨w, low, high, -, -, hw⟩ | ⟨-, -, hw⟩ | ⟨-, -, hw⟩ <;>
    rw [hv] at hw <;> cases hw
  exact .bitstream ver l low high level

theorem effect_ruleMatrixInit {s t : State} {ver : BitVec 6} (h : ruleMatrixInit ver s = .ok t) :
    Effect s (.matrixInit ver) t := by
  rcases ruleMatrixInit_cases ver s with ⟨low, high, hr⟩ | ⟨-, hr⟩ <;> rw [hr] at h <;> cases h
  exact .matrixInit low high

theorem effect_rulePlace {s t : State} (h : rulePlace s = .ok t) : Effect s .place t := by
  rcases rulePlace_cases s with ⟨matrix, -, hr⟩ | ⟨-, hr⟩ | ⟨-, -, hr⟩ <;> rw [hr] at h <;> cases h
  exact .place _ _ matrix

theorem effect_ruleMaskScore {s t : State} {mask : BitVec 3} (h : ruleMaskScore mask s = .ok t) :
    Effect s (.maskScore mask) t := by
  rcases ruleMaskScore_cases mask s with ⟨-, hr⟩ | ⟨-, hr⟩ <;> rw [hr] at h <;> cases h
  exact .maskScore ..

theorem effect_ruleMaskSelect {s t : State} (h : ruleMaskSelect s = .ok t) : Effect s .maskSelect t := by
  rcases ruleMaskSelect_cases s with ⟨matrix, -, hr⟩ | ⟨-, hr⟩ | ⟨-, -, hr⟩ <;> rw [hr] at h <;> cases h
  exact .maskSelect matrix

theorem effect_ruleFmtCalc {s t : State} {ec mask : BitVec 3} (h : ruleFmtCalc ec mask s = .ok t) :
    Effect s (.fmtCalc ec mask) t := by
  rcases ruleFmtCalc_cases ec mask s with ⟨_, -, hr⟩ | ⟨-, hr⟩ <;> rw [hr] at h <;> cases h
  exact .fmtCalc ..

theorem effect_ruleVerCalc {s t : State} {ver : BitVec 6} (h : ruleVerCalc ver s = .ok t) :
    Effect s (.verCalc ver) t := by
  rcases ruleVerCalc_cases ver s with ⟨-, -, hr⟩ | ⟨-, hr⟩ <;> rw [hr] at h <;> cases h
  exact .verCalc ..

theorem effect_ruleFmtInsert {s t : State} {ec mask : BitVec 3} (h : ruleFmtInsert ec mask s = .ok t) :
    Effect s (.fmtInsert ec mask) t := by
  rcases ruleFmtInsert_cases ec mask s with ⟨l, -, matrix, hr⟩ | ⟨-, hr⟩ | ⟨-, -, hr⟩ <;> rw [hr] at h <;> cases h
  exact .fmtInsert ec mask l matrix

/-- A command whose rule has the effect `i` finishes with it, or raises an error on the state it was given. -/
theorem finish_effect {rule : Rule} {s : State} {i : Instr} (h : ∀ t, rule s = .ok t → Effect s i t) :
    (∃ t, Effect s i t ∧ finish rule s = .next t.complete) ∨ ∃ e, finish rule s = .next (s.raiseError e) := by
  rcases finish_cases rule s with ⟨t, hr, hf⟩ | ⟨e, -, hf⟩
  · exact .inl ⟨t, h t hr, hf⟩
  · exact .inr ⟨e, hf⟩

/-- Every command but BUILD completes with an effect of its rule, or raises an error on the state it was given. -/
theorem exec_effect (i : Instr) (s : State) (hi : ∀ ver ec, i ≠ .build ver ec) :
    (∃ t, Effect s i t ∧ exec i s = .next t.complete) ∨ ∃ e, exec i s = .next (s.raiseError e) := by
  cases i with
  | nop => exact .inl ⟨s, .nop, rfl⟩
  | clear => exact .inl ⟨_, .clear, rfl⟩
  | append mode => exact finish_effect fun t => effect_ruleAppend
  | capq ver ec => exact finish_effect fun t => effect_ruleCapq
  | gfMul a b => exact .inl ⟨_, .gfMul .., rfl⟩
  | gfExp a => exact .inl ⟨_, .gfExp .., rfl⟩
  | gfLog a => exact finish_effect fun t => effect_ruleGfLog
  | gfGenpoly e => exact finish_effect fun t => effect_ruleGfGenpoly
  | rsEnc n e => exact finish_effect fun t => effect_ruleRsEnc
  | eccInterleave ver ec => exact finish_effect fun t => effect_ruleEccInterleave
  | bitstream ver ec => exact finish_effect fun t => effect_ruleBitstream
  | matrixInit ver => exact finish_effect fun t => effect_ruleMatrixInit
  | place => exact finish_effect fun t => effect_rulePlace
  | maskScore mask => exact finish_effect fun t => effect_ruleMaskScore
  | maskSelect => exact finish_effect fun t => effect_ruleMaskSelect
  | fmtCalc ec mask => exact finish_effect fun t => effect_ruleFmtCalc
  | verCalc ver => exact finish_effect fun t => effect_ruleVerCalc
  | fmtInsert ec mask => exact finish_effect fun t => effect_ruleFmtInsert
  | build ver ec => exact absurd rfl (hi ver ec)

/-! ### Which items a command can write (10_state.md R42 to R61) -/

/-- The items of the state that some command writes. -/
inductive Item where
  | result | stream | segments | matrix | pen | cap | maskPen | out | cwbuf | final
  deriving DecidableEq

/-- The items each command writes (R42 to R61). -/
def written : Instr → List Item
  | .nop => []
  | .clear | .append _ => [.segments]
  | .capq _ _ => [.cap]
  | .gfMul _ _ | .gfExp _ | .gfLog _ | .fmtCalc _ _ | .verCalc _ => [.result]
  | .gfGenpoly _ | .rsEnc _ _ => [.cwbuf]
  | .eccInterleave _ _ => [.final]
  | .bitstream _ _ => [.cwbuf, .stream, .result]
  | .matrixInit _ | .place | .fmtInsert _ _ => [.matrix]
  | .maskScore _ => [.pen]
  | .maskSelect => [.matrix, .maskPen, .result]
  | .build _ _ => [.cwbuf, .final, .stream, .matrix, .maskPen, .result, .out]

/-- Item `x` holds the same in `s` and `t`. -/
def Item.Same (s t : State) : Item → Prop
  | .result => t.result = s.result
  | .stream => (t.bitlen, t.streamMeta) = (s.bitlen, s.streamMeta)
  | .segments => (t.segtab, t.segused, t.segdata) = (s.segtab, s.segused, s.segdata)
  | .matrix => (t.matMeta, t.wmat) = (s.matMeta, s.wmat)
  | .pen => t.pen = s.pen
  | .cap => t.cap = s.cap
  | .maskPen => t.maskPen = s.maskPen
  | .out => (t.outMeta, t.cmat) = (s.outMeta, s.cmat)
  | .cwbuf => t.cwbuf = s.cwbuf
  | .final => t.final = s.final

/-- `s` with the items of `w` taken from `t`. -/
def State.withItems (w : List Item) (s t : State) : State :=
  { s with
    result := if .result ∈ w then t.result else s.result
    bitlen := if .stream ∈ w then t.bitlen else s.bitlen
    streamMeta := if .stream ∈ w then t.streamMeta else s.streamMeta
    segtab := if .segments ∈ w then t.segtab else s.segtab
    segused := if .segments ∈ w then t.segused else s.segused
    segdata := if .segments ∈ w then t.segdata else s.segdata
    matMeta := if .matrix ∈ w then t.matMeta else s.matMeta
    wmat := if .matrix ∈ w then t.wmat else s.wmat
    pen := if .pen ∈ w then t.pen else s.pen
    cap := if .cap ∈ w then t.cap else s.cap
    maskPen := if .maskPen ∈ w then t.maskPen else s.maskPen
    outMeta := if .out ∈ w then t.outMeta else s.outMeta
    cmat := if .out ∈ w then t.cmat else s.cmat
    cwbuf := if .cwbuf ∈ w then t.cwbuf else s.cwbuf
    final := if .final ∈ w then t.final else s.final }

/-- `t` differs from `s` at most in the items of `w`. -/
def Frame (w : List Item) (s t : State) : Prop := t = s.withItems w t

section
variable {w w' : List Item} {s t u : State}

theorem Frame.refl (w : List Item) (s : State) : Frame w s s := by simp [Frame, State.withItems]

/-- Changes of the items of `w` and then of a larger list are changes of the larger list. -/
theorem Frame.trans (h : Frame w s t) (hw : w ⊆ w') (h' : Frame w' t u) : Frame w' s u := by
  have absorb : (s.withItems w t).withItems w' u = s.withItems w' u := by
    have sub : ∀ x, x ∉ w' → x ∉ w := fun x hx hw' => hx (hw hw')
    simp only [State.withItems]
    congr 1 <;> split <;> simp_all
  unfold Frame
  rw [← absorb, ← h]
  exact h'

/-- An item that is not listed is kept. -/
theorem Frame.same (h : Frame w s t) {x : Item} (hx : x ∉ w) : x.Same s t := by
  cases x <;> simp only [Item.Same] <;> rw [h] <;> simp [State.withItems, hx]

/-- An item that changed is listed. -/
theorem Frame.mem_of_changed (h : Frame w s t) {x : Item} (hx : ¬ x.Same s t) : x ∈ w :=
  by_contra fun hw => hx (h.same hw)

theorem Frame.pending (h : Frame w s t) : t.pending = s.pending := by rw [h]; rfl
theorem Frame.status (h : Frame w s t) : t.status = s.status := by rw [h]; rfl
theorem Frame.errinfo (h : Frame w s t) : t.errinfo = s.errinfo := by rw [h]; rfl
theorem Frame.ctrl (h : Frame w s t) : t.ctrl = s.ctrl := by rw [h]; rfl
theorem Frame.arg0 (h : Frame w s t) : t.arg0 = s.arg0 := by rw [h]; rfl
theorem Frame.arg1 (h : Frame w s t) : t.arg1 = s.arg1 := by rw [h]; rfl
theorem Frame.lastcmd (h : Frame w s t) : t.lastcmd = s.lastcmd := by rw [h]; rfl
theorem Frame.ibuf (h : Frame w s t) : t.ibuf = s.ibuf := by rw [h]; rfl
theorem Frame.reply (h : Frame w s t) : t.reply = s.reply := by rw [h]; rfl
theorem Frame.agenda (h : Frame w s t) : t.agenda = s.agenda := by rw [h]; rfl
theorem Frame.resets (h : Frame w s t) : t.resets = s.resets := by rw [h]; rfl

end

/-- A rule changes only the items of its command. -/
theorem Effect.frame {s t : State} {i : Instr} (h : Effect s i t) : Frame (written i) s t := by
  cases h <;> rfl

end Sys2Proof.Machine
end

section
/-! PROOFS. The stored contents stay well-formed under every command: the pieces of a chunk, the lengths of what
is stored, the rules, BUILD. -/
namespace Sys2Proof.Machine
open Sys2Proof.Config (ByteMem MatMem)

/-! ### The pieces of a chunk (43_bitstream.md R210, R211) -/

/-- The parts `ps` are not empty and, one after the other, are `x`. -/
structure Covers {κ : Type} (x : List Byte) (ps : List (κ × List Byte)) : Prop where
  join : ps.flatMap (·.2) = x
  nonempty : ∀ q ∈ ps, q.2 ≠ []

section
variable {κ : Type} {x y : List Byte} {ps qs : List (κ × List Byte)}

theorem Covers.nil : Covers (κ := κ) [] [] := ⟨rfl, by simp⟩

theorem Covers.append (h : Covers x ps) (h' : Covers y qs) : Covers (x ++ y) (ps ++ qs) :=
  ⟨by rw [List.flatMap_append, h.join, h'.join],
    fun q hq => (List.mem_append.1 hq).elim (h.nonempty q) (h'.nonempty q)⟩

theorem Covers.single (k : κ) (hx : x ≠ []) : Covers x [(k, x)] := ⟨by simp, by simpa using hx⟩

theorem Covers.tail {q : κ × List Byte} (h : Covers x (q :: ps)) : Covers (ps.flatMap (·.2)) ps :=
  ⟨rfl, fun r hr => h.nonempty r (List.mem_cons_of_mem _ hr)⟩

/-- Relabelling the parts keeps the cover. -/
theorem Covers.map {μ : Type} (h : Covers x ps) (f : κ × List Byte → μ × List Byte) (hf : ∀ q, (f q).2 = q.2) :
    Covers x (ps.map f) := by
  refine ⟨by simp only [List.flatMap_map, hf]; exact h.join, fun r hr => ?_⟩
  obtain ⟨q, hq, rfl⟩ := List.mem_map.1 hr
  rw [hf]
  exact h.nonempty q hq

/-- Splitting every part again keeps the cover. -/
theorem Covers.refine {μ : Type} (h : Covers x ps) (f : κ × List Byte → List (μ × List Byte))
    (hf : ∀ q ∈ ps, Covers q.2 (f q)) : Covers x (ps.flatMap f) := by
  induction ps generalizing x with
  | nil => exact ⟨h.join, by simp⟩
  | cons q ps ih =>
    rw [← h.join, List.flatMap_cons, List.flatMap_cons]
    exact (hf q List.mem_cons_self).append (ih h.tail fun r hr => hf r (List.mem_cons_of_mem _ hr))

end

theorem covers_maximalRuns (p : Byte → Bool) (x : List Byte) : Covers x (maximalRuns p x) := by
  induction x with
  | nil => exact .nil
  | cons b rest ih =>
    rw [maximalRuns]
    split
    · rename_i hr
      rw [hr] at ih
      exact ⟨by simpa using ih.join, by simp⟩
    · rename_i k r runs hr
      rw [hr] at ih
      split
      · exact ⟨by simpa using ih.join, fun q hq => by
          rcases List.mem_cons.1 hq with rfl | hq
          · simp
          · exact ih.nonempty q (List.mem_cons_of_mem _ hq)⟩
      · exact (Covers.single (p b) (List.cons_ne_nil b [])).append ih

theorem Covers.joinOthers {x : List Byte} {ps : List (Bool × List Byte)} (h : Covers x ps) :
    Covers x (joinOthers ps) := by
  induction ps generalizing x with
  | nil => exact h
  | cons q ps ih =>
    obtain ⟨k, r⟩ := q
    have hr : r ≠ [] := h.nonempty (k, r) List.mem_cons_self
    have htail := ih h.tail
    rw [← h.join, List.flatMap_cons]
    cases k with
    | true => exact (Covers.single true hr).append htail
    | false =>
      rw [Machine.joinOthers]
      split
      · rename_i q tail hj
        rw [hj] at htail
        rw [← htail.join]
        refine ⟨by simp, fun s hs => ?_⟩
        rcases List.mem_cons.1 hs with rfl | hs
        · simp [hr]
        · exact htail.nonempty s (List.mem_cons_of_mem _ hs)
      · exact (Covers.single false hr).append htail

theorem covers_classRuns (p : Byte → Bool) (m : Nat) (x : List Byte) : Covers x (classRuns p m x) :=
  ((covers_maximalRuns p x).map (fun run => (run.1 && m ≤ run.2.length, run.2)) fun _ => rfl).joinOthers

theorem covers_autoParts (m : Nat) {c : List Byte} (hc : c ≠ []) : Covers c (autoParts m c) := by
  unfold autoParts
  split
  · exact .single _ hc
  · refine (covers_classRuns isNumeric m c).refine _ fun q hq => ?_
    split
    · exact .single _ ((covers_classRuns isNumeric m c).nonempty q hq)
    · exact (covers_classRuns isAlphanumeric m q.2).map _ fun _ => rfl

/-- The AUTO analyzer makes no Kanji part. -/
theorem autoParts_not_kanji {m : Nat} {c : List Byte} {q : SegMode × List Byte} (h : q ∈ autoParts m c) :
    q.1 ≠ .kanji := by
  unfold autoParts at h
  split at h
  · rw [List.mem_singleton.1 h]
    unfold wholeMode
    split
    · simp
    · split <;> simp
  · obtain ⟨p, -, hp⟩ := List.mem_flatMap.1 h
    split at hp
    · simp [List.mem_singleton.1 hp]
    · obtain ⟨r, -, rfl⟩ := List.mem_map.1 hp
      cases r.1 <;> simp

/-- Every located piece is one of the parts, inside the parts' total length. -/
theorem mem_locatePieces {start : Nat} {parts : List (SegMode × List Byte)} {p : Piece}
    (h : p ∈ locatePieces start parts) :
    (∃ q ∈ parts, p.mode = q.1 ∧ p.len = q.2.length) ∧
      p.start + p.len ≤ start + (parts.flatMap (·.2)).length := by
  induction parts generalizing start with
  | nil => simp [locatePieces] at h
  | cons q parts ih =>
    rw [List.flatMap_cons, List.length_append]
    rcases List.mem_cons.1 h with rfl | h
    · exact ⟨⟨q, List.mem_cons_self, rfl, rfl⟩, by simp only; omega⟩
    · obtain ⟨⟨r, hr, hmode⟩, hle⟩ := ih h
      exact ⟨⟨r, List.mem_cons_of_mem _ hr, hmode⟩, by omega⟩

/-- A chunk of valid Kanji pairs has an even length. -/
theorem even_of_firstBadPair {k : Nat} {c : List Byte} (h : firstBadPair k c = none) : c.length % 2 = 0 := by
  induction k, c using firstBadPair.induct with
  | case1 k => rfl
  | case2 k b => simp [firstBadPair] at h
  | case3 k hi lo rest valid ih =>
    rw [firstBadPair, if_pos valid] at h
    rw [List.length_cons, List.length_cons, Nat.add_assoc, Nat.add_mod_right]
    exact ih h
  | case4 k hi lo rest invalid => simp [firstBadPair, invalid] at h

/-- The pieces of a chunk are not empty and lie in it; a Kanji piece has an even length. -/
theorem mem_splitChunk {hint : ModeHint} {m : Nat} {c : List Byte} {pieces : List Piece} (hc : c ≠ [])
    (h : splitChunk hint m c = .ok pieces) {p : Piece} (hp : p ∈ pieces) :
    0 < p.len ∧ p.start + p.len ≤ c.length ∧ (p.mode = .kanji → p.len % 2 = 0) := by
  cases hint with
  | auto =>
    cases h
    obtain ⟨⟨q, hq, hmode, hlen⟩, hle⟩ := mem_locatePieces hp
    have cover := covers_autoParts m hc
    rw [cover.join, Nat.zero_add] at hle
    exact ⟨hlen ▸ List.length_pos_iff.2 (cover.nonempty q hq), hle,
      fun hk => absurd (hmode ▸ hk) (autoParts_not_kanji hq)⟩
  | forced mode =>
    simp only [splitChunk] at h
    split at h <;> cases h
    rename_i hv
    rw [List.mem_singleton.1 hp]
    refine ⟨List.length_pos_iff.2 hc, by simp, fun hk => ?_⟩
    simp only at hk
    subst hk
    exact even_of_firstBadPair hv

/-! ### The lengths of what the commands store -/

@[simp] theorem length_genPoly (e : Nat) : (genPoly e).length = e + 1 := by
  induction e with
  | zero => rfl
  | succ e ih => simp [genPoly, polyMulLinear, ih]

theorem length_rsEncode_le (d : List Byte) (e : Nat) : (rsEncode d e).length ≤ e := by
  have keep : ∀ r : List Byte, r.length ≤ e → (d.foldl (rsStep (genPoly e).tail) r).length ≤ e := by
    induction d with
    | nil => exact fun r hr => hr
    | cons x d ih =>
      intro r hr
      refine ih _ ?_
      simp only [rsStep, List.length_zipWith, List.length_tail, length_genPoly]
      omega
  exact keep _ (by simp)

theorem length_packCodewords (k : Nat) (bits : List Bool) : (packCodewords k bits).length = k := by
  induction k generalizing bits with
  | zero => rfl
  | succ k ih => simp [packCodewords, ih]

@[simp] theorem length_codewordsOf (v : Nat) (l : EcLevel) (stream : List Bool) :
    (codewordsOf v l stream).length = dataCodewords v l := by
  simp only [codewordsOf, List.length_append, length_packCodewords, padCodewords, List.length_map, List.length_range]
  omega

theorem length_splitBlocks (sizes : List Nat) (dc : List Byte) : (splitBlocks sizes dc).length = sizes.length := by
  induction sizes generalizing dc with
  | nil => rfl
  | cons n sizes ih => simp [splitBlocks, ih]

/-- A round robin of `n` rounds takes at most one codeword of each block a round. -/
theorem length_roundRobin_le (n : Nat) (blocks : List (List Byte)) :
    (roundRobin n blocks).length ≤ n * blocks.length := by
  induction n with
  | zero => simp [roundRobin]
  | succ n ih =>
    have hround : (blocks.filterMap fun block => block[n]?).length ≤ blocks.length := List.length_filterMap_le ..
    rw [roundRobin, List.range_succ, List.flatMap_append, List.length_append, Nat.succ_mul]
    simp only [List.flatMap_cons, List.flatMap_nil, List.append_nil]
    exact Nat.add_le_add ih hround

/-- The data codewords of every symbol fit in CWBUF, and one codeword more than the longest block for each block fits in
FINAL. -/
theorem capacity_bounds {v : Nat} (hv : v ≤ 40) (l : EcLevel) :
    dataCodewords v l ≤ 4096 ∧ (shortData v l + 1 + ecCount v l) * (shortBlocks v l + longBlocks v l) ≤ 4096 := by
  have table : ∀ u ∈ List.range 41, ∀ k ∈ [EcLevel.L, .M, .Q, .H],
      dataCodewords u k ≤ 4096 ∧ (shortData u k + 1 + ecCount u k) * (shortBlocks u k + longBlocks u k) ≤ 4096 := by
    decide +kernel
  exact table v (List.mem_range.2 (by omega)) l (by cases l <;> decide)

theorem length_finalStream_le {v : Nat} (hv : v ≤ 40) (l : EcLevel) (dc : List Byte) :
    (finalStream v l dc).length ≤ 4096 := by
  have hblocks : (splitBlocks (blockSizes v l) dc).length = shortBlocks v l + longBlocks v l := by
    simp [length_splitBlocks, blockSizes]
  have hdata := length_roundRobin_le (shortData v l + 1) (splitBlocks (blockSizes v l) dc)
  have hec := length_roundRobin_le (ecCount v l)
    ((splitBlocks (blockSizes v l) dc).map fun block => rsEncode block (ecCount v l))
  rw [List.length_map, hblocks] at hec
  rw [hblocks] at hdata
  rw [finalStream, List.length_append]
  calc _ ≤ (shortData v l + 1) * (shortBlocks v l + longBlocks v l)
          + ecCount v l * (shortBlocks v l + longBlocks v l) := Nat.add_le_add hdata hec
    _ = (shortData v l + 1 + ecCount v l) * (shortBlocks v l + longBlocks v l) := (Nat.add_mul ..).symm
    _ ≤ 4096 := (capacity_bounds hv l).2

/-! ### What keeps the stored contents well-formed -/

/-- The invariant but for the lifecycle flags. -/
structure ContentsWf (s : State) : Prop where
  memories : MemoriesWf s
  segments : SegmentsWf s
  metadata : MetadataWf s

section
variable {s t : State}

theorem Inv.contents (h : Inv s) : ContentsWf s := ⟨h.memories, h.segments, h.metadata⟩

theorem MemoriesWf.congr (h : MemoriesWf s) (hb : ∀ b, t.bytes b = s.bytes b) (hm : ∀ mm, t.mat mm = s.mat mm) :
    MemoriesWf t :=
  ⟨fun b => hb b ▸ h.bytes b, fun mm => hm mm ▸ h.matrix mm⟩

theorem MemoriesWf.writeBytes (h : MemoriesWf s) {b : ByteMem} {off : Nat} {xs : List Byte}
    (fits : off + xs.length ≤ b.size) : MemoriesWf (s.writeBytes b off xs) := by
  refine ⟨fun d => ?_, fun mm => ?_⟩
  · by_cases hd : d = b
    · subst hd
      exact State.wf_writeBytes s d off xs (h.bytes d) fits
    · rw [State.writeBytes, State.setBytes_bytes, if_neg hd]
      exact h.bytes d
  · have same : (s.writeBytes b off xs).mat mm = s.mat mm := by cases mm <;> simp [State.mat]
    exact same ▸ h.matrix mm

/-- A state whose matrix WMAT alone was written. -/
theorem MemoriesWf.wmat (h : MemoriesWf s) (hb : ∀ b, t.bytes b = s.bytes b) (hc : t.cmat = s.cmat)
    (hw : Memory.wf Config.matCells t.wmat) : MemoriesWf t := by
  refine ⟨fun b => hb b ▸ h.bytes b, fun mm => ?_⟩
  cases mm with
  | wmat => exact hw
  | cmat => simp only [State.mat, hc]; exact h.matrix .cmat

theorem SegmentsWf.congr (h : SegmentsWf s) (ht : t.segtab = s.segtab) (hu : t.segused = s.segused) : SegmentsWf t := by
  obtain ⟨count, used, inside, nonempty, chars⟩ := h
  rw [← ht] at count inside nonempty chars
  rw [← hu] at used inside
  exact ⟨count, used, inside, nonempty, chars⟩

theorem MetadataWf.congr (h : MetadataWf s) (hs : t.streamMeta = s.streamMeta) (hm : t.matMeta = s.matMeta)
    (ho : t.outMeta = s.outMeta) : MetadataWf t :=
  ⟨by rw [hs]; exact h.stream, by rw [hm]; exact h.matrix, by rw [ho]; exact h.out⟩

/-- `t` holds the memories, the segments and the metadata that `s` holds. -/
def SameContents (s t : State) : Prop :=
  t = { t with
    segtab := s.segtab, segused := s.segused, streamMeta := s.streamMeta, matMeta := s.matMeta, outMeta := s.outMeta
    ibuf := s.ibuf, segdata := s.segdata, cwbuf := s.cwbuf, final := s.final, wmat := s.wmat, cmat := s.cmat }

theorem ContentsWf.congr (h : ContentsWf s) (e : SameContents s t) : ContentsWf t := by
  rw [e]
  exact ⟨h.memories.congr (fun _ => rfl) (fun _ => rfl), h.segments.congr rfl rfl, h.metadata.congr rfl rfl rfl⟩

/-- A range written to a byte memory inside its bounds. -/
theorem ContentsWf.writeBytes (h : ContentsWf s) {b : ByteMem} {off : Nat} {xs : List Byte}
    (fits : off + xs.length ≤ b.size) : ContentsWf (s.writeBytes b off xs) :=
  ⟨h.memories.writeBytes fits, h.segments.congr (by simp) (by simp), h.metadata.congr (by simp) (by simp) (by simp)⟩

/-- A new SEGTAB entry of a stored chunk. -/
theorem toNat_pieceSegment {base : Nat} {p : Piece} (h : base + p.start + p.len ≤ 8192) :
    (p.segment base).off.toNat = base + p.start ∧ (p.segment base).nbytes.toNat = p.len ∧
      (p.segment base).nchars.toNat = if p.mode = .kanji then p.len / 2 else p.len := by
  simp only [Piece.segment, BitVec.toNat_ofNat]
  refine ⟨by omega, by omega, ?_⟩
  split <;> omega

/-- APPEND's store keeps the segment table and SEGDATA well-formed (R212). -/
theorem SegmentsWf.storeChunk (h : SegmentsWf s) {c : List Byte} {pieces : List Piece}
    (count : s.nseg + pieces.length ≤ 64) (used : s.segused.toNat + c.length ≤ 8192)
    (hp : ∀ p ∈ pieces, 0 < p.len ∧ p.start + p.len ≤ c.length ∧ (p.mode = .kanji → p.len % 2 = 0)) :
    SegmentsWf (s.storeChunk c pieces) := by
  have hused : (s.storeChunk c pieces).segused.toNat = s.segused.toNat + c.length := by
    simp only [State.storeChunk, BitVec.toNat_ofNat]
    omega
  have entries : ∀ e ∈ (s.storeChunk c pieces).segtab,
      e ∈ s.segtab ∨ ∃ p ∈ pieces, e = p.segment s.segused.toNat := by
    intro e he
    refine (List.mem_append.1 he).imp id fun he => ?_
    obtain ⟨p, hmem, rfl⟩ := List.mem_map.1 he
    exact ⟨p, hmem, rfl⟩
  refine ⟨by simpa [State.storeChunk, State.nseg] using count, hused ▸ used, fun e he => ?_, fun e he => ?_,
    fun e he => ?_⟩ <;> rcases entries e he with hold | ⟨p, hmem, rfl⟩
  · have := h.inside e hold
    omega
  · obtain ⟨-, hle, -⟩ := hp p hmem
    obtain ⟨hoff, hn, -⟩ := toNat_pieceSegment (base := s.segused.toNat) (p := p) (by omega)
    omega
  · exact h.nonempty e hold
  · obtain ⟨hpos, hle, -⟩ := hp p hmem
    obtain ⟨-, hn, -⟩ := toNat_pieceSegment (base := s.segused.toNat) (p := p) (by omega)
    omega
  · exact h.chars e hold
  · obtain ⟨-, hle, heven⟩ := hp p hmem
    obtain ⟨-, hn, hc⟩ := toNat_pieceSegment (base := s.segused.toNat) (p := p) (by omega)
    rw [hn, hc]
    show p.len = if p.mode = .kanji then _ else _
    by_cases hk : p.mode = .kanji
    · have := heven hk
      rw [if_pos hk, if_pos hk]
      omega
    · rw [if_neg hk, if_neg hk]

/-- What a command writes to MATMETA and WMAT keeps the contents well-formed when it is legal (R46). -/
theorem ContentsWf.matrix (h : ContentsWf s) (frame : Frame [.matrix, .maskPen, .result] s t)
    (hw : Memory.wf Config.matCells t.wmat) {v : BitVec 6} (hv : t.matMeta.mver = v) (hlow : v ≠ 0)
    (hhigh : v.toNat ≤ 40) : ContentsWf t := by
  rw [← hv] at hlow hhigh
  rw [frame] at hw hlow hhigh ⊢
  exact ⟨h.memories.wmat (fun _ => rfl) rfl hw, h.segments.congr rfl rfl,
    ⟨h.metadata.stream, ⟨hhigh, fun h0 => absurd h0 hlow⟩, h.metadata.out⟩⟩

theorem State.wf_templated (v : Nat) (s : State) : Memory.wf Config.matCells (s.templated v).wmat :=
  wf_mapCells (fun r c _ => templateCell v r c) s

theorem State.wf_placed (v : Nat) (dc : List (Nat × Nat)) (s : State) :
    Memory.wf Config.matCells (s.placed v dc).wmat :=
  wf_writeCells _ s

theorem State.wf_masked (s : State) : Memory.wf Config.matCells s.masked.wmat := by
  have hw : s.masked.wmat = (s.applyMask s.bestMask (side s.matMeta.mver.toNat)).wmat := rfl
  rw [hw, State.applyMask]
  exact wf_mapCells _ s

theorem State.masked_mver (s : State) : s.masked.matMeta.mver = s.matMeta.mver := by rw [masked]

theorem State.wf_inserted (l : EcLevel) (mask : BitVec 3) (s : State) :
    Memory.wf Config.matCells (s.inserted l mask).wmat :=
  wf_writeCells _ s

theorem ContentsWf.of_effect (hs : ContentsWf s) {i : Instr} (h : Effect s i t) : ContentsWf t := by
  cases h with
  | nop => exact hs
  | clear => exact ⟨hs.memories.congr (fun _ => rfl) (fun _ => rfl),
      ⟨by simp, by simp, by simp, by simp, by simp⟩, hs.metadata.congr rfl rfl rfl⟩
  | appendNothing => exact hs
  | append mode chunk split count used =>
    have written := hs.memories.writeBytes (b := .segdata) used
    exact ⟨written.congr (fun _ => rfl) (fun _ => rfl),
      hs.segments.storeChunk count used fun p hp => mem_splitChunk chunk split hp, hs.metadata.congr rfl rfl rfl⟩
  | gfGenpoly range => exact hs.writeBytes (by simpa [ByteMem.size] using range)
  | rsEnc n data range =>
    exact hs.writeBytes ((Nat.add_le_add_left (length_rsEncode_le ..) _).trans range)
  | eccInterleave ec l dc low high =>
    exact hs.writeBytes (by simpa [ByteMem.size] using length_finalStream_le high l dc)
  | bitstream ver l low high level =>
    rename_i v
    have written : ContentsWf (s.writeBytes .cwbuf 0 (codewordsOf v l (s.segmentStream v))) :=
      hs.writeBytes (by simpa [ByteMem.size] using (capacity_bounds high l).1)
    have hv : (BitVec.ofNat 6 v).toNat = v := by rw [BitVec.toNat_ofNat]; omega
    refine ⟨written.memories.congr (fun _ => rfl) (fun _ => rfl), written.segments.congr rfl rfl, ?_,
      hs.metadata.matrix, hs.metadata.out⟩
    rw [if_pos (show (s.streamed v l _).streamMeta.svalid = true from rfl)]
    exact ⟨hv.symm ▸ low, hv.symm ▸ high, level⟩
  | @matrixInit ver low high =>
    have hv : (s.templated ver.toNat).matMeta.mver = ver := by simp [State.templated]
    refine hs.matrix rfl (s.wf_templated ver.toNat) hv (fun h0 => ?_) high
    rw [h0] at low
    exact absurd low (by decide)
  | place v dc matrix => exact hs.matrix rfl (s.wf_placed v dc) (v := s.matMeta.mver) rfl matrix hs.metadata.matrix.1
  | maskSelect matrix => exact hs.matrix rfl s.wf_masked s.masked_mver matrix hs.metadata.matrix.1
  | fmtInsert ec mask l matrix =>
    exact hs.matrix rfl (s.wf_inserted l mask) (v := s.matMeta.mver) rfl matrix
      hs.metadata.matrix.1
  | capq | gfMul | gfExp | gfLog | maskScore | fmtCalc | verCalc => exact hs.congr rfl

end

/-! ### What a command's completion can do -/

/-- `t` differs from `s` in the items of `w` at most, and its contents are well-formed if those of `s` are. -/
structure Staged (w : List Item) (s t : State) : Prop where
  frame : Frame w s t
  contents : ContentsWf s → ContentsWf t

section
variable {w w' : List Item} {s t u : State}

theorem Staged.refl (w : List Item) (s : State) : Staged w s s := ⟨.refl w s, id⟩

theorem Staged.trans (h : Staged w s t) (hw : w ⊆ w') (h' : Staged w' t u) : Staged w' s u :=
  ⟨h.frame.trans hw h'.frame, fun hs => h'.contents (h.contents hs)⟩

theorem Effect.staged {i : Instr} (h : Effect s i t) : Staged (written i) s t := ⟨h.frame, fun hs => hs.of_effect h⟩

end

/-- The items that BUILD's stages after the first write (47_build.md R332). -/
def lateItems : List Item := [.final, .matrix, .maskPen, .result]

/-- BUILD's stages after the first. -/
theorem buildStages_tail_staged {ver : BitVec 6} {ec : BitVec 3} {stage : Rule}
    (h : stage ∈ (buildStages ver ec).tail) {s t : State} (ht : stage s = .ok t) : Staged lateItems s t := by
  have late : ∀ {i : Instr}, Effect s i t → written i ⊆ lateItems → Staged lateItems s t :=
    fun hi hw => hi.staged.trans hw (.refl ..)
  simp only [buildStages, List.tail_cons, List.mem_cons, List.not_mem_nil, or_false] at h
  rcases h with rfl | rfl | rfl | rfl | rfl
  · exact late (effect_ruleEccInterleave ht) (by simp [written, lateItems])
  · exact late (effect_ruleMatrixInit ht) (by simp [written, lateItems])
  · exact late (effect_rulePlace ht) (by simp [written, lateItems])
  · exact late (effect_ruleMaskSelect ht) (by simp [written, lateItems])
  · exact late (effect_ruleFmtInsert ht) (by simp [written, lateItems])

/-- The first stage of BUILD is BITSTREAM's rule, and the later ones start from what it leaves; an error leaves what the
completed stages left (R333). -/
theorem runStages_build {ver : BitVec 6} {ec : BitVec 3} {s : State} :
    (∀ t, runStages (buildStages ver ec) s = .ok t →
      ∃ u, Effect s (.bitstream ver ec) u ∧ Staged lateItems u t) ∧
    ∀ e t, runStages (buildStages ver ec) s = .error (e, t) →
      s = t ∨ ∃ u, Effect s (.bitstream ver ec) u ∧ Staged lateItems u t := by
  have split : buildStages ver ec = ruleBitstream ver ec :: (buildStages ver ec).tail := rfl
  rw [split]
  cases h : ruleBitstream ver ec s with
  | error e =>
    rw [runStages_cons_error h]
    exact ⟨fun t ht => (by cases ht), fun e' t ht => .inl (by cases ht; rfl)⟩
  | ok u =>
    rw [runStages_cons_ok h]
    have first := effect_ruleBitstream h
    obtain ⟨hok, herr⟩ := runStages_keeps (P := Staged lateItems u)
      (fun stage hstage a b ha hb => ha.trans (List.Subset.refl _) (buildStages_tail_staged hstage hb)) (.refl ..)
    exact ⟨fun t ht => ⟨u, first, hok t ht⟩, fun e t ht => .inr ⟨u, first, herr e t ht⟩⟩

/-- The commit of a stream that BITSTREAM selected keeps the contents well-formed (R47, R334). -/
theorem ContentsWf.commit {s : State} (h : ContentsWf s) (valid : s.streamMeta.svalid = true) {ec : BitVec 3}
    (level : ec.toNat ≤ 3) : ContentsWf (s.commit ec) := by
  have stream := h.metadata.stream
  rw [if_pos valid] at stream
  obtain ⟨low, high, -⟩ := stream
  refine ⟨⟨h.memories.bytes, fun mm => ?_⟩, h.segments.congr rfl rfl, h.metadata.stream, h.metadata.matrix, ?_⟩
  · cases mm with
    | wmat => exact h.memories.matrix .wmat
    | cmat => exact s.wf_commitCells
  · rw [if_pos (show (s.commit ec).outMeta.valid = true from rfl)]
    refine ⟨low, high, level, ?_⟩
    show (BitVec.ofNat 8 (side s.streamMeta.sver.toNat)).toNat = 4 * s.streamMeta.sver.toNat + 17
    rw [BitVec.toNat_ofNat, side]
    omega

/-- A command completes a state that differs in the items it writes, or raises an error on one that differs in them but
not in OUTMETA and CMAT. -/
theorem exec_cases (i : Instr) (s : State) :
    (∃ t, Staged (written i) s t ∧ exec i s = .next t.complete) ∨
      ∃ e t, Staged (written i) s t ∧ Item.out.Same s t ∧ exec i s = .next (t.raiseError e) := by
  by_cases hb : ∃ ver ec, i = .build ver ec
  · obtain ⟨ver, ec, rfl⟩ := hb
    have early : ∀ {t}, (∃ u, Effect s (.bitstream ver ec) u ∧ Staged lateItems u t) →
        Staged ((written (.build ver ec)).erase .out) s t := fun ⟨u, hu, ht⟩ =>
      (hu.staged.trans (by simp [written]) (.refl ..)).trans (List.Subset.refl _)
        (ht.trans (by simp [written, lateItems]) (.refl ..))
    have sub : (written (.build ver ec)).erase .out ⊆ written (.build ver ec) := List.erase_subset
    rcases execBuild_cases ver ec s with ⟨l, t, -, hl, hr, he⟩ | ⟨l, e, t, -, -, hr, he⟩ | ⟨-, he⟩ | ⟨-, -, he⟩
    · obtain ⟨u, hu, ht⟩ := runStages_build.1 t hr
      have built := early ⟨u, hu, ht⟩
      have valid : t.streamMeta.svalid = true := by
        have kept : t.streamMeta = u.streamMeta :=
          congrArg Prod.snd (ht.frame.same (x := .stream) (by simp [lateItems]))
        rw [kept]
        cases hu
        rfl
      refine .inl ⟨t.commit ec, ⟨built.frame.trans sub rfl, fun hs => ?_⟩, he⟩
      exact (built.contents hs).commit valid (toNat_le_of_operandEc hl)
    · have built : Staged ((written (.build ver ec)).erase .out) s t := by
        rcases runStages_build.2 e t hr with rfl | h
        · exact .refl ..
        · exact early h
      exact .inr ⟨e, t, built.trans sub (.refl ..), built.frame.same (by simp [written]), he⟩
    · exact .inr ⟨_, s, .refl .., rfl, he⟩
    · exact .inr ⟨_, s, .refl .., rfl, he⟩
  · rcases exec_effect i s fun ver ec hi => hb ⟨ver, ec, hi⟩ with ⟨t, ht, he⟩ | ⟨e, he⟩
    · exact .inl ⟨t, ht.staged, he⟩
    · exact .inr ⟨e, s, .refl .., rfl, he⟩

end Sys2Proof.Machine
end

section
/-! PROOFS. The host's side: the address map, the bus checks, and what one access can do (20_memory.md R81 to R92). -/
namespace Sys2Proof.Machine
open Sys2Proof.Config (ByteMem MatMem)

/-! ### The address map and the bus checks (20_memory.md R81 to R87) -/

/-- The first address of a region (R87). -/
def Region.base : Region → Nat
  | .csr => 0x00000
  | .segtab => 0x01000
  | .bytes .segdata => 0x02000
  | .bytes .ibuf => 0x04000
  | .bytes .cwbuf => 0x06000
  | .bytes .final => 0x07000
  | .matrix .wmat => 0x10000
  | .matrix .cmat => 0x20000

/-- The number of addresses of a region (R87). -/
def Region.size : Region → Nat
  | .csr => 0x100
  | .segtab => 0x200
  | .bytes b => b.size
  | .matrix _ => 0x10000

/-- The bounds of a region as an entry of the map. -/
theorem mem_addressMap {lo hi : Nat} {region : Region} :
    (lo, hi, region) ∈ addressMap ↔ lo = region.base ∧ hi + 1 = region.base + region.size := by
  simp only [addressMap, List.mem_cons, List.not_mem_nil, or_false, Prod.mk.injEq]
  rcases region with _ | _ | b | mm
  · simp [Region.base, Region.size]
  · simp [Region.base, Region.size]
  · cases b <;> simp [Region.base, Region.size, ByteMem.size]
  · cases mm <;> simp [Region.base, Region.size]

theorem addressMap_disjoint :
    ∀ e ∈ addressMap, ∀ f ∈ addressMap, e ≠ f → e.2.1 < f.1 ∨ f.2.1 < e.1 := by decide

/-- The regions do not overlap. -/
theorem region_unique {region region' : Region} {off off' : Nat} (h : region.base + off = region'.base + off')
    (hoff : off < region.size) (hoff' : off' < region'.size) : region = region' ∧ off = off' := by
  have entry : ∀ r : Region, 0 < r.size → (r.base, r.base + r.size - 1, r) ∈ addressMap := fun r hr =>
    mem_addressMap.2 ⟨rfl, by omega⟩
  have same : region = region' := by
    by_contra hne
    have disjoint := addressMap_disjoint _ (entry region (by omega)) _ (entry region' (by omega))
      (fun he => hne (congrArg (fun e => e.2.2) he))
    simp only at disjoint
    omega
  subst same
  exact ⟨rfl, by omega⟩

theorem locate_eq_some_iff {addr off : Nat} {region : Region} :
    locate addr = some (region, off) ↔ addr = region.base + off ∧ off < region.size := by
  have sound : ∀ {region off}, locate addr = some (region, off) → addr = region.base + off ∧ off < region.size := by
    intro region off h
    obtain ⟨⟨lo, hi, _⟩, he, hsome⟩ := Option.map_eq_some_iff.1 h
    obtain ⟨rfl, rfl⟩ := Prod.mk.inj hsome
    obtain ⟨rfl, hhi⟩ := mem_addressMap.1 (List.mem_of_find?_eq_some he)
    have hin := List.find?_some he
    simp only [Bool.and_eq_true, decide_eq_true_eq] at hin ⊢
    omega
  refine ⟨sound, fun ⟨haddr, hoff⟩ => ?_⟩
  have found : (locate addr).isSome := by
    rw [locate, Option.isSome_map, List.find?_isSome]
    exact ⟨(region.base, region.base + region.size - 1, region), mem_addressMap.2 ⟨rfl, by omega⟩, by
      simp only [Bool.and_eq_true, decide_eq_true_eq]
      omega⟩
  obtain ⟨⟨region', off'⟩, h'⟩ := Option.isSome_iff_exists.1 found
  obtain ⟨haddr', hoff'⟩ := sound h'
  obtain ⟨rfl, rfl⟩ := region_unique (haddr.symm.trans haddr') hoff hoff'
  exact h'

/-- The legal widths are the powers of 2 of the `size` port, but for 3 (R80, R84). -/
theorem accessWidth_eq_some_iff {size : BitVec 2} {n : Nat} :
    accessWidth size = some n ↔ size ≠ 3 ∧ n = 2 ^ size.toNat := by
  have values : ∀ z : BitVec 2, z = 0 ∨ z = 1 ∨ z = 2 ∨ z = 3 := by decide
  rcases values size with rfl | rfl | rfl | rfl <;> simp [accessWidth, eq_comm]

/-- The accesses that pass the bus checks (R81, R83, R84). -/
theorem busCheck_eq_some_iff {a : Access} {region : Region} {off n : Nat} :
    busCheck a = some (region, off, n) ↔ a.addr.toNat = region.base + off ∧ off < region.size ∧
      a.size ≠ 3 ∧ n = 2 ^ a.size.toNat ∧ (region = .csr → n = 4) ∧ a.addr.toNat % n = 0 := by
  have legal : ∀ (r : Region) (m : Nat), (widthLegal r m && a.addr.toNat % m == 0) = true ↔
      (r = .csr → m = 4) ∧ a.addr.toNat % m = 0 := by
    intro r m
    simp [widthLegal, or_iff_not_imp_left]
  constructor
  · intro h
    unfold busCheck at h
    split at h
    · cases h
    · rename_i r o hl
      split at h
      · cases h
      · rename_i m hw
        split at h
        · rename_i hok
          obtain ⟨rfl, rfl, rfl⟩ : r = region ∧ o = off ∧ m = n := by simpa using h
          obtain ⟨haddr, hoff⟩ := locate_eq_some_iff.1 hl
          obtain ⟨hsize, hn⟩ := accessWidth_eq_some_iff.1 hw
          exact ⟨haddr, hoff, hsize, hn, (legal r m).1 hok⟩
        · cases h
  · rintro ⟨haddr, hoff, hsize, hn, hok⟩
    have hl := locate_eq_some_iff.2 ⟨haddr, hoff⟩
    have hw := accessWidth_eq_some_iff.2 ⟨hsize, hn⟩
    simp only [busCheck, hl, hw]
    rw [if_pos ((legal region n).2 hok)]

/-! ### What a host access can do (20_memory.md R85 to R92, 70_reset_and_hazards.md R401) -/

/-- `t` is `s` after writes to the windows of the byte memories and of WMAT. -/
structure WindowWrite (s t : State) : Prop where
  frame : t = { s with ibuf := t.ibuf, cwbuf := t.cwbuf, final := t.final, wmat := t.wmat }
  memories : MemoriesWf s → MemoriesWf t

section
variable {s t u : State}

theorem WindowWrite.refl (s : State) : WindowWrite s s := ⟨rfl, id⟩

theorem WindowWrite.trans (h : WindowWrite s t) (h' : WindowWrite t u) : WindowWrite s u := by
  refine ⟨?_, fun hs => h'.memories (h.memories hs)⟩
  rw [h'.frame, h.frame]

theorem WindowWrite.writeByte {b : ByteMem} (hb : b ≠ .segdata) {k : Nat} (hk : k < b.size) (x : Byte) :
    WindowWrite s (s.writeByte b k x) := by
  refine ⟨?_, fun hs => ⟨fun d => ?_, fun mm => ?_⟩⟩
  · cases b with
    | segdata => exact absurd rfl hb
    | ibuf | cwbuf | final => rfl
  · by_cases hd : d = b
    · subst hd
      exact State.wf_writeByte s d k x (hs.bytes d) hk
    · rw [State.writeByte, State.setBytes_bytes, if_neg hd]
      exact hs.bytes d
  · have same : (s.writeByte b k x).mat mm = s.mat mm := by cases mm <;> simp [State.mat]
    exact same ▸ hs.matrix mm

theorem WindowWrite.writeCell (r c : Nat) (x : Module) : WindowWrite s (s.writeCell r c x) := by
  refine ⟨by unfold State.writeCell; split <;> rfl, fun hs => hs.wmat (fun b => ?_) (by simp) ?_⟩
  · cases b <;> simp [State.bytes]
  · exact State.wf_writeCell s r c x (hs.matrix .wmat)

theorem WindowWrite.writeViewByte {region : Region} {k : Nat} (hk : k < region.size) (x : Byte) :
    WindowWrite s (s.writeViewByte region k x) := by
  cases region with
  | csr => exact .refl s
  | segtab => exact .refl s
  | bytes b =>
    cases b with
    | segdata => exact .refl s
    | ibuf => exact .writeByte (by decide) hk x
    | cwbuf => exact .writeByte (by decide) hk x
    | final => exact .writeByte (by decide) hk x
  | matrix mm =>
    cases mm with
    | wmat => exact .writeCell ..
    | cmat => exact .refl s

/-- Writing bytes one after the other, each inside the region. -/
theorem WindowWrite.lanes {region : Region} {off : Nat} {lanes : List (Nat × Byte)}
    (h : ∀ lane ∈ lanes, off + lane.1 < region.size) (s : State) :
    WindowWrite s (lanes.foldl (fun t lane => t.writeViewByte region (off + lane.1) lane.2) s) := by
  induction lanes generalizing s with
  | nil => exact .refl s
  | cons lane lanes ih =>
    exact (writeViewByte (h lane List.mem_cons_self) lane.2).trans
      (ih (fun l hl => h l (List.mem_cons_of_mem _ hl)) _)

end

theorem mem_writeLanes {n : Nat} {v : Word} {lane : Nat × Byte} (h : lane ∈ writeLanes n v) : lane.1 < n := by
  obtain ⟨k, hk, rfl⟩ := List.mem_map.1 h
  exact List.mem_range.1 hk

theorem Region.base_mod_four (region : Region) : region.base % 4 = 0 := by
  rcases region with _ | _ | b | mm
  · rfl
  · rfl
  · cases b <;> rfl
  · cases mm <;> rfl

theorem Region.size_mod_four (region : Region) : region.size % 4 = 0 := by
  rcases region with _ | _ | b | mm
  · rfl
  · rfl
  · cases b <;> rfl
  · cases mm <;> rfl

/-- An access that passes the checks lies in its region to its last byte. -/
theorem busCheck_fits {a : Access} {region : Region} {off n : Nat} (h : busCheck a = some (region, off, n)) :
    off + n ≤ region.size := by
  obtain ⟨haddr, hoff, hsize, rfl, -, halign⟩ := busCheck_eq_some_iff.1 h
  have hbase := region.base_mod_four
  have hlast := region.size_mod_four
  have widths : ∀ z : BitVec 2, z ≠ 3 → 2 ^ z.toNat = 1 ∨ 2 ^ z.toNat = 2 ∨ 2 ^ z.toNat = 4 := by decide
  rcases widths a.size hsize with hn | hn | hn <;> rw [hn] at halign ⊢ <;> omega

/-- A STATUS write (10_state.md R38). -/
theorem statusWrite_eq (v : Word) (s : State) : s.statusWrite v = { s with status := {
    done := s.status.done && !v.getLsbD 1
    err := s.status.err && !v.getLsbD 2
    fatal := s.status.fatal
    werr := s.status.werr && !v.getLsbD 4
    errcode := if v.getLsbD 2 then 0 else s.status.errcode } } := by
  unfold State.statusWrite
  cases v.getLsbD 1 <;> cases v.getLsbD 2 <;> cases v.getLsbD 4 <;> simp [State.clearError]

/-- A write to CMD is not dropped only when the core is idle and not fatal. -/
theorem dropsWrite_cmd {s : State} : s.dropsWrite .csr 0x04 = false ↔ s.pending = none ∧ s.status.fatal = false := by
  cases hp : s.pending <;> simp [State.dropsWrite, State.busy, hp]

/-- A write to a window is not dropped only when the core is idle. -/
theorem dropsWrite_eq_false_of_ne_csr {s : State} {region : Region} {off : Nat} (hr : region ≠ .csr) :
    s.dropsWrite region off = false ↔ s.pending = none := by
  cases hp : s.pending <;> simp [State.dropsWrite, State.busy, hp, hr]

/-- `HostEffect s a t`: the access `a` can leave `t` on `s`, the port's reply and the draw counter apart. -/
inductive HostEffect (s : State) (a : Access) : State → Prop
  | nothing : HostEffect s a s
  | dropped : HostEffect s a s.dropWrite
  | accept (idle : s.pending = none) (live : s.status.fatal = false) : HostEffect s a (s.accept a.wdata)
  | status : HostEffect s a (s.statusWrite a.wdata)
  | softReset (h : SoftReset a) : HostEffect s a s.applyReset
  | ctrl (c : Ctrl) : HostEffect s a { s with ctrl := c }
  | arg0 (x : Word) : HostEffect s a { s with arg0 := x }
  | arg1 (x : Word) : HostEffect s a { s with arg1 := x }
  | window {t : State} (idle : s.pending = none) (h : WindowWrite s t) : HostEffect s a t

/-- What a write that is not dropped does. -/
theorem performWrite_effect {s : State} {a : Access} {region : Region} {off n : Nat} (hwe : a.we = true)
    (h : busCheck a = some (region, off, n)) (hd : s.dropsWrite region off = false) :
    HostEffect s a (s.performWrite region off n a.wdata) := by
  have window : ∀ r, r ≠ .csr → s.dropsWrite r off = false → off + n ≤ r.size → HostEffect s a
      ((writeLanes n a.wdata).foldl (fun t lane => t.writeViewByte r (off + lane.1) lane.2) s) :=
    fun r hr hd hfit => .window ((dropsWrite_eq_false_of_ne_csr hr).1 hd)
      (.lanes (fun lane hl => by have := mem_writeLanes hl; omega) s)
  have hfit := busCheck_fits h
  cases region with
  | csr =>
    obtain ⟨haddr, -, -, hn, hn4, -⟩ := busCheck_eq_some_iff.1 h
    show HostEffect s a (s.csrWrite off a.wdata)
    unfold State.csrWrite
    split
    · obtain ⟨idle, live⟩ := dropsWrite_cmd.1 hd
      exact .accept idle live
    · exact .status
    · unfold State.ctrlWrite
      split
      · rename_i hbit
        refine .softReset ⟨hwe, BitVec.eq_of_toNat_eq haddr, ?_, hbit⟩
        have hsize : 2 ^ a.size.toNat = 4 := hn.symm.trans (hn4 rfl)
        have values : ∀ z : BitVec 2, 2 ^ z.toNat = 4 → z = 2 := by decide
        exact values _ hsize
      · exact .ctrl _
    · exact .arg0 _
    · exact .arg1 _
    · exact .nothing
  | segtab => exact window .segtab (by simp) hd hfit
  | bytes b => exact window (.bytes b) (by simp) hd hfit
  | matrix mm => exact window (.matrix mm) (by simp) hd hfit

/-- A host access leaves one of the effects, a reply, and a draw counter. -/
theorem hostAccess_effect (a : Access) (s : State) :
    ∃ t r d, HostEffect s a t ∧ State.hostAccess a s = { t with reply := r, draws := d } := by
  unfold State.hostAccess
  split
  · exact ⟨s, _, s.draws, .nothing, rfl⟩
  · rename_i region off n h
    cases hwe : a.we with
    | false => exact ⟨s, _, _, .nothing, rfl⟩
    | true =>
      cases hd : s.dropsWrite region off with
      | true => exact ⟨_, _, s.draws, .dropped, rfl⟩
      | false => exact ⟨_, _, _, performWrite_effect hwe h hd, rfl⟩

end Sys2Proof.Machine
end

section
/-! PROOFS. One step: it keeps the invariant; what it can change; the step of an aligned access and of a reset. -/
namespace Sys2Proof.Machine
open Sys2Proof.Config (ByteMem MatMem)

/-! ### The invariant, step by step -/

section
variable {s t : State}

theorem Inv.of_parts (h : ContentsWf s) (l : LifecycleWf s) : Inv s := ⟨h.memories, h.segments, l, h.metadata⟩

theorem LifecycleWf.congr (h : LifecycleWf s) (hp : t.pending = s.pending) (hs : t.status = s.status)
    (hl : t.lastcmd = s.lastcmd) (he : t.errinfo = s.errinfo) : LifecycleWf t := by
  obtain ⟨busy, oneEnd, code, codeMax⟩ := h
  rw [← hp, ← hl, ← hs, ← he] at busy
  rw [← hs] at oneEnd code codeMax
  exact ⟨busy, oneEnd, code, codeMax⟩

/-- The flags of an idle core agree when DONE, ERR and ERRCODE do. -/
theorem LifecycleWf.of_idle (hp : s.pending = none) (oneEnd : ¬ (s.status.done = true ∧ s.status.err = true))
    (code : s.status.err = false ↔ s.status.errcode = 0) (codeMax : s.status.errcode.toNat ≤ 9) : LifecycleWf s :=
  ⟨fun w hw => absurd hw (by simp [hp]), oneEnd, code, codeMax⟩

/-- A busy core has DONE 0, ERR 0 and FATAL 0. -/
theorem LifecycleWf.flags_of_busy (h : LifecycleWf s) (hp : s.pending ≠ none) :
    s.status.done = false ∧ s.status.err = false ∧ s.status.fatal = false := by
  obtain ⟨w, hw⟩ := Option.ne_none_iff_exists'.1 hp
  obtain ⟨-, hdone, herr, hfatal, -⟩ := h.busy w hw
  exact ⟨hdone, herr, hfatal⟩

theorem ErrCode.value_bounds (c : ErrCode) : c.value ≠ 0 ∧ c.value.toNat ≤ 9 := by
  cases c <;> decide

theorem inv_complete (h : LifecycleWf s) (hp : s.pending ≠ none) (hs : t.status = s.status) (hc : ContentsWf t) :
    Inv t.complete := by
  obtain ⟨-, herr, -⟩ := h.flags_of_busy hp
  refine .of_parts (hc.congr rfl) (.of_idle rfl ?_ ?_ ?_) <;> simp only [State.complete_status, hs]
  · simp [herr]
  · exact h.code
  · exact h.codeMax

theorem inv_raiseError (h : LifecycleWf s) (hp : s.pending ≠ none) (hs : t.status = s.status) (hc : ContentsWf t)
    (e : CmdError) : Inv (t.raiseError e) := by
  obtain ⟨hdone, -, -⟩ := h.flags_of_busy hp
  obtain ⟨hne, hmax⟩ := e.code.value_bounds
  refine .of_parts (hc.congr rfl) (.of_idle rfl ?_ ?_ ?_) <;> simp only [State.raiseError_status, hs]
  · simp [hdone]
  · simpa using hne
  · exact hmax

/-- The core's turn keeps the invariant. -/
theorem Inv.coreTurn (h : Inv s) (ht : coreTurn s = .next t) : Inv t := by
  rcases coreTurn_cases s with ⟨-, hc⟩ | ⟨w, e, hp, -, hc⟩ | ⟨w, i, hp, -, hc⟩ <;> rw [hc] at ht
  · cases ht
    exact h
  · cases ht
    exact inv_raiseError h.lifecycle (by simp [hp]) rfl h.contents _
  · have busy : s.pending ≠ none := by simp [hp]
    rcases exec_cases i s with ⟨u, hu, he⟩ | ⟨e, u, hu, -, he⟩ <;> rw [he] at ht <;> cases ht
    · exact inv_complete h.lifecycle busy hu.frame.status (hu.contents h.contents)
    · exact inv_raiseError h.lifecycle busy hu.frame.status (hu.contents h.contents) e

theorem inv_reset : Inv State.reset :=
  .of_parts
    ⟨⟨fun b => by cases b <;> exact Memory.wf_nil _, fun mm => by cases mm <;> exact Memory.wf_nil _⟩,
      ⟨by simp [State.reset], by simp [State.reset], by simp [State.reset], by simp [State.reset],
        by simp [State.reset]⟩,
      ⟨rfl, ⟨Nat.zero_le _, fun _ => rfl⟩, rfl⟩⟩
    (.of_idle rfl (by simp [State.reset]) (by simp [State.reset]) (Nat.zero_le _))

theorem inv_applyReset (s : State) : Inv s.applyReset :=
  .of_parts (inv_reset.contents.congr rfl) (inv_reset.lifecycle.congr rfl rfl rfl rfl)

/-- A host access keeps the invariant. -/
theorem Inv.hostEffect (h : Inv s) {a : Access} (ht : HostEffect s a t) : Inv t := by
  obtain ⟨busy, oneEnd, code, codeMax⟩ := h.lifecycle
  cases ht with
  | nothing => exact h
  | dropped => exact .of_parts (h.contents.congr rfl) ⟨busy, oneEnd, code, codeMax⟩
  | accept idle live =>
    refine .of_parts (h.contents.congr rfl) ⟨fun w hw => ?_, by simp, by simp, by simp⟩
    cases hw
    exact ⟨rfl, rfl, rfl, live, rfl⟩
  | status =>
    rw [statusWrite_eq]
    refine .of_parts (h.contents.congr rfl) ⟨fun w hw => ?_, fun hc => ?_, ?_, ?_⟩
    · obtain ⟨hlast, hdone, herr, hfatal, hinfo⟩ := busy w hw
      exact ⟨hlast, by simp [hdone], by simp [herr], hfatal, hinfo⟩
    · simp only [Bool.and_eq_true] at hc
      exact oneEnd ⟨hc.1.1, hc.2.1⟩
    · cases a.wdata.getLsbD 2 <;> simp [code]
    · cases a.wdata.getLsbD 2 <;> simp [codeMax]
  | softReset => exact inv_applyReset s
  | ctrl | arg0 | arg1 => exact .of_parts (h.contents.congr rfl) (h.lifecycle.congr rfl rfl rfl rfl)
  | window idle hw =>
    have memories := hw.memories h.memories
    rw [hw.frame] at memories ⊢
    exact .of_parts ⟨memories, h.segments.congr rfl rfl, h.metadata.congr rfl rfl rfl⟩
      (h.lifecycle.congr rfl rfl rfl rfl)

/-- The model's own fields are free in the invariant. -/
theorem Inv.withModel (h : Inv s) (reply : BusReply) (agenda : List Move) (draws : Nat) :
    Inv { s with reply := reply, agenda := agenda, draws := draws } :=
  .of_parts (h.contents.congr rfl) (h.lifecycle.congr rfl rfl rfl rfl)

theorem Inv.step (h : Inv s) (ht : step s = .next t) : Inv t := by
  rcases step_cases s with ⟨u, hu, he⟩ | ⟨a, u, hu, he⟩ | ⟨rest, -, he⟩ <;> rw [he] at ht
  · refine Inv.coreTurn ?_ ht
    rw [hu.eq]
    exact h.withModel ..
  · obtain ⟨v, r, d, hv, hacc⟩ := hostAccess_effect a u
    cases ht
    rw [hacc]
    refine Inv.withModel (Inv.hostEffect ?_ hv) ..
    rw [hu.eq]
    exact h.withModel ..
  · cases ht
    exact inv_applyReset _

end

/-! ### What a step can change -/

/-- The items that the completion of a pending word writes. -/
def wordItems (w : Word) : List Item :=
  match decode w with
  | .ok i => written i
  | .error _ => []

theorem wordItems_of_decode {w : Word} {i : Instr} (h : decode w = .ok i) : wordItems w = written i := by
  rw [wordItems, h]

/-- An item is written only by a word that decodes to a command that writes it. -/
theorem decode_of_mem_wordItems {w : Word} {x : Item} (h : x ∈ wordItems w) :
    ∃ i, decode w = .ok i ∧ x ∈ written i := by
  unfold wordItems at h
  split at h
  · exact ⟨_, ‹_›, h⟩
  · simp at h

section
variable {s t u : State} {a : Access} {w : Word}

theorem coreTurn_idle (h : s.pending = none) : coreTurn s = .next s := by
  rw [coreTurn, h]

/-- The core's turn on a pending word completes a state that differs in the word's items, or raises an error on one that
differs in them but not in OUTMETA and CMAT. -/
theorem coreTurn_completes (h : s.pending = some w) :
    ∃ u, Frame (wordItems w) s u ∧
      (coreTurn s = .next u.complete ∨ ∃ e, Item.out.Same s u ∧ coreTurn s = .next (u.raiseError e)) := by
  rcases coreTurn_cases s with ⟨hp, -⟩ | ⟨w', e, -, -, hc⟩ | ⟨w', i, hp, hd, hc⟩
  · rw [hp] at h
    cases h
  · exact ⟨s, .refl .., .inr ⟨_, rfl, hc⟩⟩
  · obtain rfl : w' = w := Option.some.inj (hp.symm.trans h)
    rw [wordItems_of_decode hd, hc]
    rcases exec_cases i s with ⟨u, hu, he⟩ | ⟨e, u, hu, hout, he⟩
    · exact ⟨u, hu.frame, .inl he⟩
    · exact ⟨u, hu.frame, .inr ⟨e, hout, he⟩⟩

theorem CoreMoves.pending (h : CoreMoves s u) : u.pending = s.pending := by rw [h.eq]

/-- A host access that is no soft reset writes no register that a command writes, and no memory but by a window. -/
theorem HostEffect.frame (h : HostEffect s a t) (hr : ¬ SoftReset a) :
    t = { s with
      pending := t.pending, status := t.status, errinfo := t.errinfo, lastcmd := t.lastcmd, ctrl := t.ctrl
      arg0 := t.arg0, arg1 := t.arg1, ibuf := t.ibuf, cwbuf := t.cwbuf, final := t.final, wmat := t.wmat } := by
  cases h with
  | softReset h => exact absurd h hr
  | status => rw [statusWrite_eq]
  | window idle h => rw [h.frame]
  | nothing | dropped | accept | ctrl | arg0 | arg1 => rfl

/-- Only a soft reset changes FATAL (60_exceptions.md R356). -/
theorem HostEffect.fatal (h : HostEffect s a t) (hr : ¬ SoftReset a) : t.status.fatal = s.status.fatal := by
  cases h with
  | softReset h => exact absurd h hr
  | status => rw [statusWrite_eq]
  | window idle h => rw [h.frame]
  | nothing | dropped | accept | ctrl | arg0 | arg1 => rfl

/-- While the core is busy or fatal no command is accepted (R401). -/
theorem HostEffect.not_accepted (h : HostEffect s a t) (hr : ¬ SoftReset a)
    (hb : s.pending ≠ none ∨ s.status.fatal = true) : t.pending = s.pending ∧ t.lastcmd = s.lastcmd := by
  cases h with
  | softReset h => exact absurd h hr
  | accept idle live => exact absurd hb (by simp [idle, live])
  | status => rw [statusWrite_eq]; exact ⟨rfl, rfl⟩
  | window idle h => rw [h.frame]; exact ⟨rfl, rfl⟩
  | nothing | dropped | ctrl | arg0 | arg1 => exact ⟨rfl, rfl⟩

/-- A soft reset is a reset move of the state before it. -/
theorem HostMoves.resetMoves (h : HostMoves s a u) (ha : SoftReset a) : ResetMoves s := by
  obtain ⟨rest, hs, -⟩ := h
  exact ⟨rest, .inr ⟨a, hs, ha⟩⟩

theorem sameCells_cmat (hc : t.cmat = s.cmat) (hr : t.resets = s.resets) : SameCells .cmat s t := fun r c => by
  simp only [State.readCell, State.mat, hc, hr]

/-- A step that is no reset: the core idles, the core completes the pending word, or the host accesses the bus. -/
theorem step_cases_of_not_reset (ht : step s = .next t) (hr : ¬ ResetMoves s) :
    (∃ u, CoreMoves s u ∧ s.pending = none ∧ t = u) ∨
    (∃ u w v, CoreMoves s u ∧ s.pending = some w ∧ Frame (wordItems w) u v ∧
      (t = v.complete ∨ ∃ e, Item.out.Same u v ∧ t = v.raiseError e)) ∨
    ∃ a u v r d, HostMoves s a u ∧ ¬ SoftReset a ∧ HostEffect u a v ∧ t = { v with reply := r, draws := d } := by
  rcases step_cases s with ⟨u, hu, he⟩ | ⟨a, u, hu, he⟩ | ⟨rest, hs, -⟩
  · cases hp : s.pending with
    | none =>
      rw [he, coreTurn_idle (hu.pending.trans hp)] at ht
      exact .inl ⟨u, hu, rfl, (Host.Outcome.next.inj ht).symm⟩
    | some w =>
      obtain ⟨v, hv, hc⟩ := coreTurn_completes (hu.pending.trans hp)
      refine .inr (.inl ⟨u, w, v, hu, rfl, hv, ?_⟩)
      rcases hc with hc | ⟨e, hout, hc⟩ <;> rw [he, hc] at ht <;> cases ht
      · exact .inl rfl
      · exact .inr ⟨e, hout, rfl⟩
  · obtain ⟨v, r, d, hv, hacc⟩ := hostAccess_effect a u
    rw [he, hacc] at ht
    exact .inr (.inr ⟨a, u, v, r, d, hu, fun ha => hr (hu.resetMoves ha), hv, (Host.Outcome.next.inj ht).symm⟩)
  · exact absurd ⟨rest, .inl hs⟩ hr

end

/-! ### The step of an aligned access -/

theorem Region.base_add_size_le (region : Region) : region.base + region.size ≤ 2 ^ 18 := by
  rcases region with _ | _ | b | mm
  · decide
  · decide
  · cases b <;> decide
  · cases mm <;> decide

section
variable {s u : State} {we : Bool} {region : Region} {addr off z : Nat} {x : Word}

/-- An aligned access inside a region passes the bus checks. -/
theorem busCheck_aligned (haddr : addr = region.base + off) (hz : z ≤ 2) (halign : off % 2 ^ z = 0)
    (hoff : off < region.size) (hcsr : region = .csr → z = 2) :
    busCheck ⟨we, BitVec.ofNat 18 addr, BitVec.ofNat 2 z, x⟩ = some (region, off, 2 ^ z) := by
  have htop := region.base_add_size_le
  have hbase := region.base_mod_four
  have hto : (BitVec.ofNat 18 addr).toNat = addr := by
    rw [BitVec.toNat_ofNat, Nat.mod_eq_of_lt (by omega)]
  have hsize : (BitVec.ofNat 2 z).toNat = z := by
    rw [BitVec.toNat_ofNat, Nat.mod_eq_of_lt (by omega)]
  refine busCheck_eq_some_iff.2 ⟨hto.trans haddr, hoff, fun h => ?_, by rw [hsize], fun h => by simp [hcsr h], ?_⟩
  · have := congrArg BitVec.toNat h
    rw [hsize] at this
    exact absurd this (by simp; omega)
  · rw [hto, haddr]
    have divides : 2 ^ z ∣ 4 := Nat.pow_dvd_pow 2 hz
    exact Nat.mod_eq_zero_of_dvd
      (Nat.dvd_add (divides.trans (Nat.dvd_of_mod_eq_zero hbase)) (Nat.dvd_of_mod_eq_zero halign))

theorem step_hostWrite (h : HostMoves s ⟨true, BitVec.ofNat 18 addr, BitVec.ofNat 2 z, x⟩ u)
    (haddr : addr = region.base + off) (hz : z ≤ 2) (halign : off % 2 ^ z = 0) (hoff : off < region.size)
    (hcsr : region = .csr → z = 2) :
    step s = .next { (if u.dropsWrite region off then u.dropWrite else u.performWrite region off (2 ^ z) x) with
      reply := ⟨true, false, none⟩ } := by
  rw [step_host h, State.hostAccess, busCheck_aligned haddr hz halign hoff hcsr]
  rfl

theorem step_hostRead (h : HostMoves s ⟨false, BitVec.ofNat 18 addr, BitVec.ofNat 2 z, x⟩ u)
    (haddr : addr = region.base + off) (hz : z ≤ 2) (halign : off % 2 ^ z = 0) (hoff : off < region.size)
    (hcsr : region = .csr → z = 2) :
    step s = .next { u with
      reply := ⟨true, false, some (u.hostRead region off (2 ^ z) (BitVec.ofNat 18 addr).toNat)⟩
      draws := u.draws + 1 } := by
  rw [step_host h, State.hostAccess, busCheck_aligned haddr hz halign hoff hcsr]
  rfl

/-- A 4-byte write to the CSR region: dropped, or the register's write. -/
theorem step_csrWrite {o : Nat} (h : HostMoves s ⟨true, BitVec.ofNat 18 o, 2, x⟩ u) (ho : o < 0x100)
    (halign : o % 4 = 0) :
    step s = .next { (if u.dropsWrite .csr o then u.dropWrite else u.csrWrite o x) with
      reply := ⟨true, false, none⟩ } :=
  step_hostWrite (region := .csr) (z := 2) h (Nat.zero_add o).symm (le_refl 2) halign ho fun _ => rfl

/-- A 4-byte read of the CSR region. -/
theorem step_csrRead {o : Nat} (h : HostMoves s ⟨false, BitVec.ofNat 18 o, 2, x⟩ u) (ho : o < 0x100)
    (halign : o % 4 = 0) :
    step s = .next { u with reply := ⟨true, false, some (u.csrRead o)⟩, draws := u.draws + 1 } :=
  step_hostRead (region := .csr) (z := 2) h (Nat.zero_add o).symm (le_refl 2) halign ho fun _ => rfl

end

/-- CTRL and STATUS are written while the core is busy and while it is fatal (70_reset_and_hazards.md R401, R402). -/
theorem dropsWrite_status_ctrl (s : State) : s.dropsWrite .csr 0x08 = false ∧ s.dropsWrite .csr 0x10 = false := by
  simp [State.dropsWrite]

/-- A reset move leaves the reset state, but for the model's own fields (R390, R391). -/
theorem step_of_resetMoves {s : State} (h : ResetMoves s) :
    ∃ rest r, step s = .next { s.applyReset with agenda := rest, reply := r } := by
  obtain ⟨rest, h | ⟨a, h, hwe, haddr, hsize, hbit⟩⟩ := h
  · exact ⟨rest, _, step_hardReset h⟩
  · obtain ⟨we, addr, size, x⟩ := a
    simp only at hwe haddr hsize hbit
    subst hwe haddr hsize
    refine ⟨rest, ⟨true, false, none⟩, (step_csrWrite (o := 0x10) ⟨rest, h, rfl⟩ (by decide) (by decide)).trans ?_⟩
    rw [if_neg (by simp [(dropsWrite_status_ctrl _).2]), State.csrWrite, State.ctrlWrite, if_pos hbit]
    rfl

/-- The packed registers after reset (10_state.md R66). -/
theorem reset_words : State.reset.statusWord = 0 ∧ State.reset.ctrlWord = 0x00001400 ∧ State.reset.segcountWord = 0 ∧
    State.reset.streamMetaWord = 0 ∧ State.reset.matMetaWord = 0 ∧ State.reset.outMetaWord = 0 := by decide

end Sys2Proof.Machine
end

section
/-! PROOFS. What a completed command wrote, how the segment list grows, and how a pending command ends. -/
namespace Sys2Proof.Machine
open Sys2Proof.Config (ByteMem MatMem)

/-! ### What a completed command wrote -/

section
variable {s t : State} {i : Instr}

/-- A command changes its items, and of the rest the lifecycle registers alone. -/
theorem exec_frame (h : exec i s = .next t) :
    Frame (written i) s { t with pending := s.pending, status := s.status, errinfo := s.errinfo } ∧
      t.status.werr = s.status.werr := by
  have restore : ∀ {u : State}, Frame (written i) s u →
      { u with pending := s.pending, status := s.status, errinfo := s.errinfo } = u := fun hu => by
    rw [← hu.pending, ← hu.status, ← hu.errinfo]
  rcases exec_cases i s with ⟨u, hu, he⟩ | ⟨e, u, hu, -, he⟩ <;> rw [he] at h <;> cases h <;>
    have frame := hu.frame
  · have werr : u.status.werr = s.status.werr := by rw [frame.status]
    exact ⟨(restore frame).symm ▸ frame, werr⟩
  · have werr : u.status.werr = s.status.werr := by rw [frame.status]
    exact ⟨(restore frame).symm ▸ frame, werr⟩

/-- An item that a command changed is one of those it writes. -/
theorem mem_written_of_changed (h : exec i s = .next t) {x : Item} (hx : ¬ x.Same s t) : x ∈ written i :=
  (exec_frame h).1.mem_of_changed (by cases x <;> exact hx)

end

theorem mem_written_out {i : Instr} : .out ∈ written i ↔ ∃ ver ec, i = .build ver ec := by
  cases i <;> simp [written]

theorem mem_written_segments {i : Instr} : .segments ∈ written i ↔ i = .clear ∨ ∃ mode, i = .append mode := by
  cases i <;> simp [written]

/-! ### The segment list (10_state.md R53, R54) -/

/-- The segment list of `s` stands in `t`: its entries first, its bytes below SEGUSED. -/
def SegmentsStand (s t : State) : Prop :=
  s.segtab <+: t.segtab ∧ s.segused.toNat ≤ t.segused.toNat ∧
    ∀ k < s.segused.toNat, t.readByte .segdata k = s.readByte .segdata k

theorem SegmentsStand.of_same {s t : State} (h : Item.segments.Same s t) (hr : t.resets = s.resets) :
    SegmentsStand s t := by
  obtain ⟨htab, hrest⟩ := Prod.mk.inj h
  obtain ⟨hused, hdata⟩ := Prod.mk.inj hrest
  exact ⟨htab ▸ List.prefix_refl _, hused ▸ le_refl _, fun k _ => by
    simp only [State.readByte, State.bytes, hdata, hr]⟩

/-- APPEND stores above SEGUSED and lists after the entries (43_bitstream.md R212). -/
theorem SegmentsStand.storeChunk {s : State} {c : List Byte} (pieces : List Piece)
    (used : s.segused.toNat + c.length ≤ 8192) : SegmentsStand s (s.storeChunk c pieces) := by
  refine ⟨List.prefix_append .., ?_, fun k hk => ?_⟩
  · simp only [State.storeChunk, BitVec.toNat_ofNat]
    omega
  · have hw := State.readByte_writeBytes s .segdata .segdata s.segused.toNat k c
    rw [dif_neg (by omega)] at hw
    exact hw

/-- Every command but CLEAR leaves the segment list standing. -/
theorem SegmentsStand.of_exec {s t : State} {i : Instr} (h : exec i s = .next t) (hi : i ≠ .clear) :
    SegmentsStand s t := by
  obtain ⟨frame, -⟩ := exec_frame h
  by_cases hw : .segments ∈ written i
  · obtain ⟨mode, rfl⟩ := (mem_written_segments.1 hw).resolve_left hi
    rcases exec_effect (.append mode) s (by simp) with ⟨u, hu, he⟩ | ⟨e, he⟩ <;> rw [he] at h <;> cases h
    · cases hu with
      | appendNothing => exact .of_same rfl rfl
      | append mode chunk split count used =>
        exact SegmentsStand.storeChunk _ used
    · exact .of_same rfl rfl
  · exact .of_same (frame.same hw) frame.resets

/-! ### How a pending command ends (70_reset_and_hazards.md R420) -/

/-- Within `n` steps the command of `s` is still pending and the next step is the core's turn, which completes it, or a
reset. -/
def EndsWithin (n : Nat) (s : State) : Prop :=
  ∃ k ≤ n, ∃ u t, stepMany k s = some u ∧ u.pending = s.pending ∧ step u = .next t ∧ t.pending = none ∧
    ((∃ v, CoreMoves u v) ∧ (t.status.done = true ∨ t.status.err = true) ∨ ResetMoves u)

theorem EndsWithin.of_core {s u : State} (hu : CoreMoves s u) (hp : s.pending ≠ none) (n : Nat) : EndsWithin n s := by
  obtain ⟨w, hw⟩ := Option.ne_none_iff_exists'.1 hp
  obtain ⟨v, -, hend⟩ := coreTurn_completes (hu.pending.trans hw)
  rw [← step_core hu] at hend
  rcases hend with hc | ⟨e, -, hc⟩
  · exact ⟨0, Nat.zero_le _, s, _, rfl, rfl, hc, rfl, .inl ⟨⟨u, hu⟩, .inl rfl⟩⟩
  · exact ⟨0, Nat.zero_le _, s, _, rfl, rfl, hc, rfl, .inl ⟨⟨u, hu⟩, .inr rfl⟩⟩

theorem EndsWithin.of_reset {s : State} (hr : ResetMoves s) (n : Nat) : EndsWithin n s := by
  obtain ⟨rest, r, hstep⟩ := step_of_resetMoves hr
  exact ⟨0, Nat.zero_le _, s, _, rfl, rfl, hstep, rfl, .inr hr⟩

theorem EndsWithin.of_step {n : Nat} {s t : State} (ht : step s = .next t) (hp : t.pending = s.pending)
    (h : EndsWithin n t) : EndsWithin (n + 1) s := by
  obtain ⟨k, hk, u, v, hrun, hpend, hend⟩ := h
  exact ⟨k + 1, Nat.succ_le_succ hk, u, v, by rw [stepMany, ht]; exact hrun, hpend.trans hp, hend⟩

/-- The core's turn and a reset end the wait; a host access takes a move off the agenda. -/
theorem endsWithin_agenda {s : State} (hp : s.pending ≠ none) : EndsWithin s.agenda.length s := by
  generalize hag : s.agenda = agenda
  induction agenda generalizing s with
  | nil => exact .of_core (.inl ⟨hag, rfl⟩) hp _
  | cons move rest ih =>
    cases move with
    | core => exact .of_core (.inr ⟨rest, hag, rfl⟩) hp _
    | hardReset => exact .of_reset ⟨rest, .inl hag⟩ _
    | host a =>
      by_cases ha : SoftReset a
      · exact .of_reset ⟨rest, .inr ⟨a, hag, ha⟩⟩ _
      · have hu : HostMoves s a { s with agenda := rest } := ⟨rest, hag, rfl⟩
        obtain ⟨v, r, d, hv, hacc⟩ := hostAccess_effect a { s with agenda := rest }
        obtain ⟨hpend, -⟩ := hv.not_accepted ha (.inl hp)
        have hrest : v.agenda = rest := by rw [hv.frame ha]
        exact .of_step ((step_host hu).trans (congrArg _ hacc)) hpend
          (ih (s := { v with reply := r, draws := d }) (by rw [show v.pending = s.pending from hpend]; exact hp) hrest)

end Sys2Proof.Machine
end

section
/-! PROOFS. The values that host reads return and the cells that window writes change (20_memory.md R82, R88 to R90). -/
namespace Sys2Proof.Machine
open Sys2Proof.Config (ByteMem MatMem)

/-! ### Values of several bytes (20_memory.md R82) -/

/-- The number whose bytes, lowest first, are `f 0`, …, `f (n - 1)`. -/
def bytesValue (f : Nat → Byte) (n : Nat) : Nat := ((List.range n).map fun k => (f k).toNat * 2 ^ (8 * k)).sum

theorem bytesValue_succ (f : Nat → Byte) (n : Nat) :
    bytesValue f (n + 1) = (f 0).toNat + 256 * bytesValue (fun k => f (k + 1)) n := by
  have shift : ∀ k, (f (k + 1)).toNat * 2 ^ (8 * (k + 1)) = 256 * ((f (k + 1)).toNat * 2 ^ (8 * k)) := fun k => by
    rw [Nat.mul_succ, Nat.pow_add]
    ring
  simp only [bytesValue, List.range_succ_eq_map, List.map_cons, List.map_map, List.sum_cons, Function.comp_def,
    Nat.succ_eq_add_one, shift, List.sum_map_mul_left]
  simp

/-- Consecutive bytes of a number are a part of it. -/
theorem bytesValue_slice {f : Nat → Byte} {n lo x : Nat}
    (h : ∀ k < n, (f k).toNat = x / 2 ^ (8 * (lo + k)) % 256) : bytesValue f n = x / 2 ^ (8 * lo) % 2 ^ (8 * n) := by
  induction n generalizing f lo with
  | zero => simp [bytesValue, Nat.mod_one]
  | succ n ih =>
    have rest : bytesValue (fun k => f (k + 1)) n = x / 2 ^ (8 * (lo + 1)) % 2 ^ (8 * n) :=
      ih fun k hk => by rw [h (k + 1) (by omega), Nat.add_right_comm, Nat.add_assoc]
    have hpow : 2 ^ (8 * (lo + 1)) = 2 ^ (8 * lo) * 256 := by rw [Nat.mul_succ, Nat.pow_add]
    rw [bytesValue_succ, rest, h 0 (by omega), Nat.add_zero, hpow, ← Nat.div_div_eq_div_mul,
      show 2 ^ (8 * (n + 1)) = 256 * 2 ^ (8 * n) by rw [Nat.mul_succ, Nat.pow_add, Nat.mul_comm], Nat.mod_mul]

theorem bytesValue_lt (f : Nat → Byte) (n : Nat) : bytesValue f n < 2 ^ (8 * n) := by
  induction n generalizing f with
  | zero => simp [bytesValue]
  | succ n ih =>
    have hrest := ih fun k => f (k + 1)
    have hfirst := (f 0).isLt
    rw [bytesValue_succ, show 2 ^ (8 * (n + 1)) = 256 * 2 ^ (8 * n) by rw [Nat.mul_succ, Nat.pow_add, Nat.mul_comm]]
    omega

/-- The bytes of a value, 0 above its width. -/
theorem bytesValue_digit (f : Nat → Byte) (n k : Nat) :
    bytesValue f n / 2 ^ (8 * k) % 256 = if k < n then (f k).toNat else 0 := by
  induction n generalizing f k with
  | zero => simp [bytesValue]
  | succ n ih =>
    have hfirst := (f 0).isLt
    rw [bytesValue_succ]
    cases k with
    | zero => simp; omega
    | succ k =>
      have hpow : 2 ^ (8 * (k + 1)) = 256 * 2 ^ (8 * k) := by rw [Nat.mul_succ, Nat.pow_add, Nat.mul_comm]
      rw [hpow, ← Nat.div_div_eq_div_mul, show ((f 0).toNat + 256 * bytesValue (fun k => f (k + 1)) n) / 256 =
        bytesValue (fun k => f (k + 1)) n by omega, ih]
      simp

section
variable {s : State} {region : Region} {off n addr : Nat}

/-- A read outside the CSR region is the value of its bytes (R82). -/
theorem toNat_hostRead (hr : region ≠ .csr) (hn : n ≤ 4) :
    (s.hostRead region off n addr).toNat = bytesValue (fun k => s.hostByte region (off + k) (addr + k)) n := by
  have value : s.hostRead region off n addr =
      BitVec.ofNat 32 (bytesValue (fun k => s.hostByte region (off + k) (addr + k)) n) := by
    cases region with
    | csr => exact absurd rfl hr
    | segtab | bytes b | matrix mm => rfl
  have hlt := bytesValue_lt (fun k => s.hostByte region (off + k) (addr + k)) n
  have hpow : 2 ^ (8 * n) ≤ 2 ^ 32 := Nat.pow_le_pow_right (by decide) (by omega)
  rw [value, BitVec.toNat_ofNat, Nat.mod_eq_of_lt (by omega)]

/-- A byte of a read outside the CSR region. -/
theorem hostRead_byte (hr : region ≠ .csr) (hn : n ≤ 4) (k : Nat) :
    (s.hostRead region off n addr).extractLsb' (8 * k) 8 =
      if k < n then s.hostByte region (off + k) (addr + k) else 0 := by
  refine BitVec.eq_of_toNat_eq ?_
  rw [BitVec.extractLsb'_toNat, Nat.shiftRight_eq_div_pow, toNat_hostRead hr hn]
  exact (bytesValue_digit _ n k).trans (by split <;> rfl)

end

/-! ### Packed registers (10_state.md R38, R44 to R47) -/

theorem toNat_append_eq {m n : Nat} (x : BitVec m) (y : BitVec n) : (x ++ y).toNat = x.toNat * 2 ^ n + y.toNat := by
  rw [BitVec.toNat_append, ← Nat.shiftLeft_add_eq_or_of_lt y.isLt, Nat.shiftLeft_eq]

@[simp] theorem toNat_bit (b : Bool) : (bit b).toNat = b.toNat := by cases b <;> rfl

namespace State

variable (s : State)

theorem toNat_statusWord : s.statusWord.toNat = s.busy.toNat + 2 * s.status.done.toNat + 4 * s.status.err.toNat +
    8 * s.status.fatal.toNat + 16 * s.status.werr.toNat + 256 * s.status.errcode.toNat := by
  simp only [statusWord, toNat_append_eq, toNat_bit, BitVec.toNat_ofNat, Nat.zero_mod]
  omega

theorem toNat_ctrlWord : s.ctrlWord.toNat = s.ctrl.ie.toNat + 256 * s.ctrl.minrun.toNat := by
  simp only [ctrlWord, toNat_append_eq, toNat_bit, BitVec.toNat_ofNat, Nat.zero_mod]
  omega

theorem toNat_segcountWord (h : s.segtab.length ≤ 64) :
    s.segcountWord.toNat = s.segtab.length + 2 ^ 16 * s.segused.toNat := by
  simp only [segcountWord, nseg, toNat_append_eq, BitVec.toNat_ofNat, Nat.zero_mod]
  omega

theorem toNat_streamMetaWord : s.streamMetaWord.toNat = s.streamMeta.sver.toNat + 2 ^ 8 * s.streamMeta.sec.toNat +
    2 ^ 31 * s.streamMeta.svalid.toNat := by
  simp only [streamMetaWord, toNat_append_eq, toNat_bit, BitVec.toNat_ofNat, Nat.zero_mod]
  omega

theorem toNat_matMetaWord : s.matMetaWord.toNat = s.matMeta.mver.toNat + 2 ^ 12 * s.matMeta.mmask.toNat +
    2 ^ 15 * s.matMeta.mmasked.toNat + 2 ^ 16 * s.matMeta.fmtdone.toNat := by
  simp only [matMetaWord, toNat_append_eq, toNat_bit, BitVec.toNat_ofNat, Nat.zero_mod]
  omega

theorem toNat_outMetaWord : s.outMetaWord.toNat = s.outMeta.ver.toNat + 2 ^ 8 * s.outMeta.ec.toNat +
    2 ^ 12 * s.outMeta.mask.toNat + 2 ^ 16 * s.outMeta.side.toNat + 2 ^ 31 * s.outMeta.valid.toNat := by
  simp only [outMetaWord, toNat_append_eq, toNat_bit, BitVec.toNat_ofNat, Nat.zero_mod]
  omega

/-- The offsets above CAP4: the mask penalties, and what is reserved. -/
theorem csrRead_of_ge {o : Nat} (h : 0x60 ≤ o) : s.csrRead o =
    if 0x60 ≤ o ∧ o < 0x80 ∧ o % 4 = 0 then s.maskPen.toList.getD ((o - 0x60) / 4) 0 else 0 := by
  rw [csrRead] <;> omega

/-- MASKPEN0 to MASKPEN7 stand from offset 0x60 on (R50). -/
theorem csrRead_maskPen {m : Nat} (h : m < 8) : s.csrRead (0x60 + 4 * m) = s.maskPen[m] := by
  rw [s.csrRead_of_ge (Nat.le_add_right ..), if_pos (by omega), show (0x60 + 4 * m - 0x60) / 4 = m by omega]
  simp [List.getD_eq_getElem?_getD, h]

/-- Offsets from 0x80 on are reserved and read 0 (R51). -/
theorem csrRead_reserved {o : Nat} (h : 0x80 ≤ o) : s.csrRead o = 0 := by
  rw [s.csrRead_of_ge (by omega), if_neg (by omega)]

end State

theorem toNat_moduleByte (m : Module) : (moduleByte m).toNat = m.v.toNat + 2 * m.f.toNat + 4 * m.p.toNat := by
  simp only [moduleByte, toNat_append_eq, toNat_bit, BitVec.toNat_ofNat, Nat.zero_mod]
  omega

theorem toNat_entryBits (e : Segment) : e.entryBits.toNat =
    e.mode.code.toNat + 2 ^ 16 * e.nchars.toNat + 2 ^ 32 * e.off.toNat + 2 ^ 48 * e.nbytes.toNat := by
  have hmode := e.mode.code.isLt
  simp only [Segment.entryBits, toNat_append_eq, BitVec.toNat_ofNat, Nat.zero_mod]
  omega

/-! ### Windows (20_memory.md R89, R90) -/

/-- Every byte of an aligned access lies in the access's 8-byte entry. -/
theorem entry_of_aligned {off z k : Nat} (hz : z ≤ 2) (halign : off % 2 ^ z = 0) (hk : k < 2 ^ z) :
    (off + k) / 8 = off / 8 ∧ (off + k) % 8 = off % 8 + k := by
  have fits : off % 8 + 2 ^ z ≤ 8 := by interval_cases z <;> omega
  omega

/-- The rows of a matrix window keep the alignment of a column. -/
theorem window_aligned {c z : Nat} (hz : z ≤ 2) (halign : c % 2 ^ z = 0) (r : Nat) : (r * 256 + c) % 2 ^ z = 0 := by
  have divides : 2 ^ z ∣ 256 := Nat.pow_dvd_pow 2 (show z ≤ 8 by omega)
  exact Nat.mod_eq_zero_of_dvd (Nat.dvd_add (Dvd.dvd.mul_left divides r) (Nat.dvd_of_mod_eq_zero halign))

/-- SEGTAB and CMAT ignore writes (R89, R90). -/
theorem performWrite_ignored (s : State) (off n : Nat) (x : Word) :
    s.performWrite .segtab off n x = s ∧ s.performWrite (.matrix .cmat) off n x = s :=
  ⟨List.foldl_fixed' (fun _ => rfl) _, List.foldl_fixed' (fun _ => rfl) _⟩

/-- CMAT is in no command's write set (R95). -/
theorem not_busyWrites_cmat (s : State) (k : Nat) : ¬ BusyWrites s (.matrix .cmat) k := by
  rintro ⟨w, i, -, -, h⟩
  cases i <;> simp at h

/-- CLEAR and APPEND have the whole SEGTAB view in their write set, the other commands nothing of it (R95). -/
theorem busyWrites_segtab {s : State} {k j : Nat} (h : BusyWrites s .segtab k) : BusyWrites s .segtab j := by
  obtain ⟨w, i, hp, hd, h⟩ := h
  exact ⟨w, i, hp, hd, by cases i <;> simp at h ⊢⟩

theorem window_split {r c : Nat} (hc : c < 256) : windowRow (r * 256 + c) = r ∧ windowCol (r * 256 + c) = c := by
  simp only [windowRow, windowCol, Config.matStride]
  omega

/-- A matrix byte is V + 2F + 4P of its cell, 0 outside the matrix (R58, R90). -/
theorem toNat_viewByte_matrix (s : State) (mm : MatMem) {r c : Nat} (hc : c < 256) :
    (s.viewByte (.matrix mm) (r * 256 + c)).toNat =
      if r < 177 ∧ c < 177 then
        (s.readCell mm r c).v.toNat + 2 * (s.readCell mm r c).f.toNat + 4 * (s.readCell mm r c).p.toNat
      else 0 := by
  obtain ⟨hrow, hcol⟩ := window_split (r := r) hc
  rw [State.viewByte, hrow, hcol, toNat_moduleByte]
  split
  · rfl
  · rename_i h
    rw [State.readCell, if_neg fun he => h ((State.cellExists_iff r c).1 he)]
    rfl

/-- The byte a SEGTAB offset shows is part of its entry's two words (R89). -/
theorem toNat_segtabByte (s : State) (k : Nat) : (s.segtabByte k).toNat =
    ((s.segtab[k / 8]?.map fun e => e.entryBits.toNat).getD 0) / 2 ^ (8 * (k % 8)) % 256 := by
  unfold State.segtabByte
  cases s.segtab[k / 8]? with
  | none => simp
  | some e => simp [BitVec.extractLsb'_toNat, Nat.shiftRight_eq_div_pow]

/-- An aligned read of the SEGTAB view returns a part of the entry's two words, of 0 above the entries (R89). -/
theorem toNat_hostRead_segtab {s : State} {off z addr : Nat} (hz : z ≤ 2) (halign : off % 2 ^ z = 0)
    (hw : ¬ BusyWrites s .segtab off) : (s.hostRead .segtab off (2 ^ z) addr).toNat =
      ((s.segtab[off / 8]?.map fun e => e.entryBits.toNat).getD 0) / 2 ^ (8 * (off % 8)) % 2 ^ (8 * 2 ^ z) := by
  rw [toNat_hostRead (by simp) (Nat.pow_le_pow_right (by decide) hz)]
  refine bytesValue_slice fun k hk => ?_
  obtain ⟨hentry, hbyte⟩ := entry_of_aligned hz halign hk
  rw [hostByte_stable fun h => hw (busyWrites_segtab h), State.viewByte, toNat_segtabByte, hentry, hbyte]

/-- A cell written from a byte of the write data (R58). -/
theorem moduleOfByte_lane (x : Word) (k : Nat) : moduleOfByte (x.extractLsb' (8 * k) 8) =
    ⟨x.getLsbD (8 * k), x.getLsbD (8 * k + 1), x.getLsbD (8 * k + 2)⟩ := by
  simp [moduleOfByte]

/-- A WMAT window write changes WMAT alone. -/
theorem lanes_wmat_frame (s : State) (off : Nat) (lanes : List (Nat × Byte)) :
    ∃ m, lanes.foldl (fun t lane => t.writeViewByte (.matrix .wmat) (off + lane.1) lane.2) s =
      { s with wmat := m } := by
  induction lanes generalizing s with
  | nil => exact ⟨s.wmat, rfl⟩
  | cons lane lanes ih =>
    have one : ∃ m, s.writeViewByte (.matrix .wmat) (off + lane.1) lane.2 = { s with wmat := m } := by
      simp only [State.writeViewByte, State.writeCell]
      split
      · exact ⟨_, rfl⟩
      · exact ⟨s.wmat, rfl⟩
    obtain ⟨m, hm⟩ := one
    obtain ⟨m', hm'⟩ := ih { s with wmat := m }
    exact ⟨m', by rw [List.foldl_cons, hm, hm']⟩

theorem writeLanes_succ (n : Nat) (x : Word) :
    writeLanes (n + 1) x = writeLanes n x ++ [(n, x.extractLsb' (8 * n) 8)] := by
  simp [writeLanes, List.range_succ]

/-- The cells of a WMAT window write in one row (R90). -/
theorem readCell_lanes (s : State) (x : Word) (r c n i j : Nat) (hn : c + n ≤ 256) :
    ((writeLanes n x).foldl (fun t lane => t.writeViewByte (.matrix .wmat) (r * 256 + c + lane.1) lane.2) s).readCell
        .wmat i j =
      if i = r ∧ c ≤ j ∧ j < c + n ∧ r < 177 ∧ j < 177 then moduleOfByte (x.extractLsb' (8 * (j - c)) 8)
      else s.readCell .wmat i j := by
  induction n with
  | zero => rw [if_neg (by omega)]; rfl
  | succ n ih =>
    obtain ⟨hrow, hcol⟩ := window_split (r := r) (c := c + n) (by omega)
    rw [writeLanes_succ, List.foldl_append, List.foldl_cons, List.foldl_nil, Nat.add_assoc, State.writeViewByte, hrow,
      hcol, State.readCell_writeCell, ih (by omega)]
    simp only [State.cellExists_iff, true_and]
    by_cases hij : i = r ∧ j = c + n
    · obtain ⟨rfl, rfl⟩ := hij
      by_cases hin : i < 177 ∧ c + n < 177
      · rw [if_pos ⟨rfl, rfl, hin⟩, if_pos ⟨rfl, by omega, by omega, hin⟩, Nat.add_sub_cancel_left]
      · rw [if_neg (by omega), if_neg (by omega), if_neg (by omega)]
    · rw [if_neg (by omega)]
      exact if_congr (by omega) rfl rfl

end Sys2Proof.Machine
end

section
/-! PROOFS. The statements of 10_state.md. -/
open Sys2Proof Sys2Proof.Machine
open Sys2Proof.Config (ByteMem MatMem)

/-- Settles O53: only BUILD has OUTMETA and CMAT among its items, and only when it completes; CMAT is in
no write set. -/
theorem committedMatrixFrozen : Obligations.CommittedMatrixFrozen := by
  refine ⟨fun s t _ ht => ?_, fun s u r c x hr hc h => ?_⟩
  · by_cases hreset : ResetMoves s
    · exact .inr (.inl hreset)
    have kept : ∀ {u v : State}, u = { s with agenda := u.agenda } → Item.out.Same u v → v.resets = u.resets →
        v.outMeta = s.outMeta ∧ SameCells .cmat s v := fun hu hout hres => by
      rw [hu] at hout hres
      obtain ⟨hmeta, hcells⟩ := Prod.mk.inj hout
      exact ⟨hmeta, sameCells_cmat hcells hres⟩
    rcases step_cases_of_not_reset ht hreset with ⟨u, hu, hp, rfl⟩ | ⟨u, w, v, hu, hp, frame, hend⟩ |
      ⟨a, u, v, r, d, hu, ha, hv, rfl⟩
    · exact .inl (kept hu.eq rfl rfl)
    · rcases hend with rfl | ⟨e, hout, rfl⟩
      · by_cases hw : .out ∈ wordItems w
        · obtain ⟨i, hd, hi⟩ := decode_of_mem_wordItems hw
          obtain ⟨ver, ec, rfl⟩ := mem_written_out.1 hi
          exact .inr (.inr ⟨⟨ver, ec, ⟨u, hu⟩, w, hp, hd⟩, rfl⟩)
        · exact .inl (kept hu.eq (frame.same hw) frame.resets)
      · exact .inl (kept hu.eq hout frame.resets)
    · rw [hv.frame ha]
      exact .inl (kept hu.eq rfl rfl)
  · have hoff : r * 256 + c < (Region.matrix .cmat).size := by simp only [Region.size]; omega
    have hstep := step_hostRead (region := .matrix .cmat) (z := 0) h (Nat.add_assoc ..) (by decide)
      (Nat.mod_one _) hoff (by simp)
    refine ⟨_, _, hstep, rfl, ?_⟩
    rw [toNat_hostRead (by simp) (by decide), Nat.pow_zero, bytesValue_succ, Nat.add_zero,
      hostByte_stable (not_busyWrites_cmat u _), toNat_viewByte_matrix u .cmat (by omega), if_pos ⟨hr, hc⟩]
    rfl

/-- Settles O60: the core's turn, a host access and a reset each keep the invariant (`Inv.step`). -/
theorem stepKeepsInv : Obligations.StepKeepsInv := fun _ _ h ht => h.step ht

/-- Settles O6: a CMD write is the accept or is dropped, and `coreTurn_completes` says how a pending command ends. -/
theorem commandLifecycle : Obligations.CommandLifecycle := by
  intro s u
  refine ⟨fun w h => ?_, fun hinv hu hp => ?_⟩
  · have hstep := step_csrWrite (o := 0x04) h (by decide) (by decide)
    refine ⟨fun hidle => ⟨none, ?_⟩, fun hbusy => ⟨none, ?_⟩⟩
    · rw [hstep, dropsWrite_cmd.2 hidle]
      rfl
    · have drops : u.dropsWrite .csr 0x04 = true := by
        rw [← Bool.not_eq_false, dropsWrite_cmd]
        rintro ⟨hp, hf⟩
        exact hbusy.elim (fun h => h hp) (fun h => absurd (hf.symm.trans h) Bool.false_ne_true)
      rw [hstep, drops]
      rfl
  · obtain ⟨w, hw⟩ := Option.ne_none_iff_exists'.1 hp
    obtain ⟨hdone, herr, -⟩ := hinv.lifecycle.flags_of_busy hp
    obtain ⟨v, frame, hend⟩ := coreTurn_completes (hu.pending.trans hw)
    have status : v.status = s.status := frame.status.trans (by rw [hu.eq])
    rw [step_core hu]
    rcases hend with hc | ⟨e, -, hc⟩ <;> refine ⟨_, hc, rfl, ?_⟩
    · rw [State.complete_status, status]
      simp [herr]
    · rw [State.raiseError_status, status]
      simp [hdone]

/-- Settles O44: both resets leave `State.reset` but for the model's own fields. -/
theorem resetState : Obligations.ResetState := by
  intro s h
  obtain ⟨rest, r, hstep⟩ := step_of_resetMoves h
  obtain ⟨hstatus, hctrl, hseg, hstream, hmat, hout⟩ := reset_words
  refine ⟨_, hstep, rfl, hstatus, rfl, hctrl, rfl, rfl, rfl, rfl, rfl, hseg, hstream, hmat, hout, rfl, rfl,
     fun m hm => ?_, rfl, rfl, rfl, fun k => rfl, rfl, fun b k => ?_, fun mm r c hr hc => ?_⟩
  · interval_cases m <;> rfl
  · cases b <;> rfl
  · have hexists := (State.cellExists_iff r c).2 ⟨hr, hc⟩
    cases mm <;> simp only [State.readCell, hexists, if_true] <;> rfl

/-- Settles O45: a CSR read returns `csrRead`, whose packed registers are read field by field. -/
theorem csrReadsReturnRegisters : Obligations.CsrReadsReturnRegisters := by
  intro s u o x ho halign h
  refine ⟨_, _, step_csrRead h ho halign, rfl, rfl, ?_⟩
  refine ⟨?_, ?_, ?_, ?_, ?_, ?_, ?_, ?_, ?_, ?_, ?_, ?_, ?_, ?_, ?_, ?_, ?_, ?_, ?_, ?_, ?_, ?_, ?_, ?_,
    fun m hm => ?_, u.csrRead_reserved⟩ <;> rintro rfl
  case refine_3 => exact u.toNat_statusWord
  case refine_5 => exact u.toNat_ctrlWord
  case refine_11 => exact u.toNat_segcountWord
  case refine_12 => exact u.toNat_streamMetaWord
  case refine_13 => exact u.toNat_matMetaWord
  case refine_14 => exact u.toNat_outMetaWord
  case refine_25 => exact u.csrRead_maskPen hm
  all_goals rfl

/-- Settles O46: each offset is written by its own rule, and no STATUS or CTRL write is dropped. -/
theorem csrWrites : Obligations.CsrWrites := by
  intro s u o x ho halign h
  obtain ⟨hstatus, hctrl⟩ := dropsWrite_status_ctrl u
  have drops : u.pending = none → o ≠ 0x04 → u.dropsWrite .csr o = false := fun hp ho4 => by
    simp [State.dropsWrite, State.busy, hp, ho4]
  refine ⟨_, _, step_csrWrite h ho halign, ?_, ?_, ?_, ?_, ?_⟩
  · rintro rfl
    rw [hstatus, if_neg Bool.false_ne_true]
    exact statusWrite_eq x u
  · rintro rfl hbit
    rw [hctrl, if_neg Bool.false_ne_true, State.csrWrite, State.ctrlWrite, hbit, if_neg Bool.false_ne_true]
    cases hp : u.pending <;> simp [State.busy, hp]
  · rintro hp rfl
    rw [drops hp (by decide)]
    rfl
  · rintro hp rfl
    rw [drops hp (by decide)]
    rfl
  · intro hp hmem
    simp only [List.mem_cons, List.not_mem_nil, or_false, not_or] at hmem
    obtain ⟨h4, h8, h10, h14, h18⟩ := hmem
    rw [drops hp h4, if_neg Bool.false_ne_true]
    rw [State.csrWrite] <;> assumption

/-- Settles O50: a write changes its row's cells one by one (`readCell_lanes`), a read is taken apart by bytes. -/
theorem matrixWindowAccess : Obligations.MatrixWindowAccess := by
  intro s u mm base z r c x hbase hz halign hr hc
  have hregion : base = (Region.matrix mm).base := by
    simp only [List.mem_cons, List.not_mem_nil, or_false, Prod.mk.injEq] at hbase
    rcases hbase with ⟨rfl, rfl⟩ | ⟨rfl, rfl⟩ <;> rfl
  have haddr : base + r * 256 + c = (Region.matrix mm).base + (r * 256 + c) := by rw [hregion, Nat.add_assoc]
  have hpos : 0 < 2 ^ z := Nat.two_pow_pos z
  have hwidth : 2 ^ z ≤ 4 := Nat.pow_le_pow_right (by decide) hz
  have halign' := window_aligned hz halign r
  have hoff : r * 256 + c < (Region.matrix mm).size := by simp only [Region.size]; omega
  refine ⟨fun hp h => ?_, fun h => ?_⟩
  · have hstep := step_hostWrite h haddr hz halign' hoff (by simp)
    rw [(dropsWrite_eq_false_of_ne_csr (by simp)).2 hp, if_neg Bool.false_ne_true] at hstep
    cases mm with
    | cmat =>
      rw [(performWrite_ignored ..).2] at hstep
      refine ⟨_, none, hstep, rfl, fun b k => by cases b <;> rfl, fun i j => rfl, fun i j => ?_⟩
      rw [if_neg (by simp)]
      rfl
    | wmat =>
      have cells := readCell_lanes u x r c (2 ^ z)
      obtain ⟨m, hm⟩ := lanes_wmat_frame u (r * 256 + c) (writeLanes (2 ^ z) x)
      have performed : u.performWrite (.matrix .wmat) (r * 256 + c) (2 ^ z) x = { u with wmat := m } := hm
      rw [hm] at cells
      rw [performed] at hstep
      refine ⟨_, none, hstep, rfl, fun b k => by cases b <;> rfl, fun i j => rfl, fun i j => ?_⟩
      rw [← moduleOfByte_lane]
      exact (cells i j hc).trans (if_congr (by simp) rfl rfl)
  · refine ⟨_, _, step_hostRead h haddr hz halign' hoff (by simp), rfl, rfl, fun k hk hw => ?_, fun k _ hk => ?_⟩
    · rw [hostRead_byte (by simp) hwidth, if_pos hk, hostByte_stable hw, Nat.add_assoc,
        toNat_viewByte_matrix u mm (by omega)]
    · rw [hostRead_byte (by simp) hwidth, if_neg (by omega)]

/-- Settles O51: a read is a part of one entry's two words (`toNat_hostRead_segtab`). -/
theorem segmentTableView : Obligations.SegmentTableView := by
  intro s u z off x hz halign hsize
  have hpos : 0 < 2 ^ z := Nat.two_pow_pos z
  have hwidth : 2 ^ z ≤ 4 := Nat.pow_le_pow_right (by decide) hz
  have hoff : off < Region.segtab.size := by simp only [Region.size]; omega
  refine ⟨fun hp h => ⟨none, ?_⟩, fun h => ?_⟩
  · rw [step_hostWrite (region := .segtab) h rfl hz halign hoff (by simp),
      (dropsWrite_eq_false_of_ne_csr (by simp)).2 hp, if_neg Bool.false_ne_true, (performWrite_ignored ..).1]
  · refine ⟨_, _, step_hostRead (region := .segtab) h rfl hz halign hoff (by simp), rfl, rfl, fun hw => ?_⟩
    have value := toNat_hostRead_segtab (addr := (BitVec.ofNat 18 (0x1000 + off)).toNat) hz halign hw
    refine ⟨fun habove => BitVec.eq_of_toNat_eq ?_, fun hentry => ?_⟩
    · rw [value, List.getElem?_eq_none habove]
      simp
    · rw [value, List.getElem?_eq_getElem hentry, Option.map_some, Option.getD_some, toNat_entryBits]

/-- Settles O54: by the move the step makes. -/
theorem fatalUntilReset : Obligations.FatalUntilReset := by
  intro s t hinv ht
  by_cases hr : ResetMoves s
  · obtain ⟨rest, r, hstep⟩ := step_of_resetMoves hr
    rw [hstep] at ht
    cases ht
    exact ⟨fun _ h1 => absurd h1 Bool.false_ne_true, fun _ hn => absurd hr hn⟩
  have idle : s.status.fatal = true → s.pending = none := fun hf => by
    by_contra hp
    obtain ⟨-, -, h0⟩ := hinv.lifecycle.flags_of_busy hp
    exact absurd (h0.symm.trans hf) Bool.false_ne_true
  rcases step_cases_of_not_reset ht hr with ⟨u, hu, hp, rfl⟩ | ⟨u, w, v, hu, hp, frame, hend⟩ |
    ⟨a, u, v, r, d, hu, ha, hv, rfl⟩
  · rw [hu.eq]
    exact ⟨fun h0 h1 => absurd (h0.symm.trans h1) Bool.false_ne_true, fun h1 _ => ⟨h1, hp, rfl⟩⟩
  · refine ⟨fun h0 h1 => ⟨⟨u, hu⟩, by simp [hp], ?_⟩, fun h1 => absurd (idle h1) (by simp [hp])⟩
    have live : v.status.fatal = false := by rw [frame.status, hu.eq]; exact h0
    rcases hend with rfl | ⟨e, -, rfl⟩
    · exact absurd (live.symm.trans h1) Bool.false_ne_true
    · have internal : e.code = .internal := by simpa [live] using h1
      exact ⟨rfl, by rw [State.raiseError_status, internal]; rfl⟩
  · have fatal : v.status.fatal = s.status.fatal := (hv.fatal ha).trans (by rw [hu.eq])
    refine ⟨fun h0 h1 => absurd ((fatal.trans h0).symm.trans h1) Bool.false_ne_true, fun h1 _ => ?_⟩
    obtain ⟨hpend, hlast⟩ := hv.not_accepted ha (.inr (by rw [hu.eq]; exact h1))
    exact ⟨fatal.trans h1, hpend.trans (by rw [hu.eq]; exact idle h1), hlast.trans (by rw [hu.eq])⟩

/-- Settles O55: only APPEND writes the segment list without CLEAR or a reset, and it adds to it. -/
theorem segmentsAreImmutable : Obligations.SegmentsAreImmutable := by
  intro s t hinv ht hr hclear
  have stand : ∀ {u v : State}, u = { s with agenda := u.agenda } → SegmentsStand u v → SegmentsStand s v :=
    fun hu h => by rw [hu] at h; exact h
  rcases step_cases s with ⟨u, hu, he⟩ | ⟨a, u, hu, he⟩ | ⟨rest, hs, -⟩
  · rcases coreTurn_cases u with ⟨-, hc⟩ | ⟨w, e, -, -, hc⟩ | ⟨w, i, hp, hd, hc⟩ <;> rw [he, hc] at ht
    · cases ht
      exact stand hu.eq (.of_same rfl rfl)
    · cases ht
      exact stand hu.eq (.of_same rfl rfl)
    · exact stand hu.eq (.of_exec ht fun hi => hclear ⟨⟨u, hu⟩, w, hu.pending.symm.trans hp, hi ▸ hd⟩)
  · obtain ⟨v, r, d, hv, hacc⟩ := hostAccess_effect a u
    rw [he, hacc] at ht
    cases ht
    rw [hv.frame fun ha => hr (hu.resetMoves ha)]
    exact stand hu.eq (.of_same rfl rfl)
  · exact absurd ⟨rest, .inl hs⟩ hr

/-- Settles O56: a command changes only the items that `written` lists for it. -/
theorem onlyNamedCommandsWrite : Obligations.OnlyNamedCommandsWrite := by
  intro i s t h
  obtain ⟨frame, werr⟩ := exec_frame h
  refine ⟨frame.arg0, frame.arg1, frame.ctrl, frame.lastcmd, frame.ibuf, werr, frame.reply, frame.agenda,
    frame.resets, fun hx => ?_, fun hx => ?_, fun hx => ?_, fun hx => ?_, fun hx => ?_, fun hx => ?_, fun hx => ?_,
    fun hx => mem_written_out.1 (mem_written_of_changed (x := .out) h hx), fun hx => ?_, fun hx => ?_⟩
  · have hw := mem_written_of_changed (x := .result) h hx
    cases i <;> simp [written] at hw ⊢
  · have hw := mem_written_of_changed (x := .stream) h hx
    cases i <;> simp [written] at hw ⊢
  · have hw := mem_written_of_changed (x := .segments) h hx
    cases i <;> simp [written] at hw ⊢
  · have hw := mem_written_of_changed (x := .matrix) h hx
    cases i <;> simp [written] at hw ⊢
  · have hw := mem_written_of_changed (x := .pen) h hx
    cases i <;> simp [written] at hw ⊢
  · have hw := mem_written_of_changed (x := .cap) h hx
    cases i <;> simp [written] at hw ⊢
  · have hw := mem_written_of_changed (x := .maskPen) h hx
    cases i <;> simp [written] at hw ⊢
  · have hw := mem_written_of_changed (x := .cwbuf) h hx
    cases i <;> simp [written] at hw ⊢
  · have hw := mem_written_of_changed (x := .final) h hx
    cases i <;> simp [written] at hw ⊢

/-- Settles O58, by induction on the agenda (`endsWithin_agenda`). -/
theorem everyCommandCompletes : Obligations.EveryCommandCompletes := fun _ hp => endsWithin_agenda hp

/-- Settles O5: the core's turn by the pending word. -/
theorem stepRunsDecodedInstruction : Obligations.StepRunsDecodedInstruction := by
  intro s u hu
  refine ⟨fun hp => ?_, fun w hp => ⟨fun i hd => step_of_decode_ok hu hp hd, fun hd => step_of_decode_error hu hp hd,
    fun hd => step_of_decode_error hu hp hd⟩⟩
  rw [step_core hu, coreTurn_idle (hu.pending.trans hp)]

/-- Settles O59: nothing is stored and every register is 0 but MINRUN. -/
theorem invHoldsAtReset : Obligations.InvHoldsAtReset := inv_reset

end

section
/-! PROOFS. The bus checks as the statements name them, what a read leaves, and the bytes a window write changes
(20_memory.md R81 to R86, R91, R92). -/
namespace Sys2Proof.Machine
open Sys2Proof.Config (ByteMem MatMem)

/-! ### Legal accesses (20_memory.md R81 to R86) -/

theorem mapped_iff_isSome_locate {addr : Nat} : Mapped addr ↔ (locate addr).isSome := by
  rw [locate, Option.isSome_map, List.find?_isSome]
  simp only [Mapped, addressMap, List.mem_cons, List.not_mem_nil, or_false, exists_eq_or_imp, exists_eq_left,
    Bool.and_eq_true, decide_eq_true_eq]
  omega

/-- The addresses of the map are those of its regions (R87). -/
theorem mapped_iff {addr : Nat} : Mapped addr ↔ ∃ region off, addr = Region.base region + off ∧ off < region.size := by
  simp only [mapped_iff_isSome_locate, Option.isSome_iff_exists, Prod.exists, locate_eq_some_iff]

/-- The addresses below 0x100 are those of the CSR region (R87). -/
theorem region_csr_iff {region : Region} {off : Nat} (hoff : off < region.size) :
    region = .csr ↔ region.base + off ≤ 0x000FF := by
  constructor
  · rintro rfl
    simp only [Region.base, Region.size] at hoff ⊢
    omega
  · intro h
    exact (region_unique (region' := .csr) (off' := region.base + off) (Nat.zero_add _).symm hoff
      (Nat.lt_succ_of_le h)).1

/-- The bus checks pass exactly the legal accesses (R81, R83, R84, R86). -/
theorem legalAccess_iff {a : Access} : LegalAccess a ↔ ∃ region off n, busCheck a = some (region, off, n) := by
  have word : ∀ z : BitVec 2, z = 2 ↔ 2 ^ z.toNat = 4 := by decide
  simp only [LegalAccess, busCheck_eq_some_iff, mapped_iff]
  constructor
  · rintro ⟨⟨region, off, haddr, hoff⟩, hsize, hcsr, halign⟩
    exact ⟨region, off, _, haddr, hoff, hsize, rfl,
      fun hr => (word _).1 (hcsr (haddr.le.trans ((region_csr_iff hoff).1 hr))), halign⟩
  · rintro ⟨region, off, n, haddr, hoff, hsize, rfl, hcsr, halign⟩
    exact ⟨⟨region, off, haddr, hoff⟩, hsize,
      fun hlow => (word _).2 (hcsr ((region_csr_iff hoff).2 (haddr.ge.trans hlow))), halign⟩

/-- An illegal access changes nothing but the reply, which is an error (R85). -/
theorem hostAccess_illegal {a : Access} (h : ¬ LegalAccess a) (s : State) :
    State.hostAccess a s = { s with reply := ⟨true, true, if a.we then none else some 0⟩ } := by
  have hnone : busCheck a = none :=
    Option.eq_none_iff_forall_ne_some.2 fun ⟨region, off, n⟩ hc => h (legalAccess_iff.2 ⟨region, off, n, hc⟩)
  rw [State.hostAccess, hnone]

/-- A legal access is answered without an error (R85). -/
theorem hostAccess_legal_reply {a : Access} (h : LegalAccess a) (s : State) :
    ∃ d, (State.hostAccess a s).reply = ⟨true, false, d⟩ := by
  obtain ⟨region, off, n, hc⟩ := legalAccess_iff.1 h
  rw [State.hostAccess, hc]
  cases a.we with
  | true => exact ⟨none, rfl⟩
  | false => exact ⟨_, rfl⟩

/-! ### Reads (20_memory.md R92) -/

/-- A read changes the reply and the draw counter alone (R92). -/
theorem hostAccess_read {a : Access} (ha : a.we = false) (s : State) :
    ∃ r d, State.hostAccess a s = { s with reply := r, draws := d } := by
  unfold State.hostAccess
  split
  · exact ⟨_, s.draws, rfl⟩
  · rw [ha]
    exact ⟨_, _, rfl⟩

/-- An idle core's read returns the stable byte (R92, R95). -/
theorem hostByte_idle {s : State} (h : s.pending = none) (region : Region) (k addr : Nat) :
    s.hostByte region k addr = s.viewByte region k :=
  hostByte_stable (not_busyWrites_of_idle h region k) addr

/-- What an idle core's read returns does not turn on the port, the draw counter and the moves to come (R92, R95). -/
theorem hostRead_idle {s : State} (h : s.pending = none) (moves : List Move) (r : BusReply) (d : Nat) (region : Region)
    (off n addr : Nat) :
    State.hostRead { s with agenda := moves, reply := r, draws := d } region off n addr =
      s.hostRead region off n addr := by
  have view : ∀ k, State.viewByte { s with agenda := moves, reply := r, draws := d } region k = s.viewByte region k :=
    fun k => by cases region <;> rfl
  cases region with
  | csr => rfl
  | segtab | bytes b | matrix mm =>
    simp only [State.hostRead, hostByte_idle h,
      hostByte_idle (s := { s with agenda := moves, reply := r, draws := d }) h, view]

/-- An idle core answers a read alike whatever the port, the draw counter and the moves to come are (R92). -/
theorem hostAccess_read_idle {s : State} {a : Access} (h : s.pending = none) (ha : a.we = false) (moves : List Move)
    (r : BusReply) (d : Nat) :
    (State.hostAccess a { s with agenda := moves, reply := r, draws := d }).reply = (State.hostAccess a s).reply := by
  unfold State.hostAccess
  cases busCheck a with
  | none => rfl
  | some c => simp only [ha, Bool.false_eq_true, if_false, hostRead_idle h]

/-! ### Writes to a byte memory (20_memory.md R82, R91) -/

/-- The first address of a byte memory, as the statements list them (R87). -/
theorem base_of_byteMem {base : Nat} {b : ByteMem}
    (h : (base, b) ∈ [(0x2000, ByteMem.segdata), (0x4000, .ibuf), (0x6000, .cwbuf), (0x7000, .final)]) :
    base = (Region.bytes b).base := by
  simp only [List.mem_cons, List.not_mem_nil, or_false, Prod.mk.injEq] at h
  rcases h with ⟨rfl, rfl⟩ | ⟨rfl, rfl⟩ | ⟨rfl, rfl⟩ | ⟨rfl, rfl⟩ <;> rfl

/-- SEGDATA ignores a byte, the other byte memories store it (R91). -/
theorem writeViewByte_bytes (s : State) (b : ByteMem) (k : Nat) (x : Byte) :
    s.writeViewByte (.bytes b) k x = if b = .segdata then s else s.writeByte b k x := by
  cases b <;> rfl

theorem setBytes_self (s : State) (b : ByteMem) : s.setBytes b (s.bytes b) = s := by cases b <;> rfl

theorem setBytes_setBytes (s : State) (b : ByteMem) (m m' : Memory Byte) :
    (s.setBytes b m).setBytes b m' = s.setBytes b m' := by cases b <;> rfl

theorem readByte_setBytes_of_ne (s : State) {b d : ByteMem} (h : d ≠ b) (m : Memory Byte) (k : Nat) :
    (s.setBytes b m).readByte d k = s.readByte d k := by
  rw [State.readByte, State.setBytes_bytes, State.setBytes_resets, if_neg h, State.readByte]

theorem readCell_setBytes (s : State) (b : ByteMem) (m : Memory Byte) (mm : MatMem) (r c : Nat) :
    (s.setBytes b m).readCell mm r c = s.readCell mm r c := by cases b <;> rfl

/-- A write to the window of a byte memory changes that memory alone. -/
theorem lanes_bytes_frame (s : State) (b : ByteMem) (off : Nat) (lanes : List (Nat × Byte)) :
    ∃ m, lanes.foldl (fun t lane => t.writeViewByte (.bytes b) (off + lane.1) lane.2) s = s.setBytes b m := by
  induction lanes generalizing s with
  | nil => exact ⟨s.bytes b, (setBytes_self s b).symm⟩
  | cons lane lanes ih =>
    have one : ∃ m, s.writeViewByte (.bytes b) (off + lane.1) lane.2 = s.setBytes b m := by
      rw [writeViewByte_bytes]
      split
      · exact ⟨s.bytes b, (setBytes_self s b).symm⟩
      · exact ⟨_, rfl⟩
    obtain ⟨m, hm⟩ := one
    obtain ⟨m', hm'⟩ := ih (s.setBytes b m)
    exact ⟨m', by rw [List.foldl_cons, hm, hm', setBytes_setBytes]⟩

/-- The bytes of a window write, the lowest at the lowest offset (R82, R91). -/
theorem readByte_lanes (s : State) (b : ByteMem) (x : Word) (off n k : Nat) :
    ((writeLanes n x).foldl (fun t lane => t.writeViewByte (.bytes b) (off + lane.1) lane.2) s).readByte b k =
      if b ≠ .segdata ∧ off ≤ k ∧ k < off + n then x.extractLsb' (8 * (k - off)) 8 else s.readByte b k := by
  induction n with
  | zero => rw [if_neg (by omega)]; rfl
  | succ n ih =>
    rw [writeLanes_succ, List.foldl_append, List.foldl_cons, List.foldl_nil, writeViewByte_bytes]
    by_cases hb : b = .segdata
    · rw [if_pos hb, ih, if_neg (fun h => h.1 hb), if_neg (fun h => h.1 hb)]
    · rw [if_neg hb, State.readByte_writeByte, ih]
      by_cases hk : k = off + n
      · rw [if_pos ⟨rfl, hk⟩, if_pos ⟨hb, by omega, by omega⟩, hk, Nat.add_sub_cancel_left]
      · rw [if_neg (fun h => hk h.2)]
        exact if_congr (and_congr_right fun _ => by omega) rfl rfl

end Sys2Proof.Machine
end

section
/-! PROOFS. The statements of 20_memory.md. -/
open Sys2Proof Sys2Proof.Machine
open Sys2Proof.Config (ByteMem MatMem)

/-- Settles O47: the legal accesses are those that pass the bus checks (`legalAccess_iff`). -/
theorem busErrorChangesNothing : Obligations.BusErrorChangesNothing := by
  intro s u a h
  rw [step_host h]
  refine ⟨fun hillegal => ⟨_, by rw [hostAccess_illegal hillegal], fun hread => by simp [hread]⟩, fun hlegal => ?_⟩
  obtain ⟨d, hreply⟩ := hostAccess_legal_reply hlegal u
  exact ⟨_, d, rfl, hreply⟩

/-- Settles O49: a write stores its bytes one by one (`readByte_lanes`), a read is taken apart by bytes. -/
theorem byteMemoryAccess : Obligations.ByteMemoryAccess := by
  intro s u b base z off x hbase hz halign hsize
  have haddr : base + off = (Region.bytes b).base + off := by rw [base_of_byteMem hbase]
  have hwidth : 2 ^ z ≤ 4 := Nat.pow_le_pow_right (by decide) hz
  have hoff : off < (Region.bytes b).size := Nat.lt_of_lt_of_le (Nat.lt_add_of_pos_right (Nat.two_pow_pos z)) hsize
  refine ⟨fun hp h => ?_, fun h => ?_⟩
  · have hstep := step_hostWrite h haddr hz halign hoff (by simp)
    have stored := readByte_lanes u b x off (2 ^ z)
    obtain ⟨m, hm⟩ := lanes_bytes_frame u b off (writeLanes (2 ^ z) x)
    have performed : u.performWrite (.bytes b) off (2 ^ z) x = u.setBytes b m := hm
    rw [(dropsWrite_eq_false_of_ne_csr (by simp)).2 hp, if_neg Bool.false_ne_true, performed] at hstep
    rw [hm] at stored
    exact ⟨_, none, hstep, by cases b <;> rfl, fun _ k hd => readByte_setBytes_of_ne u hd m k,
      readCell_setBytes u b m .wmat, readCell_setBytes u b m .cmat, stored⟩
  · refine ⟨_, _, step_hostRead h haddr hz halign hoff (by simp), rfl, rfl, fun k hk hw => ?_, fun k _ hk => ?_⟩
    · rw [hostRead_byte (by simp) hwidth, if_pos hk, hostByte_stable hw, State.viewByte]
    · rw [hostRead_byte (by simp) hwidth, if_neg (by omega)]

/-- Settles O52: a read leaves the reply and the draw counter, and an idle core's reply turns on neither. -/
theorem readsHaveNoSideEffect : Obligations.ReadsHaveNoSideEffect := by
  intro s a rest hread hs
  obtain ⟨r, d, hacc⟩ := hostAccess_read hread { s with agenda := rest }
  refine ⟨_, step_host ⟨rest, hs, rfl⟩, by rw [hacc], ?_⟩
  rintro hp rest' rfl
  refine ⟨_, step_host (a := a) ⟨rest', by rw [hacc], rfl⟩, ?_⟩
  rw [hacc]
  have again := hostAccess_read_idle (s := { s with agenda := .host a :: rest' }) hp hread rest' r d
  rw [hacc] at again
  exact again

end

section
/-! PROOFS. Decoding answers the row of the opcode map a word matches, and a matching word is rebuilt from its fields
(30_encoding.md R110 to R118). -/
namespace Sys2Proof

variable {w mask : Word} {op : Byte}

/-! ### The row a word matches (R116, R118) -/

/-- A row of the map is found by its own OP: no two rows share one. -/
theorem find?_op_eq_some : ∀ row ∈ opRows, opRows.find? (fun r => r.op == row.op) = some row := by
  simp [opRows]

/-- OP is fixed in every row. -/
theorem low_byte_mask : ∀ row ∈ opRows, row.mask.extractLsb' 0 8 = BitVec.allOnes 8 := by decide

/-- A field that the mask of fixed bits covers is that of the fixed bits. -/
theorem extractLsb'_of_fixed {lo n : Nat} (h : w &&& mask = op.setWidth 32)
    (hm : mask.extractLsb' lo n = BitVec.allOnes n) : w.extractLsb' lo n = (op.setWidth 32).extractLsb' lo n := by
  rw [← h, BitVec.extractLsb'_and, hm, BitVec.and_allOnes]

/-- The OP of a word that matches a row. -/
theorem fieldOp_of_fixed (h : w &&& mask = op.setWidth 32) (hm : mask.extractLsb' 0 8 = BitVec.allOnes 8) :
    fieldOp w = op := by
  rw [fieldOp, extractLsb'_of_fixed h hm, BitVec.extractLsb'_setWidth_of_le (by decide), BitVec.extractLsb'_eq_self]

/-- Fixed bits above OP are 0 (R116). -/
theorem extractLsb'_unused {lo n : Nat} (h : w &&& mask = op.setWidth 32)
    (hm : 8 ≤ lo ∧ mask.extractLsb' lo n = BitVec.allOnes n) : w.extractLsb' lo n = 0 := by
  rw [extractLsb'_of_fixed h hm.2]
  refine BitVec.eq_of_getLsbD_eq fun i hi => ?_
  simp [BitVec.getLsbD_extractLsb', BitVec.getLsbD_of_ge op (lo + i) (by omega)]

/-- Decoding answers `i` exactly when the word matches a row of the map whose operands are `i`. -/
theorem decode_eq_ok_iff {i : Instr} :
    decode w = .ok i ↔ ∃ row ∈ opRows, w &&& row.mask = row.op.setWidth 32 ∧ row.operands w = i := by
  constructor
  · intro h
    unfold decode at h
    split at h
    · cases h
    · next row hfind =>
      split at h
      · next hfixed =>
        cases h
        exact ⟨row, List.mem_of_find?_eq_some hfind, hfixed, rfl⟩
      · cases h
  · rintro ⟨row, hrow, hfixed, rfl⟩
    rw [decode, fieldOp_of_fixed hfixed (low_byte_mask row hrow), find?_op_eq_some row hrow]
    exact if_pos hfixed

/-- Decoding answers 'unknown opcode' exactly when no row has the word's OP. -/
theorem decode_eq_unknownOp_iff : decode w = .error .unknownOp ↔ ∀ row ∈ opRows, row.op ≠ fieldOp w := by
  have absent : opRows.find? (fun row => row.op == fieldOp w) = none ↔ ∀ row ∈ opRows, row.op ≠ fieldOp w := by
    simp [List.find?_eq_none]
  rw [← absent]
  unfold decode
  split
  · next hnone => simp [hnone]
  · next row hfind =>
    rw [hfind]
    split <;> simp

theorem toNat_fieldOp : (fieldOp w).toNat = w.toNat % 256 := by simp [fieldOp]

/-! ### A word is its fields in the order of its format, when the bits above them are 0 (R111 to R115) -/

theorem formatZ_fields (hop : fieldOp w = op) (h : w.extractLsb' 8 24 = 0#24) : formatZ op = w := by
  subst hop
  rw [formatZ, ← h, fieldOp]
  rw [BitVec.extractLsb'_append_extractLsb'_eq_extractLsb' (by rfl)]
  exact BitVec.extractLsb'_eq_self

theorem formatA_fields {mode : BitVec 3} (hop : fieldOp w = op) (hmode : fieldMode w = mode)
    (h : w.extractLsb' 11 21 = 0#21) : formatA op mode = w := by
  subst hop hmode
  rw [formatA, ← h, fieldOp, fieldMode]
  iterate 2 rw [BitVec.extractLsb'_append_extractLsb'_eq_extractLsb' (by rfl)]
  exact BitVec.extractLsb'_eq_self

theorem formatG_fields {a b : Byte} (hop : fieldOp w = op) (ha : fieldA w = a) (hb : fieldB w = b)
    (h : w.extractLsb' 24 8 = 0#8) : formatG op a b = w := by
  subst hop ha hb
  rw [formatG, ← h, fieldOp, fieldA, fieldB]
  iterate 3 rw [BitVec.extractLsb'_append_extractLsb'_eq_extractLsb' (by rfl)]
  exact BitVec.extractLsb'_eq_self

theorem formatR_fields {n : Byte} {e : BitVec 6} (hop : fieldOp w = op) (hn : fieldN w = n) (he : fieldE w = e)
    (h : w.extractLsb' 22 10 = 0#10) : formatR op n e = w := by
  subst hop hn he
  rw [formatR, ← h, fieldOp, fieldN, fieldE]
  iterate 3 rw [BitVec.extractLsb'_append_extractLsb'_eq_extractLsb' (by rfl)]
  exact BitVec.extractLsb'_eq_self

theorem formatC_fields {ec m : BitVec 3} {ver : BitVec 6} (hop : fieldOp w = op) (hec : fieldEc w = ec)
    (hver : fieldVer w = ver) (hm : fieldMask w = m) (h : w.extractLsb' 20 12 = 0#12) : formatC op ec ver m = w := by
  subst hop hec hver hm
  rw [formatC, ← h, fieldOp, fieldMask, fieldVer, fieldEc]
  iterate 4 rw [BitVec.extractLsb'_append_extractLsb'_eq_extractLsb' (by rfl)]
  exact BitVec.extractLsb'_eq_self

/-! ### Encoding and decoding (R118, R123) -/

/-- The instruction a matching word gives encodes as that word: row by row in the order of the map, where a field the
row does not use is fixed at 0 (R116). -/
theorem encode_operands : ∀ row ∈ opRows, ∀ w : Word, w &&& row.mask = row.op.setWidth 32 →
    encode (row.operands w) = w := by
  intro row hrow w h
  have hop : fieldOp w = row.op := fieldOp_of_fixed h (low_byte_mask row hrow)
  have unused {lo n : Nat} := extractLsb'_unused (lo := lo) (n := n) h
  simp only [opRows, List.cons_append, List.nil_append, List.mem_cons, List.not_mem_nil, or_false] at hrow
  rcases hrow with rfl | rfl | rfl | rfl | rfl | rfl | rfl | rfl | rfl | rfl | rfl | rfl | rfl | rfl | rfl | rfl |
    rfl | rfl | rfl
  · exact formatZ_fields hop (unused (by decide))
  · exact formatZ_fields hop (unused (by decide))
  · exact formatA_fields hop rfl (unused (by decide))
  · exact formatC_fields hop rfl rfl (unused (by decide)) (unused (by decide))
  · exact formatG_fields hop rfl rfl (unused (by decide))
  · exact formatG_fields hop rfl (unused (by decide)) (unused (by decide))
  · exact formatG_fields hop rfl (unused (by decide)) (unused (by decide))
  · exact formatR_fields hop (unused (by decide)) rfl (unused (by decide))
  · exact formatR_fields hop rfl rfl (unused (by decide))
  · exact formatC_fields hop rfl rfl (unused (by decide)) (unused (by decide))
  · exact formatC_fields hop rfl rfl (unused (by decide)) (unused (by decide))
  · exact formatC_fields hop (unused (by decide)) rfl (unused (by decide)) (unused (by decide))
  · exact formatZ_fields hop (unused (by decide))
  · exact formatC_fields hop (unused (by decide)) (unused (by decide)) rfl (unused (by decide))
  · exact formatZ_fields hop (unused (by decide))
  · exact formatC_fields hop rfl (unused (by decide)) rfl (unused (by decide))
  · exact formatC_fields hop (unused (by decide)) rfl (unused (by decide)) (unused (by decide))
  · exact formatC_fields hop rfl (unused (by decide)) rfl (unused (by decide))
  · exact formatC_fields hop rfl rfl (unused (by decide)) (unused (by decide))

/-- Every instruction's word matches its row of the map (R116, R123). -/
theorem encode_matches_row (i : Instr) : Laws.EncodeMatchesRow.Statement i := by
  cases i with
  | nop => exact Laws.EncodeMatchesRow.nop
  | clear => exact Laws.EncodeMatchesRow.clear
  | append mode => exact Laws.EncodeMatchesRow.append mode
  | capq ver ec => exact Laws.EncodeMatchesRow.capq ver ec
  | gfMul a b => exact Laws.EncodeMatchesRow.gfMul a b
  | gfExp a => exact Laws.EncodeMatchesRow.gfExp a
  | gfLog a => exact Laws.EncodeMatchesRow.gfLog a
  | gfGenpoly e => exact Laws.EncodeMatchesRow.gfGenpoly e
  | rsEnc n e => exact Laws.EncodeMatchesRow.rsEnc n e
  | eccInterleave ver ec => exact Laws.EncodeMatchesRow.eccInterleave ver ec
  | bitstream ver ec => exact Laws.EncodeMatchesRow.bitstream ver ec
  | matrixInit ver => exact Laws.EncodeMatchesRow.matrixInit ver
  | place => exact Laws.EncodeMatchesRow.place
  | maskScore mask => exact Laws.EncodeMatchesRow.maskScore mask
  | maskSelect => exact Laws.EncodeMatchesRow.maskSelect
  | fmtCalc ec mask => exact Laws.EncodeMatchesRow.fmtCalc ec mask
  | verCalc ver => exact Laws.EncodeMatchesRow.verCalc ver
  | fmtInsert ec mask => exact Laws.EncodeMatchesRow.fmtInsert ec mask
  | build ver ec => exact Laws.EncodeMatchesRow.build ver ec

@[simp] theorem decode_encode (i : Instr) : decode (encode i) = .ok i := decode_eq_ok_iff.2 (encode_matches_row i)

theorem encode_of_decode {i : Instr} (h : decode w = .ok i) : encode i = w := by
  obtain ⟨row, hrow, hfixed, rfl⟩ := decode_eq_ok_iff.1 h
  exact encode_operands row hrow w hfixed

end Sys2Proof
end

section
/-! PROOFS. The operand fields decide whether a command ends with ERR_CONFIG (30_encoding.md R121, 60_exceptions.md
R351, R354). -/
namespace Sys2Proof.Machine

variable {s : State} {i : Instr} {ver : BitVec 6} {ec : BitVec 3} {α : Type} {legal : Bool} {info : Word}

/-! ### The checks -/

/-- A field check answers a value when the field is legal, ERR_CONFIG with `info` when it is not. -/
def FieldCheck (legal : Bool) (info : Word) (check : Except CmdError α) : Prop :=
  (legal = true ∧ ∃ a, check = .ok a) ∨ (legal = false ∧ check = .error ⟨.config, info⟩)

theorem fieldCheck_versionFrom (lo : Nat) (ver : BitVec 6) :
    FieldCheck (lo ≤ ver.toNat && ver.toNat ≤ 40) 1 (versionFrom lo ver) := by
  rcases versionFrom_cases lo ver with ⟨low, high, hv⟩ | ⟨bad, hv⟩
  · exact .inl ⟨by simp [low, high], _, hv⟩
  · exact .inr ⟨by simp; omega, hv⟩

theorem fieldCheck_version (ver : BitVec 6) : FieldCheck (wfVersion ver) 1 (operandVersion ver) :=
  fieldCheck_versionFrom 1 ver

theorem fieldCheck_versionOrAuto (ver : BitVec 6) : FieldCheck (wfVersionOrAuto ver) 1 (operandVersionOrAuto ver) := by
  simpa [wfVersionOrAuto, operandVersionOrAuto] using fieldCheck_versionFrom 0 ver

theorem fieldCheck_versionWord (ver : BitVec 6) : FieldCheck (wfVersionWord ver) 1 (operandVersionWord ver) :=
  fieldCheck_versionFrom 7 ver

theorem fieldCheck_ec (ec : BitVec 3) : FieldCheck (wfEc ec) 2 (operandEc ec) := by
  rcases operandEc_cases ec with ⟨l, good, hl⟩ | ⟨bad, hl⟩
  · exact .inl ⟨by simp [wfEc, good], l, hl⟩
  · exact .inr ⟨by simp [wfEc, bad], hl⟩

theorem fieldCheck_ecCount (e : BitVec 6) : FieldCheck (wfEcCount e) 3 (operandEcCount e) := by
  rcases operandEcCount_cases e with ⟨low, high, he⟩ | ⟨bad, he⟩
  · exact .inl ⟨by simp [wfEcCount, low, high], _, he⟩
  · exact .inr ⟨by simp [wfEcCount]; omega, he⟩

theorem fieldCheck_mode (mode : BitVec 3) : FieldCheck (wfMode mode) 4 (operandMode mode) := by
  rcases operandMode_cases mode with ⟨hint, good, hm⟩ | ⟨bad, hm⟩
  · exact .inl ⟨by simp [wfMode, good], hint, hm⟩
  · exact .inr ⟨by simp [wfMode, bad], hm⟩

/-- A check that raises no ERR_CONFIG. -/
def OtherError (check : Except CmdError α) : Prop := ∀ e, check = .error e → e.code ≠ .config

theorem otherError_range {off : Word} {n size : Nat} : OtherError (operandRange off n size info) := by
  rcases operandRange_cases off n size info with ⟨-, hr⟩ | ⟨-, hr⟩ <;> simp [OtherError, hr]

theorem otherError_matrix (s : State) : OtherError (operandMatrix s) := by
  rcases operandMatrix_cases s with ⟨-, hm⟩ | ⟨-, hm⟩ <;> simp [OtherError, hm]

theorem otherError_selectVersion (s : State) (ver : Nat) (l : EcLevel) : OtherError (s.selectVersion ver l) := by
  unfold State.selectVersion
  split <;> split <;> simp [OtherError, raise]

/-! ### The rules -/

/-- A rule's answer on `s` that is no ERR_CONFIG: a state with the STATUS of `s`, or another error. -/
def NoConfig (s : State) : Except CmdError State → Prop
  | .ok t => t.status = s.status
  | .error e => e.code ≠ .config

/-- A rule's answer on `s` is ERR_CONFIG with `info` exactly when a field is not legal. -/
def ConfigUnless (legal : Bool) (info : Word) (s : State) (answer : Except CmdError State) : Prop :=
  (legal = true ∧ NoConfig s answer) ∨ (legal = false ∧ answer = .error ⟨.config, info⟩)

/-- The fields of `i` decide whether a rule's answer on `s` is ERR_CONFIG, and name its ERRINFO. -/
abbrev FieldsDecide (i : Instr) (s : State) (answer : Except CmdError State) : Prop :=
  ConfigUnless i.wf (configInfo i) s answer

theorem ConfigUnless.noConfig {answer : Except CmdError State} (h : ConfigUnless legal info s answer)
    (hlegal : legal = true) : NoConfig s answer := by
  rcases h with ⟨-, h⟩ | ⟨h, -⟩
  · exact h
  · exact absurd hlegal (by simp [h])

/-- What follows a check with an error of its own. -/
theorem OtherError.bind {check : Except CmdError α} {rest : α → Except CmdError State} (h : OtherError check)
    (hrest : ∀ a, NoConfig s (rest a)) : NoConfig s (check >>= rest) := by
  cases check with
  | ok a => exact hrest a
  | error e => exact h e rfl

/-- What follows the check of the last field. -/
theorem FieldCheck.last {check : Except CmdError α} {rest : α → Except CmdError State}
    (h : FieldCheck legal info check) (hrest : ∀ a, NoConfig s (rest a)) :
    ConfigUnless legal info s (check >>= rest) := by
  rcases h with ⟨hl, a, rfl⟩ | ⟨hl, rfl⟩
  · exact .inl ⟨hl, hrest a⟩
  · exact .inr ⟨hl, rfl⟩

/-- The check of a field before others: its error comes first (R354). -/
theorem FieldCheck.first {check : Except CmdError α} {rest : α → Except CmdError State} {legal' : Bool} {info' : Word}
    (h : FieldCheck legal info check) (hrest : ∀ a, ConfigUnless legal' info' s (rest a)) :
    ConfigUnless (legal && legal') (if legal then info' else info) s (check >>= rest) := by
  rcases h with ⟨rfl, a, rfl⟩ | ⟨rfl, rfl⟩
  · exact hrest a
  · exact .inr ⟨rfl, rfl⟩

theorem appendChunk_noConfig (hint : ModeHint) (c : List Byte) (s : State) : NoConfig s (appendChunk hint c s) := by
  rcases appendChunk_cases hint c s with ⟨_, -, -, -, hr⟩ | ⟨_, -, hr⟩ | ⟨_, -, -, hr⟩ | ⟨_, -, -, -, hr⟩ <;> rw [hr]
  · rfl
  all_goals simp [NoConfig]

theorem ruleAppend_fieldsDecide (mode : BitVec 3) (s : State) : FieldsDecide (.append mode) s (ruleAppend mode s) :=
  (fieldCheck_mode mode).last fun hint => otherError_range.bind fun off => by
    split
    · rfl
    · exact appendChunk_noConfig ..

theorem ruleCapq_fieldsDecide (ver : BitVec 6) (ec : BitVec 3) (s : State) :
    FieldsDecide (.capq ver ec) s (ruleCapq ver ec s) :=
  (fieldCheck_version ver).first fun _ => (fieldCheck_ec ec).last fun _ => rfl

theorem ruleGfLog_noConfig (a : Byte) (s : State) : NoConfig s (ruleGfLog a s) := by
  rcases ruleGfLog_cases a s with ⟨-, hr⟩ | ⟨-, hr⟩ <;> simp [hr, NoConfig]

theorem ruleGfGenpoly_fieldsDecide (e : BitVec 6) (s : State) : FieldsDecide (.gfGenpoly e) s (ruleGfGenpoly e s) :=
  (fieldCheck_ecCount e).last fun _ => otherError_range.bind fun _ => rfl

theorem ruleRsEnc_fieldsDecide (n : Byte) (e : BitVec 6) (s : State) : FieldsDecide (.rsEnc n e) s (ruleRsEnc n e s) :=
  (fieldCheck_ecCount e).last fun _ => otherError_range.bind fun _ => otherError_range.bind fun _ => rfl

theorem ruleEccInterleave_fieldsDecide (ver : BitVec 6) (ec : BitVec 3) (s : State) :
    FieldsDecide (.eccInterleave ver ec) s (ruleEccInterleave ver ec s) :=
  (fieldCheck_version ver).first fun _ => (fieldCheck_ec ec).last fun _ => rfl

theorem ruleBitstream_fieldsDecide (ver : BitVec 6) (ec : BitVec 3) (s : State) :
    FieldsDecide (.bitstream ver ec) s (ruleBitstream ver ec s) :=
  (fieldCheck_versionOrAuto ver).first fun v => (fieldCheck_ec ec).last fun l =>
    (otherError_selectVersion s v l).bind fun _ => rfl

theorem ruleMatrixInit_fieldsDecide (ver : BitVec 6) (s : State) :
    FieldsDecide (.matrixInit ver) s (ruleMatrixInit ver s) :=
  (fieldCheck_version ver).last fun _ => rfl

theorem rulePlace_noConfig (s : State) : NoConfig s (rulePlace s) := by
  rcases rulePlace_cases s with ⟨-, -, hr⟩ | ⟨-, hr⟩ | ⟨-, -, hr⟩ <;> rw [hr]
  · rfl
  all_goals simp [NoConfig]

theorem ruleMaskScore_noConfig (mask : BitVec 3) (s : State) : NoConfig s (ruleMaskScore mask s) :=
  (otherError_matrix s).bind fun _ => rfl

theorem ruleMaskSelect_noConfig (s : State) : NoConfig s (ruleMaskSelect s) := by
  rcases ruleMaskSelect_cases s with ⟨-, -, hr⟩ | ⟨-, hr⟩ | ⟨-, -, hr⟩ <;> rw [hr]
  · exact (effect_ruleMaskSelect hr).frame.status
  all_goals simp [NoConfig]

theorem ruleFmtCalc_fieldsDecide (ec mask : BitVec 3) (s : State) :
    FieldsDecide (.fmtCalc ec mask) s (ruleFmtCalc ec mask s) :=
  (fieldCheck_ec ec).last fun _ => rfl

theorem ruleVerCalc_fieldsDecide (ver : BitVec 6) (s : State) : FieldsDecide (.verCalc ver) s (ruleVerCalc ver s) :=
  (fieldCheck_versionWord ver).last fun _ => rfl

theorem ruleFmtInsert_fieldsDecide (ec mask : BitVec 3) (s : State) :
    FieldsDecide (.fmtInsert ec mask) s (ruleFmtInsert ec mask s) :=
  (fieldCheck_ec ec).last fun _ => (otherError_matrix s).bind fun _ => rfl

/-! ### The stages of BUILD (47_build.md R332) -/

/-- The later stages of BUILD are commands whose fields are legal, when stage 1 has selected a version. -/
theorem buildStages_tail_noConfig {stage : Rule} (h : stage ∈ (buildStages ver ec).tail)
    (hver : wfVersion s.streamMeta.sver = true) (hec : wfEc ec = true) : NoConfig s (stage s) := by
  simp only [buildStages, List.tail_cons, List.mem_cons, List.not_mem_nil, or_false] at h
  rcases h with rfl | rfl | rfl | rfl | rfl
  · exact (ruleEccInterleave_fieldsDecide ..).noConfig (by simp [Instr.wf, hver, hec])
  · exact (ruleMatrixInit_fieldsDecide ..).noConfig hver
  · exact rulePlace_noConfig s
  · exact ruleMaskSelect_noConfig s
  · exact (ruleFmtInsert_fieldsDecide ..).noConfig hec

/-- A run of stages raises no ERR_CONFIG when none of its stages does, on any state that the stages keep to. -/
theorem runStages_error_ne_config {P : State → Prop} {stages : List Rule}
    (hstep : ∀ stage ∈ stages, ∀ s, P s → NoConfig s (stage s) ∧ ∀ t, stage s = .ok t → P t) (hs : P s)
    {e : CmdError} {t : State} (ht : runStages stages s = .error (e, t)) : e.code ≠ .config := by
  induction stages generalizing s with
  | nil => cases ht
  | cons stage rest ih =>
    obtain ⟨answer, keeps⟩ := hstep stage List.mem_cons_self s hs
    cases h : stage s with
    | ok u =>
      rw [runStages_cons_ok h] at ht
      exact ih (fun st hst => hstep st (List.mem_cons_of_mem _ hst)) (keeps u h) ht
    | error e' =>
      rw [runStages_cons_error h] at ht
      cases ht
      rwa [h] at answer

/-- BUILD with legal fields raises no ERR_CONFIG: stage 1 selects a version in 1 to 40, and the later stages keep it. -/
theorem buildStages_error_ne_config (hwf : (Instr.build ver ec).wf = true) {e : CmdError} {t : State}
    (ht : runStages (buildStages ver ec) s = .error (e, t)) : e.code ≠ .config := by
  have split : buildStages ver ec = ruleBitstream ver ec :: (buildStages ver ec).tail := rfl
  have stage1 : NoConfig s (ruleBitstream ver ec s) := (ruleBitstream_fieldsDecide ver ec s).noConfig hwf
  have hec : wfEc ec = true := (Bool.and_eq_true_iff.1 hwf).2
  rw [split] at ht
  cases h : ruleBitstream ver ec s with
  | error e' =>
    rw [runStages_cons_error h] at ht
    cases ht
    rwa [h] at stage1
  | ok u =>
    rw [runStages_cons_ok h] at ht
    refine runStages_error_ne_config (P := fun t => wfVersion t.streamMeta.sver = true)
      (fun stage hstage a ha => ⟨buildStages_tail_noConfig hstage ha hec, fun b hb => ?_⟩) ?_ ht
    · have kept : b.streamMeta = a.streamMeta :=
        congrArg Prod.snd ((buildStages_tail_staged hstage hb).frame.same (x := .stream) (by simp [lateItems]))
      rwa [kept]
    · cases effect_ruleBitstream h with
      | bitstream _ l low high level =>
        simp [wfVersion, State.streamed]
        omega

/-! ### The commands -/

/-- A command on `s` that does not end with ERR_CONFIG: it completes with the STATUS of `s`, or raises another error. -/
def EndsWithoutConfig (s : State) (o : Host.Outcome State Fault Refusal) : Prop :=
  (∃ t : State, t.status = s.status ∧ o = .next t.complete) ∨
    ∃ (e : CmdError) (t : State), e.code ≠ .config ∧ o = .next (t.raiseError e)

theorem ErrCode.value_eq_config_iff (c : ErrCode) : c.value = 0x02 ↔ c = .config := by cases c <;> decide

theorem EndsWithoutConfig.errcode_ne {t : State} (h : EndsWithoutConfig s (.next t)) (hs : s.status.err = false)
    (ht : t.status.err = true) : t.status.errcode ≠ 0x02 := by
  rcases h with ⟨u, status, hu⟩ | ⟨e, u, he, hu⟩ <;> cases hu
  · rw [State.complete_status, status] at ht
    exact absurd ht (by simp [hs])
  · exact fun h => he ((ErrCode.value_eq_config_iff e.code).1 h)

/-- The fields of `i` decide whether the command ends with ERR_CONFIG, and name its ERRINFO. -/
def FieldsDecideEnd (i : Instr) (s : State) : Prop :=
  (i.wf = true ∧ EndsWithoutConfig s (exec i s)) ∨
    (i.wf = false ∧ exec i s = .next (s.raiseError ⟨.config, configInfo i⟩))

theorem finish_endsWithoutConfig {rule : Rule} (h : NoConfig s (rule s)) : EndsWithoutConfig s (finish rule s) := by
  rcases finish_cases rule s with ⟨t, hr, hf⟩ | ⟨e, hr, hf⟩ <;> rw [hr] at h
  · exact .inl ⟨t, h, hf⟩
  · exact .inr ⟨e, s, h, hf⟩

theorem ConfigUnless.exec {rule : Rule} (h : FieldsDecide i s (rule s)) (hi : exec i s = finish rule s) :
    FieldsDecideEnd i s := by
  rw [FieldsDecideEnd, hi]
  rcases h with ⟨hwf, h⟩ | ⟨hwf, h⟩
  · exact .inl ⟨hwf, finish_endsWithoutConfig h⟩
  · exact .inr ⟨hwf, finish_error h⟩

theorem NoConfig.exec {rule : Rule} (h : NoConfig s (rule s)) (hi : exec i s = finish rule s) (hwf : i.wf = true) :
    FieldsDecideEnd i s := ConfigUnless.exec (.inl ⟨hwf, h⟩) hi

theorem build_fieldsDecideEnd (ver : BitVec 6) (ec : BitVec 3) (s : State) : FieldsDecideEnd (.build ver ec) s := by
  rcases execBuild_cases ver ec s with ⟨l, t, legal, hl, hr, he⟩ | ⟨l, e, t, legal, hl, hr, he⟩ | ⟨bad, he⟩ |
    ⟨legal, bad, he⟩
  · obtain ⟨u, hu, ht⟩ := runStages_build.1 t hr
    exact .inl ⟨by simp [Instr.wf, wfVersionOrAuto, wfEc, legal, toNat_le_of_operandEc hl],
      .inl ⟨t.commit ec, ht.frame.status.trans hu.frame.status, he⟩⟩
  · have hwf : (Instr.build ver ec).wf = true := by
      simp [Instr.wf, wfVersionOrAuto, wfEc, legal, toNat_le_of_operandEc hl]
    exact .inl ⟨hwf, .inr ⟨e, t, buildStages_error_ne_config hwf hr, he⟩⟩
  · refine .inr ⟨by simp [Instr.wf, wfVersionOrAuto, bad], he.trans ?_⟩
    simp [configInfo, wfVersionOrAuto, Nat.not_le.2 bad]
  · refine .inr ⟨by simp [Instr.wf, wfEc, bad], he.trans ?_⟩
    simp [configInfo, wfVersionOrAuto, legal]

theorem exec_fieldsDecideEnd (i : Instr) (s : State) : FieldsDecideEnd i s := by
  cases i with
  | nop => exact NoConfig.exec (rule := ruleNop) rfl rfl rfl
  | clear => exact NoConfig.exec (rule := ruleClear) rfl rfl rfl
  | append mode => exact (ruleAppend_fieldsDecide mode s).exec rfl
  | capq ver ec => exact (ruleCapq_fieldsDecide ver ec s).exec rfl
  | gfMul a b => exact NoConfig.exec (rule := ruleGfMul a b) rfl rfl rfl
  | gfExp a => exact NoConfig.exec (rule := ruleGfExp a) rfl rfl rfl
  | gfLog a => exact (ruleGfLog_noConfig a s).exec rfl rfl
  | gfGenpoly e => exact (ruleGfGenpoly_fieldsDecide e s).exec rfl
  | rsEnc n e => exact (ruleRsEnc_fieldsDecide n e s).exec rfl
  | eccInterleave ver ec => exact (ruleEccInterleave_fieldsDecide ver ec s).exec rfl
  | bitstream ver ec => exact (ruleBitstream_fieldsDecide ver ec s).exec rfl
  | matrixInit ver => exact (ruleMatrixInit_fieldsDecide ver s).exec rfl
  | place => exact (rulePlace_noConfig s).exec rfl rfl
  | maskScore mask => exact (ruleMaskScore_noConfig mask s).exec rfl rfl
  | maskSelect => exact (ruleMaskSelect_noConfig s).exec rfl rfl
  | fmtCalc ec mask => exact (ruleFmtCalc_fieldsDecide ec mask s).exec rfl
  | verCalc ver => exact (ruleVerCalc_fieldsDecide ver s).exec rfl
  | fmtInsert ec mask => exact (ruleFmtInsert_fieldsDecide ec mask s).exec rfl
  | build ver ec => exact build_fieldsDecideEnd ver ec s

end Sys2Proof.Machine
end

section
/-! PROOFS. The statements of 30_encoding.md. -/
open Sys2Proof Sys2Proof.Machine

/-- Settles O1: a word decodes to what its row gives (`decode_eq_ok_iff`), and the fields rebuild it
(`encode_operands`). -/
theorem decodeAndEncodeAgree : Obligations.DecodeAndEncodeAgree := ⟨decode_encode, fun _ _ => encode_of_decode⟩

/-- Settles O2: ten of the words are the encodings of their commands, and two select no command. -/
theorem sampleWordsDecode : Obligations.SampleWordsDecode :=
  ⟨decode_encode .clear, decode_encode (.append 3), decode_encode (.capq 1 1), decode_encode (.gfMul 0x53 0xCA),
    decode_encode (.rsEnc 3 2), decode_encode (.bitstream 1 1), decode_encode (.matrixInit 1),
    decode_encode (.maskScore 1), decode_encode (.fmtInsert 1 1), decode_encode (.build 1 1), by decide, by decide⟩

/-- Settles O3: the ranges are the OP values of no row, and the error of such a word is ERR_ILLEGAL_CMD 0, which is not
fatal. -/
theorem illegalOpcodeEndsWithError : Obligations.IllegalOpcodeEndsWithError := by
  intro w op illegal
  have unknown : decode w = .error .unknownOp ↔ illegal := by
    rw [decode_eq_unknownOp_iff]
    simp only [opRows, List.cons_append, List.nil_append, List.forall_mem_cons, List.not_mem_nil, false_imp_iff,
      implies_true, and_true, ne_eq, BitVec.toNat_eq, BitVec.ofNat_eq_ofNat, BitVec.toNat_ofNat, toNat_fieldOp,
      illegal, op]
    omega
  refine ⟨unknown, fun s u hu hp hw => ?_⟩
  rw [step_of_decode_error hu hp (unknown.2 hw)]
  simp [State.raiseError, illegalCommand, ErrCode.value, show (ErrCode.illegalCmd == .internal) = false from rfl]

/-- Settles O4: every command's fields decide its ERR_CONFIG (`exec_fieldsDecideEnd`). -/
theorem illegalFieldEndsWithConfigError : Obligations.IllegalFieldEndsWithConfigError := by
  intro i s
  rcases exec_fieldsDecideEnd i s with ⟨hwf, hend⟩ | ⟨hwf, hend⟩
  · refine ⟨fun bad => absurd hwf (by simp [bad]), fun _ t ht herr hs => ?_⟩
    rw [ht] at hend
    exact hend.errcode_ne hs herr
  · exact ⟨fun _ => hend, fun good => absurd good (by simp [hwf])⟩

end

section
/-! PROOFS. The entries of the capacity table and how their blocks share out the codewords (40_capacity.md R142 to
R145), the character count that fits (R147), and the words of the capacity registers (R146). -/
namespace Sys2Proof.Machine

variable {v : Nat}

/-! ### The entries (R143, R145, R146) -/

/-- A fact of the table, checked entry by entry. -/
theorem forall_entry {P : Nat → EcLevel → Prop}
    (table : ∀ u ∈ List.range' 1 40, ∀ k ∈ [EcLevel.L, .M, .Q, .H], P u k) :
    ∀ ⦃v : Nat⦄, 1 ≤ v → v ≤ 40 → ∀ l, P v l :=
  fun v h1 h40 l => table v (List.mem_range'_1.2 ⟨h1, by omega⟩) l (by cases l <;> decide)

/-- The bounds of R146: all values fit their fields. -/
theorem entry_bounds : ∀ ⦃v : Nat⦄, 1 ≤ v → v ≤ 40 → ∀ l : EcLevel,
    dataModules v ≤ 29648 ∧ ecCount v l ≤ 30 ∧ blockCount v l ≤ 81 ∧ shortData v l ≤ 122 :=
  forall_entry (by decide +kernel)

theorem blockCount_pos : ∀ ⦃v : Nat⦄, 1 ≤ v → v ≤ 40 → ∀ l : EcLevel, 0 < blockCount v l :=
  forall_entry (by decide +kernel)

/-- The EC codewords of a short block are among its codewords. -/
theorem ecCount_le_div : ∀ ⦃v : Nat⦄, 1 ≤ v → v ≤ 40 → ∀ l : EcLevel,
    ecCount v l ≤ totalCodewords v / blockCount v l :=
  forall_entry (by decide +kernel)

/-- The least entry is 1-H; the greatest of each range of R207 are 9-L, 26-L and 40-L. -/
theorem dataCodewords_bounds : ∀ ⦃v : Nat⦄, 1 ≤ v → v ≤ 40 → ∀ l : EcLevel, 9 ≤ dataCodewords v l ∧
    dataCodewords v l ≤ if v ≤ 9 then 232 else if v ≤ 26 then 1370 else 2956 :=
  forall_entry (by decide +kernel)

theorem last_block_codewords : ∀ ⦃v : Nat⦄, 1 ≤ v → v ≤ 40 → ∀ l : EcLevel,
    blockSize v l (blockCount v l - 1) + ecCount v l ≤ 153 ∧
      (blockSize v l (blockCount v l - 1) + ecCount v l = 153 ↔ l = .L ∧ v ∈ [27, 37, 38]) :=
  forall_entry (by decide +kernel)

/-! ### The blocks share out the codewords (R144, R145) -/

theorem longBlocks_lt (h1 : 1 ≤ v) (h40 : v ≤ 40) (l : EcLevel) : longBlocks v l < blockCount v l :=
  Nat.mod_lt _ (blockCount_pos h1 h40 l)

theorem shortBlocks_add_longBlocks (h1 : 1 ≤ v) (h40 : v ≤ 40) (l : EcLevel) :
    shortBlocks v l + longBlocks v l = blockCount v l := Nat.sub_add_cancel (longBlocks_lt h1 h40 l).le

theorem shortData_add_ecCount (h1 : 1 ≤ v) (h40 : v ≤ 40) (l : EcLevel) :
    shortData v l + ecCount v l = totalCodewords v / blockCount v l := Nat.sub_add_cancel (ecCount_le_div h1 h40 l)

/-- Division with remainder: each block takes the quotient, and each long block one codeword of the remainder. -/
theorem blocks_sum (h1 : 1 ≤ v) (h40 : v ≤ 40) (l : EcLevel) :
    shortBlocks v l * (shortData v l + ecCount v l) + longBlocks v l * (shortData v l + 1 + ecCount v l) =
      totalCodewords v :=
  calc _ = (shortBlocks v l + longBlocks v l) * (shortData v l + ecCount v l) + longBlocks v l := by ring
    _ = blockCount v l * (totalCodewords v / blockCount v l) + totalCodewords v % blockCount v l := by
      rw [shortBlocks_add_longBlocks h1 h40, shortData_add_ecCount h1 h40, longBlocks]
    _ = totalCodewords v := Nat.div_add_mod ..

theorem dataCodewords_add_ec (h1 : 1 ≤ v) (h40 : v ≤ 40) (l : EcLevel) :
    dataCodewords v l + blockCount v l * ecCount v l = totalCodewords v := by
  rw [← blocks_sum h1 h40 l, ← shortBlocks_add_longBlocks h1 h40 l, dataCodewords]
  ring

/-! ### The character count that fits (R147, R207, R208) -/

/-- R208 solved for the count. -/
theorem payloadBits_le_iff (m : SegMode) (c room : Nat) : payloadBits m c ≤ room ↔ c ≤ charsInBits m room := by
  cases m <;> simp only [payloadBits, charsInBits]
  case numeric => split_ifs <;> omega
  case alphanumeric => split <;> omega
  case byte | kanji => omega

theorem countBits_le (m : SegMode) (v : Nat) : countBits m v ≤ 16 := by
  cases m <;> simp only [countBits] <;> split_ifs <;> decide

/-- The mode indicator and the count field leave room in every entry. -/
theorem payloadBits_le_iff_charCapacity (m : SegMode) (h1 : 1 ≤ v) (h40 : v ≤ 40) (l : EcLevel) (c : Nat) :
    4 + countBits m v + payloadBits m c ≤ 8 * dataCodewords v l ↔ c ≤ charCapacity m v l := by
  have header := countBits_le m v
  have room := (dataCodewords_bounds h1 h40 l).1
  rw [charCapacity, ← payloadBits_le_iff, bitCapacity]
  omega

/-- In each range of R207 the first count too long for its field has a payload longer than the greatest entry. -/
theorem charCapacity_lt (m : SegMode) (h1 : 1 ≤ v) (h40 : v ≤ 40) (l : EcLevel) :
    charCapacity m v l < 2 ^ countBits m v := by
  rw [← Nat.not_le, ← payloadBits_le_iff_charCapacity m h1 h40]
  have most := (dataCodewords_bounds h1 h40 l).2
  cases m <;> simp only [countBits, payloadBits] <;> split_ifs at most ⊢ <;> omega

/-! ### The capacity registers (R146) -/

theorem charCapacity_lt_half (m : SegMode) (h1 : 1 ≤ v) (h40 : v ≤ 40) (l : EcLevel) :
    charCapacity m v l < 2 ^ 16 :=
  (charCapacity_lt m h1 h40 l).trans_le (Nat.pow_le_pow_right (by decide) (countBits_le m v))

/-- A word of two 16-bit fields. -/
theorem toNat_halves {lo hi : Nat} (hlo : lo < 2 ^ 16) (hhi : hi < 2 ^ 16) :
    (BitVec.ofNat 16 hi ++ BitVec.ofNat 16 lo).toNat = lo + hi * 2 ^ 16 := by
  rw [toNat_append_eq, BitVec.toNat_ofNat, BitVec.toNat_ofNat, Nat.mod_eq_of_lt hlo, Nat.mod_eq_of_lt hhi, Nat.add_comm]

theorem toNat_cap0 (h1 : 1 ≤ v) (h40 : v ≤ 40) (l : EcLevel) :
    (capacityRegisters v l).cap0.toNat = totalCodewords v + dataCodewords v l * 2 ^ 16 := by
  have hmodules := (entry_bounds h1 h40 l).1
  have htotal : totalCodewords v < 2 ^ 16 := by unfold totalCodewords; omega
  exact toNat_halves htotal (by have := dataCodewords_add_ec h1 h40 l; omega)

theorem toNat_cap1 (h1 : 1 ≤ v) (h40 : v ≤ 40) (l : EcLevel) : (capacityRegisters v l).cap1.toNat =
    ecCount v l + shortBlocks v l * 2 ^ 8 + shortData v l * 2 ^ 16 + longBlocks v l * 2 ^ 24 := by
  obtain ⟨-, hec, hblocks, hdata⟩ := entry_bounds h1 h40 l
  have hsum := shortBlocks_add_longBlocks h1 h40 l
  simp only [capacityRegisters, toNat_append_eq, BitVec.toNat_ofNat]
  omega

theorem toNat_cap2 (h1 : 1 ≤ v) (h40 : v ≤ 40) (l : EcLevel) :
    (capacityRegisters v l).cap2.toNat = dataModules v + remainderBits v * 2 ^ 16 := by
  have hmodules := (entry_bounds h1 h40 l).1
  have hrem : remainderBits v < 8 := Nat.mod_lt _ (by decide)
  simp only [capacityRegisters, toNat_append_eq, BitVec.toNat_ofNat]
  omega

theorem toNat_cap3 (h1 : 1 ≤ v) (h40 : v ≤ 40) (l : EcLevel) : (capacityRegisters v l).cap3.toNat =
    charCapacity .numeric v l + charCapacity .alphanumeric v l * 2 ^ 16 :=
  toNat_halves (charCapacity_lt_half .numeric h1 h40 l) (charCapacity_lt_half .alphanumeric h1 h40 l)

theorem toNat_cap4 (h1 : 1 ≤ v) (h40 : v ≤ 40) (l : EcLevel) : (capacityRegisters v l).cap4.toNat =
    charCapacity .byte v l + charCapacity .kanji v l * 2 ^ 16 :=
  toNat_halves (charCapacity_lt_half .byte h1 h40 l) (charCapacity_lt_half .kanji h1 h40 l)

@[simp] theorem operandEc_selector (l : EcLevel) : operandEc l.selector = .ok l := by cases l <;> rfl

theorem operandVersion_ofNat (h1 : 1 ≤ v) (h40 : v ≤ 40) : operandVersion (BitVec.ofNat 6 v) = .ok v := by
  have hv : (BitVec.ofNat 6 v).toNat = v := (BitVec.toNat_ofNat ..).trans (Nat.mod_eq_of_lt (by omega))
  rw [operandVersion, versionFrom_ok (by omega) (by omega), hv]

theorem exec_capq_ok (s : State) (h1 : 1 ≤ v) (h40 : v ≤ 40) (l : EcLevel) :
    exec (.capq (BitVec.ofNat 6 v) l.selector) s = .next { s with cap := capacityRegisters v l }.complete :=
  finish_ok (rule := ruleCapq _ _) (by rw [ruleCapq, operandVersion_ofNat h1 h40, operandEc_selector]; rfl)

end Sys2Proof.Machine
end

section
/-! PROOFS. The statements of 40_capacity.md. -/
open Sys2Proof Sys2Proof.Machine

/-- Settles O15: by the cases of the rule (`ruleCapq_cases`), and register by register. -/
theorem capqCommand : Obligations.CapqCommand := by
  refine ⟨encoded_of_row (row := ⟨0x10, 0xFFFE00FF, fun w => .capq (fieldVer w) (fieldEc w)⟩) rfl rfl rfl,
    fun s ver ec => ?_, fun s v l h1 h40 => ⟨_, exec_capq_ok s h1 h40 l, toNat_cap0 h1 h40 l, toNat_cap1 h1 h40 l,
      toNat_cap2 h1 h40 l, toNat_cap3 h1 h40 l, toNat_cap4 h1 h40 l⟩⟩
  rw [show ver = 0 ↔ ver.toNat = 0 from BitVec.toNat_inj.symm]
  rcases ruleCapq_cases ver ec s with ⟨l, h1, h40, hl, -⟩ | ⟨bad, hr⟩ | ⟨h1, h40, bad, hr⟩
  · have := toNat_le_of_operandEc hl
    exact ⟨fun _ => by omega, fun _ _ => by omega⟩
  · exact ⟨fun _ => finish_error hr, fun _ _ => by omega⟩
  · exact ⟨fun _ => by omega, fun _ _ => finish_error hr⟩

/-- Settles O16: the tables by evaluation, the sums by division with remainder (`blocks_sum`). -/
theorem capacityTableConsistent : Obligations.CapacityTableConsistent :=
  ⟨⟨by decide +kernel, by decide +kernel, by decide +kernel, by decide +kernel⟩, fun _ l h1 h40 =>
    ⟨blocks_sum h1 h40 l, dataCodewords_add_ec h1 h40 l, last_block_codewords h1 h40 l⟩⟩

/-- Settles O17: the counts that fit are those up to CAPC (`payloadBits_le_iff_charCapacity`). -/
theorem characterCapacityIsLargest : Obligations.CharacterCapacityIsLargest := by
  refine fun m v l h1 h40 => ⟨?_, charCapacity_lt m h1 h40 l⟩
  simp only [payloadBits_le_iff_charCapacity m h1 h40 l]
  exact isGreatest_Iic

end

section
/-! PROOFS. What each memory holds after a command has written a list of bytes (20_memory.md R102, R103). -/
namespace Sys2Proof.Machine

variable (s : State) (b : Config.ByteMem) (off : Nat) (xs : List Byte)

theorem readCell_writeBytes (mm : Config.MatMem) (r c : Nat) :
    (s.writeBytes b off xs).readCell mm r c = s.readCell mm r c := readCell_setBytes ..

theorem readByte_writeBytes_of_ne {d : Config.ByteMem} (hd : d ≠ b) (k : Nat) :
    (s.writeBytes b off xs).readByte d k = s.readByte d k := readByte_setBytes_of_ne s hd ..

theorem readByte_writeBytes_of_lt {j : Nat} (hj : j < xs.length) :
    (s.writeBytes b off xs).readByte b (off + j) = xs.getD j 0 := by
  rw [State.readByte_writeBytes, dif_pos ⟨rfl, by omega, by omega⟩]
  simp [hj]

theorem readByte_writeBytes_of_outside {k : Nat} (hk : k < off ∨ off + xs.length ≤ k) :
    (s.writeBytes b off xs).readByte b k = s.readByte b k := by
  rw [State.readByte_writeBytes, dif_neg (by omega)]

end Sys2Proof.Machine
end

section
/-! PROOFS. GF(256) as the residues of polynomials over GF(2) modulo the field polynomial (41_gf256.md R160, R161): what
the product, the tables and the polynomials over the field are there. -/
namespace Sys2Proof.Machine
open Polynomial (X)

/-! ### Bytes as residues of polynomials -/

/-- The field polynomial 0x11D over GF(2) (R161). -/
noncomputable def fieldPoly : Polynomial (ZMod 2) := X ^ 8 + X ^ 4 + X ^ 3 + X ^ 2 + 1

/-- The polynomial over GF(2) whose coefficients are the bits of `x` (R160). -/
noncomputable def bitPoly {n : Nat} (x : BitVec n) : Polynomial (ZMod 2) :=
  ∑ i ∈ Finset.range n, if x.getLsbD i then X ^ i else 0

/-- The residues of the polynomials over GF(2) modulo the field polynomial. -/
abbrev Residue : Type := AdjoinRoot fieldPoly

/-- The residue that a byte stands for. -/
noncomputable def residue (x : Byte) : Residue := AdjoinRoot.mk fieldPoly (bitPoly x)

/-- The residue of the polynomial X, which is the byte 0x02. -/
noncomputable abbrev alpha : Residue := AdjoinRoot.root fieldPoly

theorem bitPoly_xor {n : Nat} (x y : BitVec n) : bitPoly (x ^^^ y) = bitPoly x + bitPoly y := by
  rw [bitPoly, bitPoly, bitPoly, ← Finset.sum_add_distrib]
  refine Finset.sum_congr rfl fun i _ => ?_
  rw [BitVec.getLsbD_xor]
  cases x.getLsbD i <;> cases y.getLsbD i <;> simp [CharTwo.add_self_eq_zero]

theorem coeff_bitPoly {n : Nat} (x : BitVec n) (i : Nat) : (bitPoly x).coeff i = if x.getLsbD i then 1 else 0 := by
  have term : ∀ j, (if x.getLsbD j then (X : Polynomial (ZMod 2)) ^ j else 0).coeff i
      = if j = i then if x.getLsbD i then 1 else 0 else 0 := fun j => by
    by_cases h : j = i
    · subst h; split <;> simp
    · rw [if_neg h]; split <;> simp [Polynomial.coeff_X_pow, Ne.symm h]
  rw [bitPoly, Polynomial.finsetSum_coeff, Finset.sum_congr rfl fun j _ => term j, Finset.sum_ite_eq']
  by_cases h : i < n
  · rw [if_pos (Finset.mem_range.2 h)]
  · rw [if_neg (by simpa using h), BitVec.getLsbD_of_ge x i (by omega)]; rfl

theorem bitPoly_fieldPoly : bitPoly 0x11D#9 = fieldPoly := by
  have bits : bitPoly 0x11D#9 = 1 + X ^ 2 + X ^ 3 + X ^ 4 + X ^ 8 := by simp [bitPoly, Finset.sum_range_succ]
  rw [bits, fieldPoly]
  ring

/-- Shifting left in a wider vector is multiplication by X. -/
theorem bitPoly_shiftLeft (r : Byte) : bitPoly (r.setWidth 9 <<< 1) = X * bitPoly r := by
  ext i
  rw [coeff_bitPoly, BitVec.getLsbD_shiftLeft, BitVec.getLsbD_setWidth]
  rcases i with _ | i
  · simp
  · rw [Polynomial.coeff_X_mul, coeff_bitPoly]
    rcases Nat.lt_or_ge i 8 with hi | hi
    · simp [show i < 9 by omega, show i + 1 < 9 by omega, -BitVec.getLsbD_eq_getElem]
    · simp [BitVec.getLsbD_of_ge r i hi]

theorem bitPoly_setWidth {t : BitVec 9} (h : t.getLsbD 8 = false) : bitPoly (t.setWidth 8) = bitPoly t := by
  ext i
  rw [coeff_bitPoly, coeff_bitPoly, BitVec.getLsbD_setWidth]
  rcases Nat.lt_trichotomy i 8 with hi | rfl | hi
  · simp [hi]
  · rw [h, decide_eq_false (Nat.lt_irrefl 8), Bool.false_and]
  · simp [BitVec.getLsbD_of_ge t i hi]

theorem monic_fieldPoly : fieldPoly.Monic := by
  unfold fieldPoly
  monicity!

theorem degree_fieldPoly : fieldPoly.degree = 8 := by
  unfold fieldPoly
  compute_degree!

theorem two_eq_zero : (2 : Residue) = 0 := by
  have two : (2 : Polynomial (ZMod 2)) = 0 := CharTwo.two_eq_zero
  rw [← map_ofNat (AdjoinRoot.mk fieldPoly) 2]
  exact (congrArg _ two).trans (map_zero _)

@[simp] theorem residue_zero : residue 0#8 = 0 := by simp [residue, bitPoly]

@[simp] theorem residue_one : residue 1#8 = 1 := by simp [residue, bitPoly]

@[simp] theorem residue_xor (a b : Byte) : residue (a ^^^ b) = residue a + residue b := by
  rw [residue, bitPoly_xor, map_add]; rfl

theorem eq_zero_of_residue {a : Byte} (h : residue a = 0) : a = 0 := by
  have hd : (bitPoly a).degree < fieldPoly.degree := by
    rw [degree_fieldPoly]
    refine (Polynomial.degree_lt_iff_coeff_zero _ 8).2 fun i hi => ?_
    rw [coeff_bitPoly, BitVec.getLsbD_of_ge a i hi]; rfl
  have hz : bitPoly a = 0 := by
    by_contra hne
    exact monic_fieldPoly.not_dvd_of_degree_lt hne hd (AdjoinRoot.mk_eq_zero.1 h)
  refine BitVec.eq_of_getLsbD_eq fun i _ => ?_
  have := coeff_bitPoly a i
  rw [hz] at this
  simpa using this

theorem residue_injective : Function.Injective residue := by
  intro a b h
  rw [← BitVec.xor_eq_zero_iff]
  refine eq_zero_of_residue ?_
  rw [residue_xor, h]
  linear_combination residue b * two_eq_zero

/-- Multiplication by X reduces by the field polynomial when bit 8 appears. -/
@[simp] theorem residue_gfDouble (r : Byte) : residue (gfDouble r) = alpha * residue r := by
  have shifted : AdjoinRoot.mk fieldPoly (bitPoly (r.setWidth 9 <<< 1)) = alpha * residue r := by
    rw [bitPoly_shiftLeft, map_mul, AdjoinRoot.mk_X]; rfl
  rw [← shifted, residue, gfDouble]
  generalize r.setWidth 9 <<< 1 = t
  cases h : t.getLsbD 8
  · rw [if_neg (by decide), bitPoly_setWidth h]
  · rw [if_pos rfl, bitPoly_setWidth (by simp [h]), bitPoly_xor, bitPoly_fieldPoly, map_add,
      AdjoinRoot.mk_self, add_zero]

@[simp] theorem residue_gfMul (a b : Byte) : residue (gfMul a b) = residue a * residue b := by
  have step : ∀ (r : Byte) (c : Bool), residue (if c then gfDouble r ^^^ a else gfDouble r)
      = alpha * residue r + (if c then 1 else 0) * residue a := fun r c => by cases c <;> simp
  have horner : residue b = ∑ i ∈ Finset.range 8, (if b.getLsbD i then 1 else 0) * alpha ^ i := by
    rw [residue, bitPoly, map_sum]
    refine Finset.sum_congr rfl fun i _ => ?_
    split <;> simp
  rw [horner]
  simp only [gfMul, List.foldl_cons, List.foldl_nil, step, BitVec.ofNat_eq_ofNat, residue_zero,
    Finset.sum_range_succ, Finset.sum_range_zero]
  ring

/-! ### The laws of the field (R166) -/

theorem gfMul_comm (a b : Byte) : gfMul a b = gfMul b a :=
  residue_injective (by rw [residue_gfMul, residue_gfMul, mul_comm])

theorem gfMul_assoc (a b c : Byte) : gfMul (gfMul a b) c = gfMul a (gfMul b c) :=
  residue_injective (by simp only [residue_gfMul, mul_assoc])

theorem gfMul_xor (a b c : Byte) : gfMul a (b ^^^ c) = gfMul a b ^^^ gfMul a c :=
  residue_injective (by simp only [residue_gfMul, residue_xor, mul_add])

@[simp] theorem gfMul_one (a : Byte) : gfMul a 1#8 = a :=
  residue_injective (by rw [residue_gfMul, residue_one, mul_one])

@[simp] theorem gfMul_zero (a : Byte) : gfMul a 0#8 = 0#8 :=
  residue_injective (by rw [residue_gfMul, residue_zero, mul_zero])

@[simp] theorem zero_gfMul (a : Byte) : gfMul 0#8 a = 0#8 := by rw [gfMul_comm, gfMul_zero]

theorem gfMul_two (a : Byte) : gfMul 0x02 a = gfDouble a :=
  residue_injective (by
    rw [residue_gfMul, residue_gfDouble]
    simp [residue, bitPoly, Finset.sum_range_succ])

/-! ### The powers of α and the logarithm (R162, R165, R166) -/

@[simp] theorem residue_gfExp (i : Nat) : residue (gfExp i) = alpha ^ i := by
  induction i with
  | zero => exact residue_one
  | succ i ih => rw [gfExp, residue_gfDouble, ih, pow_succ']

theorem alpha_pow_eq_one_iff (i : Nat) : alpha ^ i = 1 ↔ gfExp i = 1 := by
  rw [← residue_gfExp, ← residue_one]
  exact residue_injective.eq_iff

theorem gfExp_period : gfExp 255 = 1 := by decide +kernel

theorem alpha_pow_period : alpha ^ 255 = 1 := (alpha_pow_eq_one_iff 255).2 gfExp_period

/-- α has order 255 = 3 · 5 · 17: no power by 85, 51 or 15 is 1. -/
theorem orderOf_alpha : orderOf alpha = 255 := by
  refine orderOf_eq_of_pow_and_pow_div_prime (by decide) alpha_pow_period fun p hp hdvd => ?_
  have hmem : p ∈ Nat.primeFactors 255 := Nat.mem_primeFactors.2 ⟨hp, hdvd, by decide⟩
  rw [show Nat.primeFactors 255 = {3, 5, 17} by decide +kernel] at hmem
  rw [ne_eq, alpha_pow_eq_one_iff]
  simp only [Finset.mem_insert, Finset.mem_singleton] at hmem
  rcases hmem with rfl | rfl | rfl <;> decide +kernel

theorem gfExp_injOn : Set.InjOn gfExp (Set.Iio 255) := fun i hi j hj h =>
  pow_injOn_Iio_orderOf (x := alpha) (by rwa [orderOf_alpha]) (by rwa [orderOf_alpha])
    (by simpa using congrArg residue h)

theorem gfExp_mod (i : Nat) : gfExp (i % 255) = gfExp i :=
  residue_injective (by rw [residue_gfExp, residue_gfExp, ← pow_eq_pow_mod i alpha_pow_period])

theorem gfMul_gfExp (i j : Nat) : gfMul (gfExp i) (gfExp j) = gfExp (i + j) :=
  residue_injective (by simp [pow_add])

theorem gfExp_ne_zero (i : Nat) : gfExp i ≠ 0 := by
  intro h
  have inverse : gfMul (gfExp i) (gfExp (254 * i)) = 1 := by
    rw [gfMul_gfExp, ← gfExp_mod, show i + 254 * i = 255 * i by omega, Nat.mul_mod_right]; rfl
  exact absurd (h ▸ inverse) (by simp)

/-- The 255 powers of α are the 255 bytes other than 0. -/
theorem exists_gfExp {a : Byte} (ha : a ≠ 0) : ∃ i ≤ 254, gfExp i = a := by
  have hcard : Fintype.card Byte = 256 := (Fintype.card_congr BitVec.equivFin.toEquiv).trans (Fintype.card_fin _)
  have himage : (Finset.range 255).image gfExp = Finset.univ.erase 0 := by
    refine Finset.eq_of_subset_of_card_le (fun x hx => ?_) ?_
    · obtain ⟨i, -, rfl⟩ := Finset.mem_image.1 hx
      exact Finset.mem_erase.2 ⟨gfExp_ne_zero i, Finset.mem_univ _⟩
    · rw [Finset.card_image_of_injOn (by simpa using gfExp_injOn), Finset.card_erase_of_mem (Finset.mem_univ _),
        Finset.card_univ, hcard, Finset.card_range]
  obtain ⟨i, hi, h⟩ := Finset.mem_image.1 (himage ▸ Finset.mem_erase.2 ⟨ha, Finset.mem_univ a⟩)
  exact ⟨i, by simpa [Nat.lt_succ_iff] using hi, h⟩

/-- The search from exponent `i` finds a power of α that it reaches. -/
theorem gfLogFrom_spec {a : Byte} {i fuel j : Nat} (hi : i ≤ j) (hj : j ≤ i + fuel) (h : gfExp j = a) :
    gfExp (gfLogFrom a (gfExp i) i fuel) = a ∧ gfLogFrom a (gfExp i) i fuel ≤ i + fuel := by
  induction fuel generalizing i with
  | zero =>
    rw [gfLogFrom, show i = j by omega]
    exact ⟨h, Nat.le_refl _⟩
  | succ fuel ih =>
    rw [gfLogFrom]
    split
    · next hx => exact ⟨hx, by omega⟩
    · next hx =>
      have hne : i ≠ j := fun hc => hx (hc ▸ h)
      obtain ⟨hexp, hle⟩ := ih (i := i + 1) (by omega) (by omega)
      exact ⟨hexp, Nat.le_trans hle (by omega)⟩

theorem gfLog_spec {a : Byte} (ha : a ≠ 0) : gfExp (gfLog a) = a ∧ gfLog a ≤ 254 := by
  obtain ⟨j, hj, h⟩ := exists_gfExp ha
  simpa [gfLog, gfExp] using gfLogFrom_spec (i := 0) (fuel := 254) (Nat.zero_le j) (by omega) h

theorem eq_gfLog {a : Byte} {i : Nat} (hi : i ≤ 254) (h : gfExp i = a) : i = gfLog a := by
  obtain ⟨hexp, hle⟩ := gfLog_spec (h ▸ gfExp_ne_zero i)
  exact gfExp_injOn (Set.mem_Iio.2 (by omega)) (Set.mem_Iio.2 (by omega)) (h.trans hexp.symm)

/-- The product through the tables (R165). -/
theorem gfMul_eq_gfExp {a b : Byte} (ha : a ≠ 0) (hb : b ≠ 0) :
    gfMul a b = gfExp ((gfLog a + gfLog b) % 255) := by
  rw [gfExp_mod, ← gfMul_gfExp, (gfLog_spec ha).1, (gfLog_spec hb).1]

/-- The inverse through the tables (R166). -/
theorem gfMul_inverse {a : Byte} (ha : a ≠ 0) : gfMul a (gfExp ((255 - gfLog a) % 255)) = 1 := by
  obtain ⟨hexp, hle⟩ := gfLog_spec ha
  calc gfMul a (gfExp ((255 - gfLog a) % 255))
      = gfMul (gfExp (gfLog a)) (gfExp (255 - gfLog a)) := by rw [gfExp_mod, hexp]
    _ = gfExp 255 := by rw [gfMul_gfExp, Nat.add_sub_cancel' (by omega)]
    _ = 1 := gfExp_period

theorem eq_of_gfMul_eq_one {a b c : Byte} (hb : gfMul a b = 1) (hc : gfMul a c = 1) : b = c :=
  calc b = gfMul b (gfMul a c) := by rw [hc]; exact (gfMul_one b).symm
    _ = gfMul (gfMul a b) c := by rw [← gfMul_assoc, gfMul_comm b]
    _ = c := by rw [hb, gfMul_comm]; exact gfMul_one c

/-! ### Polynomials over the field (R160, R167) -/

@[simp] theorem polyEval_nil (x : Byte) : polyEval [] x = 0 := rfl

theorem polyEval_concat (p : List Byte) (a x : Byte) : polyEval (p ++ [a]) x = gfMul (polyEval p x) x ^^^ a := by
  simp [polyEval]

theorem residue_polyEval_append (p q : List Byte) (x : Byte) : residue (polyEval (p ++ q) x)
    = residue (polyEval p x) * residue x ^ q.length + residue (polyEval q x) := by
  induction q using List.reverseRecOn with
  | nil => simp
  | append_singleton q a ih =>
    rw [← List.append_assoc, polyEval_concat, polyEval_concat, List.length_append, List.length_singleton]
    simp only [residue_xor, residue_gfMul, ih]
    ring

theorem residue_polyEval_cons (a : Byte) (p : List Byte) (x : Byte) :
    residue (polyEval (a :: p) x) = residue a * residue x ^ p.length + residue (polyEval p x) := by
  have single : polyEval [a] x = a := by rw [← List.nil_append [a], polyEval_concat]; simp
  rw [← List.singleton_append, residue_polyEval_append, single]

theorem polyEval_replicate_zero (n : Nat) (x : Byte) : polyEval (List.replicate n 0) x = 0 := by
  induction n with
  | zero => rfl
  | succ n ih => exact residue_injective (by rw [List.replicate_succ, residue_polyEval_cons, ih]; simp)

/-- Adding to `p` the polynomial `q` scaled by `f`. -/
theorem residue_polyEval_zipWith (f x : Byte) {p q : List Byte} (h : p.length = q.length) :
    residue (polyEval (List.zipWith (fun a b => a ^^^ gfMul b f) p q) x)
      = residue (polyEval p x) + residue (polyEval q x) * residue f := by
  induction p generalizing q with
  | nil => obtain rfl := List.eq_nil_of_length_eq_zero h.symm; simp
  | cons a p ih =>
    obtain ⟨b, q, rfl⟩ := List.exists_cons_of_length_eq_add_one h.symm
    have hlen : p.length = q.length := Nat.succ.inj h
    simp only [List.zipWith_cons_cons, residue_polyEval_cons, ih hlen, List.length_zipWith, hlen, Nat.min_self,
      residue_xor, residue_gfMul]
    ring

theorem polyEval_polyMulLinear (g : List Byte) (c x : Byte) :
    polyEval (polyMulLinear g c) x = gfMul (polyEval g x) (x ^^^ c) := by
  have hmul : polyMulLinear g c = List.zipWith (fun a b => a ^^^ gfMul b c) (g ++ [0]) (0 :: g) := by
    rw [polyMulLinear, ← List.zipWith_map_right (f := fun b => gfMul b c) (g := (· ^^^ ·)), List.map_cons]
    simp
  refine residue_injective ?_
  rw [hmul, residue_polyEval_zipWith _ _ (by simp), polyEval_concat, residue_polyEval_cons]
  simp only [residue_xor, residue_gfMul, BitVec.ofNat_eq_ofNat, residue_zero]
  ring

theorem genPoly_head (e : Nat) : (genPoly e).head? = some 1 := by
  induction e with
  | zero => rfl
  | succ e ih =>
    obtain ⟨g, hg⟩ := List.head?_eq_some_iff.1 ih
    rw [genPoly, hg]; rfl

theorem genPoly_eq_cons (e : Nat) : genPoly e = 1 :: (genPoly e).tail :=
  (List.cons_head?_tail (genPoly_head e)).symm

theorem polyEval_genPoly (e : Nat) (x : Byte) :
    polyEval (genPoly e) x = (List.range e).foldl (fun acc i => gfMul acc (x ^^^ gfExp i)) 1 := by
  induction e with
  | zero => exact residue_injective (by rw [genPoly, residue_polyEval_cons]; simp)
  | succ e ih => rw [genPoly, polyEval_polyMulLinear, ih, List.range_succ, List.foldl_concat]

theorem polyEval_genPoly_root {e i : Nat} (hi : i < e) : polyEval (genPoly e) (gfExp i) = 0 := by
  refine residue_injective ?_
  induction e with
  | zero => omega
  | succ e ih =>
    rw [genPoly, polyEval_polyMulLinear, residue_gfMul]
    rcases Nat.lt_succ_iff_lt_or_eq.1 hi with h | rfl
    · simp [ih h]
    · simp

/-! ### The long division (R180, R181) -/

section
variable {e : Nat} {x : Byte}

theorem rsEncode_concat (d : List Byte) (b : Byte) (e : Nat) :
    rsEncode (d ++ [b]) e = rsStep (genPoly e).tail (rsEncode d e) b := by
  simp [rsEncode]

@[simp] theorem length_rsEncode (d : List Byte) (e : Nat) : (rsEncode d e).length = e := by
  induction d using List.reverseRecOn with
  | nil => simp [rsEncode]
  | append_singleton d b ih =>
    rw [rsEncode_concat, rsStep]
    simp only [List.length_zipWith, List.length_append, List.length_tail, List.length_singleton, length_genPoly, ih]
    omega

/-- A step of the division at a root of the generator: the remainder of `d · x^e` takes in one more codeword. -/
theorem residue_polyEval_rsStep {g r : List Byte} (hr : r.length = g.length) (hg : g ≠ [])
    (hroot : polyEval (1 :: g) x = 0) (b : Byte) : residue (polyEval (rsStep g r b) x)
      = residue (polyEval r x) * residue x + residue b * residue x ^ g.length := by
  obtain ⟨r0, r, rfl⟩ := List.exists_cons_of_ne_nil (l := r) (by rintro rfl; exact hg (by simpa using hr.symm))
  have hlead := congrArg residue hroot
  rw [residue_polyEval_cons, ← hr] at hlead
  rw [rsStep, residue_polyEval_zipWith _ _ (by simpa using hr), List.tail_cons, List.headD_cons, polyEval_concat,
    residue_polyEval_cons, ← hr]
  simp only [residue_xor, residue_gfMul, BitVec.ofNat_eq_ofNat, residue_zero, residue_one, List.length_cons]
    at hlead ⊢
  linear_combination (residue b + residue r0) * hlead
    - residue x ^ (r.length + 1) * (residue b + residue r0) * two_eq_zero

theorem residue_polyEval_rsEncode (he : 1 ≤ e) (hroot : polyEval (genPoly e) x = 0) (d : List Byte) :
    residue (polyEval (rsEncode d e) x) = residue (polyEval d x) * residue x ^ e := by
  have hlen : (genPoly e).tail.length = e := by simp
  induction d using List.reverseRecOn with
  | nil => rw [rsEncode, List.foldl_nil, polyEval_replicate_zero]; simp
  | append_singleton d b ih =>
    rw [rsEncode_concat, residue_polyEval_rsStep (by rw [hlen, length_rsEncode])
      (List.ne_nil_of_length_pos (by omega)) (genPoly_eq_cons e ▸ hroot), hlen, ih, polyEval_concat]
    simp only [residue_xor, residue_gfMul]
    ring

theorem polyEval_codeword (he : 1 ≤ e) (hroot : polyEval (genPoly e) x = 0) (d : List Byte) :
    polyEval (d ++ rsEncode d e) x = 0 := by
  refine residue_injective ?_
  rw [residue_polyEval_append, residue_polyEval_rsEncode he hroot, length_rsEncode]
  simp only [BitVec.ofNat_eq_ofNat, residue_zero]
  linear_combination residue (polyEval d x) * residue x ^ e * two_eq_zero

end

end Sys2Proof.Machine
end

section
/-! PROOFS. The statements of 41_gf256.md, and the codeword of 42_reed_solomon.md R180. -/
open Sys2Proof Sys2Proof.Machine

/-- Settles O18: the product of two bytes has the residue of their polynomials' product (`residue_gfMul`), the laws are
those of the ring of residues, and the inverse is read from the powers of α (`gfMul_inverse`). -/
theorem fieldArithmetic : Obligations.FieldArithmetic := by
  refine ⟨fun a b => ?_, fun a b c => ⟨gfMul_comm a b, gfMul_assoc a b c, gfMul_one a, gfMul_zero a, gfMul_xor a b c,
    fun ha => ⟨gfMul_inverse ha, fun hb => eq_of_gfMul_eq_one hb (gfMul_inverse ha)⟩, gfExp_period, BitVec.xor_self⟩⟩
  have hmk : AdjoinRoot.mk fieldPoly (bitPoly a * bitPoly b) = AdjoinRoot.mk fieldPoly (bitPoly (gfMul a b)) := by
    rw [map_mul]; exact (residue_gfMul a b).symm
  obtain ⟨q, hq⟩ := AdjoinRoot.mk_eq_mk.1 hmk
  exact ⟨q, by rw [mul_comm q]; exact eq_add_of_sub_eq hq⟩

/-- Settles O19: the rule raises no error, and the product is read from the tables (`gfMul_eq_gfExp`). -/
theorem gfMulCommand : Obligations.GfMulCommand := by
  refine ⟨encoded_of_row (row := ⟨0x20, 0xFF0000FF, fun w => .gfMul (fieldA w) (fieldB w)⟩) rfl rfl rfl,
    fun s a b => ⟨rfl, ?_⟩⟩
  split
  · next h => rcases h with rfl | rfl <;> simp
  · next h => exact gfMul_eq_gfExp (fun ha => h (.inl ha)) (fun hb => h (.inr hb))

/-- Settles O20: the rule raises no error, and no power of α is 0 (`gfExp_ne_zero`). -/
theorem gfExpCommand : Obligations.GfExpCommand :=
  ⟨encoded_of_row (row := ⟨0x21, 0xFFFF00FF, fun w => .gfExp (fieldA w)⟩) rfl rfl rfl,
    fun _ _ => ⟨rfl, rfl, fun k => (gfMul_two (gfExp k)).symm, gfExp_ne_zero _⟩⟩

/-- Settles O21: by the cases of the rule, and the logarithm is the exponent of its power of α (`gfLog_spec`). -/
theorem gfLogCommand : Obligations.GfLogCommand := by
  refine ⟨encoded_of_row (row := ⟨0x22, 0xFFFF00FF, fun w => .gfLog (fieldA w)⟩) rfl rfl rfl, fun s a => ?_⟩
  rcases ruleGfLog_cases a s with ⟨ha, hr⟩ | ⟨ha, hr⟩
  · obtain ⟨hexp, hle⟩ := gfLog_spec ha
    exact ⟨fun h => absurd h ha, fun _ => ⟨finish_ok hr, hle, hexp, fun _ hi h => eq_gfLog hi h⟩⟩
  · exact ⟨fun _ => finish_error hr, fun h => absurd ha h⟩

/-- Settles O22, by induction on the degree (`genPoly_head`, `polyEval_genPoly`). -/
theorem generatorPolynomial : Obligations.GeneratorPolynomial := fun e =>
  ⟨length_genPoly e, genPoly_head e, polyEval_genPoly e⟩

/-- Settles O23: by the cases of the rule (`ruleGfGenpoly_cases`). -/
theorem gfGenpolyCommand : Obligations.GfGenpolyCommand := by
  refine ⟨encoded_of_row (row := ⟨0x23, 0xFFC0FFFF, fun w => .gfGenpoly (fieldE w)⟩) rfl rfl rfl, fun s e => ?_⟩
  intro n dst
  rcases ruleGfGenpoly_cases e s with ⟨h1, h30, hfit, hr⟩ | ⟨bad, hr⟩ | ⟨h1, h30, hfit, hr⟩
  · refine ⟨fun _ => by omega, fun _ _ _ => by omega, fun _ _ _ => ⟨_, finish_ok hr, rfl,
      fun _ k hd => readByte_writeBytes_of_ne s .cwbuf dst (genPoly n) hd k,
      readCell_writeBytes s .cwbuf dst (genPoly n) .wmat, readCell_writeBytes s .cwbuf dst (genPoly n) .cmat,
      fun j hj => readByte_writeBytes_of_lt s .cwbuf dst (genPoly n) ?_,
      fun k hk => readByte_writeBytes_of_outside s .cwbuf dst (genPoly n) ?_⟩⟩ <;> rw [length_genPoly] <;> omega
  · exact ⟨fun _ => finish_error hr, fun _ _ => by omega, fun _ _ => by omega⟩
  · exact ⟨fun _ => by omega, fun _ _ _ => finish_error hr, fun _ _ => by omega⟩

/-- Settles O24: the value of the EC codewords at a root of the generator is that of the data shifted by e places
(`residue_polyEval_rsEncode`), and the sum of equal values is 0. -/
theorem remainderMakesCodeword : Obligations.RemainderMakesCodeword := fun d e h1 h255 =>
  ⟨length_rsEncode d e, fun _ hi => polyEval_codeword h1 (polyEval_genPoly_root hi) d, fun _ hi =>
    polyEval_genPoly_root hi, List.nodup_range.map_on fun _ hi _ hj h =>
      gfExp_injOn (Set.mem_Iio.2 ((List.mem_range.1 hi).trans_le h255))
        (Set.mem_Iio.2 ((List.mem_range.1 hj).trans_le h255)) h⟩

end

section
/-! PROOFS. What a range read lists and what a written byte reads as (20_memory.md R102); how the blocks split the data
codewords (42_reed_solomon.md R183), and where the round robin puts each codeword of each block (R185 to R188). -/
namespace Sys2Proof.Machine

/-! ### Ranges of bytes (20_memory.md R102) -/

theorem readBytes_eq_map_range {s : State} (inv : Inv s) (b : Config.ByteMem) (off n : Nat) :
    s.readBytes b off n = (List.range n).map fun k => s.readByte b (off + k) := by
  rw [State.readBytes_eq_map s b off n (inv.memories.bytes b).1, List.range'_eq_map_range, List.map_map]
  rfl

theorem readByte_writeBytes_of_getElem? (s : State) (b : Config.ByteMem) {xs : List Byte} {k : Nat} {x : Byte}
    (h : xs[k]? = some x) : (s.writeBytes b 0 xs).readByte b k = x := by
  obtain ⟨hk, rfl⟩ := List.getElem?_eq_some_iff.1 h
  simpa [hk] using readByte_writeBytes_of_lt s b 0 xs hk

theorem getElem?_append_of_some {xs : List Byte} (ys : List Byte) {k : Nat} {x : Byte} (h : xs[k]? = some x) :
    (xs ++ ys)[k]? = some x := by
  rw [List.getElem?_append_left (List.getElem?_eq_some_iff.1 h).1, h]

/-! ### The round robin (R185, R186) -/

section
variable {nb n : Nat} {block : Nat → List Byte}

theorem roundRobin_succ (n : Nat) (blocks : List (List Byte)) :
    roundRobin (n + 1) blocks = roundRobin n blocks ++ blocks.filterMap fun block => block[n]? := by
  simp [roundRobin, List.range_succ]

/-- A round in which every block has a codeword. -/
theorem filterMap_getElem?_of_lt (full : ∀ b < nb, n < (block b).length) :
    ((List.range nb).map block).filterMap (fun d => d[n]?) = (List.range nb).map fun b => (block b).getD n 0 := by
  rw [List.filterMap_map, ← List.filterMap_eq_map]
  refine List.filterMap_congr fun b hb => ?_
  have := full b (List.mem_range.1 hb)
  simp [this]

theorem length_roundRobin (full : ∀ b < nb, n ≤ (block b).length) :
    (roundRobin n ((List.range nb).map block)).length = n * nb := by
  induction n with
  | zero => simp [roundRobin]
  | succ n ih =>
    rw [roundRobin_succ, filterMap_getElem?_of_lt full, List.length_append, ih fun b hb => Nat.le_of_succ_le (full b hb),
      List.length_map, List.length_range, Nat.succ_mul]

/-- Codeword `i` of block `b` is number `b` of round `i`. -/
theorem getElem?_roundRobin (full : ∀ b < nb, n ≤ (block b).length) {b i : Nat} (hb : b < nb) (hi : i < n) :
    (roundRobin n ((List.range nb).map block))[i * nb + b]? = some ((block b).getD i 0) := by
  induction n with
  | zero => omega
  | succ n ih =>
    have full' : ∀ b < nb, n ≤ (block b).length := fun b hb => Nat.le_of_succ_le (full b hb)
    rw [roundRobin_succ]
    rcases Nat.lt_succ_iff_lt_or_eq.1 hi with h | rfl
    · exact getElem?_append_of_some _ (ih full' h)
    · rw [List.getElem?_append_right (by rw [length_roundRobin full']; omega), length_roundRobin full',
        Nat.add_sub_cancel_left, filterMap_getElem?_of_lt full]
      simp [hb]

end

/-! ### The blocks of the data codewords (40_capacity.md R144, 42_reed_solomon.md R183) -/

/-- When each block starts where the one before it ends, the split gives every block the values at its own indexes. -/
theorem splitBlocks_map_range' {size off : Nat → Nat} (next : ∀ b, off (b + 1) = off b + size b) (f : Nat → Byte)
    (b n : Nat) : splitBlocks ((List.range' b n).map size)
      ((List.range' (off b) ((List.range' b n).map size).sum).map f) =
        (List.range' b n).map fun b => (List.range (size b)).map fun i => f (off b + i) := by
  induction n generalizing b with
  | zero => rfl
  | succ n ih =>
    rw [List.range'_succ, List.map_cons, List.map_cons, List.sum_cons, ← List.range'_append_1, List.map_append,
      splitBlocks, List.take_left' (by simp), List.drop_left' (by simp), ← next, ih, List.range'_eq_map_range,
      List.map_map]
    rfl

theorem blockOffset_succ (v : Nat) (l : EcLevel) (b : Nat) :
    blockOffset v l (b + 1) = blockOffset v l b + blockSize v l b := by
  rw [blockOffset, blockOffset, blockSize, Nat.succ_mul]
  split <;> omega

theorem sum_blockSizes (v : Nat) (l : EcLevel) : (blockSizes v l).sum = dataCodewords v l := by
  simp [blockSizes, dataCodewords]

theorem shortData_le_blockSize (v : Nat) (l : EcLevel) (b : Nat) : shortData v l ≤ blockSize v l b := by
  rw [blockSize]
  split <;> omega

section
variable {v : Nat} (h1 : 1 ≤ v) (h40 : v ≤ 40) (l : EcLevel)

include h1 h40

/-- The short blocks come first. -/
theorem blockSizes_eq_map_range : blockSizes v l = (List.range (blockCount v l)).map (blockSize v l) := by
  rw [← shortBlocks_add_longBlocks h1 h40 l, List.range_add, List.map_append, blockSizes]
  congr 1 <;> refine (List.eq_replicate_iff.2 ⟨by simp, ?_⟩).symm <;> simp +contextual [blockSize]

theorem dataCodewords_eq : dataCodewords v l = shortData v l * blockCount v l + longBlocks v l := by
  rw [dataCodewords, ← shortBlocks_add_longBlocks h1 h40 l]
  ring

end

/-- The data codewords of block `b` that CWBUF holds. -/
def dataBlock (s : State) (v : Nat) (l : EcLevel) (b : Nat) : List Byte :=
  (List.range (blockSize v l b)).map fun i => s.readByte .cwbuf (blockOffset v l b + i)

@[simp] theorem length_dataBlock (s : State) (v : Nat) (l : EcLevel) (b : Nat) :
    (dataBlock s v l b).length = blockSize v l b := by simp [dataBlock]

/-! ### The final codeword stream (R185 to R188) -/

/-- The data codewords in the order of the stream: SD rounds of all blocks, then the last codewords of the
long blocks. -/
def dataRounds (s : State) (v : Nat) (l : EcLevel) : List Byte :=
  roundRobin (shortData v l) ((List.range (blockCount v l)).map (dataBlock s v l)) ++
    (List.range (longBlocks v l)).map fun j => (dataBlock s v l (shortBlocks v l + j)).getD (shortData v l) 0

/-- The final codeword stream of the data codewords that CWBUF holds. -/
abbrev cwbufStream (s : State) (v : Nat) (l : EcLevel) : List Byte :=
  finalStream v l (s.readBytes .cwbuf 0 (dataCodewords v l))

theorem shortData_le_length_dataBlock (s : State) (v : Nat) (l : EcLevel) (b : Nat) :
    shortData v l ≤ (dataBlock s v l b).length :=
  (shortData_le_blockSize v l b).trans_eq (length_dataBlock s v l b).symm

section
variable {v : Nat} (h1 : 1 ≤ v) (h40 : v ≤ 40) (s : State) (l : EcLevel)
include h1 h40

theorem exec_eccInterleave_ok : exec (.eccInterleave (BitVec.ofNat 6 v) l.selector) s =
    .next (s.writeBytes .final 0 (cwbufStream s v l)).complete :=
  finish_ok (rule := ruleEccInterleave _ _) (by
    rw [ruleEccInterleave, operandVersion_ofNat h1 h40, operandEc_selector]; rfl)

/-- In round SD the long blocks alone have a codeword. -/
theorem roundRobin_dataBlock : roundRobin (shortData v l + 1) ((List.range (blockCount v l)).map (dataBlock s v l)) =
    dataRounds s v l := by
  have short : ((List.range (shortBlocks v l)).map (dataBlock s v l)).filterMap (fun d => d[shortData v l]?) = [] := by
    refine List.filterMap_eq_nil_iff.2 fun d hd => ?_
    obtain ⟨b, hb, rfl⟩ := List.mem_map.1 hd
    simp [blockSize, List.mem_range.1 hb]
  have last : ((List.range (blockCount v l)).map (dataBlock s v l)).filterMap (fun d => d[shortData v l]?) =
      (List.range (longBlocks v l)).map fun j => (dataBlock s v l (shortBlocks v l + j)).getD (shortData v l) 0 := by
    rw [← shortBlocks_add_longBlocks h1 h40 l, List.range_add, List.map_append, List.filterMap_append, short,
      List.nil_append, List.map_map, filterMap_getElem?_of_lt fun b _ => by simp [blockSize]]
    rfl
  rw [roundRobin_succ, last, dataRounds]

theorem length_dataRounds : (dataRounds s v l).length = dataCodewords v l := by
  rw [dataRounds, List.length_append, length_roundRobin fun b _ => shortData_le_length_dataBlock s v l b,
    List.length_map, List.length_range, dataCodewords_eq h1 h40]

end

section
variable {s : State} (inv : Inv s) {v : Nat} (h1 : 1 ≤ v) (h40 : v ≤ 40) (l : EcLevel)
include inv h1 h40

theorem splitBlocks_cwbuf : splitBlocks (blockSizes v l) (s.readBytes .cwbuf 0 (dataCodewords v l)) =
    (List.range (blockCount v l)).map (dataBlock s v l) := by
  have start : blockOffset v l 0 = 0 := by simp [blockOffset]
  have split := splitBlocks_map_range' (blockOffset_succ v l) (s.readByte .cwbuf) 0 (blockCount v l)
  rw [start, ← List.range_eq_range', ← blockSizes_eq_map_range h1 h40, sum_blockSizes,
    ← State.readBytes_eq_map s .cwbuf 0 _ (inv.memories.bytes .cwbuf).1] at split
  exact split

theorem cwbufStream_eq : cwbufStream s v l = dataRounds s v l ++ roundRobin (ecCount v l)
    ((List.range (blockCount v l)).map fun b => rsEncode (dataBlock s v l b) (ecCount v l)) := by
  rw [cwbufStream, finalStream, splitBlocks_cwbuf inv h1 h40, roundRobin_dataBlock h1 h40, List.map_map]
  rfl

theorem length_cwbufStream : (cwbufStream s v l).length = totalCodewords v := by
  rw [cwbufStream_eq inv h1 h40, List.length_append, length_dataRounds h1 h40, length_roundRobin fun b _ => by simp,
    ← dataCodewords_add_ec h1 h40 l, Nat.mul_comm (ecCount v l)]

/-- Data codeword `i` of block `b` (R188). -/
theorem cwbufStream_data {b i : Nat} (hb : b < blockCount v l) (hi : i < shortData v l) :
    (cwbufStream s v l)[i * blockCount v l + b]? = some ((dataBlock s v l b).getD i 0) := by
  rw [cwbufStream_eq inv h1 h40]
  exact getElem?_append_of_some _ (getElem?_append_of_some _
    (getElem?_roundRobin (fun b _ => shortData_le_length_dataBlock s v l b) hb hi))

/-- The extra data codeword of a long block (R188). -/
theorem cwbufStream_extra {b : Nat} (hb : b < blockCount v l) (long : shortBlocks v l ≤ b) :
    (cwbufStream s v l)[shortData v l * blockCount v l + (b - shortBlocks v l)]? =
      some ((dataBlock s v l b).getD (shortData v l) 0) := by
  have hj : b - shortBlocks v l < longBlocks v l := by have := shortBlocks_add_longBlocks h1 h40 l; omega
  have hlen := length_roundRobin (nb := blockCount v l) fun b _ => shortData_le_length_dataBlock s v l b
  rw [cwbufStream_eq inv h1 h40]
  refine getElem?_append_of_some _ ?_
  rw [dataRounds, List.getElem?_append_right (by omega), hlen, Nat.add_sub_cancel_left, List.getElem?_map,
    List.getElem?_range hj, Option.map_some, Nat.add_sub_cancel' long]

/-- EC codeword `i` of block `b` (R188). -/
theorem cwbufStream_ec {b i : Nat} (hb : b < blockCount v l) (hi : i < ecCount v l) :
    (cwbufStream s v l)[dataCodewords v l + i * blockCount v l + b]? =
      some ((rsEncode (dataBlock s v l b) (ecCount v l)).getD i 0) := by
  have hlen := length_dataRounds h1 h40 s l
  rw [cwbufStream_eq inv h1 h40, Nat.add_assoc, List.getElem?_append_right (by omega), hlen, Nat.add_sub_cancel_left,
    getElem?_roundRobin (fun b _ => by simp) hb hi]

end

end Sys2Proof.Machine
end

section
/-! PROOFS. The statements about the commands of 42_reed_solomon.md. -/
open Sys2Proof Sys2Proof.Machine

/-- Settles O25: by the cases of the rule (`ruleRsEnc_cases`); the bytes read are those of the state before. -/
theorem rsEncCommand : Obligations.RsEncCommand := by
  refine ⟨encoded_of_row (row := ⟨0x30, 0xFFC000FF, fun w => .rsEnc (fieldN w) (fieldE w)⟩) rfl rfl rfl,
    fun s n e inv => ?_⟩
  intro src dst ecs data
  rcases ruleRsEnc_cases n e s with ⟨h1, h30, hsrc, hdst, hr⟩ | ⟨bad, hr⟩ | ⟨h1, h30, hsrc, hr⟩ |
    ⟨h1, h30, hsrc, hdst, hr⟩
  · rw [readBytes_eq_map_range inv] at hr
    refine ⟨fun _ => by omega, fun _ _ _ => by omega, fun _ _ _ _ => by omega, fun _ _ _ _ => ⟨_, finish_ok hr, rfl,
      fun _ k hd => readByte_writeBytes_of_ne s .cwbuf dst (rsEncode data ecs) hd k,
      readCell_writeBytes s .cwbuf dst (rsEncode data ecs) .wmat,
      readCell_writeBytes s .cwbuf dst (rsEncode data ecs) .cmat,
      fun j hj => readByte_writeBytes_of_lt s .cwbuf dst (rsEncode data ecs) ?_,
      fun k hk => readByte_writeBytes_of_outside s .cwbuf dst (rsEncode data ecs) ?_⟩⟩ <;> rwa [length_rsEncode]
  · exact ⟨fun _ => finish_error hr, fun _ _ => by omega, fun _ _ => by omega, fun _ _ => by omega⟩
  · exact ⟨fun _ => by omega, fun _ _ _ => finish_error hr, fun _ _ _ => by omega, fun _ _ _ => by omega⟩
  · exact ⟨fun _ => by omega, fun _ _ _ => by omega, fun _ _ _ _ => finish_error hr, fun _ _ _ _ => by omega⟩

/-- Settles O26: the errors by the cases of the rule (`ruleEccInterleave_cases`), and FINAL by the place of each
codeword in the stream (`cwbufStream_data`, `cwbufStream_extra`, `cwbufStream_ec`). -/
theorem eccInterleaveCommand : Obligations.EccInterleaveCommand := by
  refine ⟨encoded_of_row (row := ⟨0x31, 0xFFFE00FF, fun w => .eccInterleave (fieldVer w) (fieldEc w)⟩) rfl rfl rfl,
    fun s ver ec => ?_, fun s v l inv h1 h40 => ?_⟩
  · rw [show ver = 0 ↔ ver.toNat = 0 from BitVec.toNat_inj.symm]
    rcases ruleEccInterleave_cases ver ec s with ⟨l, h1, h40, hl, -⟩ | ⟨bad, hr⟩ | ⟨h1, h40, bad, hr⟩
    · have := toNat_le_of_operandEc hl
      exact ⟨fun _ => by omega, fun _ _ => by omega⟩
    · exact ⟨fun _ => finish_error hr, fun _ _ => by omega⟩
    · exact ⟨fun _ => by omega, fun _ _ => finish_error hr⟩
  · have hlen := length_cwbufStream inv h1 h40 l
    exact ⟨_, exec_eccInterleave_ok h1 h40 s l, rfl,
      fun _ k hd => readByte_writeBytes_of_ne s .final 0 (cwbufStream s v l) hd k,
      readCell_writeBytes s .final 0 (cwbufStream s v l) .wmat,
      readCell_writeBytes s .final 0 (cwbufStream s v l) .cmat,
      fun b hb i hi => readByte_writeBytes_of_getElem? s .final (cwbufStream_data inv h1 h40 l hb hi),
      fun b hb long => readByte_writeBytes_of_getElem? s .final (cwbufStream_extra inv h1 h40 l hb long),
      fun b hb i hi => readByte_writeBytes_of_getElem? s .final (cwbufStream_ec inv h1 h40 l hb hi),
      fun k hk => readByte_writeBytes_of_outside s .final 0 (cwbufStream s v l) (.inr (by omega))⟩

end

section
/-! PROOFS. The version that BITSTREAM selects (43_bitstream.md R223), and what it and APPEND answer for legal operands
(R214, R226). -/
namespace Sys2Proof.Machine

variable {s : State} {v ver : Nat} {l : EcLevel}

/-! ### Version selection (R222, R223) -/

theorem fits_iff (s : State) (l : EcLevel) (v : Nat) : s.fits l v = true ↔ s.streamBits v ≤ 8 * dataCodewords v l :=
  decide_eq_true_iff

/-- Version `v` is what `ver` asks for: `v` itself, or with AUTO the smallest that fits. -/
def Selects (s : State) (l : EcLevel) (ver v : Nat) : Prop :=
  ver = v ∨ (ver = 0 ∧ ∀ u, 1 ≤ u → u < v → ¬ s.streamBits u ≤ 8 * dataCodewords u l)

theorem selectVersion_fixed_overflow (h1 : 1 ≤ ver) (long : ¬ s.streamBits ver ≤ 8 * dataCodewords ver l) :
    s.selectVersion ver l = .error ⟨.overflow, BitVec.ofNat 32 (s.streamBits ver)⟩ := by
  rw [← fits_iff] at long
  rw [State.selectVersion, if_neg (by omega), if_neg long]
  rfl

theorem selectVersion_auto_overflow (long : ∀ v, 1 ≤ v → v ≤ 40 → ¬ s.streamBits v ≤ 8 * dataCodewords v l) :
    s.selectVersion 0 l = .error ⟨.overflow, BitVec.ofNat 32 (s.streamBits 40)⟩ := by
  have none : (List.range' 1 40).find? (s.fits l) = none := List.find?_eq_none.2 fun v hv => by
    obtain ⟨h1, h40⟩ := List.mem_range'_1.1 hv
    exact mt (fits_iff s l v).1 (long v h1 (by omega))
  rw [State.selectVersion, if_pos rfl, none]
  rfl

/-- The version asked for is the only one that `selectVersion_cases` leaves. -/
theorem selectVersion_ok (hver : ver ≤ 40) (h1 : 1 ≤ v) (h40 : v ≤ 40) (fit : s.streamBits v ≤ 8 * dataCodewords v l)
    (sel : Selects s l ver v) : s.selectVersion ver l = .ok v := by
  have fits : s.fits l v = true := (fits_iff s l v).2 fit
  have least : ∀ {u}, ver = 0 → 1 ≤ u → u < v → s.fits l u = false := fun h0 hu huv =>
    Bool.eq_false_iff.2 <| mt (fits_iff s l _).1 <| (sel.resolve_left (by omega)).2 _ hu huv
  rcases selectVersion_cases s ver l hver with ⟨w, low, high, fitw, selw, hw⟩ | ⟨hv, long, -⟩ | ⟨-, long, -⟩
  · rw [hw]
    rcases selw with rfl | ⟨h0, leastw⟩
    · rcases sel with rfl | ⟨h0, -⟩
      · rfl
      · omega
    · rcases Nat.lt_trichotomy v w with h | h | h
      · rw [leastw v h1 h] at fits; cases fits
      · rw [h]
      · rw [least h0 low h] at fitw; cases fitw
  · rcases sel with rfl | ⟨h0, -⟩
    · rw [long] at fits; cases fits
    · omega
  · rw [long v h1 h40] at fits; cases fits

/-- The length of a stream that fits is not cut off in BITLEN. -/
theorem toNat_bitlen (h40 : v ≤ 40) (fit : s.streamBits v ≤ 8 * dataCodewords v l) :
    (BitVec.ofNat 32 (s.streamBits v)).toNat = s.streamBits v := by
  have most := (capacity_bounds h40 l).1
  rw [BitVec.toNat_ofNat, Nat.mod_eq_of_lt (by omega)]

/-! ### BITSTREAM (R226) -/

theorem operandVersionOrAuto_ofNat (hver : ver ≤ 40) : operandVersionOrAuto (BitVec.ofNat 6 ver) = .ok ver := by
  have hv : (BitVec.ofNat 6 ver).toNat = ver := (BitVec.toNat_ofNat ..).trans (Nat.mod_eq_of_lt (by omega))
  rw [operandVersionOrAuto, versionFrom_ok (Nat.zero_le _) (by omega), hv]

/-- With legal operands BITSTREAM's answer is that of the version selection. -/
theorem ruleBitstream_ofNat (s : State) (hver : ver ≤ 40) (l : EcLevel) :
    ruleBitstream (BitVec.ofNat 6 ver) l.selector s = (s.selectVersion ver l).map (s.streamed · l l.selector) := by
  rw [ruleBitstream, operandVersionOrAuto_ofNat hver, operandEc_selector]
  show (s.selectVersion ver l >>= _) = _
  cases s.selectVersion ver l <;> rfl

theorem ruleBitstream_ok (hver : ver ≤ 40) (h1 : 1 ≤ v) (h40 : v ≤ 40) (fit : s.streamBits v ≤ 8 * dataCodewords v l)
    (sel : Selects s l ver v) : ruleBitstream (BitVec.ofNat 6 ver) l.selector s = .ok (s.streamed v l l.selector) := by
  rw [ruleBitstream_ofNat s hver, selectVersion_ok hver h1 h40 fit sel]
  rfl

theorem ruleBitstream_fixed_overflow (hver : ver ≤ 40) (h1 : 1 ≤ ver)
    (long : ¬ s.streamBits ver ≤ 8 * dataCodewords ver l) : ruleBitstream (BitVec.ofNat 6 ver) l.selector s =
      .error ⟨.overflow, BitVec.ofNat 32 (s.streamBits ver)⟩ := by
  rw [ruleBitstream_ofNat s hver, selectVersion_fixed_overflow h1 long]
  rfl

theorem ruleBitstream_auto_overflow (long : ∀ v, 1 ≤ v → v ≤ 40 → ¬ s.streamBits v ≤ 8 * dataCodewords v l) :
    ruleBitstream (BitVec.ofNat 6 0) l.selector s = .error ⟨.overflow, BitVec.ofNat 32 (s.streamBits 40)⟩ := by
  rw [ruleBitstream_ofNat s (Nat.zero_le _), selectVersion_auto_overflow long]
  rfl

/-- The illegal fields of BITSTREAM (R115, R354). -/
theorem ruleBitstream_config (s : State) (ver : BitVec 6) (ec : BitVec 3) :
    (ver.toNat > 40 → ruleBitstream ver ec s = .error ⟨.config, 1⟩) ∧
      (ver.toNat ≤ 40 → ec.toNat > 3 → ruleBitstream ver ec s = .error ⟨.config, 2⟩) := by
  rcases ruleBitstream_cases ver ec s with ⟨l, h40, hl, -⟩ | ⟨bad, hr⟩ | ⟨h40, bad, hr⟩
  · have := toNat_le_of_operandEc hl
    exact ⟨fun _ => by omega, fun _ _ => by omega⟩
  · exact ⟨fun _ => hr, fun _ _ => by omega⟩
  · exact ⟨fun _ => by omega, fun _ _ => hr⟩

section
variable (s : State) (v : Nat) (l : EcLevel) (ec : BitVec 3)

theorem readByte_streamed_of_lt {j : Nat} (hj : j < dataCodewords v l) :
    (s.streamed v l ec).readByte .cwbuf j = (codewordsOf v l (s.segmentStream v)).getD j 0 := by
  have hread := readByte_writeBytes_of_lt s .cwbuf 0 _ (hj.trans_eq (length_codewordsOf v l (s.segmentStream v)).symm)
  rwa [Nat.zero_add] at hread

theorem readByte_streamed_of_ge {k : Nat} (hk : dataCodewords v l ≤ k) :
    (s.streamed v l ec).readByte .cwbuf k = s.readByte .cwbuf k :=
  readByte_writeBytes_of_outside s .cwbuf 0 (codewordsOf v l (s.segmentStream v))
    (.inr (by rw [length_codewordsOf]; omega))

theorem readByte_streamed_of_ne {d : Config.ByteMem} (hd : d ≠ .cwbuf) (k : Nat) :
    (s.streamed v l ec).readByte d k = s.readByte d k :=
  readByte_writeBytes_of_ne s .cwbuf 0 (codewordsOf v l (s.segmentStream v)) hd k

theorem readCell_streamed (mm : Config.MatMem) (r c : Nat) :
    (s.streamed v l ec).readCell mm r c = s.readCell mm r c :=
  readCell_writeBytes s .cwbuf 0 (codewordsOf v l (s.segmentStream v)) mm r c

end

/-! ### The operands of APPEND (R214) -/

theorem operandMode_code (hint : ModeHint) : operandMode hint.code = .ok hint := by
  cases hint with
  | auto => rfl
  | forced m => cases m <;> rfl

theorem ruleAppend_config {mode : BitVec 3} (bad : 4 < mode.toNat) : ruleAppend mode s = .error ⟨.config, 4⟩ := by
  rcases operandMode_cases mode with ⟨_, good, -⟩ | ⟨-, hm⟩
  · omega
  · simp [ruleAppend, hm, bind, Except.bind]

theorem ruleAppend_range {mode : BitVec 3} (good : mode.toNat ≤ 4) (bad : 8192 < s.arg0.toNat + s.arg1.toNat) :
    ruleAppend mode s = .error ⟨.range, 1⟩ := by
  rcases ruleAppend_cases mode s with ⟨_, -, hfit, -⟩ | ⟨hm, -⟩ | ⟨-, -, hr⟩
  · omega
  · omega
  · exact hr

theorem ruleAppend_empty {mode : BitVec 3} (good : mode.toNat ≤ 4) (fit : s.arg0.toNat + s.arg1.toNat ≤ 8192)
    (empty : s.arg1.toNat = 0) : ruleAppend mode s = .ok s := by
  rcases ruleAppend_cases mode s with ⟨_, -, -, ⟨-, hr⟩ | ⟨hn, -⟩⟩ | ⟨hm, -⟩ | ⟨-, hbad, -⟩
  · exact hr
  · exact absurd (BitVec.eq_of_toNat_eq empty) hn
  · omega
  · omega

theorem ruleAppend_chunk (hint : ModeHint) (fit : s.arg0.toNat + s.arg1.toNat ≤ 8192) (full : s.arg1.toNat ≠ 0) :
    ruleAppend hint.code s = appendChunk hint (s.readBytes .ibuf s.arg0.toNat s.arg1.toNat) s := by
  rcases ruleAppend_cases hint.code s with ⟨hint', hm, -, ⟨hn, -⟩ | ⟨-, hr⟩⟩ | ⟨hm, -⟩ | ⟨-, hbad, -⟩
  · exact absurd (congrArg BitVec.toNat hn) full
  · rw [operandMode_code] at hm
    cases hm
    exact hr
  · exact absurd hm (by cases hint with | auto => decide | forced m => cases m <;> decide)
  · omega

theorem invalidCharInfo_eq {p nseg : Nat} (hp : p < 2 ^ 16) (hn : nseg < 2 ^ 16) :
    invalidCharInfo p nseg = BitVec.ofNat 32 (p * 2 ^ 16 + nseg) := by
  refine BitVec.eq_of_toNat_eq ?_
  rw [invalidCharInfo, toNat_halves hn hp, BitVec.toNat_ofNat, Nat.mod_eq_of_lt (by omega), Nat.add_comm]

/-! ### What APPEND answers for a chunk that is not empty (R212, R214) -/

section
variable {hint : ModeHint} {c : List Byte} {pieces : List Piece}

theorem appendChunk_invalid {p : Nat} (hp : splitChunk hint s.ctrl.minrun.toNat c = .error p) :
    appendChunk hint c s = .error ⟨.invalidChar, invalidCharInfo p s.nseg⟩ := by
  rw [appendChunk, hp]
  rfl

variable (hp : splitChunk hint s.ctrl.minrun.toNat c = .ok pieces)
include hp

theorem appendChunk_table_full (count : s.nseg + pieces.length > 64) :
    appendChunk hint c s = .error ⟨.segFull, 1⟩ := by
  rw [appendChunk, hp]
  exact if_pos count

theorem appendChunk_data_full (count : s.nseg + pieces.length ≤ 64) (used : s.segused.toNat + c.length > 8192) :
    appendChunk hint c s = .error ⟨.segFull, 2⟩ := by
  rw [appendChunk, hp]
  exact (if_neg (by simpa using count)).trans (if_pos used)

theorem appendChunk_ok (count : s.nseg + pieces.length ≤ 64) (used : s.segused.toNat + c.length ≤ 8192) :
    appendChunk hint c s = .ok (s.storeChunk c pieces) := by
  rw [appendChunk, hp]
  exact (if_neg (by simpa using count)).trans (if_neg (by simpa using used))

end

/-- But for SEGDATA, storing a chunk writes the table and SEGUSED alone. -/
theorem storeChunk_frame (s : State) (pieces : List Piece) {c : List Byte} {n : Nat} (hlen : c.length = n) :
    { s.storeChunk c pieces with segdata := s.segdata } =
      { s with
        segtab := s.segtab ++ pieces.map (Piece.segment s.segused.toNat)
        segused := BitVec.ofNat 16 (s.segused.toNat + n) } := by
  subst hlen
  rfl

end Sys2Proof.Machine
end

section
/-! PROOFS. Parts of a chunk at their offsets, and the pieces that stand for them (43_bitstream.md R210). -/
namespace Sys2Proof.Machine

variable {κ μ : Type} {x : List Byte} {ps : List (κ × List Byte)} {q r : κ × List Byte} {a d : Nat}

/-! ### Parts at their offsets -/

/-- The part `q` stands at offset `a` of the parts `ps`. -/
def PartAt (ps : List (κ × List Byte)) (a : Nat) (q : κ × List Byte) : Prop :=
  ∃ pre post, ps = pre ++ q :: post ∧ (pre.flatMap (·.2)).length = a

@[simp] theorem not_partAt_nil : ¬ PartAt [] a q := by
  rintro ⟨pre, post, h, -⟩
  simp at h

theorem PartAt.head (ps : List (κ × List Byte)) (q : κ × List Byte) : PartAt (q :: ps) 0 q := ⟨[], ps, rfl, rfl⟩

theorem PartAt.append_left (h : PartAt ps a q) (qs : List (κ × List Byte)) :
    PartAt (qs ++ ps) ((qs.flatMap (·.2)).length + a) q := by
  obtain ⟨pre, post, rfl, rfl⟩ := h
  exact ⟨qs ++ pre, post, by simp, by simp⟩

theorem PartAt.append_right (h : PartAt ps a q) (qs : List (κ × List Byte)) : PartAt (ps ++ qs) a q := by
  obtain ⟨pre, post, rfl, rfl⟩ := h
  exact ⟨pre, post ++ qs, by simp, rfl⟩

/-- A part stands at the head or among the other parts. -/
theorem partAt_cons : PartAt (r :: ps) a q ↔ (a = 0 ∧ r = q) ∨ ∃ d, a = r.2.length + d ∧ PartAt ps d q := by
  constructor
  · rintro ⟨pre, post, h, rfl⟩
    cases pre with
    | nil => exact .inl ⟨rfl, (List.cons.inj h).1⟩
    | cons r' pre =>
      obtain ⟨rfl, rfl⟩ := List.cons.inj h
      exact .inr ⟨_, by simp, pre, post, rfl, rfl⟩
  · rintro (⟨rfl, rfl⟩ | ⟨d, rfl, h⟩)
    · exact .head ps r
    · simpa using h.append_left [r]

theorem PartAt.mem (h : PartAt ps a q) : q ∈ ps := by
  obtain ⟨pre, post, rfl, -⟩ := h
  simp

theorem exists_partAt_of_mem (h : q ∈ ps) : ∃ a, PartAt ps a q := by
  obtain ⟨pre, post, rfl⟩ := List.append_of_mem h
  exact ⟨_, pre, post, rfl, rfl⟩

theorem PartAt.le (hc : Covers x ps) (h : PartAt ps a q) : a + q.2.length ≤ x.length := by
  obtain ⟨pre, post, rfl, rfl⟩ := h
  rw [← hc.join]
  simp

theorem PartAt.length_pos (hc : Covers x ps) (h : PartAt ps a q) : 0 < q.2.length :=
  List.length_pos_iff.2 (hc.nonempty q h.mem)

/-- The bytes of a part are those of the whole at its offset. -/
theorem PartAt.take_drop (hc : Covers x ps) (h : PartAt ps a q) : (x.drop a).take q.2.length = q.2 := by
  obtain ⟨pre, post, rfl, rfl⟩ := h
  rw [← hc.join, List.flatMap_append, List.flatMap_cons, List.drop_left, List.take_left]

theorem PartAt.getD (hc : Covers x ps) (h : PartAt ps a q) {k : Nat} (hk : k < q.2.length) :
    x.getD (a + k) 0 = q.2.getD k 0 := by
  rw [← h.take_drop hc, List.getD_eq_getElem?_getD, List.getD_eq_getElem?_getD, List.getElem?_take_of_lt hk,
    List.getElem?_drop]

/-- Every offset lies in a part. -/
theorem exists_partAt (hc : Covers x ps) (ha : a < x.length) : ∃ b q, PartAt ps b q ∧ b ≤ a ∧ a < b + q.2.length := by
  induction ps generalizing x a with
  | nil => simp [← hc.join] at ha
  | cons r ps ih =>
    rw [← hc.join, List.flatMap_cons, List.length_append] at ha
    by_cases hr : a < r.2.length
    · exact ⟨0, r, .head ps r, by omega, by omega⟩
    · obtain ⟨b, q, hq, hle, hlt⟩ := ih (a := a - r.2.length) hc.tail (by omega)
      exact ⟨r.2.length + b, q, partAt_cons.2 (.inr ⟨b, rfl, hq⟩), by omega, by omega⟩

section
variable {R : κ × List Byte → κ × List Byte → Prop}

/-- A part that is not the first follows the part that ends at its offset. -/
theorem PartAt.prev (hR : ps.IsChain R) (h : PartAt ps a q) :
    a = 0 ∨ ∃ b r, PartAt ps b r ∧ b + r.2.length = a ∧ R r q := by
  obtain ⟨pre, post, rfl, rfl⟩ := h
  rcases List.eq_nil_or_concat pre with rfl | ⟨pre, r, rfl⟩
  · exact .inl rfl
  · refine .inr ⟨_, r, ⟨pre, q :: post, by simp, rfl⟩, by simp, ?_⟩
    rw [List.concat_append] at hR
    exact hR.right_of_append.rel

/-- A part that is not the last is followed by the part that begins at its end. -/
theorem PartAt.next (hc : Covers x ps) (hR : ps.IsChain R) (h : PartAt ps a q) :
    a + q.2.length = x.length ∨ ∃ r, PartAt ps (a + q.2.length) r ∧ R q r := by
  obtain ⟨pre, post, rfl, rfl⟩ := h
  cases post with
  | nil => exact .inl (by simp [← hc.join])
  | cons r post => exact .inr ⟨r, ⟨pre ++ [q], post, by simp, by simp⟩, hR.right_of_append.rel⟩

end

theorem partAt_append {qs : List (κ × List Byte)} :
    PartAt (ps ++ qs) a q ↔ PartAt ps a q ∨ ∃ d, a = (ps.flatMap (·.2)).length + d ∧ PartAt qs d q := by
  constructor
  · induction ps generalizing a with
    | nil => exact fun h => .inr ⟨a, by simp, h⟩
    | cons r ps ih =>
      rw [List.cons_append, partAt_cons, partAt_cons]
      rintro (h | ⟨d, rfl, h⟩)
      · exact .inl (.inl h)
      · rcases ih h with hps | ⟨e, rfl, hqs⟩
        · exact .inl (.inr ⟨d, rfl, hps⟩)
        · exact .inr ⟨e, by simp [Nat.add_assoc], hqs⟩
  · rintro (h | ⟨d, rfl, h⟩)
    · exact h.append_right qs
    · exact h.append_left ps

/-- When every part is split again, the parts of a split stand at the offset of the part they split. -/
theorem partAt_flatMap {f : κ × List Byte → List (μ × List Byte)} (hf : ∀ q ∈ ps, Covers q.2 (f q))
    {p : μ × List Byte} : PartAt (ps.flatMap f) a p ↔ ∃ b q d, PartAt ps b q ∧ PartAt (f q) d p ∧ a = b + d := by
  induction ps generalizing a with
  | nil => simp
  | cons r ps ih =>
    rw [List.flatMap_cons, partAt_append, (hf r List.mem_cons_self).join]
    constructor
    · rintro (h | ⟨e, rfl, h⟩)
      · exact ⟨0, r, a, .head ps r, h, by omega⟩
      · obtain ⟨b, q, d, hq, hd, rfl⟩ := (ih fun q hq => hf q (List.mem_cons_of_mem _ hq)).1 h
        exact ⟨_, q, d, partAt_cons.2 (.inr ⟨b, rfl, hq⟩), hd, by omega⟩
    · rintro ⟨b, q, d, hq, hd, rfl⟩
      rcases partAt_cons.1 hq with ⟨rfl, rfl⟩ | ⟨e, rfl, he⟩
      · exact .inl (by simpa using hd)
      · exact .inr ⟨e + d, by omega, (ih fun q hq => hf q (List.mem_cons_of_mem _ hq)).2 ⟨e, q, d, he, hd, rfl⟩⟩

/-- Relabelling the parts keeps their offsets. -/
theorem partAt_map {f : κ × List Byte → μ × List Byte} (hf : ∀ q, (f q).2 = q.2) {p : μ × List Byte} :
    PartAt (ps.map f) a p ↔ ∃ q, PartAt ps a q ∧ f q = p := by
  induction ps generalizing a with
  | nil => simp
  | cons r ps ih =>
    simp only [List.map_cons, partAt_cons, ih, hf]
    constructor
    · rintro (⟨rfl, rfl⟩ | ⟨d, rfl, q, hq, rfl⟩)
      · exact ⟨r, .inl ⟨rfl, rfl⟩, rfl⟩
      · exact ⟨q, .inr ⟨d, rfl, hq⟩, rfl⟩
    · rintro ⟨q, ⟨rfl, rfl⟩ | ⟨d, rfl, hq⟩, rfl⟩
      · exact .inl ⟨rfl, rfl⟩
      · exact .inr ⟨d, rfl, q, hq, rfl⟩

/-! ### Pieces -/

theorem mem_locatePieces_iff {parts : List (SegMode × List Byte)} {start : Nat} {p : Piece} :
    p ∈ locatePieces start parts ↔ ∃ a q, PartAt parts a q ∧ p = ⟨q.1, start + a, q.2.length⟩ := by
  induction parts generalizing start with
  | nil => simp [locatePieces]
  | cons r parts ih =>
    rw [locatePieces, List.mem_cons, ih]
    constructor
    · rintro (rfl | ⟨a, q, hq, rfl⟩)
      · exact ⟨0, r, .head .., rfl⟩
      · exact ⟨_, q, partAt_cons.2 (.inr ⟨a, rfl, hq⟩), by rw [Nat.add_assoc]⟩
    · rintro ⟨a, q, hq, rfl⟩
      rcases partAt_cons.1 hq with ⟨rfl, rfl⟩ | ⟨d, rfl, hd⟩
      · exact .inl rfl
      · exact .inr ⟨d, q, hd, by rw [Nat.add_assoc]⟩

/-- The piece that stands for a part has the part's bytes. -/
theorem flatMap_locatePieces {parts : List (SegMode × List Byte)} (front : List Byte) :
    ((locatePieces front.length parts).flatMap fun p =>
      ((front ++ parts.flatMap (·.2)).drop p.start).take p.len) = parts.flatMap (·.2) := by
  induction parts generalizing front with
  | nil => rfl
  | cons r parts ih =>
    have rest := ih (front ++ r.2)
    rw [List.length_append] at rest
    simp only [locatePieces, List.flatMap_cons, ← List.append_assoc, rest]
    rw [List.append_assoc, List.drop_left, List.take_left]

theorem start_locatePieces {parts : List (SegMode × List Byte)} (start k : Nat)
    (h : k < (locatePieces start parts).length) : ((locatePieces start parts)[k]).start =
      start + (((locatePieces start parts).take k).map Piece.len).sum := by
  induction parts generalizing start k with
  | nil => simp [locatePieces] at h
  | cons r parts ih =>
    cases k with
    | zero => rfl
    | succ k =>
      simp only [locatePieces, List.getElem_cons_succ, List.take_succ_cons, List.map_cons, List.sum_cons]
      rw [ih, Nat.add_assoc]

theorem modes_locatePieces (parts : List (SegMode × List Byte)) (start : Nat) :
    (locatePieces start parts).map Piece.mode = parts.map (·.1) := by
  induction parts generalizing start with
  | nil => rfl
  | cons r parts ih => rw [locatePieces, List.map_cons, List.map_cons, ih]

/-! ### Forced modes (R210) -/

/-- The position of the first byte that is not of a class. -/
theorem findIdx?_not_eq_some {cls : Byte → Bool} {c : List Byte} {p : Nat} :
    (c.findIdx? fun b => !cls b) = some p ↔
      p < c.length ∧ cls (c.getD p 0) = false ∧ ∀ k < p, cls (c.getD k 0) = true := by
  rw [List.findIdx?_eq_some_iff_getElem]
  constructor
  · rintro ⟨hp, hbad, hgood⟩
    refine ⟨hp, by simpa [hp] using hbad, fun k hk => ?_⟩
    simpa [hk.trans hp] using hgood k hk
  · rintro ⟨hp, hbad, hgood⟩
    refine ⟨hp, by simpa [hp] using hbad, fun k hk => ?_⟩
    simpa [hk.trans hp] using hgood k hk

/-- The scan's answer moves with the offset it starts from. -/
theorem firstBadPair_add (start d : Nat) (c : List Byte) :
    firstBadPair (start + d) c = (firstBadPair start c).map (· + d) := by
  induction start, c using firstBadPair.induct with
  | case1 start => rfl
  | case2 start b => rfl
  | case3 start hi lo rest valid ih =>
    rw [firstBadPair, firstBadPair, if_pos valid, if_pos valid, Nat.add_right_comm, ih]
  | case4 start hi lo rest invalid => simp [firstBadPair, invalid]

/-- Offset `p` is that of the first unpaired or invalid Kanji pair (R210). -/
def FirstBadPairAt (c : List Byte) (p : Nat) : Prop :=
  p < c.length ∧ p % 2 = 0 ∧ (p + 1 = c.length ∨ isKanji (c.getD p 0) (c.getD (p + 1) 0) = false) ∧
    ∀ k < p, k % 2 = 0 → isKanji (c.getD k 0) (c.getD (k + 1) 0) = true

theorem firstBadPair_eq_some {c : List Byte} {p : Nat} : firstBadPair 0 c = some p ↔ FirstBadPairAt c p := by
  induction c using List.twoStepInduction generalizing p with
  | nil => simp [firstBadPair, FirstBadPairAt]
  | singleton b =>
    simp only [firstBadPair, FirstBadPairAt, List.length_singleton, Option.some.injEq]
    constructor
    · rintro rfl
      exact ⟨by decide, rfl, .inl rfl, by simp⟩
    · omega
  | cons_cons hi lo rest ih _ =>
    rw [firstBadPair]
    split
    · rename_i valid
      rw [firstBadPair_add]
      constructor
      · intro h
        obtain ⟨q, hq, rfl⟩ := Option.map_eq_some_iff.1 h
        obtain ⟨hlt, heven, hbad, hgood⟩ := ih.1 hq
        refine ⟨by simpa using hlt, by omega, by simpa using hbad, fun k hk hke => ?_⟩
        rcases k with _ | _ | k
        · exact valid
        · omega
        · exact hgood k (by omega) (by omega)
      · rintro ⟨hlt, heven, hbad, hgood⟩
        rcases p with _ | _ | p
        · simp [valid] at hbad
        · omega
        · refine Option.map_eq_some_iff.2 ⟨p, ih.2 ⟨?_, ?_, ?_, fun k hk hke => ?_⟩, rfl⟩
          · simpa using hlt
          · omega
          · simpa using hbad
          · simpa using hgood (k + 2) (by omega) (by omega)
    · rename_i invalid
      simp only [Option.some.injEq]
      constructor
      · rintro rfl
        exact ⟨by simp, rfl, .inr (by simpa using invalid), by simp⟩
      · rintro ⟨-, -, -, hgood⟩
        by_contra hp
        exact invalid (hgood 0 (by omega) rfl)

theorem isKanji_of_firstBadPair {start : Nat} {c : List Byte} (h : firstBadPair start c = none) {k : Nat}
    (hk : k < c.length) (even : k % 2 = 0) : isKanji (c.getD k 0) (c.getD (k + 1) 0) = true := by
  induction start, c using firstBadPair.induct generalizing k with
  | case1 start => simp at hk
  | case2 start b => simp [firstBadPair] at h
  | case3 start hi lo rest valid ih =>
    rw [firstBadPair, if_pos valid] at h
    rcases k with _ | _ | k
    · exact valid
    · omega
    · exact ih h (by simpa using hk) (by omega)
  | case4 start hi lo rest invalid => simp [firstBadPair, invalid] at h

end Sys2Proof.Machine
end

section
/-! PROOFS. The runs of the AUTO analyzer at their offsets (43_bitstream.md R211), and the validity of every piece
(R210). -/
namespace Sys2Proof.Machine

variable {p : Byte → Bool} {m a : Nat} {x y : List Byte} {q : Bool × List Byte}

/-! ### Maximal runs -/

theorem maximalRuns_class (h : q ∈ maximalRuns p x) : ∀ b ∈ q.2, p b = q.1 := by
  induction x generalizing q with
  | nil => simp [maximalRuns] at h
  | cons b rest ih =>
    rw [maximalRuns] at h
    split at h
    · rw [List.mem_singleton.1 h]
      simp
    · rename_i k r runs hr
      have head := ih (q := (k, r)) (by simp [hr])
      split at h <;> rcases List.mem_cons.1 h with rfl | h
      · rename_i hk
        simpa [hk] using head
      · exact ih (by simp [hr, h])
      · simp
      · exact ih (by rwa [hr])

/-- Adjacent runs are of different classes. -/
theorem isChain_maximalRuns (p : Byte → Bool) (x : List Byte) :
    (maximalRuns p x).IsChain fun q r => q.1 ≠ r.1 := by
  induction x with
  | nil => exact .nil
  | cons b rest ih =>
    rw [maximalRuns]
    split
    · exact .singleton _
    · rename_i k r runs hr
      rw [hr] at ih
      split
      · exact List.isChain_cons.2 (List.isChain_cons.1 ih)
      · rename_i hk
        exact List.isChain_cons_cons.2 ⟨Ne.symm hk, ih⟩

/-- The bytes of `x` at offsets `a` to `a + n - 1` are of class `p`, and no more can be added on either side. -/
structure IsRun (p : Byte → Bool) (x : List Byte) (a n : Nat) : Prop where
  matching : ∀ k < n, p (x.getD (a + k) 0) = true
  before : a = 0 ∨ p (x.getD (a - 1) 0) = false
  after : a + n = x.length ∨ p (x.getD (a + n) 0) = false

theorem PartAt.class_getD (h : PartAt (maximalRuns p x) a q) {k : Nat} (hk : k < q.2.length) :
    p (x.getD (a + k) 0) = q.1 := by
  rw [h.getD (covers_maximalRuns p x) hk, List.getD_eq_getElem _ _ hk]
  exact maximalRuns_class h.mem _ (List.getElem_mem hk)

theorem isRun_of_maximalRuns (h : PartAt (maximalRuns p x) a (true, y)) : IsRun p x a y.length := by
  have cover := covers_maximalRuns p x
  refine ⟨fun k hk => h.class_getD hk, ?_, ?_⟩
  · refine (h.prev (isChain_maximalRuns p x)).imp_right ?_
    rintro ⟨b, r, hr, rfl, hne⟩
    have pos := hr.length_pos cover
    rw [Nat.add_sub_assoc pos, hr.class_getD (by omega)]
    simpa using hne
  · refine (h.next cover (isChain_maximalRuns p x)).imp_right ?_
    rintro ⟨r, hr, hne⟩
    have hclass := hr.class_getD (hr.length_pos cover)
    rw [Nat.add_zero] at hclass
    rw [hclass]
    simpa using Ne.symm hne

/-- Bytes of the class in a row lie in one run. -/
theorem exists_maximalRun {n : Nat} (hn : 0 < n) (ha : a + n ≤ x.length)
    (h : ∀ k < n, p (x.getD (a + k) 0) = true) :
    ∃ b y, PartAt (maximalRuns p x) b (true, y) ∧ b ≤ a ∧ a + n ≤ b + y.length := by
  have cover := covers_maximalRuns p x
  obtain ⟨b, ⟨k, y⟩, hy, hle, hlt⟩ := exists_partAt cover (show a < x.length by omega)
  obtain rfl : k = true := by
    have hclass := hy.class_getD (k := a - b) (by omega)
    rw [Nat.add_sub_cancel' hle] at hclass
    exact hclass.symm.trans (h 0 hn)
  refine ⟨b, y, hy, hle, ?_⟩
  by_contra hend
  simp only at hlt
  rcases (isRun_of_maximalRuns hy).after with hb | hb
  · omega
  · have := h (b + y.length - a) (by omega)
    rw [Nat.add_sub_cancel' hlt.le, hb] at this
    cases this

/-! ### Joining the parts that do not match -/

theorem partAt_joinOthers {ps : List (Bool × List Byte)} :
    PartAt (joinOthers ps) a (true, y) ↔ PartAt ps a (true, y) := by
  induction ps generalizing a with
  | nil => rfl
  | cons q ps ih =>
    obtain ⟨k, r⟩ := q
    cases k with
    | true => simp only [joinOthers, partAt_cons, ih]
    | false =>
      simp only [joinOthers, partAt_cons, ← ih]
      split
      · rename_i s tail hj
        simp [partAt_cons, hj, Nat.add_assoc]
      · simp [partAt_cons]

/-- No two adjacent parts are both not matching. -/
theorem isChain_joinOthers (ps : List (Bool × List Byte)) :
    (joinOthers ps).IsChain fun q r => q.1 = true ∨ r.1 = true := by
  induction ps with
  | nil => exact .nil
  | cons q ps ih =>
    obtain ⟨k, r⟩ := q
    cases k with
    | true => exact List.isChain_cons.2 ⟨fun _ _ => .inl rfl, ih⟩
    | false =>
      rw [joinOthers]
      split
      · rename_i s tail hj
        rw [hj] at ih
        exact List.isChain_cons.2 (List.isChain_cons.1 ih)
      · rename_i hj
        refine List.isChain_cons.2 ⟨fun s hs => .inr ?_, ih⟩
        obtain ⟨tail, hs⟩ := List.head?_eq_some_iff.1 hs
        obtain ⟨_ | _, z⟩ := s
        · exact (hj _ _ hs).elim
        · rfl

/-! ### RUNS (R211) -/

/-- The matching parts are the maximal runs that are long enough. -/
theorem partAt_classRuns : PartAt (classRuns p m x) a (true, y) ↔
    PartAt (maximalRuns p x) a (true, y) ∧ m ≤ y.length := by
  rw [classRuns, partAt_joinOthers, partAt_map (by exact fun _ => rfl)]
  constructor
  · rintro ⟨⟨k, r⟩, hr, h⟩
    obtain ⟨hk, rfl⟩ := Prod.mk.inj h
    obtain ⟨rfl, hm⟩ : k = true ∧ m ≤ r.length := by simpa using hk
    exact ⟨hr, hm⟩
  · rintro ⟨hy, hm⟩
    exact ⟨_, hy, by simp [hm]⟩

theorem isRun_of_classRuns (h : PartAt (classRuns p m x) a (true, y)) : IsRun p x a y.length :=
  isRun_of_maximalRuns (partAt_classRuns.1 h).1

theorem isChain_classRuns (p : Byte → Bool) (m : Nat) (x : List Byte) :
    (classRuns p m x).IsChain fun q r => q.1 = true ∨ r.1 = true := isChain_joinOthers _

/-- `m` bytes of the class in a row lie in one matching part. -/
theorem exists_classRun (hm : 0 < m) (ha : a + m ≤ x.length) (h : ∀ k < m, p (x.getD (a + k) 0) = true) :
    ∃ b y, PartAt (classRuns p m x) b (true, y) ∧ b ≤ a ∧ a + m ≤ b + y.length := by
  obtain ⟨b, y, hy, hle, hlen⟩ := exists_maximalRun hm ha h
  exact ⟨b, y, partAt_classRuns.2 ⟨hy, by omega⟩, hle, hlen⟩

theorem classRuns_class (h : PartAt (classRuns p m x) a (true, y)) : ∀ b ∈ y, p b = true :=
  maximalRuns_class (partAt_classRuns.1 h).1.mem

end Sys2Proof.Machine
end

section
/-! PROOFS. The pieces of a chunk: the parts they stand for are valid for their modes (43_bitstream.md R210), and where
the AUTO analyzer's pieces lie (R211). -/
namespace Sys2Proof.Machine

variable {m a : Nat} {c x : List Byte} {pieces : List Piece}

/-! ### Validity (R210) -/

theorem findIdx?_not_eq_none {cls : Byte → Bool} : (x.findIdx? fun b => !cls b) = none ↔ ∀ b ∈ x, cls b = true := by
  simp [List.findIdx?_eq_none_iff]

theorem firstViolation_wholeMode (c : List Byte) : firstViolation (wholeMode c) c = none := by
  unfold wholeMode
  split
  · next h => exact findIdx?_not_eq_none.2 (List.all_eq_true.1 h)
  · split
    · next h => exact findIdx?_not_eq_none.2 (List.all_eq_true.1 h)
    · rfl

/-- The parts of a chunk longer than MINRUN: the digit runs, and the runs of the parts between them. -/
theorem partAt_autoParts (hm : m ≠ 0) (long : m < c.length) {q : SegMode × List Byte} :
    PartAt (autoParts m c) a q ↔
      (q.1 = .numeric ∧ PartAt (classRuns isNumeric m c) a (true, q.2)) ∨
      ∃ b y d k, PartAt (classRuns isNumeric m c) b (false, y) ∧ PartAt (classRuns isAlphanumeric m y) d (k, q.2) ∧
        a = b + d ∧ q.1 = if k then .alphanumeric else .byte := by
  have cover := covers_classRuns isNumeric m c
  rw [autoParts, if_neg (by omega), partAt_flatMap]
  · constructor
    · rintro ⟨b, ⟨k, y⟩, d, hy, hq, rfl⟩
      cases k with
      | true =>
        rcases partAt_cons.1 hq with ⟨rfl, rfl⟩ | ⟨d, -, h⟩
        · exact .inl ⟨rfl, hy⟩
        · exact (not_partAt_nil h).elim
      | false =>
        obtain ⟨⟨k, z⟩, hz, rfl⟩ := (partAt_map (by exact fun _ => rfl)).1 hq
        exact .inr ⟨b, y, d, k, hy, hz, rfl, rfl⟩
    · obtain ⟨mode, z⟩ := q
      rintro (⟨rfl, hz⟩ | ⟨b, y, d, k, hy, hz, rfl, rfl⟩)
      · exact ⟨a, (true, z), 0, hz, .head .., rfl⟩
      · exact ⟨b, (false, y), d, hy, (partAt_map (by exact fun _ => rfl)).2 ⟨_, hz, rfl⟩, rfl⟩
  · intro q hq
    cases hk : q.1 with
    | true => exact .single _ (cover.nonempty q hq)
    | false => exact (covers_classRuns isAlphanumeric m q.2).map _ fun _ => rfl

theorem autoParts_short (short : m = 0 ∨ c.length ≤ m) : autoParts m c = [(wholeMode c, c)] := if_pos short

theorem firstViolation_autoParts {q : SegMode × List Byte} (hq : q ∈ autoParts m c) :
    firstViolation q.1 q.2 = none := by
  by_cases short : m = 0 ∨ c.length ≤ m
  · rw [autoParts_short short] at hq
    rw [List.mem_singleton.1 hq]
    exact firstViolation_wholeMode c
  · obtain ⟨a, h⟩ := exists_partAt_of_mem hq
    obtain ⟨mode, z⟩ := q
    rcases (partAt_autoParts (by omega) (by omega)).1 h with ⟨rfl, hz⟩ | ⟨b, y, d, k, -, hz, -, rfl⟩
    · exact findIdx?_not_eq_none.2 (classRuns_class hz)
    · cases k with
      | true => exact findIdx?_not_eq_none.2 (classRuns_class hz)
      | false => rfl

/-- The pieces stand for parts that cover the chunk and are valid for their modes. -/
theorem splitChunk_parts {hint : ModeHint} (hc : c ≠ []) (h : splitChunk hint m c = .ok pieces) :
    ∃ parts, pieces = locatePieces 0 parts ∧ Covers c parts ∧ ∀ q ∈ parts, firstViolation q.1 q.2 = none := by
  cases hint with
  | auto =>
    cases h
    exact ⟨_, rfl, covers_autoParts m hc, fun q hq => firstViolation_autoParts hq⟩
  | forced mode =>
    simp only [splitChunk] at h
    split at h <;> cases h
    rename_i valid
    exact ⟨[(mode, c)], rfl, .single mode hc, by simpa using valid⟩

theorem splitChunk_forced_eq_error {mode : SegMode} {p : Nat} :
    splitChunk (.forced mode) m c = .error p ↔ firstViolation mode c = some p := by
  rw [splitChunk]
  split <;> simp [*]

/-- The byte at offset `k` of the piece `p` of chunk `c` is valid for the mode of `p` (R210). -/
def ValidAt (c : List Byte) (p : Piece) (k : Nat) : Prop :=
  (p.mode = .numeric → isNumeric (c.getD (p.start + k) 0) = true) ∧
  (p.mode = .alphanumeric → isAlphanumeric (c.getD (p.start + k) 0) = true) ∧
  (p.mode = .kanji → p.len % 2 = 0 ∧
    (k % 2 = 0 → isKanji (c.getD (p.start + k) 0) (c.getD (p.start + k + 1) 0) = true))

theorem validAt_of_partAt {parts : List (SegMode × List Byte)} (cover : Covers c parts) {q : SegMode × List Byte}
    (hq : PartAt parts a q) (valid : firstViolation q.1 q.2 = none) {k : Nat} (hk : k < q.2.length) :
    ValidAt c ⟨q.1, a, q.2.length⟩ k := by
  obtain ⟨mode, z⟩ := q
  have byte : z.getD k 0 ∈ z := by
    rw [List.getD_eq_getElem _ _ hk]
    exact List.getElem_mem hk
  refine ⟨?_, ?_, ?_⟩ <;> rintro rfl
  · rw [hq.getD cover hk]
    exact findIdx?_not_eq_none.1 valid _ byte
  · rw [hq.getD cover hk]
    exact findIdx?_not_eq_none.1 valid _ byte
  · have paired : z.length % 2 = 0 := even_of_firstBadPair valid
    refine ⟨paired, fun even => ?_⟩
    simp only at hk
    rw [Nat.add_assoc, hq.getD cover hk, hq.getD cover (k := k + 1) (by simp only; omega)]
    exact isKanji_of_firstBadPair valid hk even

theorem validAt_splitChunk {hint : ModeHint} (hc : c ≠ []) (h : splitChunk hint m c = .ok pieces) {p : Piece}
    (hp : p ∈ pieces) {k : Nat} (hk : k < p.len) : ValidAt c p k := by
  obtain ⟨parts, rfl, cover, valid⟩ := splitChunk_parts hc h
  obtain ⟨a, q, hq, rfl⟩ := mem_locatePieces_iff.1 hp
  rw [Nat.zero_add]
  exact validAt_of_partAt cover hq (valid q hq.mem) hk

theorem cover_splitChunk {hint : ModeHint} (hc : c ≠ []) (h : splitChunk hint m c = .ok pieces) :
    (pieces.flatMap fun p => (c.drop p.start).take p.len) = c := by
  obtain ⟨parts, rfl, cover, -⟩ := splitChunk_parts hc h
  have join := flatMap_locatePieces (parts := parts) []
  rwa [List.nil_append, cover.join] at join

theorem start_splitChunk {hint : ModeHint} (hc : c ≠ []) (h : splitChunk hint m c = .ok pieces) (k : Nat)
    (hk : k < pieces.length) : (pieces[k]).start = ((pieces.take k).map Piece.len).sum := by
  obtain ⟨parts, rfl, -, -⟩ := splitChunk_parts hc h
  rw [start_locatePieces, Nat.zero_add]

/-- The position of a violation lies in the chunk. -/
theorem firstViolation_lt {mode : SegMode} {p : Nat} (h : firstViolation mode c = some p) : p < c.length := by
  cases mode with
  | numeric | alphanumeric => exact (findIdx?_not_eq_some.1 h).1
  | byte => cases h
  | kanji => exact (firstBadPair_eq_some.1 h).1

theorem splitChunk_error_lt {hint : ModeHint} {p : Nat} (h : splitChunk hint m c = .error p) : p < c.length := by
  cases hint with
  | auto => cases h
  | forced mode => exact firstViolation_lt (splitChunk_forced_eq_error.1 h)

/-! ### The AUTO analyzer (R211) -/

/-- No two adjacent parts are Byte parts. -/
theorem isChain_autoParts (m : Nat) (c : List Byte) :
    (autoParts m c).IsChain fun q r => ¬ (q.1 = .byte ∧ r.1 = .byte) := by
  unfold autoParts
  split
  · exact .singleton _
  have cover := covers_classRuns isNumeric m c
  rw [List.flatMap_def, List.isChain_flatten]
  · refine ⟨?_, ?_⟩
    · simp only [List.mem_map, forall_exists_index, and_imp, forall_apply_eq_imp_iff₂]
      rintro q -
      split
      · exact .singleton _
      · refine (List.isChain_map _).2 ((isChain_classRuns isAlphanumeric m q.2).imp ?_)
        rintro ⟨k, _⟩ ⟨k', _⟩ (rfl | rfl) <;> simp
    · refine (List.isChain_map _).2 ((isChain_classRuns isNumeric m c).imp ?_)
      rintro ⟨k, y⟩ ⟨k', y'⟩ (rfl | rfl) q hq r hr ⟨hq', hr'⟩
      · obtain rfl : (SegMode.numeric, y) = q := by simpa using hq
        cases hq'
      · obtain rfl : (SegMode.numeric, y') = r := by simpa using hr
        cases hr'
  · intro h
    obtain ⟨q, hq, h⟩ := List.mem_map.1 h
    split at h
    · cases h
    · have inner := (covers_classRuns isAlphanumeric m q.2).join
      rw [List.map_eq_nil_iff.1 h] at inner
      exact cover.nonempty q hq inner.symm

section
variable (hm : m ≠ 0) (long : m < c.length) {p : Piece} {b d : Nat} {y z : List Byte} {k : Bool}
include hm long

/-- The Numeric pieces stand for the matching parts of the chunk. -/
theorem mem_autoPieces_numeric :
    p ∈ locatePieces 0 (autoParts m c) ∧ p.mode = .numeric ↔
      ∃ a z, PartAt (classRuns isNumeric m c) a (true, z) ∧ p = ⟨.numeric, a, z.length⟩ := by
  rw [mem_locatePieces_iff]
  constructor
  · rintro ⟨⟨a, ⟨mode, z⟩, hq, rfl⟩, rfl⟩
    rcases (partAt_autoParts hm long).1 hq with ⟨-, hz⟩ | ⟨b, y, d, k, -, -, -, hk⟩
    · exact ⟨a, z, hz, by rw [Nat.zero_add]⟩
    · cases k <;> cases hk
  · rintro ⟨a, z, hz, rfl⟩
    exact ⟨⟨a, (.numeric, z), (partAt_autoParts hm long).2 (.inl ⟨rfl, hz⟩), by rw [Nat.zero_add]⟩, rfl⟩

/-- The Alphanumeric pieces stand for the matching parts of the parts between the Numeric ones. -/
theorem mem_autoPieces_alphanumeric :
    p ∈ locatePieces 0 (autoParts m c) ∧ p.mode = .alphanumeric ↔
      ∃ b y d z, PartAt (classRuns isNumeric m c) b (false, y) ∧ PartAt (classRuns isAlphanumeric m y) d (true, z) ∧
        p = ⟨.alphanumeric, b + d, z.length⟩ := by
  rw [mem_locatePieces_iff]
  constructor
  · rintro ⟨⟨a, ⟨mode, z⟩, hq, rfl⟩, rfl⟩
    rcases (partAt_autoParts hm long).1 hq with ⟨hk, -⟩ | ⟨b, y, d, k, hy, hz, rfl, hk⟩
    · cases hk
    · cases k with
      | true => exact ⟨b, y, d, z, hy, hz, by rw [Nat.zero_add]⟩
      | false => cases hk
  · rintro ⟨b, y, d, z, hy, hz, rfl⟩
    exact ⟨⟨b + d, (.alphanumeric, z), (partAt_autoParts hm long).2 (.inr ⟨b, y, d, true, hy, hz, rfl, rfl⟩),
      by rw [Nat.zero_add]⟩, rfl⟩

/-- A part between Numeric pieces begins at the chunk's start or at a Numeric piece's end. -/
theorem numericPiece_before (hy : PartAt (classRuns isNumeric m c) b (false, y)) : b = 0 ∨
    ∃ q ∈ locatePieces 0 (autoParts m c), q.mode = .numeric ∧ q.start + q.len = b := by
  refine (hy.prev (isChain_classRuns isNumeric m c)).imp_right ?_
  rintro ⟨a, ⟨k, z⟩, hz, hend, rfl | h⟩
  · obtain ⟨hmem, mode⟩ := (mem_autoPieces_numeric hm long).2 ⟨a, z, hz, rfl⟩
    exact ⟨_, hmem, mode, hend⟩
  · cases h

/-- A part between Numeric pieces ends at the chunk's end or at a Numeric piece's start. -/
theorem numericPiece_after (hy : PartAt (classRuns isNumeric m c) b (false, y)) : b + y.length = c.length ∨
    ∃ q ∈ locatePieces 0 (autoParts m c), q.mode = .numeric ∧ q.start = b + y.length ∧ 0 < q.len := by
  have cover := covers_classRuns isNumeric m c
  refine (hy.next cover (isChain_classRuns isNumeric m c)).imp_right ?_
  rintro ⟨⟨k, z⟩, hz, h | rfl⟩
  · cases h
  · obtain ⟨hmem, mode⟩ := (mem_autoPieces_numeric hm long).2 ⟨_, z, hz, rfl⟩
    exact ⟨_, hmem, mode, rfl, hz.length_pos cover⟩

/-- `m` digits in a row lie in a Numeric piece. -/
theorem exists_numericPiece (ha : a + m ≤ c.length) (h : ∀ k < m, isNumeric (c.getD (a + k) 0) = true) :
    ∃ p ∈ locatePieces 0 (autoParts m c), p.mode = .numeric ∧ p.start ≤ a ∧ a + m ≤ p.start + p.len := by
  obtain ⟨b, z, hz, hle, hend⟩ := exists_classRun (Nat.pos_of_ne_zero hm) ha h
  obtain ⟨hmem, mode⟩ := (mem_autoPieces_numeric hm long).2 ⟨b, z, hz, rfl⟩
  exact ⟨_, hmem, mode, hle, hend⟩

theorem alphanumericPiece_before (hy : PartAt (classRuns isNumeric m c) b (false, y))
    (hz : PartAt (classRuns isAlphanumeric m y) d (true, z)) :
    b + d = 0 ∨ isAlphanumeric (c.getD (b + d - 1) 0) = false ∨
      ∃ q ∈ locatePieces 0 (autoParts m c), q.mode = .numeric ∧ q.start + q.len = b + d := by
  have fit := hz.le (covers_classRuns isAlphanumeric m y)
  have pos := hz.length_pos (covers_classRuns isAlphanumeric m y)
  simp only at fit pos
  by_cases hd : d = 0
  · subst hd
    exact (numericPiece_before hm long hy).imp_right .inr
  · have outside := (isRun_of_classRuns hz).before.resolve_left hd
    rw [← hy.getD (covers_classRuns isNumeric m c) (by simp only; omega), ← Nat.add_sub_assoc (by omega)] at outside
    exact .inr (.inl outside)

theorem alphanumericPiece_after (hy : PartAt (classRuns isNumeric m c) b (false, y))
    (hz : PartAt (classRuns isAlphanumeric m y) d (true, z)) :
    b + d + z.length = c.length ∨ isAlphanumeric (c.getD (b + d + z.length) 0) = false ∨
      ∃ q ∈ locatePieces 0 (autoParts m c), q.mode = .numeric ∧ q.start = b + d + z.length := by
  have fit := hz.le (covers_classRuns isAlphanumeric m y)
  simp only at fit
  rw [Nat.add_assoc]
  rcases (isRun_of_classRuns hz).after with hend | outside
  · rw [hend]
    refine (numericPiece_after hm long hy).imp_right fun ⟨q, hq, mode, start, _⟩ => .inr ⟨q, hq, mode, start⟩
  · by_cases hend : d + z.length = y.length
    · rw [hend]
      exact (numericPiece_after hm long hy).imp_right fun ⟨q, hq, mode, start, _⟩ => .inr ⟨q, hq, mode, start⟩
    · rw [← hy.getD (covers_classRuns isNumeric m c) (by simp only; omega)] at outside
      exact .inr (.inl outside)

/-- `m` alphanumeric bytes in a row lie in an Alphanumeric piece, or a Numeric piece reaches into them. -/
theorem exists_alphanumericPiece (ha : a + m ≤ c.length)
    (h : ∀ k < m, isAlphanumeric (c.getD (a + k) 0) = true) :
    (∃ p ∈ locatePieces 0 (autoParts m c), p.mode = .alphanumeric ∧ p.start ≤ a ∧ a + m ≤ p.start + p.len) ∨
      ∃ q ∈ locatePieces 0 (autoParts m c), q.mode = .numeric ∧ q.start < a + m ∧ a < q.start + q.len := by
  have cover := covers_classRuns isNumeric m c
  obtain ⟨b, ⟨k, y⟩, hy, hle, hlt⟩ := exists_partAt cover (show a < c.length by omega)
  simp only at hlt
  cases k with
  | true =>
    obtain ⟨hmem, mode⟩ := (mem_autoPieces_numeric hm long).2 ⟨b, y, hy, rfl⟩
    exact .inr ⟨_, hmem, mode, by simp only; omega, hlt⟩
  | false =>
    by_cases inside : a + m ≤ b + y.length
    · have window : ∀ k < m, isAlphanumeric (y.getD (a - b + k) 0) = true := fun k hk => by
        rw [← hy.getD cover (by simp only; omega), ← Nat.add_assoc, Nat.add_sub_cancel' hle]
        exact h k hk
      obtain ⟨d, z, hz, hle', hend⟩ := exists_classRun (Nat.pos_of_ne_zero hm) (by omega) window
      obtain ⟨hmem, mode⟩ := (mem_autoPieces_alphanumeric hm long).2 ⟨b, y, d, z, hy, hz, rfl⟩
      exact .inl ⟨_, hmem, mode, by simp only; omega, by simp only; omega⟩
    · rcases numericPiece_after hm long hy with hend | ⟨q, hq, mode, start, pos⟩
      · omega
      · exact .inr ⟨q, hq, mode, by omega, by omega⟩

end

/-- No two adjacent pieces are Byte pieces. -/
theorem not_byte_byte_autoPieces {k : Nat} (h : k + 1 < (locatePieces 0 (autoParts m c)).length) :
    ¬ ((locatePieces 0 (autoParts m c))[k].mode = .byte ∧ (locatePieces 0 (autoParts m c))[k + 1].mode = .byte) := by
  have chain : (locatePieces 0 (autoParts m c)).IsChain fun p q => ¬ (p.mode = .byte ∧ q.mode = .byte) := by
    refine List.isChain_of_isChain_map (S := fun a b => ¬ (a = SegMode.byte ∧ b = .byte)) Piece.mode
      (fun _ _ h => h) ?_
    rw [modes_locatePieces]
    exact (List.isChain_map _).2 (isChain_autoParts m c)
  exact List.isChain_iff_getElem.1 chain k h

end Sys2Proof.Machine
end

section
/-! PROOFS. The bits of the segments (43_bitstream.md R206 to R209) and of the codewords (R225). -/
namespace Sys2Proof.Machine

/-! ### Payload groups (R208, R209) -/

section
variable {F : List Byte → List Bool} {n w : Nat} {val : List Byte → Nat}

/-- Each `n` bytes of a list give one field of `w` bits, whose value `val` reads from the list's start. -/
def Grouped (F : List Byte → List Bool) (n w : Nat) (val : List Byte → Nat) : Prop :=
  ∀ bs, n ≤ bs.length → F bs = bitsMsb w (val bs) ++ F (bs.drop n)

/-- The first `g` groups take `w * g` bits, and what follows is the payload of the other bytes. -/
theorem Grouped.append (h : Grouped F n w val) {g : Nat} {bs : List Byte} (hg : n * g ≤ bs.length) :
    ∃ front, F bs = front ++ F (bs.drop (n * g)) ∧ front.length = w * g := by
  induction g generalizing bs with
  | zero => exact ⟨[], by simp, rfl⟩
  | succ g ih =>
    rw [Nat.mul_succ] at hg
    obtain ⟨front, hfront, hlen⟩ := ih (bs := bs.drop n) (by rw [List.length_drop]; omega)
    refine ⟨bitsMsb w (val bs) ++ front, ?_, ?_⟩
    · rw [h bs (by omega), hfront, List.drop_drop, List.append_assoc, Nat.mul_succ, Nat.add_comm]
    · rw [List.length_append, length_bitsMsb, hlen, Nat.mul_succ, Nat.add_comm]

/-- A field that opens the payload of the bytes after `g` groups. -/
theorem Grouped.fieldAt_rest (h : Grouped F n w val) {g : Nat} {bs : List Byte} (hg : n * g ≤ bs.length)
    {width value : Nat} (rest : List Bool) (hrest : F (bs.drop (n * g)) = bitsMsb width value ++ rest) :
    FieldAt (F bs) (w * g) width value := by
  obtain ⟨front, hfront, hlen⟩ := h.append hg
  rw [hfront, hrest, ← hlen]
  exact fieldAt_append (fieldAt_bitsMsb width value rest)

theorem Grouped.fieldAt (h : Grouped F n w val) {g : Nat} {bs : List Byte} (hg : n * (g + 1) ≤ bs.length) :
    FieldAt (F bs) (w * g) w (val (bs.drop (n * g))) := by
  rw [Nat.mul_succ] at hg
  exact h.fieldAt_rest (by omega) _ (h _ (by rw [List.length_drop]; omega))

theorem Grouped.length (h : Grouped F n w val) {g : Nat} {bs : List Byte} (hg : n * g ≤ bs.length) :
    (F bs).length = w * g + (F (bs.drop (n * g))).length := by
  obtain ⟨front, hfront, hlen⟩ := h.append hg
  rw [hfront, List.length_append, hlen]

end

theorem getD_drop (bs : List Byte) (k i : Nat) : (bs.drop k).getD i 0 = bs.getD (k + i) 0 := by
  simp [List.getD_eq_getElem?_getD]

theorem grouped_numericPayload : Grouped numericPayload 3 10 fun bs =>
    100 * digitValue (bs.getD 0 0) + 10 * digitValue (bs.getD 1 0) + digitValue (bs.getD 2 0)
  | a :: b :: c :: rest, _ => by rw [numericPayload]; rfl

theorem grouped_alphaPayload : Grouped alphaPayload 2 11 fun bs =>
    45 * alphaValue (bs.getD 0 0) + alphaValue (bs.getD 1 0)
  | x :: y :: rest, _ => by rw [alphaPayload]; rfl

theorem grouped_bytePayload : Grouped bytePayload 1 8 fun bs => (bs.getD 0 0).toNat
  | _ :: _, _ => rfl

theorem grouped_kanjiPayload : Grouped kanjiPayload 2 13 fun bs => kanjiValue (bs.getD 0 0) (bs.getD 1 0)
  | hi :: lo :: rest, _ => by rw [kanjiPayload]; rfl

/-- What is left after the full groups of `n` bytes. -/
theorem length_drop_groups (n : Nat) (bs : List Byte) : (bs.drop (n * (bs.length / n))).length = bs.length % n := by
  rw [List.length_drop, Nat.mod_eq_sub]

theorem drop_groups_of_mod_two {bs : List Byte} {n : Nat} (h : bs.length % n = 2) :
    bs.drop (n * (bs.length / n)) = [bs.getD (bs.length - 2) 0, bs.getD (bs.length - 1) 0] := by
  have hlen := length_drop_groups n bs
  have hdiv := Nat.div_add_mod bs.length n
  rw [h] at hlen hdiv
  obtain ⟨a, b, hab⟩ := List.length_eq_two.1 hlen
  have ha := getD_drop bs (n * (bs.length / n)) 0
  have hb := getD_drop bs (n * (bs.length / n)) 1
  rw [hab] at ha hb ⊢
  rw [show bs.length - 2 = n * (bs.length / n) + 0 by omega, show bs.length - 1 = n * (bs.length / n) + 1 by omega,
    ← ha, ← hb]
  rfl

theorem drop_groups_of_mod_one {bs : List Byte} {n : Nat} (h : bs.length % n = 1) :
    bs.drop (n * (bs.length / n)) = [bs.getD (bs.length - 1) 0] := by
  have hlen := length_drop_groups n bs
  have hdiv := Nat.div_add_mod bs.length n
  rw [h] at hlen hdiv
  obtain ⟨a, ha⟩ := List.length_eq_one_iff.1 hlen
  have hget := getD_drop bs (n * (bs.length / n)) 0
  rw [ha] at hget ⊢
  rw [show bs.length - 1 = n * (bs.length / n) + 0 by omega, ← hget]
  rfl

theorem drop_groups_of_mod_zero {bs : List Byte} {n : Nat} (h : bs.length % n = 0) :
    bs.drop (n * (bs.length / n)) = [] :=
  List.length_eq_zero_iff.1 ((length_drop_groups n bs).trans h)

/-- The payload of a segment's bytes is as long as R208 says. -/
theorem length_payload (m : SegMode) (bs : List Byte) :
    (payload m bs).length = payloadBits m (if m = .kanji then bs.length / 2 else bs.length) := by
  cases m with
  | numeric =>
    rw [payload, grouped_numericPayload.length (Nat.mul_div_le bs.length 3)]
    rcases (by omega : bs.length % 3 = 0 ∨ bs.length % 3 = 1 ∨ bs.length % 3 = 2) with h | h | h
    · simp [drop_groups_of_mod_zero h, payloadBits, h, numericPayload]
    · simp [drop_groups_of_mod_one h, payloadBits, h, numericPayload]
    · simp [drop_groups_of_mod_two h, payloadBits, h, numericPayload]
  | alphanumeric =>
    rw [payload, grouped_alphaPayload.length (Nat.mul_div_le bs.length 2)]
    rcases Nat.mod_two_eq_zero_or_one bs.length with h | h
    · simp [drop_groups_of_mod_zero h, payloadBits, h, alphaPayload]
    · simp [drop_groups_of_mod_one h, payloadBits, h, alphaPayload]
  | byte => simp [payload, bytePayload, payloadBits, List.length_flatMap, Nat.mul_comm]
  | kanji =>
    rw [payload, grouped_kanjiPayload.length (Nat.mul_div_le bs.length 2)]
    rcases Nat.mod_two_eq_zero_or_one bs.length with h | h
    · simp [drop_groups_of_mod_zero h, payloadBits, kanjiPayload]
    · simp [drop_groups_of_mod_one h, payloadBits, kanjiPayload]

/-! ### The fields of each payload (R209) -/

section
variable {bs : List Byte} {g : Nat}

theorem fieldAt_numericPayload (hg : g < bs.length / 3) : FieldAt (numericPayload bs) (10 * g) 10
    (100 * digitValue (bs.getD (3 * g) 0) + 10 * digitValue (bs.getD (3 * g + 1) 0) +
      digitValue (bs.getD (3 * g + 2) 0)) := by
  simpa only [getD_drop, Nat.add_zero] using grouped_numericPayload.fieldAt (bs := bs) (g := g) (by omega)

theorem fieldAt_numericPayload_two (h : bs.length % 3 = 2) : FieldAt (numericPayload bs) (10 * (bs.length / 3)) 7
    (10 * digitValue (bs.getD (bs.length - 2) 0) + digitValue (bs.getD (bs.length - 1) 0)) :=
  grouped_numericPayload.fieldAt_rest (Nat.mul_div_le ..) [] (by
    rw [drop_groups_of_mod_two h, numericPayload, List.append_nil])

theorem fieldAt_numericPayload_one (h : bs.length % 3 = 1) : FieldAt (numericPayload bs) (10 * (bs.length / 3)) 4
    (digitValue (bs.getD (bs.length - 1) 0)) :=
  grouped_numericPayload.fieldAt_rest (Nat.mul_div_le ..) [] (by
    rw [drop_groups_of_mod_one h, numericPayload, List.append_nil])

theorem fieldAt_alphaPayload (hg : g < bs.length / 2) : FieldAt (alphaPayload bs) (11 * g) 11
    (45 * alphaValue (bs.getD (2 * g) 0) + alphaValue (bs.getD (2 * g + 1) 0)) := by
  simpa only [getD_drop, Nat.add_zero] using grouped_alphaPayload.fieldAt (bs := bs) (g := g) (by omega)

theorem fieldAt_alphaPayload_one (h : bs.length % 2 = 1) : FieldAt (alphaPayload bs) (11 * (bs.length / 2)) 6
    (alphaValue (bs.getD (bs.length - 1) 0)) :=
  grouped_alphaPayload.fieldAt_rest (Nat.mul_div_le ..) [] (by
    rw [drop_groups_of_mod_one h, alphaPayload, List.append_nil])

theorem fieldAt_bytePayload (hg : g < bs.length) : FieldAt (bytePayload bs) (8 * g) 8 (bs.getD g 0).toNat := by
  simpa only [getD_drop, Nat.add_zero, Nat.one_mul] using grouped_bytePayload.fieldAt (bs := bs) (g := g) (by omega)

theorem fieldAt_kanjiPayload (hg : g < bs.length / 2) : FieldAt (kanjiPayload bs) (13 * g) 13
    (kanjiValue (bs.getD (2 * g) 0) (bs.getD (2 * g + 1) 0)) := by
  simpa only [getD_drop, Nat.add_zero] using grouped_kanjiPayload.fieldAt (bs := bs) (g := g) (by omega)

end

/-! ### The header and the payload of a segment (R209) -/

section
variable {v : Nat} {e : Segment} {bs : List Byte}

/-- A field of the payload stands after the mode indicator and the character count. -/
theorem fieldAt_encodeSegment (v : Nat) (e : Segment) {pos width value : Nat}
    (h : FieldAt (payload e.mode bs) pos width value) :
    FieldAt (encodeSegment v e bs) (4 + countBits e.mode v + pos) width value := by
  have moved := fieldAt_append (x := bitsMsb 4 (modeIndicator e.mode) ++ bitsMsb (countBits e.mode v) e.nchars.toNat) h
  rwa [List.length_append, length_bitsMsb, length_bitsMsb] at moved

theorem fieldAt_modeIndicator (v : Nat) (e : Segment) (bs : List Byte) :
    FieldAt (encodeSegment v e bs) 0 4 (modeIndicator e.mode) := by
  rw [encodeSegment, List.append_assoc]
  exact fieldAt_bitsMsb 4 _ _

theorem fieldAt_charCount (v : Nat) (e : Segment) (bs : List Byte) :
    FieldAt (encodeSegment v e bs) 4 (countBits e.mode v) e.nchars.toNat := by
  have moved := fieldAt_append (x := bitsMsb 4 (modeIndicator e.mode))
    (fieldAt_bitsMsb (countBits e.mode v) e.nchars.toNat (payload e.mode bs))
  rwa [length_bitsMsb, ← List.append_assoc] at moved

theorem length_encodeSegment (v : Nat) (hlen : bs.length = e.nbytes.toNat)
    (chars : e.nbytes.toNat = if e.mode = .kanji then 2 * e.nchars.toNat else e.nchars.toNat) :
    (encodeSegment v e bs).length = 4 + countBits e.mode v + payloadBits e.mode e.nchars.toNat := by
  have count : (if e.mode = .kanji then bs.length / 2 else bs.length) = e.nchars.toNat := by
    split at chars <;> rename_i h
    · rw [if_pos h]; omega
    · rw [if_neg h]; omega
  rw [encodeSegment, List.length_append, List.length_append, length_bitsMsb, length_bitsMsb, length_payload, count]

end

/-! ### The segment stream (R220) -/

theorem length_segmentStream {s : State} (inv : Inv s) (v : Nat) : (s.segmentStream v).length = s.streamBits v := by
  rw [State.segmentStream, List.length_flatMap, State.streamBits]
  refine congrArg List.sum (List.map_congr_left fun e he => ?_)
  exact length_encodeSegment v (State.length_readBytes ..) (inv.segments.chars e he)

/-! ### Packing (20_memory.md R93) -/

theorem testBit_ofBitsMsb (bits : List Bool) {i : Nat} (hi : i < bits.length) :
    (ofBitsMsb bits).testBit i = bits.getD (bits.length - 1 - i) false := by
  induction bits using List.reverseRecOn generalizing i with
  | nil => simp at hi
  | append_singleton bits b ih =>
    have snoc : ofBitsMsb (bits ++ [b]) = 2 * ofBitsMsb bits + b.toNat := by simp [ofBitsMsb]
    rw [snoc]
    simp only [List.length_append, List.length_singleton] at hi ⊢
    cases i with
    | zero => cases b <;> simp [List.getD_eq_getElem?_getD]
    | succ i =>
      rw [Nat.testBit_succ, show (2 * ofBitsMsb bits + b.toNat) / 2 = ofBitsMsb bits by cases b <;> simp; omega,
        ih (by omega), List.getD_append _ _ _ _ (by omega)]
      congr 1
      omega

/-- Bit `i` of codeword `j`, from its most significant bit, is bit `8 * j + i` of the stream. -/
theorem getLsbD_packCodewords {k : Nat} {bits : List Bool} (hk : 8 * k ≤ bits.length) {j i : Nat} (hj : j < k)
    (hi : i < 8) : ((packCodewords k bits).getD j 0).getLsbD (7 - i) = bits.getD (8 * j + i) false := by
  induction k generalizing bits j with
  | zero => omega
  | succ k ih =>
    rw [packCodewords]
    cases j with
    | zero =>
      have hlen : (bits.take 8).length = 8 := by rw [List.length_take]; omega
      have hbit := testBit_ofBitsMsb (bits.take 8) (i := 7 - i) (by omega)
      rw [hlen, show 8 - 1 - (7 - i) = i by omega] at hbit
      rw [List.getD_cons_zero, BitVec.getLsbD_ofNat, hbit, decide_eq_true (by omega : 7 - i < 8), Bool.true_and,
        Nat.mul_zero, Nat.zero_add, List.getD_eq_getElem?_getD, List.getD_eq_getElem?_getD,
        List.getElem?_take_of_lt hi]
    | succ j =>
      rw [List.getD_cons_succ, ih (by rw [List.length_drop]; omega) (by omega)]
      simp only [List.getD_eq_getElem?_getD, List.getElem?_drop]
      congr 2
      omega

/-! ### Terminator and padding (R225) -/

theorem getD_append_replicate_false (x : List Bool) (n i : Nat) :
    (x ++ List.replicate n false).getD i false = x.getD i false := by
  rcases Nat.lt_or_ge i x.length with h | h
  · rw [List.getD_append _ _ _ _ h]
  · rw [List.getD_append_right _ _ _ _ h, List.getD_eq_default _ _ h]
    rw [List.getD_eq_getElem?_getD, List.getElem?_replicate]
    split <;> rfl

theorem getD_terminate (cap : Nat) (x : List Bool) (i : Nat) : (terminate cap x).getD i false = x.getD i false := by
  rw [terminate, getD_append_replicate_false, getD_append_replicate_false]

/-- The stream with its terminator, up to the next byte boundary. -/
theorem length_terminate (cap : Nat) (x : List Bool) :
    (terminate cap x).length = 8 * ((x.length + min 4 (cap - x.length) + 7) / 8) := by
  simp only [terminate, List.length_append, List.length_replicate]
  omega

/-- The codewords that the terminated stream fills, and the pad codewords after them. -/
theorem codewordsOf_eq {v : Nat} {l : EcLevel} {x : List Bool} {k : Nat}
    (hk : k = (x.length + min 4 (8 * dataCodewords v l - x.length) + 7) / 8) (fit : k ≤ dataCodewords v l) :
    codewordsOf v l x = packCodewords k (terminate (8 * dataCodewords v l) x) ++
      padCodewords (dataCodewords v l - k) := by
  have hlen := length_terminate (8 * dataCodewords v l) x
  rw [← hk] at hlen
  simp only [codewordsOf, bitCapacity, hlen, Nat.mul_div_cancel_left k (show 0 < 8 by decide), Nat.min_eq_left fit]

theorem getLsbD_codewordsOf {v : Nat} {l : EcLevel} {x : List Bool} {k : Nat}
    (hk : k = (x.length + min 4 (8 * dataCodewords v l - x.length) + 7) / 8) (fit : k ≤ dataCodewords v l)
    {j i : Nat} (hj : j < k) (hi : i < 8) :
    ((codewordsOf v l x).getD j 0).getLsbD (7 - i) = x.getD (8 * j + i) false := by
  have hlen := length_terminate (8 * dataCodewords v l) x
  rw [← hk] at hlen
  rw [codewordsOf_eq hk fit, List.getD_append _ _ _ _ (by rwa [length_packCodewords]),
    getLsbD_packCodewords hlen.ge hj hi, getD_terminate]

theorem getD_codewordsOf_pad {v : Nat} {l : EcLevel} {x : List Bool} {k : Nat}
    (hk : k = (x.length + min 4 (8 * dataCodewords v l - x.length) + 7) / 8) (fit : k ≤ dataCodewords v l)
    {j : Nat} (hj : j < dataCodewords v l) (pad : k ≤ j) :
    (codewordsOf v l x).getD j 0 = if (j - k) % 2 = 0 then 0xEC else 0x11 := by
  have room : j - k < dataCodewords v l - k := by omega
  rw [codewordsOf_eq hk fit, List.getD_append_right _ _ _ _ (by rwa [length_packCodewords]), length_packCodewords]
  simp [padCodewords, List.getD_eq_getElem?_getD, room]

/-! ### The character classes and the Kanji transform (R200 to R204) -/

/-- The 45 symbols in the order of their values (R201). -/
def alphanumericSymbols : List Byte :=
  [0x30, 0x31, 0x32, 0x33, 0x34, 0x35, 0x36, 0x37, 0x38, 0x39, 0x41, 0x42, 0x43, 0x44, 0x45, 0x46, 0x47, 0x48, 0x49] ++
  [0x4A, 0x4B, 0x4C, 0x4D, 0x4E, 0x4F, 0x50, 0x51, 0x52, 0x53, 0x54, 0x55, 0x56, 0x57, 0x58, 0x59, 0x5A] ++
  [0x20, 0x24, 0x25, 0x2A, 0x2B, 0x2D, 0x2E, 0x2F, 0x3A]

theorem alphaValue?_symbols : alphanumericSymbols.map alphaValue? = (List.range 45).map some := by decide

theorem isAlphanumeric_iff (b : Byte) : isAlphanumeric b = true ↔ b ∈ alphanumericSymbols := by
  revert b
  decide +kernel

theorem isNumeric_iff (b : Byte) : isNumeric b = true ↔ 0x30 ≤ b.toNat ∧ b.toNat ≤ 0x39 := by
  simp [isNumeric, BitVec.le_def]

theorem isKanji_iff (hi lo : Byte) : isKanji hi lo = true ↔
    ((0x8140 ≤ kanjiWord hi lo ∧ kanjiWord hi lo ≤ 0x9FFC) ∨ (0xE040 ≤ kanjiWord hi lo ∧ kanjiWord hi lo ≤ 0xEBBF)) ∧
      0x40 ≤ lo.toNat ∧ lo.toNat ≤ 0xFC ∧ lo.toNat ≠ 0x7F := by
  simp [isKanji, BitVec.le_def, BitVec.toNat_eq, and_assoc]

/-- The value of a Kanji pair fits its 13 bits. -/
theorem kanjiValue_le {hi lo : Byte} (h : isKanji hi lo = true) : kanjiValue hi lo ≤ 0x1FFF := by
  obtain ⟨hword, hlow, hhigh, -⟩ := (isKanji_iff hi lo).1 h
  have hdef : kanjiWord hi lo = hi.toNat * 256 + lo.toNat := rfl
  simp only [kanjiValue]
  split <;> omega

/-- The count widths of R207. -/
theorem countBits_table (v : Nat) : [SegMode.numeric, .alphanumeric, .byte, .kanji].map (countBits · v) =
    if v ≤ 9 then [10, 9, 8, 8] else if v ≤ 26 then [12, 11, 16, 10] else [14, 13, 16, 12] := by
  simp only [List.map_cons, List.map_nil, countBits]
  split_ifs <;> rfl

/-- The payload lengths of R208. -/
theorem payloadBits_table (c : Nat) : [SegMode.numeric, .alphanumeric, .byte, .kanji].map (payloadBits · c) =
    [10 * (c / 3) + [0, 4, 7].getD (c % 3) 0, 11 * (c / 2) + 6 * (c % 2), 8 * c, 13 * c] := by
  have tail : (if c % 3 = 0 then 0 else if c % 3 = 1 then 4 else 7) = [0, 4, 7].getD (c % 3) 0 := by
    rcases (by omega : c % 3 = 0 ∨ c % 3 = 1 ∨ c % 3 = 2) with h | h | h <;> rw [h] <;> rfl
  simp only [List.map_cons, List.map_nil, payloadBits, tail]

end Sys2Proof.Machine
end

section
/-! PROOFS. The statements of 43_bitstream.md. -/
open Sys2Proof Sys2Proof.Machine

/-- Settles O11: the rule raises no error, and an empty table has no entry to read. -/
theorem clearCommand : Obligations.ClearCommand :=
  ⟨encoded_of_row (row := ⟨0x01, 0xFFFFFFFF, fun _ => .clear⟩) rfl rfl rfl, fun _ =>
    ⟨_, rfl, rfl, (by decide : (0#16 ++ 0#8 ++ BitVec.ofNat 8 0 : Word) = 0), fun _ => rfl⟩⟩

/-- Settles O12: the errors in the order of the rule (`ruleAppend_config` to `appendChunk_data_full`), and SEGDATA by the
bytes that the store writes. -/
theorem appendCommand : Obligations.AppendCommand := by
  refine ⟨encoded_of_row (row := ⟨0x02, 0xFFFFF8FF, fun w => .append (fieldMode w)⟩) rfl rfl rfl,
    fun s mode inv => ?_⟩
  intro off n chunk used
  have hchunk : s.readBytes .ibuf off n = chunk := readBytes_eq_map_range inv .ibuf off n
  have hlen : chunk.length = n := by simp [chunk]
  refine ⟨fun bad => finish_error (ruleAppend_config bad), fun good bad => finish_error (ruleAppend_range good bad),
    fun good fit empty => finish_ok (ruleAppend_empty good fit empty), fun fit full hint hmode => ?_⟩
  subst hmode
  have hrule : ruleAppend hint.code s = appendChunk hint chunk s := by rw [ruleAppend_chunk hint fit full, hchunk]
  refine ⟨fun p hp => ?_, fun pieces hp => ?_⟩
  · have hlt := splitChunk_error_lt hp
    have hcount : s.nseg ≤ 64 := inv.segments.count
    rw [← invalidCharInfo_eq (by omega) (by omega)]
    exact ⟨by omega, finish_error (hrule.trans (appendChunk_invalid hp))⟩
  · rw [← hlen]
    refine ⟨fun count => finish_error (hrule.trans (appendChunk_table_full hp count)),
      fun count fits => finish_error (hrule.trans (appendChunk_data_full hp count fits)),
      fun count fits => ⟨_, finish_ok (hrule.trans (appendChunk_ok hp count fits)),
        congrArg State.complete (storeChunk_frame s pieces rfl),
        fun _ k hd => readByte_writeBytes_of_ne s .segdata used chunk hd k, fun k hk => ?_,
        fun k hk => readByte_writeBytes_of_outside s .segdata used chunk hk,
        readCell_writeBytes s .segdata used chunk .wmat, readCell_writeBytes s .segdata used chunk .cmat⟩⟩
    refine (readByte_writeBytes_of_lt s .segdata used chunk hk).trans ?_
    rw [hlen] at hk
    simp [chunk, hk]

/-- Settles O13: the pieces stand for parts that cover the chunk (`splitChunk_parts`), and a forced mode's scan stops at
the first violation (`findIdx?_not_eq_some`, `firstBadPair_eq_some`). -/
theorem splitChunkPieces : Obligations.SplitChunkPieces := by
  refine fun m c hc => ⟨fun hint pieces h => ⟨cover_splitChunk hc h, fun k hk => ⟨start_splitChunk hc h k hk,
    (mem_splitChunk hc h (List.getElem_mem hk)).1⟩, fun p hp k hk => validAt_splitChunk hc h hp hk⟩,
    ⟨_, rfl, fun p hp => ?_⟩, fun mode pieces h => ?_, rfl,
    fun p => splitChunk_forced_eq_error.trans findIdx?_not_eq_some,
    fun p => splitChunk_forced_eq_error.trans findIdx?_not_eq_some,
    fun p => splitChunk_forced_eq_error.trans firstBadPair_eq_some⟩
  · obtain ⟨a, q, hq, rfl⟩ := mem_locatePieces_iff.1 hp
    exact autoParts_not_kanji hq.mem
  · rw [splitChunk] at h
    split at h <;> cases h
    rfl

/-- Settles O14: the Numeric and Alphanumeric pieces stand for the runs of the analyzer (`mem_autoPieces_numeric`,
`mem_autoPieces_alphanumeric`). -/
theorem autoSplitRules : Obligations.AutoSplitRules := by
  intro m c pieces hc h
  cases h
  refine ⟨fun short => by rw [autoParts_short short]; rfl, fun hm long => ⟨fun p hp mode => ?_,
    fun a ha run => exists_numericPiece hm long ha run, fun p hp mode => ?_,
    fun a ha run => exists_alphanumericPiece hm long ha run, fun k hk => not_byte_byte_autoPieces hk⟩⟩
  · obtain ⟨a, z, hz, rfl⟩ := (mem_autoPieces_numeric hm long).1 ⟨hp, mode⟩
    have run := isRun_of_classRuns hz
    exact ⟨(partAt_classRuns.1 hz).2, run.before, run.after⟩
  · obtain ⟨b, y, d, z, hy, hz, rfl⟩ := (mem_autoPieces_alphanumeric hm long).1 ⟨hp, mode⟩
    exact ⟨(partAt_classRuns.1 hz).2, alphanumericPiece_before hm long hy hz, alphanumericPiece_after hm long hy hz⟩

/-- Settles O27: the tables by their definitions, the fields by their places in the payload (`Grouped.fieldAt`,
`fieldAt_encodeSegment`), and the stream by what a range read lists. -/
theorem segmentStreamBits : Obligations.SegmentStreamBits := by
  refine ⟨alphaValue?_symbols, isAlphanumeric_iff, isNumeric_iff,
    fun hi lo => ⟨isKanji_iff hi lo, fun valid => ⟨rfl, kanjiValue_le valid⟩⟩, fun v _ _ => countBits_table v,
    payloadBits_table, fun v e bs hlen chars => ?_, fun s v inv => ⟨?_, length_segmentStream inv v, rfl⟩⟩
  · intro x start n digit av
    refine ⟨length_encodeSegment v hlen chars, ?_, fieldAt_charCount v e bs, fun mode _ => ?_, fun mode _ => ?_,
      fun mode k hk => ?_, fun mode _ g hg => ?_⟩
    · have header := fieldAt_modeIndicator v e bs
      cases hmode : e.mode <;> rw [hmode] at header <;> exact header
    · exact ⟨fun g hg => fieldAt_encodeSegment v e (by rw [mode]; exact fieldAt_numericPayload hg),
        fun h => fieldAt_encodeSegment v e (by rw [mode]; exact fieldAt_numericPayload_two h),
        fun h => fieldAt_encodeSegment v e (by rw [mode]; exact fieldAt_numericPayload_one h)⟩
    · exact ⟨fun g hg => fieldAt_encodeSegment v e (by rw [mode]; exact fieldAt_alphaPayload hg),
        fun h => fieldAt_encodeSegment v e (by rw [mode]; exact fieldAt_alphaPayload_one h)⟩
    · exact fieldAt_encodeSegment v e (by rw [mode]; exact fieldAt_bytePayload hk)
    · exact fieldAt_encodeSegment v e (by rw [mode]; exact fieldAt_kanjiPayload hg)
  · simp only [State.segmentStream, State.segmentBytes, readBytes_eq_map_range inv]

/-- Settles O28: the bits by their places in the terminated stream (`getLsbD_codewordsOf`), and the pad codewords after
them. -/
theorem codewordsOfStream : Obligations.CodewordsOfStream := by
  intro v l x fit full k
  have hk : k ≤ dataCodewords v l := by omega
  exact ⟨length_codewordsOf v l x, hk, fun j hj i hi => getLsbD_codewordsOf rfl hk hj hi,
    fun j hj pad => getD_codewordsOf_pad rfl hk hj pad⟩

/-- Settles O29: the rule's answer is that of the version selection (`ruleBitstream_ofNat`), and CWBUF holds the
codewords that it writes. -/
theorem bitstreamCommand : Obligations.BitstreamCommand := by
  refine ⟨encoded_of_row (row := ⟨0x40, 0xFFFE00FF, fun w => .bitstream (fieldVer w) (fieldEc w)⟩) rfl rfl rfl,
    fun s ver ec => ⟨fun bad => finish_error ((ruleBitstream_config s ver ec).1 bad),
      fun good bad => finish_error ((ruleBitstream_config s ver ec).2 good bad)⟩, fun s ver l _ hver => ?_⟩
  refine ⟨fun h1 long => finish_error (ruleBitstream_fixed_overflow hver h1 long), ?_,
    fun v h1 h40 fit sel => ⟨_, finish_ok (ruleBitstream_ok hver h1 h40 fit sel), ?_⟩⟩
  · rintro rfl long
    exact finish_error (ruleBitstream_auto_overflow long)
  · exact ⟨rfl, toNat_bitlen h40 fit, fun _ k hd => readByte_streamed_of_ne s v l l.selector hd k,
      readCell_streamed s v l l.selector .wmat, readCell_streamed s v l l.selector .cmat,
      fun j hj => readByte_streamed_of_lt s v l l.selector hj,
      fun k hk => readByte_streamed_of_ge s v l l.selector hk⟩

end

section
/-! PROOFS. The data modules of the template, in the zig-zag order and by rows (44_matrix.md R250, R253): PLACE finds as
many as it expects. -/
namespace Sys2Proof.Machine

/-! ### Counting bits by halves -/

theorem bitCount_mod (n m : Nat) : bitCount n (m % 2 ^ n) = bitCount n m := by
  rw [bitCount_eq, bitCount_eq]
  refine congrArg List.length (List.filter_congr fun c hc => ?_)
  simp [Nat.testBit_mod_two_pow, List.mem_range.1 hc]

theorem bitCount_add (h n m : Nat) : bitCount (h + n) m = bitCount h m + bitCount n (m / 2 ^ h) := by
  induction h generalizing m with
  | zero => simp [bitCount]
  | succ h ih => rw [Nat.succ_add, bitCount, bitCount, ih, Nat.div_div_eq_div_mul, ← Nat.pow_succ', Nat.add_assoc]

@[simp] theorem bitCount_zero (n : Nat) : bitCount n 0 = 0 := by
  induction n with
  | zero => rfl
  | succ n ih => rw [bitCount, ih]

/-- `bitCount n m` by halving the bits `k` times, which is quick to evaluate where most of the bits are 0. -/
def countHalves : (k n m : Nat) → Nat
  | 0, n, m => bitCount n m
  | k + 1, n, m =>
    if m = 0 then 0 else countHalves k (n / 2) (m % 2 ^ (n / 2)) + countHalves k (n - n / 2) (m / 2 ^ (n / 2))

theorem countHalves_eq (k n m : Nat) : countHalves k n m = bitCount n m := by
  induction k generalizing n m with
  | zero => rfl
  | succ k ih =>
    rw [countHalves]
    split
    · next h => rw [h, bitCount_zero]
    · rw [ih, ih, bitCount_mod, ← bitCount_add, Nat.add_sub_cancel' (Nat.div_le_self n 2)]

/-! ### The data modules by rows (R250) -/

/-- 1 where the template has a data module, 0 where it has a function module. -/
def dataBit (v r c : Nat) : Nat := (!(templateCell v r c).f).toNat

/-- The template's data modules, row by row, are as many as R141 says. -/
theorem sum_countHalves_rows : ∀ v ∈ List.range' 1 40, ((List.range (side v)).map fun r =>
    side v - countHalves 5 (side v) (rowMask v (side v) (alignmentCentres v) r)).sum = dataModules v := by
  decide +kernel

theorem countP_eq_sum_toNat {α : Type} (f : α → Bool) (xs : List α) :
    xs.countP f = (xs.map fun x => (f x).toNat).sum := by
  induction xs with
  | nil => rfl
  | cons x xs ih => rw [List.countP_cons, List.map_cons, List.sum_cons, ih, Nat.add_comm]; cases f x <;> rfl

theorem sum_list_range (n : Nat) (h : Nat → Nat) : ((List.range n).map h).sum = ∑ i ∈ Finset.range n, h i := rfl

theorem sum_dataBit {v : Nat} (h1 : 1 ≤ v) (h40 : v ≤ 40) :
    ∑ r ∈ Finset.range (side v), ∑ c ∈ Finset.range (side v), dataBit v r c = dataModules v := by
  rw [← sum_countHalves_rows v (List.mem_range'_1.2 ⟨h1, by omega⟩), sum_list_range]
  refine Finset.sum_congr rfl fun r hr => ?_
  rw [countHalves_eq, ← length_templateRow h1 (Finset.mem_range.1 hr), ← List.countP_eq_length_filter,
    countP_eq_sum_toNat, sum_list_range]
  rfl

/-! ### The columns of the zig-zag (R253) -/

/-- The column pairs of a symbol two columns wider: one pair more, at the right edge. -/
theorem pairColumns_add_two {s : Nat} (h : 7 ≤ s) : pairColumns (s + 2) = (s + 1) :: pairColumns s := by
  have hcount : (s + 2 - 1) / 2 = (s - 1) / 2 + 1 := by omega
  rw [pairColumns, pairColumns, hcount, List.range_succ_eq_map, List.map_cons, List.map_map]
  congr 1
  · simp only; rw [if_neg (by omega)]; omega
  · refine List.map_congr_left fun p _ => ?_
    simp only [Function.comp]
    rw [show s + 2 - 1 - 2 * p.succ = s - 1 - 2 * p by omega]

/-- The column pairs take every column but column 6, the vertical timing line, once. -/
theorem sum_pairColumns (h : Nat → Nat) (n : Nat) :
    ((pairColumns (2 * n + 7)).map fun right => h right + h (right - 1)).sum + h 6 =
      ∑ c ∈ Finset.range (2 * n + 7), h c := by
  induction n with
  | zero =>
    have : pairColumns 7 = [5, 3, 1] := rfl
    simp [this, Finset.sum_range_succ]
    omega
  | succ n ih =>
    rw [show 2 * (n + 1) + 7 = 2 * n + 7 + 2 by omega, pairColumns_add_two (by omega), Finset.sum_range_succ,
      Finset.sum_range_succ, ← ih, List.map_cons, List.sum_cons]
    show h (2 * n + 8) + h (2 * n + 7) + _ + h 6 = _
    omega

/-- Both directions of a column pair take the same cells. -/
theorem countP_pairCells (f : Nat × Nat → Bool) (s right : Nat) : (pairCells s right).countP f =
    ∑ r ∈ Finset.range s, (f (r, right)).toNat + ∑ r ∈ Finset.range s, (f (r, right - 1)).toNat := by
  have cell : ∀ r, [(r, right), (r, right - 1)].countP f = (f (r, right)).toNat + (f (r, right - 1)).toNat :=
    fun r => by simp [countP_eq_sum_toNat]
  rw [← Finset.sum_add_distrib, pairCells, List.countP_flatMap, sum_list_range]
  cases (right + 1) &&& 2 == 0
  · exact Finset.sum_congr rfl fun r _ => cell r
  · refine Eq.trans ?_ (Finset.sum_range_reflect (fun r => (f (r, right)).toNat + (f (r, right - 1)).toNat) s)
    exact Finset.sum_congr rfl fun r _ => cell (s - 1 - r)

/-- The cells of column 6 are function modules (R243). -/
theorem dataBit_column_six {v r : Nat} (h1 : 1 ≤ v) (hr : r < side v) : dataBit v r 6 = 0 := by
  have hf := (templateCell_f_iff h1 hr (show 6 < side v by simp only [side]; omega)).2
    (.inr (.inr (.inr (.inr (.inl rfl)))))
  simp [dataBit, hf]

/-- The template's data modules in the zig-zag order are as many (R250). -/
theorem length_dataCells_template {v : Nat} (h1 : 1 ≤ v) (h40 : v ≤ 40) :
    ((zigzag v).filter fun x => !(templateCell v x.1 x.2).f).length = dataModules v := by
  have column : ∑ r ∈ Finset.range (side v), dataBit v r 6 = 0 :=
    Finset.sum_eq_zero fun r hr => dataBit_column_six h1 (Finset.mem_range.1 hr)
  have columns := sum_pairColumns (fun c => ∑ r ∈ Finset.range (side v), dataBit v r c) (2 * v + 5)
  rw [column, Nat.add_zero, show 2 * (2 * v + 5) + 7 = side v by simp only [side]; omega, Finset.sum_comm,
    sum_dataBit h1 h40] at columns
  rw [← columns, ← List.countP_eq_length_filter, zigzag, List.countP_flatMap]
  exact congrArg List.sum (List.map_congr_left fun right _ => countP_pairCells _ _ right)

theorem dataModules_eq (v : Nat) : dataModules v = 8 * totalCodewords v + remainderBits v :=
  (Nat.div_add_mod (dataModules v) 8).symm

end Sys2Proof.Machine
end

section
/-! PROOFS. The stages of a BUILD whose stream fits: each answers a state, so none raises an error (47_build.md R332,
R333). -/
namespace Sys2Proof.Machine

/-! ### What the stages leave, two by two -/

namespace State

/-- What BITSTREAM and ECC_INTERLEAVE leave: the data codewords and the final codeword stream. -/
def coded (v : Nat) (l : EcLevel) (s : State) : State :=
  (s.streamed v l l.selector).writeBytes .final 0 (cwbufStream (s.streamed v l l.selector) v l)

/-- What MATRIX_INIT and PLACE leave: the template with the bits of FINAL in its data cells. -/
def filled (v : Nat) (s : State) : State :=
  (s.templated v).placed v (dataCells v ((s.templated v).symbolRows (side v)))

/-- What MASK_SELECT and FMT_INSERT leave: the masked matrix with its strips. -/
def finished (l : EcLevel) (s : State) : State := s.masked.inserted l s.masked.matMeta.mmask

/-- What the six stages of BUILD leave. Irreducible: unfolding it to compare states would run the mask scores. -/
@[irreducible] def built (v : Nat) (l : EcLevel) (s : State) : State := ((s.coded v l).filled v).finished l

end State

section
variable {v : Nat} (h1 : 1 ≤ v) (h40 : v ≤ 40) (s : State) (l : EcLevel)
include h1 h40

theorem ofNat_version_ne_zero : BitVec.ofNat 6 v ≠ 0 := fun h => by
  have := congrArg BitVec.toNat h
  rw [BitVec.toNat_ofNat, Nat.mod_eq_of_lt (by omega)] at this
  exact absurd this (by simp; omega)

theorem ruleEccInterleave_ok : ruleEccInterleave (BitVec.ofNat 6 v) l.selector s =
    .ok (s.writeBytes .final 0 (cwbufStream s v l)) := by
  rw [ruleEccInterleave, operandVersion_ofNat h1 h40, operandEc_selector]
  rfl

theorem ruleMatrixInit_ok : ruleMatrixInit (BitVec.ofNat 6 v) s = .ok (s.templated v) := by
  rw [ruleMatrixInit, operandVersion_ofNat h1 h40]
  rfl

/-- On the template PLACE finds as many data cells as it expects (R250, R256). -/
theorem length_dataCells_templated (hw : List.Pairwise (fun a b => a.1 < b.1) s.wmat) :
    (dataCells v ((s.templated v).symbolRows (side v))).length = 8 * totalCodewords v + remainderBits v := by
  rw [dataCells_symbolRows _ (s.wf_templated v).1 h40, ← dataModules_eq, ← length_dataCells_template h1 h40]
  refine congrArg List.length (List.filter_congr fun x hx => ?_)
  obtain ⟨hr, hc⟩ := mem_zigzag hx
  have hside : side v ≤ 177 := by simp only [side]; omega
  have cell : (s.templated v).readCell .wmat x.1 x.2 = templateCell v x.1 x.2 :=
    State.readCell_mapCells (fun r c _ => templateCell v r c) s hw (hr.trans_le hside) (hc.trans_le hside)
  rw [cell]

theorem rulePlace_templated (hw : List.Pairwise (fun a b => a.1 < b.1) s.wmat) :
    rulePlace (s.templated v) = .ok (s.filled v) := by
  have hv : (s.templated v).matMeta.mver.toNat = v := (BitVec.toNat_ofNat ..).trans (Nat.mod_eq_of_lt (by omega))
  have cases := rulePlace_cases (s.templated v)
  rw [hv] at cases
  rcases cases with ⟨-, -, hr⟩ | ⟨h0, -⟩ | ⟨-, hne, -⟩
  · exact hr
  · exact absurd h0 (ofNat_version_ne_zero h1 h40)
  · exact absurd (length_dataCells_templated h1 h40 s hw) hne

end

theorem ruleMaskSelect_ok {s : State} (matrix : s.matMeta.mver ≠ 0) (unmasked : s.matMeta.mmasked = false) :
    ruleMaskSelect s = .ok s.masked := by
  rcases ruleMaskSelect_cases s with ⟨-, -, hr⟩ | ⟨h0, -⟩ | ⟨-, masked, -⟩
  · exact hr
  · exact absurd h0 matrix
  · rw [unmasked] at masked; cases masked

theorem ruleFmtInsert_ok {s : State} (matrix : s.matMeta.mver ≠ 0) (l : EcLevel) (mask : BitVec 3) :
    ruleFmtInsert l.selector mask s = .ok (s.inserted l mask) := by
  rcases ruleFmtInsert_cases l.selector mask s with ⟨l', hl, -, hr⟩ | ⟨bad, -⟩ | ⟨-, h0, -⟩
  · rw [operandEc_selector] at hl
    cases hl
    exact hr
  · exact absurd bad (by cases l <;> decide)
  · exact absurd h0 matrix

section
variable (s : State) (v : Nat) (l : EcLevel)

theorem coded_streamMeta : (s.coded v l).streamMeta = ⟨BitVec.ofNat 6 v, l.selector, true⟩ := by
  rw [State.coded, State.writeBytes, State.setBytes_streamMeta, State.streamed]

theorem coded_wmat : (s.coded v l).wmat = s.wmat := by
  rw [State.coded, State.writeBytes, State.setBytes_wmat, State.streamed]
  exact State.setBytes_wmat ..

theorem filled_matMeta : (s.filled v).matMeta = ⟨BitVec.ofNat 6 v, 0, false, false⟩ := by
  rw [State.filled, State.placed, State.templated]

theorem masked_matMeta :
    s.masked.matMeta = { s.matMeta with mmask := BitVec.ofNat 3 s.bestMask, mmasked := true } := by
  rw [State.masked]

theorem finished_matMeta : (s.finished l).matMeta =
    { s.matMeta with mmask := BitVec.ofNat 3 s.bestMask, mmasked := true, fmtdone := true } := by
  rw [State.finished, State.inserted, masked_matMeta]

end

/-- When stage 1 selects a version, the later stages raise no error (R333). -/
theorem runStages_build_ok {s : State} (inv : Inv s) {ver : BitVec 6} {v : Nat} {l : EcLevel} (h1 : 1 ≤ v)
    (h40 : v ≤ 40) (stage1 : ruleBitstream ver l.selector s = .ok (s.streamed v l l.selector)) :
    runStages (buildStages ver l.selector) s = .ok (s.built v l) := by
  have hv := ofNat_version_ne_zero h1 h40
  have stage2 : ruleEccInterleave (s.streamed v l l.selector).streamMeta.sver l.selector (s.streamed v l l.selector) =
      .ok (s.coded v l) := ruleEccInterleave_ok h1 h40 _ l
  have stage3 : ruleMatrixInit (s.coded v l).streamMeta.sver (s.coded v l) = .ok ((s.coded v l).templated v) := by
    rw [coded_streamMeta]
    exact ruleMatrixInit_ok h1 h40 _
  have stage4 : rulePlace ((s.coded v l).templated v) = .ok ((s.coded v l).filled v) :=
    rulePlace_templated h1 h40 _ (by rw [coded_wmat]; exact (inv.memories.matrix .wmat).1)
  have stage5 : ruleMaskSelect ((s.coded v l).filled v) = .ok ((s.coded v l).filled v).masked :=
    ruleMaskSelect_ok (by rw [filled_matMeta]; exact hv) (by rw [filled_matMeta])
  have stage6 : ruleFmtInsert l.selector ((s.coded v l).filled v).masked.matMeta.mmask ((s.coded v l).filled v).masked =
      .ok (s.built v l) := by
    rw [State.built]
    exact ruleFmtInsert_ok (by rw [masked_matMeta, filled_matMeta]; exact hv) l _
  rw [buildStages, runStages_cons_ok stage1,
    runStages_cons_ok (stage := fun s => ruleEccInterleave s.streamMeta.sver l.selector s) stage2,
    runStages_cons_ok (stage := fun s => ruleMatrixInit s.streamMeta.sver s) stage3, runStages_cons_ok stage4,
    runStages_cons_ok stage5,
    runStages_cons_ok (stage := fun s => ruleFmtInsert l.selector s.matMeta.mmask s) stage6, runStages]

/-! ### What the stages write (R332) -/

section
variable (s : State) (v : Nat) (l : EcLevel)

theorem frame_coded : Frame [.cwbuf, .final, .stream, .result] s (s.coded v l) := by
  have stage1 : Frame [.cwbuf, .stream, .result] s (s.streamed v l l.selector) := rfl
  exact stage1.trans (by simp) rfl

theorem frame_filled : Frame [.matrix] s (s.filled v) := by
  have stage3 : Frame [.matrix] s (s.templated v) := rfl
  exact stage3.trans (List.Subset.refl _) rfl

theorem frame_finished : Frame [.matrix, .maskPen, .result] s (s.finished l) := by
  have stage5 : Frame [.matrix, .maskPen, .result] s s.masked := rfl
  exact stage5.trans (List.Subset.refl _) rfl

theorem frame_coded_built : Frame [.matrix, .maskPen, .result] (s.coded v l) (s.built v l) := by
  rw [State.built]
  exact (frame_filled _ v).trans (by simp) (frame_finished _ l)

theorem frame_built : Frame [.cwbuf, .final, .stream, .matrix, .maskPen, .result] s (s.built v l) :=
  (frame_coded s v l).trans (by simp) ((frame_coded_built s v l).trans (by simp) (.refl ..))

/-- The commit writes OUTMETA, CMAT and RESULT, and the completion the lifecycle. -/
theorem frame_commit {s u : State} (h : Frame [.cwbuf, .final, .stream, .matrix, .maskPen, .result] s u)
    (ec : BitVec 3) :
    { (u.commit ec).complete with
      bitlen := s.bitlen, streamMeta := s.streamMeta, matMeta := s.matMeta, maskPen := s.maskPen
      outMeta := s.outMeta, result := s.result
      cwbuf := s.cwbuf, final := s.final, wmat := s.wmat, cmat := s.cmat } = s.complete := by
  rw [h]
  rfl

theorem coded_bitlen : (s.coded v l).bitlen = BitVec.ofNat 32 (s.streamBits v) := by
  rw [State.coded, State.writeBytes, State.setBytes_bitlen, State.streamed]

theorem built_stream : (s.built v l).bitlen = BitVec.ofNat 32 (s.streamBits v) ∧
    (s.built v l).streamMeta = ⟨BitVec.ofNat 6 v, l.selector, true⟩ := by
  obtain ⟨hbits, hmeta⟩ := Prod.mk.inj ((frame_coded_built s v l).same (x := .stream) (by simp))
  exact ⟨hbits.trans (coded_bitlen s v l), hmeta.trans (coded_streamMeta s v l)⟩

theorem wf_built : Memory.wf Config.matCells (s.built v l).wmat := by
  rw [State.built, State.finished]
  exact State.wf_inserted ..

theorem built_matMeta : (s.built v l).matMeta = ⟨BitVec.ofNat 6 v, (s.built v l).matMeta.mmask, true, true⟩ := by
  rw [State.built, finished_matMeta, filled_matMeta]

end

/-! ### What the byte memories hold then -/

/-- Changes of other items keep the byte memories. -/
theorem Frame.readByte {w : List Item} {s t : State} (h : Frame w s t) (hs : .segments ∉ w) (hc : .cwbuf ∉ w)
    (hf : .final ∉ w) (b : Config.ByteMem) (k : Nat) : t.readByte b k = s.readByte b k := by
  have hb : t.bytes b = s.bytes b := by
    cases b with
    | ibuf => exact h.ibuf
    | segdata => exact (Prod.mk.inj (Prod.mk.inj (h.same hs)).2).2
    | cwbuf => exact h.same hc
    | final => exact h.same hf
  rw [State.readByte, hb, h.resets, State.readByte]

theorem inv_streamed {s : State} (inv : Inv s) {v : Nat} (h1 : 1 ≤ v) (h40 : v ≤ 40) (l : EcLevel) :
    Inv (s.streamed v l l.selector) :=
  .of_parts (inv.contents.of_effect (.bitstream 0 l h1 h40 (by cases l <;> decide)))
    (inv.lifecycle.congr rfl rfl rfl rfl)

section
variable {s : State} (v : Nat) (l : EcLevel) {k : Nat}

/-- The stages after ECC_INTERLEAVE keep the byte memories. -/
theorem readByte_built (b : Config.ByteMem) : (s.built v l).readByte b k = (s.coded v l).readByte b k :=
  (frame_coded_built s v l).readByte (by simp) (by simp) (by simp) b k

theorem readByte_built_cwbuf (hk : dataCodewords v l ≤ k) : (s.built v l).readByte .cwbuf k = s.readByte .cwbuf k := by
  rw [readByte_built, State.coded, readByte_writeBytes_of_ne _ _ _ _ (by simp), readByte_streamed_of_ge s v l _ hk]

theorem readByte_built_final (inv : Inv s) {v : Nat} (h1 : 1 ≤ v) (h40 : v ≤ 40) (hk : totalCodewords v ≤ k) :
    (s.built v l).readByte .final k = s.readByte .final k := by
  have hlen := length_cwbufStream (inv_streamed inv h1 h40 l) h1 h40 l
  rw [readByte_built, State.coded, readByte_writeBytes_of_outside _ _ _ _ (.inr (by omega)),
    readByte_streamed_of_ne s v l _ (by simp)]

theorem readByte_built_of_ne {b : Config.ByteMem} (hc : b ≠ .cwbuf) (hf : b ≠ .final) :
    (s.built v l).readByte b k = s.readByte b k := by
  rw [readByte_built, State.coded, readByte_writeBytes_of_ne _ _ _ _ hf, readByte_streamed_of_ne s v l _ hc]

end

/-! ### BUILD (R331) -/

/-- With legal operands BUILD is its stages and the commit. -/
theorem execBuild_ok {s t : State} {ver : Nat} (hver : ver ≤ 40) {l : EcLevel}
    (h : runStages (buildStages (BitVec.ofNat 6 ver) l.selector) s = .ok t) :
    execBuild (BitVec.ofNat 6 ver) l.selector s = .next (t.commit l.selector).complete := by
  rw [execBuild, operandVersionOrAuto_ofNat hver, operandEc_selector, h]

/-- An error of stage 1 ends BUILD with no effect (R333). -/
theorem execBuild_error {s : State} {ver : Nat} (hver : ver ≤ 40) {l : EcLevel} {e : CmdError}
    (h : ruleBitstream (BitVec.ofNat 6 ver) l.selector s = .error e) :
    execBuild (BitVec.ofNat 6 ver) l.selector s = .next (s.raiseError e) := by
  rw [execBuild, operandVersionOrAuto_ofNat hver, operandEc_selector, buildStages, runStages_cons_error h]

/-- The illegal fields of BUILD (R115, R354). -/
theorem execBuild_config (s : State) (ver : BitVec 6) (ec : BitVec 3) :
    (ver.toNat > 40 → execBuild ver ec s = .next (s.raiseError ⟨.config, 1⟩)) ∧
      (ver.toNat ≤ 40 → ec.toNat > 3 → execBuild ver ec s = .next (s.raiseError ⟨.config, 2⟩)) := by
  rcases execBuild_cases ver ec s with ⟨l, t, h40, hl, -⟩ | ⟨l, e, t, h40, hl, -⟩ | ⟨bad, he⟩ | ⟨h40, bad, he⟩
  · have := toNat_le_of_operandEc hl
    exact ⟨fun _ => by omega, fun _ _ => by omega⟩
  · have := toNat_le_of_operandEc hl
    exact ⟨fun _ => by omega, fun _ _ => by omega⟩
  · exact ⟨fun _ => he, fun _ _ => by omega⟩
  · exact ⟨fun _ => by omega, fun _ _ => he⟩

theorem setWidth_ofNat_version {v : Nat} (h40 : v ≤ 40) : (BitVec.ofNat 6 v).setWidth 32 = BitVec.ofNat 32 v := by
  refine BitVec.eq_of_toNat_eq ?_
  simp only [BitVec.toNat_setWidth, BitVec.toNat_ofNat]
  omega

theorem commit_result {u : State} {v : Nat} {ec : BitVec 3} {valid : Bool} (h40 : v ≤ 40)
    (hs : u.streamMeta = ⟨BitVec.ofNat 6 v, ec, valid⟩) : (u.commit ec).result = BitVec.ofNat 32 v := by
  rw [State.commit, hs]
  exact setWidth_ofNat_version h40

theorem commit_outMeta {u : State} {v : Nat} {ec : BitVec 3} {valid : Bool} (h40 : v ≤ 40)
    (hs : u.streamMeta = ⟨BitVec.ofNat 6 v, ec, valid⟩) :
    (u.commit ec).outMeta = ⟨BitVec.ofNat 6 v, ec, u.matMeta.mmask, BitVec.ofNat 8 (4 * v + 17), true⟩ := by
  have hv : (BitVec.ofNat 6 v).toNat = v := (BitVec.toNat_ofNat ..).trans (Nat.mod_eq_of_lt (by omega))
  rw [State.commit, hs]
  simp only [hv, side]

end Sys2Proof.Machine
end

section
/-! PROOFS. The statement of 47_build.md R331 and R333. -/
open Sys2Proof Sys2Proof.Machine

/-- Settles O40: stage 1 raises the overflow with no effect (`execBuild_error`), the later stages raise no error
(`runStages_build_ok`), and each item holds what the last stage that writes it left. -/
theorem buildCommand : Obligations.BuildCommand := by
  refine ⟨encoded_of_row (row := ⟨0x80, 0xFFFE00FF, fun w => .build (fieldVer w) (fieldEc w)⟩) rfl rfl rfl,
    execBuild_config, fun s ver l inv hver => ⟨fun h1 long => execBuild_error hver
      (ruleBitstream_fixed_overflow hver h1 long), ?_, fun v h1 h40 fit sel => ?_⟩⟩
  · rintro rfl long
    exact execBuild_error hver (ruleBitstream_auto_overflow long)
  · have stages := runStages_build_ok inv h1 h40 (ruleBitstream_ok hver h1 h40 fit sel)
    obtain ⟨hbits, hmeta⟩ := built_stream s v l
    exact ⟨_, execBuild_ok hver stages, frame_commit (frame_built s v l) l.selector, commit_result h40 hmeta,
      (congrArg BitVec.toNat hbits).trans (toNat_bitlen h40 fit), hmeta, built_matMeta s v l, commit_outMeta h40 hmeta,
      (s.built v l).readCell_commitCells (wf_built s v l).1, fun k hk => readByte_built_cwbuf v l hk,
      fun k hk => readByte_built_final l inv h1 h40 hk,
      fun k => ⟨readByte_built_of_ne v l (by decide) (by decide), readByte_built_of_ne v l (by decide) (by decide)⟩⟩

end

section
/-! PROOFS. The template's data modules by rows (44_matrix.md R250), and the zig-zag order index by index: which cell stands
where, and how often (R253). -/
namespace Sys2Proof.Machine

/-! ### The data modules by rows (R250) -/

theorem sum_dataModules_rows {v : Nat} (h1 : 1 ≤ v) (h40 : v ≤ 40) : ((List.range (side v)).map fun r =>
    ((List.range (side v)).filter fun c => !(templateCell v r c).f).length).sum = dataModules v := by
  rw [← sum_dataBit h1 h40, sum_list_range]
  refine Finset.sum_congr rfl fun r _ => ?_
  rw [← List.countP_eq_length_filter, countP_eq_sum_toNat, sum_list_range]
  rfl

/-! ### How often a cell stands in the zig-zag (R253) -/

/-- Counting along the zig-zag is counting over the whole symbol but for column 6. -/
theorem countP_zigzag (v : Nat) (f : Nat × Nat → Bool) :
    (zigzag v).countP f + ∑ r ∈ Finset.range (side v), (f (r, 6)).toNat =
      ∑ c ∈ Finset.range (side v), ∑ r ∈ Finset.range (side v), (f (r, c)).toNat := by
  have columns := sum_pairColumns (fun c => ∑ r ∈ Finset.range (side v), (f (r, c)).toNat) (2 * v + 5)
  rw [show 2 * (2 * v + 5) + 7 = side v by simp only [side]; omega] at columns
  rw [← columns, zigzag, List.countP_flatMap]
  refine congrArg (List.sum · + _) (List.map_congr_left fun right _ => countP_pairCells f _ right)

theorem six_lt_side (v : Nat) : 6 < side v := by simp only [side]; omega

theorem length_zigzag (v : Nat) : (zigzag v).length = side v * (side v - 1) := by
  have h := countP_zigzag v fun _ => true
  have hs := six_lt_side v
  simp only [List.countP_true, Bool.toNat_true, Finset.sum_const, Finset.card_range, smul_eq_mul, mul_one] at h
  rw [Nat.mul_sub_one]
  omega

/-- The sum over one column that picks out the cell `x`. -/
theorem sum_column_beq (n c : Nat) (x : Nat × Nat) :
    ∑ r ∈ Finset.range n, (((r, c) : Nat × Nat) == x).toNat = if c = x.2 then if x.1 < n then 1 else 0 else 0 := by
  split
  · next hc =>
    have cell : ∀ r, (((r, c) : Nat × Nat) == x).toNat = if r = x.1 then 1 else 0 := fun r => by
      by_cases hr : r = x.1 <;> simp [beq_eq_decide, Prod.ext_iff, hc, hr]
    simp only [cell, Finset.sum_ite_eq', Finset.mem_range]
  · next hc => simp [beq_eq_decide, Prod.ext_iff, hc]

/-- The zig-zag lists each cell of the symbol outside column 6 once, and no other. -/
theorem count_zigzag (v : Nat) (x : Nat × Nat) :
    (zigzag v).count x = if x.1 < side v ∧ x.2 < side v ∧ x.2 ≠ 6 then 1 else 0 := by
  have h := countP_zigzag v (· == x)
  have hs := six_lt_side v
  simp only [sum_column_beq, Finset.sum_ite_eq', Finset.mem_range] at h
  rw [List.count]
  split_ifs at h ⊢ <;> omega

theorem nodup_zigzag (v : Nat) : (zigzag v).Nodup := by
  refine List.nodup_iff_count_le_one.2 fun x => ?_
  rw [count_zigzag]
  split <;> omega

theorem mem_zigzag_iff {v : Nat} {x : Nat × Nat} : x ∈ zigzag v ↔ x.1 < side v ∧ x.2 < side v ∧ x.2 ≠ 6 := by
  rw [← List.count_pos_iff, count_zigzag]
  split
  · next h => exact iff_of_true Nat.zero_lt_one h
  · next h => exact iff_of_false (Nat.lt_irrefl 0) h

/-! ### Which cell stands at which index (R253) -/

/-- In a list of blocks of `n` entries, entry `j` of block `i` stands at index `n * i + j`. -/
theorem getElem?_flatMap_of_length {α β : Type} {f : α → List β} {n : Nat} (hf : ∀ x, (f x).length = n) (xs : List α)
    (i : Nat) {j : Nat} (hj : j < n) : (xs.flatMap f)[n * i + j]? = xs[i]?.bind fun x => (f x)[j]? := by
  induction xs generalizing i with
  | nil => simp
  | cons x xs ih =>
    rw [List.flatMap_cons]
    cases i with
    | zero => rw [Nat.mul_zero, Nat.zero_add, List.getElem?_append_left (by rw [hf]; exact hj)]; rfl
    | succ i =>
      rw [List.getElem?_append_right (by rw [hf, Nat.mul_succ]; omega), hf,
        show n * (i + 1) + j - n = n * i + j by rw [Nat.mul_succ]; omega, ih, List.getElem?_cons_succ]

/-- The right column of column pair `p` of a symbol of side `s`: column 6 is skipped. -/
def pairRight (s p : Nat) : Nat := if 8 ≤ s - 1 - 2 * p then s - 1 - 2 * p else s - 2 - 2 * p

theorem getElem?_pairColumns {v p : Nat} (hp : p < 2 * v + 8) :
    (pairColumns (side v))[p]? = some (pairRight (side v) p) := by
  have hs : side v = 4 * v + 17 := rfl
  rw [pairColumns, List.getElem?_map, List.getElem?_range (by omega), Option.map_some, pairRight]
  refine congrArg some ?_
  simp only
  split <;> split <;> omega

/-- Pairs of even number run upward. -/
theorem upward_pairRight {v p : Nat} (hp : p < 2 * v + 8) :
    ((pairRight (side v) p + 1) &&& 2 == 0) = decide (p % 2 = 0) := by
  have hs : side v = 4 * v + 17 := rfl
  have hx : (pairRight (side v) p + 1) / 2 = 2 * v + 8 - p := by
    unfold pairRight
    split <;> omega
  change ((pairRight (side v) p + 1) &&& 2 ^ 1 == 0) = _
  rw [Nat.and_two_pow, Nat.testBit_eq_decide_div_mod_eq, Nat.pow_one, hx]
  by_cases h : p % 2 = 0
  · rw [decide_eq_false (by omega), decide_eq_true h]; rfl
  · rw [decide_eq_true (by omega), decide_eq_false h]; rfl

/-- The entries of pair `p` at row step `k`: the right column, then the left one. -/
theorem getElem?_zigzag {v p k j : Nat} (hp : p < 2 * v + 8) (hk : k < side v) (hj : j < 2) :
    (zigzag v)[2 * (p * side v + k) + j]? =
      some (if p % 2 = 0 then side v - 1 - k else k, pairRight (side v) p - j) := by
  have index : 2 * (p * side v + k) + j = 2 * side v * p + (2 * k + j) := by ring
  rw [zigzag, index, getElem?_flatMap_of_length (fun _ => length_pairCells ..) _ _ (by omega), getElem?_pairColumns hp,
    Option.bind_some, pairCells, getElem?_flatMap_of_length (n := 2) (fun _ => rfl) _ _ hj, List.getElem?_range hk,
    Option.bind_some, upward_pairRight hp]
  interval_cases j <;> simp

end Sys2Proof.Machine
end

section
/-! PROOFS. The template cell by cell: which rule draws each cell of the finders, timing lines, alignment patterns and
strips (44_matrix.md R241 to R249, R251). -/
namespace Sys2Proof.Machine

/-! ### The cell by the first rule that draws it -/

section
variable {v r c : Nat}

theorem templateCell_outside (h : side v ≤ r ∨ side v ≤ c) : templateCell v r c = ⟨false, false, false⟩ := by
  rw [templateCell, templateCellWith, if_neg (by omega)]
  rfl

section
variable (hr : r < side v) (hc : c < side v)
include hr hc

theorem templateCell_of_finder {dark : Bool} (h : finderColour? v r c = some dark) :
    templateCell v r c = ⟨dark, true, false⟩ := by
  rw [templateCell, templateCellWith, if_pos ⟨hr, hc⟩, h]

theorem templateCell_of_timing {dark : Bool} (hf : finderColour? v r c = none)
    (h : timingColour? v r c = some dark) : templateCell v r c = ⟨dark, true, false⟩ := by
  rw [templateCell, templateCellWith, if_pos ⟨hr, hc⟩, hf, h]

/-- An alignment cell, when a timing line through it has the same colour. -/
theorem templateCell_of_alignment {dark : Bool} (hf : finderColour? v r c = none)
    (ht : ∀ d, timingColour? v r c = some d → d = dark)
    (h : alignmentColour? (alignmentCentres v) r c = some dark) : templateCell v r c = ⟨dark, true, false⟩ := by
  cases hd : timingColour? v r c with
  | some d => rw [templateCell_of_timing hr hc hf hd, ht d hd]
  | none => rw [templateCell, templateCellWith, if_pos ⟨hr, hc⟩, hf, hd, h]

/-- A cell that no finder, timing line or alignment pattern draws. -/
theorem templateCell_of_uncoloured (hf : finderColour? v r c = none) (ht : timingColour? v r c = none)
    (ha : alignmentColour? (alignmentCentres v) r c = none) : templateCell v r c =
      if (r, c) = darkModule v then ⟨true, true, false⟩
      else if (stripCells v).contains (r, c) then ⟨false, true, true⟩ else ⟨false, false, true⟩ := by
  rw [templateCell, templateCellWith, if_pos ⟨hr, hc⟩, hf, ht, ha]

end

/-- A cell of the template, by whether a rule gives it a colour. -/
theorem templateCell_cases (v r c : Nat) :
    (∃ dark, templateCell v r c = ⟨dark, true, false⟩) ∨
      ((r, c) ∈ stripCells v ∧ templateCell v r c = ⟨false, true, true⟩) ∨
      templateCell v r c = ⟨false, false, true⟩ ∨
      ((side v ≤ r ∨ side v ≤ c) ∧ templateCell v r c = ⟨false, false, false⟩) := by
  by_cases h : r < side v ∧ c < side v
  · obtain ⟨hr, hc⟩ := h
    cases hf : finderColour? v r c with
    | some dark => exact .inl ⟨dark, templateCell_of_finder hr hc hf⟩
    | none =>
      cases ht : timingColour? v r c with
      | some dark => exact .inl ⟨dark, templateCell_of_timing hr hc hf ht⟩
      | none =>
        cases ha : alignmentColour? (alignmentCentres v) r c with
        | some dark => exact .inl ⟨dark, templateCell_of_alignment hr hc hf (by simp [ht]) ha⟩
        | none =>
          rw [templateCell_of_uncoloured hr hc hf ht ha]
          split
          · exact .inl ⟨true, rfl⟩
          · split
            · next strip => exact .inr (.inl ⟨List.contains_iff_mem.1 strip, rfl⟩)
            · exact .inr (.inr (.inl rfl))
  · have outside : side v ≤ r ∨ side v ≤ c := by omega
    exact .inr (.inr (.inr ⟨outside, templateCell_outside outside⟩))

/-- A cell of the symbol that is no function module is a pending data module. -/
theorem templateCell_of_f_eq_false (hr : r < side v) (hc : c < side v) (h : (templateCell v r c).f = false) :
    templateCell v r c = ⟨false, false, true⟩ := by
  rcases templateCell_cases v r c with ⟨dark, hcell⟩ | ⟨-, hcell⟩ | hcell | ⟨outside, -⟩
  · rw [hcell] at h; cases h
  · rw [hcell] at h; cases h
  · exact hcell
  · omega

/-- A function module off the strips is not pending. -/
theorem templateCell_p_of_notMem (strip : (r, c) ∉ stripCells v) (h : (templateCell v r c).f = true) :
    (templateCell v r c).p = false := by
  rcases templateCell_cases v r c with ⟨dark, hcell⟩ | ⟨hstrip, -⟩ | hcell | ⟨-, hcell⟩
  · rw [hcell]
  · exact absurd hstrip strip
  · rw [hcell] at h; cases h
  · rw [hcell] at h; cases h

/-! ### Finders and timing lines (R241 to R243) -/

theorem ringOf_le_iff {x : Nat × Nat} {d : Nat} :
    ringOf r c x ≤ d ↔ (x.1 ≤ r + d ∧ r ≤ x.1 + d) ∧ x.2 ≤ c + d ∧ c ≤ x.2 + d := by
  have apart : ∀ a b : Nat, distance a b ≤ d ↔ b ≤ a + d ∧ a ≤ b + d := fun a b => by simp only [distance]; omega
  rw [ringOf, max_le_iff, apart, apart]

/-- The finders lie apart: a cell within distance 4 of a centre has that finder's colour. -/
theorem finderColour_of_ring (h1 : 1 ≤ v) {x : Nat × Nat} (hx : x ∈ finderCentres v) (h : ringOf r c x ≤ 4) :
    finderColour? v r c = some (ringOf r c x != 2 && ringOf r c x != 4) := by
  have hs : side v = 4 * v + 17 := rfl
  have near := ringOf_le_iff.1 h
  have found {rest : List (Nat × Nat)} := List.find?_cons_of_pos (p := fun y => decide (ringOf r c y ≤ 4)) (l := rest)
    (decide_eq_true h)
  have skip {rest : List (Nat × Nat)} {y : Nat × Nat} := List.find?_cons_of_neg (p := fun y => decide (ringOf r c y ≤ 4))
    (a := y) (l := rest)
  have far : ∀ y : Nat × Nat, x.1 + 8 < y.1 ∨ y.1 + 8 < x.1 ∨ x.2 + 8 < y.2 ∨ y.2 + 8 < x.2 →
      ¬ decide (ringOf r c y ≤ 4) = true := fun y hy => by
    rw [decide_eq_true_eq, ringOf_le_iff]
    omega
  rw [finderCentres, List.mem_cons, List.mem_cons, List.mem_singleton] at hx
  rw [finderColour?, finderCentres]
  rcases hx with rfl | rfl | rfl
  · rw [found]; rfl
  · rw [skip (far (3, 3) (by dsimp only; omega)), found]; rfl
  · rw [skip (far (3, 3) (by dsimp only; omega)), skip (far (3, side v - 4) (by dsimp only; omega)), found]; rfl

theorem finderColour_eq_none (h : (8 ≤ r ∨ 8 ≤ c) ∧ (8 ≤ r ∨ c + 8 < side v) ∧ (r + 8 < side v ∨ 8 ≤ c)) :
    finderColour? v r c = none := by
  rw [← Option.not_isSome_iff_eq_none, finderColour_isSome, ringOf_le_iff, ringOf_le_iff, ringOf_le_iff]
  omega

theorem timingColour_eq_none (hr : r ≠ 6 ∨ c < 8 ∨ side v < c + 9) (hc : c ≠ 6 ∨ r < 8 ∨ side v < r + 9) :
    timingColour? v r c = none := by
  rw [← Option.not_isSome_iff_eq_none, timingColour_isSome]
  omega

/-- The timing line on row 6. -/
theorem timingColour_row (h8 : 8 ≤ c) (h : c + 9 ≤ side v) : timingColour? v 6 c = some (c % 2 == 0) := by
  rw [timingColour?, if_pos ⟨rfl, h8, h⟩]

/-- The timing line on column 6. -/
theorem timingColour_column (h8 : 8 ≤ r) (h : r + 9 ≤ side v) : timingColour? v r 6 = some (r % 2 == 0) := by
  rw [timingColour?, if_neg (by omega), if_pos ⟨rfl, h8, h⟩]

end

/-! ### Alignment patterns (R244, R245) -/

/-- The spec's table of alignment positions (R244). -/
theorem alignmentPositions_table : (List.range' 1 40).map alignmentPositions =
    [[], [6, 18], [6, 22], [6, 26], [6, 30]] ++
    [[6, 34], [6, 22, 38], [6, 24, 42], [6, 26, 46], [6, 28, 50]] ++
    [[6, 30, 54], [6, 32, 58], [6, 34, 62], [6, 26, 46, 66], [6, 26, 48, 70]] ++
    [[6, 26, 50, 74], [6, 30, 54, 78], [6, 30, 56, 82], [6, 30, 58, 86], [6, 34, 62, 90]] ++
    [[6, 28, 50, 72, 94], [6, 26, 50, 74, 98], [6, 30, 54, 78, 102], [6, 28, 54, 80, 106], [6, 32, 58, 84, 110]] ++
    [[6, 30, 58, 86, 114], [6, 34, 62, 90, 118], [6, 26, 50, 74, 98, 122], [6, 30, 54, 78, 102, 126],
     [6, 26, 52, 78, 104, 130]] ++
    [[6, 30, 56, 82, 108, 134], [6, 34, 60, 86, 112, 138], [6, 30, 58, 86, 114, 142],
     [6, 34, 62, 90, 118, 146], [6, 30, 54, 78, 102, 126, 150]] ++
    [[6, 24, 50, 76, 102, 128, 154], [6, 28, 54, 80, 106, 132, 158], [6, 32, 58, 84, 110, 136, 162],
     [6, 26, 54, 82, 110, 138, 166], [6, 30, 58, 86, 114, 142, 170]] := by decide +kernel

/-- The positions are even; the first is 6, the last the mirror of it, the others lie well between. -/
theorem alignmentPosition_range : ∀ v ∈ List.range' 1 40, ∀ i < (alignmentPositions v).length,
    let a := (alignmentPositions v).getD i 0
    a % 2 = 0 ∧ ((i = 0 ∧ a = 6) ∨ (i = (alignmentPositions v).length - 1 ∧ a + 7 = side v) ∨
      (18 ≤ a ∧ a + 18 ≤ side v)) := by decide +kernel

/-- Two positions lie at least 12 apart. -/
theorem alignmentPosition_apart : ∀ v ∈ List.range' 1 40, ∀ j < (alignmentPositions v).length, ∀ i < j,
    (alignmentPositions v).getD i 0 + 12 ≤ (alignmentPositions v).getD j 0 := by decide +kernel

/-- The centres are the pairs of positions but the three in the finders. -/
theorem mem_alignmentCentres {v : Nat} {x : Nat × Nat} : x ∈ alignmentCentres v ↔
    ∃ i j, i < (alignmentPositions v).length ∧ j < (alignmentPositions v).length ∧
      (i, j) ∉ [(0, 0), (0, (alignmentPositions v).length - 1), ((alignmentPositions v).length - 1, 0)] ∧
      x = ((alignmentPositions v).getD i 0, (alignmentPositions v).getD j 0) := by
  simp only [alignmentCentres, List.mem_filterMap, List.mem_flatMap, List.mem_map, List.mem_zipIdx_iff_getElem?,
    Prod.exists, List.mem_cons, List.not_mem_nil, or_false]
  constructor
  · rintro ⟨a, i, b, j, ⟨a', i', ha, b', j', hb, hij⟩, hx⟩
    cases hij
    split at hx
    · cases hx
    · next corner =>
      cases hx
      exact ⟨i, j, (List.getElem?_eq_some_iff.1 ha).1, (List.getElem?_eq_some_iff.1 hb).1, corner,
        by simp [List.getD_eq_getElem?_getD, ha, hb]⟩
  · rintro ⟨i, j, hi, hj, corner, rfl⟩
    refine ⟨_, i, _, j, ⟨_, i, List.getElem?_eq_getElem hi, _, j, List.getElem?_eq_getElem hj, rfl⟩, ?_⟩
    rw [if_neg corner]
    simp [List.getD_eq_getElem?_getD, hi, hj]

/-- Around an even coordinate `b` the timing colours are those of an alignment pattern centred there. -/
theorem timing_beq_distance {a b : Nat} (even : b % 2 = 0) (near : b ≤ a + 2 ∧ a ≤ b + 2) :
    (a % 2 == 0) = (distance a b != 1) := by
  rw [Bool.eq_iff_iff, beq_iff_eq, bne_iff_ne, distance]
  omega

section
variable {v r c : Nat} (h1 : 1 ≤ v) (h40 : v ≤ 40)
include h1 h40

/-- Where the centres lie: on even coordinates, each the first, the last or well inside, and not in a finder. -/
theorem alignmentCentre_region {x : Nat × Nat} (hx : x ∈ alignmentCentres v) : x.1 % 2 = 0 ∧ x.2 % 2 = 0 ∧
    (x.1 = 6 ∨ x.1 + 7 = side v ∨ (18 ≤ x.1 ∧ x.1 + 18 ≤ side v)) ∧
    (x.2 = 6 ∨ x.2 + 7 = side v ∨ (18 ≤ x.2 ∧ x.2 + 18 ≤ side v)) ∧
    (x.1 = 6 → 18 ≤ x.2 ∧ x.2 + 18 ≤ side v) ∧ (x.2 = 6 → 18 ≤ x.1 ∧ x.1 + 18 ≤ side v) := by
  obtain ⟨i, j, hi, hj, corner, rfl⟩ := mem_alignmentCentres.1 hx
  have hv := List.mem_range'_1.2 ⟨h1, (by omega : v < 1 + 40)⟩
  obtain ⟨evenI, placeI⟩ := alignmentPosition_range v hv i hi
  obtain ⟨evenJ, placeJ⟩ := alignmentPosition_range v hv j hj
  simp only [List.mem_cons, Prod.mk.injEq, List.not_mem_nil, or_false] at corner
  have hs : side v = 4 * v + 17 := rfl
  refine ⟨evenI, evenJ, ?_, ?_, ?_, ?_⟩ <;> dsimp only <;> omega

/-- The patterns lie apart: no cell is within distance 2 of two centres. -/
theorem alignmentCentre_unique {x y : Nat × Nat} (hx : x ∈ alignmentCentres v) (hy : y ∈ alignmentCentres v)
    (hrx : ringOf r c x ≤ 2) (hry : ringOf r c y ≤ 2) : x = y := by
  have hv := List.mem_range'_1.2 ⟨h1, (by omega : v < 1 + 40)⟩
  have close : ∀ {i j a}, i < (alignmentPositions v).length → j < (alignmentPositions v).length →
      distance a ((alignmentPositions v).getD i 0) ≤ 2 → distance a ((alignmentPositions v).getD j 0) ≤ 2 → i = j := by
    intro i j a hi hj hai haj
    simp only [distance] at hai haj
    rcases Nat.lt_trichotomy i j with h | h | h
    · have := alignmentPosition_apart v hv j hj i h; omega
    · exact h
    · have := alignmentPosition_apart v hv i hi j h; omega
  obtain ⟨i, j, hi, hj, -, rfl⟩ := mem_alignmentCentres.1 hx
  obtain ⟨i', j', hi', hj', -, rfl⟩ := mem_alignmentCentres.1 hy
  obtain ⟨hri, hcj⟩ := max_le_iff.1 hrx
  obtain ⟨hri', hcj'⟩ := max_le_iff.1 hry
  rw [close hi hi' hri hri', close hj hj' hcj hcj']

theorem alignmentColour_of_ring {x : Nat × Nat} (hx : x ∈ alignmentCentres v) (h : ringOf r c x ≤ 2) :
    alignmentColour? (alignmentCentres v) r c = some (ringOf r c x != 1) := by
  rw [alignmentColour?]
  cases hfind : (alignmentCentres v).find? fun y => ringOf r c y ≤ 2 with
  | none => exact absurd h (by simpa using List.find?_eq_none.1 hfind x hx)
  | some y =>
    rw [alignmentCentre_unique h1 h40 (List.mem_of_find?_eq_some hfind) hx (by simpa using List.find?_some hfind) h]
    rfl

/-- No alignment pattern reaches the corners with the strips around the finders. -/
theorem alignmentColour_eq_none (h : (r ≤ 8 ∧ c ≤ 8) ∨ (r ≤ 8 ∧ side v ≤ c + 11) ∨ (side v ≤ r + 11 ∧ c ≤ 8)) :
    alignmentColour? (alignmentCentres v) r c = none := by
  rw [alignmentColour?, Option.map_eq_none_iff, List.find?_eq_none]
  intro x hx hring
  have region := alignmentCentre_region h1 h40 hx
  have near := ringOf_le_iff.1 (of_decide_eq_true hring)
  have hs : side v = 4 * v + 17 := rfl
  rcases h with h | h | h <;> omega

/-- An alignment cell: a timing line that crosses the pattern has its colours there (R245). -/
theorem templateCell_of_ring {x : Nat × Nat} (hx : x ∈ alignmentCentres v) (h : ringOf r c x ≤ 2) :
    templateCell v r c = ⟨ringOf r c x != 1, true, false⟩ := by
  have region := alignmentCentre_region h1 h40 hx
  have near := ringOf_le_iff.1 h
  have hs : side v = 4 * v + 17 := rfl
  have inside : x.1 + 7 ≤ side v ∧ x.2 + 7 ≤ side v := by omega
  refine templateCell_of_alignment (by omega) (by omega) (finderColour_eq_none ⟨by omega, by omega, by omega⟩)
    (fun d hd => ?_) (alignmentColour_of_ring h1 h40 hx h)
  rcases (timingColour_isSome v r c).1 (by rw [hd]; rfl) with ⟨rfl, h8, hle⟩ | ⟨rfl, h8, hle⟩
  · have centre : x.1 = 6 := by omega
    have ring : ringOf 6 c x = distance c x.2 := by simp [ringOf, distance, centre]
    rw [timingColour_row h8 hle] at hd
    rw [← Option.some.inj hd, ring, timing_beq_distance (by omega) near.2]
  · have centre : x.2 = 6 := by omega
    have ring : ringOf r 6 x = distance r x.1 := by simp [ringOf, distance, centre]
    rw [timingColour_column h8 hle] at hd
    rw [← Option.some.inj hd, ring, timing_beq_distance (by omega) near.1]

end

/-! ### Strips and the dark module (R246 to R248) -/

/-- Where format bit `i` stands (R246): no two bits share a cell. -/
theorem formatCell_coords {v i r c : Nat} (hi : i < 15) (h : fp1 i = (r, c) ∨ fp2 v i = (r, c)) :
    (c = 8 ∧ r ≤ 5 ∧ i = r) ∨ (c = 8 ∧ (r = 7 ∨ r = 8) ∧ i + 1 = r) ∨ (r = 8 ∧ c = 7 ∧ i = 8) ∨
      (r = 8 ∧ c ≤ 5 ∧ i + c = 14) ∨ (r = 8 ∧ i + c + 1 = side v ∧ i ≤ 7) ∨
      (c = 8 ∧ r + 15 = side v + i ∧ 8 ≤ i) := by
  have hs : side v = 4 * v + 17 := rfl
  rcases h with h | h
  · unfold fp1 at h
    split_ifs at h <;> cases h
    · exact .inl ⟨rfl, by assumption, rfl⟩
    · exact .inr (.inl ⟨rfl, .inl rfl, by omega⟩)
    · exact .inr (.inl ⟨rfl, .inr rfl, by omega⟩)
    · exact .inr (.inr (.inl ⟨rfl, rfl, by assumption⟩))
    · exact .inr (.inr (.inr (.inl ⟨rfl, by omega, by omega⟩)))
  · unfold fp2 at h
    split_ifs at h <;> cases h
    · exact .inr (.inr (.inr (.inr (.inl ⟨rfl, by omega, by assumption⟩))))
    · exact .inr (.inr (.inr (.inr (.inr ⟨rfl, by omega, by omega⟩))))

/-- The strips by regions of the symbol. -/
theorem strip_region {v r c : Nat} (h : (r, c) ∈ stripCells v) :
    (r = 8 ∧ c ≤ 8 ∧ c ≠ 6) ∨ (c = 8 ∧ r ≤ 8 ∧ r ≠ 6) ∨ (r = 8 ∧ side v ≤ c + 8 ∧ c < side v) ∨
      (c = 8 ∧ side v ≤ r + 7 ∧ r < side v) ∨ (7 ≤ v ∧ r ≤ 5 ∧ side v ≤ c + 11 ∧ c + 9 ≤ side v) ∨
      (7 ≤ v ∧ c ≤ 5 ∧ side v ≤ r + 11 ∧ r + 9 ≤ side v) := by
  have hs : side v = 4 * v + 17 := rfl
  have format : ∀ {i}, i < 15 → fp1 i = (r, c) ∨ fp2 v i = (r, c) → (r = 8 ∧ c ≤ 8 ∧ c ≠ 6) ∨
      (c = 8 ∧ r ≤ 8 ∧ r ≠ 6) ∨ (r = 8 ∧ side v ≤ c + 8 ∧ c < side v) ∨ (c = 8 ∧ side v ≤ r + 7 ∧ r < side v) := by
    intro i hi hx
    rcases formatCell_coords hi hx with ⟨hc, hr⟩ | ⟨hc, hr⟩ | ⟨hr, hc⟩ | ⟨hr, hc⟩ | ⟨hr, hc⟩ | ⟨hc, hr⟩
    · exact .inr (.inl ⟨hc, by omega, by omega⟩)
    · exact .inr (.inl ⟨hc, by omega, by omega⟩)
    · exact .inl ⟨hr, by omega, by omega⟩
    · exact .inl ⟨hr, by omega, by omega⟩
    · exact .inr (.inr (.inl ⟨hr, by omega, by omega⟩))
    · exact .inr (.inr (.inr ⟨hc, by omega, by omega⟩))
  rcases (mem_stripCells v r c).1 (List.contains_iff_mem.2 h) with
    ⟨i, hi, h⟩ | ⟨i, hi, h⟩ | ⟨h7, ⟨i, hi, h⟩ | ⟨i, hi, h⟩⟩
  · exact (format hi (.inl h)).imp_right (.imp_right (.imp_right .inl))
  · exact (format hi (.inr h)).imp_right (.imp_right (.imp_right .inl))
  · rw [vp1, Prod.mk.injEq] at h
    exact .inr (.inr (.inr (.inr (.inl ⟨h7, by omega, by omega, by omega⟩))))
  · rw [vp2, Prod.mk.injEq] at h
    exact .inr (.inr (.inr (.inr (.inr ⟨h7, by omega, by omega, by omega⟩))))

/-- A strip cell is reserved and pending. -/
theorem templateCell_strip {v r c : Nat} (h1 : 1 ≤ v) (h40 : v ≤ 40) (h : (r, c) ∈ stripCells v) :
    templateCell v r c = ⟨false, true, true⟩ := by
  have region := strip_region h
  have hs : side v = 4 * v + 17 := rfl
  rw [templateCell_of_uncoloured (by omega) (by omega) (finderColour_eq_none (by omega))
    (timingColour_eq_none (by omega) (by omega)) (alignmentColour_eq_none h1 h40 (by omega)), if_neg,
    if_pos (List.contains_iff_mem.2 h)]
  rw [darkModule, Prod.mk.injEq]
  omega

theorem templateCell_dark {v : Nat} (h1 : 1 ≤ v) (h40 : v ≤ 40) :
    templateCell v (side v - 8) 8 = ⟨true, true, false⟩ := by
  have hs : side v = 4 * v + 17 := rfl
  rw [templateCell_of_uncoloured (by omega) (by omega) (finderColour_eq_none (by omega))
    (timingColour_eq_none (by omega) (by omega)) (alignmentColour_eq_none h1 h40 (by omega)), darkModule, if_pos rfl]

end Sys2Proof.Machine
end

section
/-! PROOFS. What MATRIX_INIT leaves in each cell, pattern by pattern (44_matrix.md R241 to R251). -/
namespace Sys2Proof.Machine
open Sys2Proof.Config (ByteMem MatMem)

/-! ### The cells that exist (10_state.md R57) -/

theorem readCell_outside (s : State) (mm : MatMem) {r c : Nat} (h : ¬ (r < 177 ∧ c < 177)) :
    s.readCell mm r c = ⟨false, false, false⟩ := by
  rw [State.readCell, if_neg (mt (State.cellExists_iff r c).1 h)]
  rfl

/-- A command that writes the matrix leaves the byte memories and the committed cells. -/
theorem Frame.sameBytes {s t : State} (h : Frame [.matrix] s t) : SameBytes s t.complete := fun b k =>
  (h.readByte (by simp) (by simp) (by simp) b k : t.readByte b k = s.readByte b k)

theorem Frame.sameCells_cmat {s t : State} (h : Frame [.matrix] s t) : SameCells .cmat s t.complete :=
  Machine.sameCells_cmat (Prod.mk.inj (h.same (x := .out) (by simp))).2 h.resets

/-! ### MATRIX_INIT (R251) -/

theorem readCell_templated {s : State} (hw : List.Pairwise (fun a b => a.1 < b.1) s.wmat) {v : Nat} (h40 : v ≤ 40)
    (r c : Nat) :
    (s.templated v).readCell .wmat r c = templateCell v r c := by
  by_cases h : r < 177 ∧ c < 177
  · exact State.readCell_mapCells (fun r c _ => templateCell v r c) s hw h.1 h.2
  · rw [readCell_outside _ _ h, templateCell_outside]
    simp only [side]
    omega

/-- A distance does not change when both cells are moved alike. -/
theorem ringOf_add (a b r c : Nat) (x : Nat × Nat) : ringOf (a + r) (b + c) (a + x.1, b + x.2) = ringOf r c x := by
  simp only [ringOf, distance, Nat.add_sub_add_left]

/-- The timing lines (R243). -/
theorem templateCell_timing {v k : Nat} (h8 : 8 ≤ k) (hk : k + 9 ≤ side v) :
    templateCell v 6 k = ⟨k % 2 == 0, true, false⟩ ∧ templateCell v k 6 = ⟨k % 2 == 0, true, false⟩ := by
  have hs : side v = 4 * v + 17 := rfl
  exact ⟨templateCell_of_timing (by omega) (by omega) (finderColour_eq_none (by omega)) (timingColour_row h8 hk),
    templateCell_of_timing (by omega) (by omega) (finderColour_eq_none (by omega)) (timingColour_column h8 hk)⟩

section
variable {v : Nat} (h1 : 1 ≤ v)
include h1

/-- The finder at each of the three corners (R241). -/
theorem templateCell_finder {corner : Nat × Nat}
    (hcorner : corner ∈ [(0, 0), (0, side v - 7), (side v - 7, 0)]) {dr dc : Nat} (hdr : dr ≤ 6) (hdc : dc ≤ 6) :
    templateCell v (corner.1 + dr) (corner.2 + dc) = ⟨ringOf dr dc (3, 3) != 2, true, false⟩ := by
  have hs : side v = 4 * v + 17 := rfl
  have inside : corner.1 + 6 < side v ∧ corner.2 + 6 < side v ∧ (corner.1 + 3, corner.2 + 3) ∈ finderCentres v := by
    simp only [List.mem_cons, List.not_mem_nil, or_false] at hcorner
    rcases hcorner with rfl | rfl | rfl <;> simp [finderCentres] <;> omega
  obtain ⟨hr, hc, hcentre⟩ := inside
  have near : ringOf dr dc (3, 3) ≤ 3 := by simp only [ringOf, distance]; omega
  have moved := ringOf_add corner.1 corner.2 dr dc (3, 3)
  rw [templateCell_of_finder (by omega) (by omega)
    (finderColour_of_ring h1 hcentre (moved.le.trans (by omega))), moved, bne_iff_ne.2 (by omega : _ ≠ 4), Bool.and_true]

/-- The separators, at distance 4 of a finder's centre (R242). -/
theorem templateCell_separator {k : Nat} (hk : k ≤ 7) {x : Nat × Nat}
    (hx : x ∈ [(7, k), (k, 7), (7, side v - 8 + k), (k, side v - 8), (side v - 8, k), (side v - 8 + k, 7)]) :
    templateCell v x.1 x.2 = ⟨false, true, false⟩ := by
  have hs : side v = 4 * v + 17 := rfl
  have centre : x.1 < side v ∧ x.2 < side v ∧ ∃ y ∈ finderCentres v, ringOf x.1 x.2 y = 4 := by
    simp only [finderCentres, List.mem_cons, List.not_mem_nil, or_false, exists_eq_or_imp, exists_eq_left, ringOf,
      distance] at hx ⊢
    rcases hx with rfl | rfl | rfl | rfl | rfl | rfl <;> dsimp only <;> omega
  obtain ⟨hr, hc, y, hy, ring⟩ := centre
  rw [templateCell_of_finder hr hc (finderColour_of_ring h1 hy ring.le), ring]
  rfl

variable (h40 : v ≤ 40)
include h40

/-- The alignment patterns (R245). -/
theorem templateCell_alignment {i j : Nat} (hi : i < (alignmentPositions v).length)
    (hj : j < (alignmentPositions v).length)
    (corner : (i, j) ∉ [(0, 0), (0, (alignmentPositions v).length - 1), ((alignmentPositions v).length - 1, 0)])
    {dr dc : Nat} (hdr : dr ≤ 4) (hdc : dc ≤ 4) :
    templateCell v ((alignmentPositions v).getD i 0 + dr - 2) ((alignmentPositions v).getD j 0 + dc - 2) =
      ⟨ringOf dr dc (2, 2) != 1, true, false⟩ := by
  have hx := mem_alignmentCentres.2 ⟨i, j, hi, hj, corner, rfl⟩
  have region := alignmentCentre_region h1 h40 hx
  have hs : side v = 4 * v + 17 := rfl
  obtain ⟨a, ha⟩ := Nat.exists_eq_add_of_le' (show 2 ≤ (alignmentPositions v).getD i 0 by dsimp only at region; omega)
  obtain ⟨b, hb⟩ := Nat.exists_eq_add_of_le' (show 2 ≤ (alignmentPositions v).getD j 0 by dsimp only at region; omega)
  rw [ha, hb] at hx ⊢
  have near : ringOf dr dc (2, 2) ≤ 2 := by simp only [ringOf, distance]; omega
  have moved := ringOf_add a b dr dc (2, 2)
  rw [show a + 2 + dr - 2 = a + dr by omega, show b + 2 + dc - 2 = b + dc by omega,
    templateCell_of_ring h1 h40 hx (moved.le.trans near), moved]

/-- The cells of both format copies and, from version 7 on, of both version blocks are strip cells (R246, R247). -/
theorem templateCell_formatCells {i : Nat} (hi : i < 15) :
    templateCell v (fp1 i).1 (fp1 i).2 = ⟨false, true, true⟩ ∧
      templateCell v (fp2 v i).1 (fp2 v i).2 = ⟨false, true, true⟩ :=
  ⟨templateCell_strip h1 h40 (List.contains_iff_mem.1 ((mem_stripCells ..).2 (.inl ⟨i, hi, rfl⟩))),
    templateCell_strip h1 h40 (List.contains_iff_mem.1 ((mem_stripCells ..).2 (.inr (.inl ⟨i, hi, rfl⟩))))⟩

theorem templateCell_versionCells (h7 : 7 ≤ v) {i : Nat} (hi : i < 18) :
    templateCell v (vp1 v i).1 (vp1 v i).2 = ⟨false, true, true⟩ ∧
      templateCell v (vp2 v i).1 (vp2 v i).2 = ⟨false, true, true⟩ :=
  ⟨templateCell_strip h1 h40 (List.contains_iff_mem.1
      ((mem_stripCells ..).2 (.inr (.inr ⟨h7, .inl ⟨i, hi, rfl⟩⟩)))),
    templateCell_strip h1 h40 (List.contains_iff_mem.1
      ((mem_stripCells ..).2 (.inr (.inr ⟨h7, .inr ⟨i, hi, rfl⟩⟩))))⟩

end

end Sys2Proof.Machine
end

section
/-! PROOFS. What PLACE, MASK_SELECT and FMT_INSERT leave in each cell (44_matrix.md R253 to R257, 45_mask.md R291,
46_fmtver.md R318). -/
namespace Sys2Proof.Machine
open Sys2Proof.Config (ByteMem MatMem)

/-! ### Lists of cell writes -/

section
variable {s : State} (hw : List.Pairwise (fun a b => a.1 < b.1) s.wmat) {writes : List ((Nat × Nat) × Module)}
include hw

/-- A cell after a list of writes is as one of the writes left it, or as before. -/
theorem readCell_writeCells_cases (writes : List ((Nat × Nat) × Module)) (r c : Nat) :
    (s.writeCells writes).readCell .wmat r c = s.readCell .wmat r c ∨
      ((r, c), (s.writeCells writes).readCell .wmat r c) ∈ writes := by
  by_cases h : r < 177 ∧ c < 177
  · rw [State.readCell_writeCells writes s hw h.1 h.2]
    cases hfind : writes.find? fun w => w.1 = (r, c) with
    | none => exact .inl rfl
    | some w =>
      have hkey : w.1 = (r, c) := by simpa using List.find?_some hfind
      exact .inr (hkey ▸ List.mem_of_find?_eq_some hfind)
  · rw [readCell_outside _ _ h, readCell_outside _ _ h]
    exact .inl rfl

/-- A cell that is written holds one of the values written to it. -/
theorem readCell_writeCells_written {r c : Nat} {x : Module} (hr : r < 177) (hc : c < 177)
    (mem : ((r, c), x) ∈ writes) : ((r, c), (s.writeCells writes).readCell .wmat r c) ∈ writes := by
  rw [State.readCell_writeCells writes s hw hr hc]
  cases hfind : writes.find? fun w => w.1 = (r, c) with
  | none => exact absurd (List.find?_eq_none.1 hfind _ mem) (by simp)
  | some w =>
    have hkey : w.1 = (r, c) := by simpa using List.find?_some hfind
    exact hkey ▸ List.mem_of_find?_eq_some hfind

end

/-! ### PLACE (R254 to R256) -/

/-- The cells PLACE writes are cells of the zig-zag, so they are distinct and lie in the symbol. -/
theorem dataCells_sublist (v : Nat) (rows : List (List Module)) : (dataCells v rows).Sublist (zigzag v) :=
  List.filter_sublist

theorem nodup_dataCells (v : Nat) (rows : List (List Module)) : (dataCells v rows).Nodup :=
  (nodup_zigzag v).sublist (dataCells_sublist v rows)

theorem dataCells_inside {v : Nat} (h40 : v ≤ 40) {rows : List (List Module)} {x : Nat × Nat}
    (hx : x ∈ dataCells v rows) : x.1 < 177 ∧ x.2 < 177 := by
  have := mem_zigzag ((dataCells_sublist v rows).subset hx)
  simp only [side] at this
  omega

theorem length_dataCells_le (v : Nat) (rows : List (List Module)) :
    (dataCells v rows).length ≤ side v * (side v - 1) :=
  (dataCells_sublist v rows).length_le.trans (length_zigzag v).le

/-- The bits PLACE writes into the data cells of a symbol of version `v`. -/
def State.placedBits (v : Nat) (s : State) : List Bool :=
  placementBits v (s.readBytes .final 0 (totalCodewords v))

theorem length_placedBits (v : Nat) (s : State) :
    (s.placedBits v).length = 8 * totalCodewords v + remainderBits v := by
  simp [State.placedBits, placementBits, byteBits, List.length_flatMap, Nat.mul_comm]

/-- PBIT(k): the bits of the codewords, most-significant first, then remainder bits 0 (R254). -/
theorem getD_placedBits {s : State} (inv : Inv s) (v k : Nat) : (s.placedBits v).getD k false =
    if k < 8 * totalCodewords v then (s.readByte .final (k / 8)).getLsbD (7 - k % 8) else false := by
  have hlen : ((s.readBytes .final 0 (totalCodewords v)).flatMap byteBits).length = 8 * totalCodewords v := by
    simp [byteBits, List.length_flatMap, Nat.mul_comm]
  rw [State.placedBits, placementBits, getD_append_replicate_false, List.getD_eq_getElem?_getD]
  split
  · next hk =>
    have bit : ∀ (b : Byte) (j : Nat), j < 8 → (byteBits b)[j]? = some (b.getLsbD (7 - j)) := fun b j hj => by
      interval_cases j <;> rfl
    have hmod : k % 8 < 8 := Nat.mod_lt k (by decide)
    have entry := getElem?_flatMap_of_length (n := 8) (f := byteBits) (fun _ => rfl)
      (s.readBytes .final 0 (totalCodewords v)) (k / 8) hmod
    rw [Nat.div_add_mod, readBytes_eq_map_range inv, List.getElem?_map, List.getElem?_range (by omega),
      Option.map_some, Option.bind_some, bit _ _ hmod, Nat.zero_add] at entry
    rw [readBytes_eq_map_range inv, entry, Option.getD_some]
  · next hk => rw [List.getElem?_eq_none (by omega), Option.getD_none]

section
variable {s : State} (hw : List.Pairwise (fun a b => a.1 < b.1) s.wmat) {v : Nat} {dc : List (Nat × Nat)}
include hw

/-- Data cell `k` gets placement bit `k`. -/
theorem readCell_placed_data (nodup : dc.Nodup) (inside : ∀ x ∈ dc, x.1 < 177 ∧ x.2 < 177)
    (count : dc.length = 8 * totalCodewords v + remainderBits v) {k : Nat} (hk : k < dc.length) :
    (s.placed v dc).readCell .wmat dc[k].1 dc[k].2 = ⟨(s.placedBits v).getD k false, false, false⟩ := by
  have hbit : k < (s.placedBits v).length := by rw [length_placedBits]; omega
  obtain ⟨hr, hc⟩ := inside dc[k] (List.getElem_mem hk)
  have write : ((dc[k].1, dc[k].2), (⟨(s.placedBits v)[k], false, false⟩ : Module)) ∈
      dc.zip ((s.placedBits v).map fun b => (⟨b, false, false⟩ : Module)) :=
    List.mem_iff_getElem.2 ⟨k, by simpa using ⟨hk, hbit⟩, by rw [List.getElem_zip, List.getElem_map]⟩
  obtain ⟨j, hj, written⟩ := List.mem_iff_getElem.1 (readCell_writeCells_written hw hr hc write)
  rw [List.getElem_zip, List.getElem_map, Prod.mk.injEq, Prod.mk.eta, nodup.getElem_inj_iff] at written
  obtain ⟨rfl, value⟩ := written
  rw [List.getD_eq_getElem _ _ hbit]
  exact value.symm

/-- Every other cell stays. -/
theorem readCell_placed_of_notMem {r c : Nat} (h : (r, c) ∉ dc) :
    (s.placed v dc).readCell .wmat r c = s.readCell .wmat r c := by
  rcases readCell_writeCells_cases hw (dc.zip ((s.placedBits v).map fun b => ⟨b, false, false⟩)) r c with hsame | hmem
  · exact hsame
  · exact absurd (List.of_mem_zip hmem).1 h

end

/-! ### MASK_SELECT (45_mask.md R291) -/

theorem readCell_wmat_congr {s t : State} (hw : t.wmat = s.wmat) (hr : t.resets = s.resets) (r c : Nat) :
    t.readCell .wmat r c = s.readCell .wmat r c := by
  simp only [State.readCell, State.mat, hw, hr]

/-- MASK_SELECT changes the colour of data cells of the symbol alone. -/
theorem readCell_masked_cases {s : State} (hw : List.Pairwise (fun a b => a.1 < b.1) s.wmat) (r c : Nat) :
    s.masked.readCell .wmat r c = s.readCell .wmat r c ∨
      (r < side s.matMeta.mver.toNat ∧ c < side s.matMeta.mver.toNat ∧ (s.readCell .wmat r c).f = false ∧
        ∃ b, s.masked.readCell .wmat r c = { s.readCell .wmat r c with v := b }) := by
  by_cases h : r < 177 ∧ c < 177
  · have cells : s.masked.wmat = (s.applyMask s.bestMask (side s.matMeta.mver.toNat)).wmat := rfl
    have resets : s.masked.resets = s.resets := by rw [State.masked, State.applyMask, State.mapCells_resets]
    rw [readCell_wmat_congr cells resets, State.applyMask, State.readCell_mapCells _ s hw h.1 h.2]
    split
    · next data =>
      obtain ⟨hr, hc, hf⟩ := data
      exact .inr ⟨hr, hc, by simpa using hf, _, rfl⟩
    · exact .inl rfl
  · rw [readCell_outside _ _ h, readCell_outside _ _ h]
    exact .inl rfl

/-! ### FMT_INSERT (46_fmtver.md R318) -/

/-- The writes of FMT_INSERT: bit i of each word to its two cells. -/
theorem mem_stripWrites {v r c : Nat} {f : BitVec 15} {g : BitVec 18} {x : Module} :
    ((r, c), x) ∈ stripWrites v f g ↔
      (∃ i < 15, (fp1 i = (r, c) ∨ fp2 v i = (r, c)) ∧ x = stripModule (f.getLsbD i)) ∨
        (7 ≤ v ∧ ∃ i < 18, (vp1 v i = (r, c) ∨ vp2 v i = (r, c)) ∧ x = stripModule (g.getLsbD i)) := by
  have version : ((r, c), x) ∈ (if v ≥ 7 then (List.range 18).flatMap fun i =>
      [(vp1 v i, stripModule (g.getLsbD i)), (vp2 v i, stripModule (g.getLsbD i))] else []) ↔
      7 ≤ v ∧ ∃ i < 18, (vp1 v i = (r, c) ∨ vp2 v i = (r, c)) ∧ x = stripModule (g.getLsbD i) := by
    by_cases h7 : 7 ≤ v
    · simp [h7, or_and_right, eq_comm]
    · simp [h7]
  rw [stripWrites, List.mem_append, version]
  simp [or_and_right, eq_comm]

theorem mem_stripCells_of_write {v r c : Nat} {f : BitVec 15} {g : BitVec 18} {x : Module}
    (h : ((r, c), x) ∈ stripWrites v f g) : (r, c) ∈ stripCells v ∧ ∃ b, x = stripModule b := by
  rw [← List.contains_iff_mem, mem_stripCells]
  rcases mem_stripWrites.1 h with ⟨i, hi, hx | hx, rfl⟩ | ⟨h7, i, hi, hx | hx, rfl⟩
  · exact ⟨.inl ⟨i, hi, hx⟩, _, rfl⟩
  · exact ⟨.inr (.inl ⟨i, hi, hx⟩), _, rfl⟩
  · exact ⟨.inr (.inr ⟨h7, .inl ⟨i, hi, hx⟩⟩), _, rfl⟩
  · exact ⟨.inr (.inr ⟨h7, .inr ⟨i, hi, hx⟩⟩), _, rfl⟩

/-- FMT_INSERT changes strip cells alone, to coloured function modules. -/
theorem readCell_inserted_cases {s : State} (hw : List.Pairwise (fun a b => a.1 < b.1) s.wmat) (l : EcLevel)
    (mask : BitVec 3) (r c : Nat) : (s.inserted l mask).readCell .wmat r c = s.readCell .wmat r c ∨
      ((r, c) ∈ stripCells s.matMeta.mver.toNat ∧
        ∃ b, (s.inserted l mask).readCell .wmat r c = stripModule b) := by
  rcases readCell_writeCells_cases hw (stripWrites s.matMeta.mver.toNat (formatWord l mask)
    (versionWord s.matMeta.mver)) r c with hsame | hmem
  · exact .inl hsame
  · exact .inr (mem_stripCells_of_write hmem)

section
variable {s : State} (hw : List.Pairwise (fun a b => a.1 < b.1) s.wmat) (h1 : 1 ≤ s.matMeta.mver.toNat)
  (h40 : s.matMeta.mver.toNat ≤ 40) (l : EcLevel) (mask : BitVec 3) {r c : Nat}
include hw h1 h40

/-- What a strip cell holds is one of the writes to it. -/
theorem readCell_inserted_written (h : (r, c) ∈ stripCells s.matMeta.mver.toNat) :
    ((r, c), (s.inserted l mask).readCell .wmat r c) ∈
      stripWrites s.matMeta.mver.toNat (formatWord l mask) (versionWord s.matMeta.mver) := by
  have inside : r < 177 ∧ c < 177 := by
    have region := strip_region h
    have hs : side s.matMeta.mver.toNat = 4 * s.matMeta.mver.toNat + 17 := rfl
    omega
  obtain ⟨x, hx⟩ : ∃ x, ((r, c), x) ∈
      stripWrites s.matMeta.mver.toNat (formatWord l mask) (versionWord s.matMeta.mver) := by
    rcases (mem_stripCells ..).1 (List.contains_iff_mem.2 h) with
      ⟨i, hi, hx⟩ | ⟨i, hi, hx⟩ | ⟨h7, ⟨i, hi, hx⟩ | ⟨i, hi, hx⟩⟩
    · exact ⟨_, mem_stripWrites.2 (.inl ⟨i, hi, .inl hx, rfl⟩)⟩
    · exact ⟨_, mem_stripWrites.2 (.inl ⟨i, hi, .inr hx, rfl⟩)⟩
    · exact ⟨_, mem_stripWrites.2 (.inr ⟨h7, i, hi, .inl hx, rfl⟩)⟩
    · exact ⟨_, mem_stripWrites.2 (.inr ⟨h7, i, hi, .inr hx, rfl⟩)⟩
  exact readCell_writeCells_written hw inside.1 inside.2 hx

/-- A cell of format bit `i` holds that bit of the format word (46_fmtver.md R318). -/
theorem readCell_inserted_format {i : Nat} (hi : i < 15)
    (h : fp1 i = (r, c) ∨ fp2 s.matMeta.mver.toNat i = (r, c)) :
    (s.inserted l mask).readCell .wmat r c = stripModule ((formatWord l mask).getLsbD i) := by
  have strip : (r, c) ∈ stripCells s.matMeta.mver.toNat := List.contains_iff_mem.1 <| (mem_stripCells ..).2 <|
    h.elim (fun hx => .inl ⟨i, hi, hx⟩) fun hx => .inr (.inl ⟨i, hi, hx⟩)
  have place := formatCell_coords hi h
  have hs : side s.matMeta.mver.toNat = 4 * s.matMeta.mver.toNat + 17 := rfl
  rcases mem_stripWrites.1 (readCell_inserted_written hw h1 h40 l mask strip) with
    ⟨j, hj, hcell, value⟩ | ⟨h7, j, hj, hcell, -⟩
  · have place' := formatCell_coords hj hcell
    rw [value, show j = i by omega]
  · simp only [vp1, vp2, Prod.mk.injEq] at hcell
    omega

end

end Sys2Proof.Machine
end

section
/-! PROOFS. The counts that PLACE reports, and the function cells under the commands that write the matrix (44_matrix.md
R255 to R257). -/
namespace Sys2Proof.Machine
open Sys2Proof.Config (ByteMem MatMem)

/-! ### The count that PLACE checks (R255, R256) -/

/-- A word of two 16-bit counts. -/
theorem ofNat_halves {hi lo : Nat} (hhi : hi < 2 ^ 16) (hlo : lo < 2 ^ 16) :
    BitVec.ofNat 16 hi ++ BitVec.ofNat 16 lo = BitVec.ofNat 32 (hi * 2 ^ 16 + lo) := by
  refine BitVec.eq_of_toNat_eq ?_
  rw [toNat_halves hlo hhi, BitVec.toNat_ofNat, Nat.mod_eq_of_lt (by omega), Nat.add_comm]

theorem cells_lt {v : Nat} (h40 : v ≤ 40) : side v * (side v - 1) < 2 ^ 16 := by
  have hs : side v ≤ 177 := by simp only [side]; omega
  calc side v * (side v - 1) ≤ 177 * 176 := Nat.mul_le_mul hs (by omega)
    _ < 2 ^ 16 := by decide

theorem dataModules_lt {v : Nat} (h1 : 1 ≤ v) (h40 : v ≤ 40) : dataModules v < 2 ^ 16 := by
  rw [← length_dataCells_template h1 h40]
  exact (List.length_filter_le ..).trans_lt ((length_zigzag v).trans_lt (cells_lt h40))

/-! ### Function cells (R257) -/

/-- PLACE keeps every cell with F = 1. -/
theorem rulePlace_function {s t : State} (inv : Inv s) (h : rulePlace s = .ok t) {r c : Nat}
    (hf : (s.readCell .wmat r c).f = true) : t.readCell .wmat r c = s.readCell .wmat r c := by
  have hw := (inv.memories.matrix .wmat).1
  rcases rulePlace_cases s with ⟨-, -, hr⟩ | ⟨-, hr⟩ | ⟨-, -, hr⟩ <;> rw [hr] at h <;> cases h
  refine readCell_placed_of_notMem hw ?_
  rw [dataCells_symbolRows s hw inv.metadata.matrix.1, List.mem_filter]
  simp [hf]

/-- MASK_SELECT keeps every cell with F = 1. -/
theorem readCell_masked_function {s : State} (hw : List.Pairwise (fun a b => a.1 < b.1) s.wmat) {r c : Nat}
    (hf : (s.readCell .wmat r c).f = true) : s.masked.readCell .wmat r c = s.readCell .wmat r c := by
  rcases readCell_masked_cases hw r c with hsame | ⟨-, -, hdata, -⟩
  · exact hsame
  · rw [hdata] at hf; cases hf

/-- A command that does not write the matrix keeps its cells. -/
theorem readCell_of_exec {s t : State} {i : Instr} (h : exec i s = .next t) (hi : .matrix ∉ written i) (r c : Nat) :
    t.readCell .wmat r c = s.readCell .wmat r c :=
  have frame := (exec_frame h).1
  readCell_wmat_congr (Prod.mk.inj (frame.same hi)).2 frame.resets r c

end Sys2Proof.Machine
end

section
/-! PROOFS. The symbol that a successful BUILD commits (47_build.md R335): its cells stage by stage, and the format word it
carries (46_fmtver.md R312, R319). -/
namespace Sys2Proof.Machine
open Sys2Proof.Config (ByteMem MatMem)

/-! ### A successful BUILD -/

/-- A BUILD that ends without an error commits what the stages leave for the version that stage 1 selected. -/
theorem exec_build_done {s t : State} (inv : Inv s) {ver : BitVec 6} {l : EcLevel}
    (h : exec (.build ver l.selector) s = .next t) (done : t.status.err = false) :
    ∃ v, 1 ≤ v ∧ v ≤ 40 ∧ t = ((s.built v l).commit l.selector).complete := by
  have failed : ∀ {u : State} {e : CmdError}, execBuild ver l.selector s ≠ .next (u.raiseError e) := fun hraise => by
    cases hraise.symm.trans h
    cases done
  rcases execBuild_cases ver l.selector s with ⟨_, u, -, -, stages, he⟩ | ⟨_, e, u, -, -, -, he⟩ | ⟨-, he⟩ | ⟨-, -, he⟩
  · cases he.symm.trans h
    cases stage1 : ruleBitstream ver l.selector s with
    | error e => rw [buildStages, runStages_cons_error stage1] at stages; cases stages
    | ok u1 =>
      rcases ruleBitstream_cases ver l.selector s with ⟨l', hver, hl, ⟨v, hv, hr⟩ | ⟨_, -, hr⟩⟩ | ⟨-, hr⟩ | ⟨-, -, hr⟩ <;>
        cases hr.symm.trans stage1
      cases (operandEc_selector l).symm.trans hl
      rcases selectVersion_cases s ver.toNat l hver with ⟨w, h1, h40, -, -, hw⟩ | ⟨-, -, hw⟩ | ⟨-, -, hw⟩ <;>
        cases hw.symm.trans hv
      cases (runStages_build_ok inv h1 h40 hr).symm.trans stages
      exact ⟨v, h1, h40, rfl⟩
  · exact absurd he failed
  · exact absurd he failed
  · exact absurd he failed

/-! ### The cells stage by stage (R332) -/

section
variable {v : Nat} (h1 : 1 ≤ v) (h40 : v ≤ 40) {s : State} (hw : List.Pairwise (fun a b => a.1 < b.1) s.wmat) {r c : Nat}
include h1 h40 hw

/-- The data cells PLACE finds on the template are its cells with F = 0. -/
theorem mem_dataCells_templated : (r, c) ∈ dataCells v ((s.templated v).symbolRows (side v)) ↔
    r < side v ∧ c < side v ∧ (templateCell v r c).f = false := by
  rw [dataCells_symbolRows _ (s.wf_templated v).1 h40, List.mem_filter, mem_zigzag_iff, readCell_templated hw h40,
    Bool.not_eq_true', and_assoc, and_assoc]
  refine and_congr_right fun hr => and_congr_right fun hc => and_iff_right_of_imp fun hdata => ?_
  rintro rfl
  rw [(templateCell_f_iff h1 hr hc).2 (.inr (.inr (.inr (.inr (.inl rfl)))))] at hdata
  cases hdata

theorem readCell_filled_data (hr : r < side v) (hc : c < side v) (hf : (templateCell v r c).f = false) :
    ∃ b, (s.filled v).readCell .wmat r c = ⟨b, false, false⟩ := by
  obtain ⟨k, hk, hcell⟩ := List.mem_iff_getElem.1 ((mem_dataCells_templated h1 h40 hw).2 ⟨hr, hc, hf⟩)
  have placed := readCell_placed_data (s.wf_templated v).1 (nodup_dataCells v _) (fun _ => dataCells_inside h40)
    (length_dataCells_templated h1 h40 s hw) hk
  rw [hcell] at placed
  exact ⟨_, placed⟩

theorem readCell_filled_function (h : ¬ (r < side v ∧ c < side v ∧ (templateCell v r c).f = false)) :
    (s.filled v).readCell .wmat r c = templateCell v r c := by
  rw [State.filled, readCell_placed_of_notMem (s.wf_templated v).1 (mt (mem_dataCells_templated h1 h40 hw).1 h),
    readCell_templated hw h40]

end

/-- Off the strips, masking and FMT_INSERT change the colour of data cells of the symbol alone. -/
theorem readCell_finished_cases {s : State} (hw : List.Pairwise (fun a b => a.1 < b.1) s.wmat) (l : EcLevel) {r c : Nat}
    (strip : (r, c) ∉ stripCells s.matMeta.mver.toNat) :
    (s.finished l).readCell .wmat r c = s.readCell .wmat r c ∨
      (r < side s.matMeta.mver.toNat ∧ c < side s.matMeta.mver.toNat ∧ (s.readCell .wmat r c).f = false ∧
        ∃ b, (s.finished l).readCell .wmat r c = { s.readCell .wmat r c with v := b }) := by
  rw [← s.masked_mver] at strip
  rcases readCell_inserted_cases s.wf_masked.1 l s.masked.matMeta.mmask r c with hsame | ⟨hstrip, -⟩
  · rw [State.finished, hsame]
    exact readCell_masked_cases hw r c
  · exact absurd hstrip strip

section
variable {s : State} (h1 : 1 ≤ s.matMeta.mver.toNat) (h40 : s.matMeta.mver.toNat ≤ 40) (l : EcLevel) {r c : Nat}
include h1 h40

/-- The strip cells are written, as coloured function modules. -/
theorem readCell_finished_strip (strip : (r, c) ∈ stripCells s.matMeta.mver.toNat) :
    ∃ b, (s.finished l).readCell .wmat r c = stripModule b := by
  rw [← s.masked_mver] at h1 h40 strip
  exact (mem_stripCells_of_write
    (readCell_inserted_written s.wf_masked.1 h1 h40 l s.masked.matMeta.mmask strip)).2

/-- Both format copies hold the word of the mask that was chosen. -/
theorem readCell_finished_format {i : Nat} (hi : i < 15)
    (h : fp1 i = (r, c) ∨ fp2 s.matMeta.mver.toNat i = (r, c)) :
    (s.finished l).readCell .wmat r c = stripModule ((formatWord l (s.finished l).matMeta.mmask).getLsbD i) := by
  have mask : (s.finished l).matMeta.mmask = s.masked.matMeta.mmask := by rw [finished_matMeta, masked_matMeta]
  rw [← s.masked_mver] at h1 h40 h
  rw [mask]
  exact readCell_inserted_format s.wf_masked.1 h1 h40 l s.masked.matMeta.mmask hi h

end

/-! ### The symbol that BUILD leaves (R335) -/

theorem wf_filled (s : State) (v : Nat) : Memory.wf Config.matCells (s.filled v).wmat := State.wf_placed ..

theorem pairwise_coded_wmat {s : State} (inv : Inv s) (v : Nat) (l : EcLevel) :
    List.Pairwise (fun a b => a.1 < b.1) (s.coded v l).wmat := by
  rw [coded_wmat]
  exact (inv.memories.matrix .wmat).1

theorem toNat_filled_mver {v : Nat} (h40 : v ≤ 40) (s : State) : (s.filled v).matMeta.mver.toNat = v := by
  rw [filled_matMeta]
  exact (BitVec.toNat_ofNat ..).trans (Nat.mod_eq_of_lt (by omega))

section
variable {s : State} (inv : Inv s) {v : Nat} (h1 : 1 ≤ v) (h40 : v ≤ 40) (l : EcLevel) {r c : Nat}
include h1 h40

theorem readCell_built_strip (strip : (r, c) ∈ stripCells v) :
    ∃ b, (s.built v l).readCell .wmat r c = stripModule b := by
  have hv := toNat_filled_mver h40 (s.coded v l)
  rw [State.built]
  exact readCell_finished_strip (by rwa [hv]) (by rwa [hv]) l (by rwa [hv])

theorem readCell_built_format {i : Nat} (hi : i < 15) (h : fp1 i = (r, c) ∨ fp2 v i = (r, c)) :
    (s.built v l).readCell .wmat r c = stripModule ((formatWord l (s.built v l).matMeta.mmask).getLsbD i) := by
  have hv := toNat_filled_mver h40 (s.coded v l)
  rw [State.built]
  exact readCell_finished_format (by rwa [hv]) (by rwa [hv]) l hi (by rwa [hv])

include inv

/-- A cell off the strips that is no data module is the template's. -/
theorem readCell_built_function (strip : (r, c) ∉ stripCells v)
    (h : ¬ (r < side v ∧ c < side v ∧ (templateCell v r c).f = false)) :
    (s.built v l).readCell .wmat r c = templateCell v r c := by
  have hv := toNat_filled_mver h40 (s.coded v l)
  have late := readCell_finished_cases (wf_filled (s.coded v l) v).1 l (r := r) (c := c) (by rwa [hv])
  rw [readCell_filled_function h1 h40 (pairwise_coded_wmat inv v l) h, hv] at late
  rw [State.built]
  exact late.resolve_right fun ⟨hr, hc, hf, _⟩ => h ⟨hr, hc, hf⟩

theorem readCell_built_data (hr : r < side v) (hc : c < side v) (hf : (templateCell v r c).f = false) :
    ∃ b, (s.built v l).readCell .wmat r c = ⟨b, false, false⟩ := by
  have strip : (r, c) ∉ stripCells v := fun h => by rw [templateCell_strip h1 h40 h] at hf; cases hf
  have hv := toNat_filled_mver h40 (s.coded v l)
  have late := readCell_finished_cases (wf_filled (s.coded v l) v).1 l (r := r) (c := c) (by rwa [hv])
  obtain ⟨b, hb⟩ := readCell_filled_data h1 h40 (pairwise_coded_wmat inv v l) hr hc hf
  rw [hb] at late
  rw [State.built]
  exact late.elim (fun hsame => ⟨b, hsame⟩) fun ⟨_, _, _, hmasked⟩ => hmasked

/-- Inside the symbol nothing is pending, F is the template's, and the coloured function modules are the template's. -/
theorem readCell_built_inside (hr : r < side v) (hc : c < side v) :
    ((s.built v l).readCell .wmat r c).p = false ∧
      ((s.built v l).readCell .wmat r c).f = (templateCell v r c).f ∧
      ((templateCell v r c).f = true → (templateCell v r c).p = false →
        (s.built v l).readCell .wmat r c = templateCell v r c) := by
  by_cases strip : (r, c) ∈ stripCells v
  · obtain ⟨b, hb⟩ := readCell_built_strip (s := s) h1 h40 l strip
    rw [templateCell_strip h1 h40 strip, hb]
    exact ⟨rfl, rfl, fun _ => nofun⟩
  · cases hf : (templateCell v r c).f with
    | false =>
      obtain ⟨b, hb⟩ := readCell_built_data inv h1 h40 l hr hc hf
      rw [hb]
      exact ⟨rfl, rfl, nofun⟩
    | true =>
      rw [readCell_built_function inv h1 h40 l strip (by simp [hf])]
      exact ⟨templateCell_p_of_notMem strip hf, hf, fun _ _ => rfl⟩

theorem readCell_built_outside (h : side v ≤ r ∨ side v ≤ c) :
    (s.built v l).readCell .wmat r c = ⟨false, false, false⟩ := by
  have hs : side v = 4 * v + 17 := rfl
  have strip : (r, c) ∉ stripCells v := fun hstrip => by
    have := strip_region hstrip
    omega
  rw [readCell_built_function inv h1 h40 l strip (by omega), templateCell_outside h]

end

/-- The data bits of a format word, under its mask pattern (R311, R312). -/
theorem formatWord_data (l : EcLevel) (m : BitVec 3) :
    (formatWord l m ^^^ 0x5412#15).extractLsb' 10 5 = ecCode l ++ m := by
  cases l <;> revert m <;> decide

end Sys2Proof.Machine
end

section
/-! PROOFS. The statements of 44_matrix.md, and of 47_build.md R335. -/
open Sys2Proof Sys2Proof.Machine

/-- Settles O30: by rows (`sum_dataModules_rows`) and in the zig-zag order (`length_dataCells_template`). -/
theorem dataModuleCount : Obligations.DataModuleCount := fun v h1 h40 =>
  ⟨sum_dataModules_rows h1 h40, length_dataCells_template h1 h40, dataModules_eq v⟩

/-- Settles O31: the cell at each index (`getElem?_zigzag`), and how often each cell stands in the list
(`count_zigzag`). -/
theorem zigzagVisitsEachCellOnce : Obligations.ZigzagVisitsEachCellOnce := by
  intro v h1 h40
  have hs : side v = 4 * v + 17 := rfl
  have first : ∀ {k j}, k < side v → j < 2 → (zigzag v)[2 * k + j]? = some (side v - 1 - k, side v - 1 - j) :=
    fun hk hj => by simpa [pairRight, hs] using getElem?_zigzag (v := v) (p := 0) (by omega) hk hj
  have second : ∀ {k}, k < side v → (zigzag v)[2 * side v + 2 * k]? = some (k, side v - 3) := fun {k} hk => by
    have h := getElem?_zigzag (v := v) (p := 1) (k := k) (j := 0) (by omega) hk (by omega)
    simpa [pairRight, hs, Nat.mul_add] using h
  refine ⟨length_zigzag v, fun p hp k hk => ⟨getElem?_zigzag (j := 0) hp hk (by omega),
    getElem?_zigzag (j := 1) hp hk (by omega)⟩, nodup_zigzag v, fun x => mem_zigzag_iff,
    first (k := 0) (j := 0) (by omega) (by omega), first (k := 0) (j := 1) (by omega) (by omega),
    first (k := 1) (j := 0) (by omega) (by omega), second (k := 0) (by omega), second (k := 1) (by omega), ?_⟩
  have last := getElem?_zigzag (v := v) (p := 2 * v + 7) (k := side v - 1) (j := 1) (by omega) (by omega) (by omega)
  have index : (zigzag v).length - 1 = 2 * ((2 * v + 7) * side v + (side v - 1)) + 1 := by
    rw [length_zigzag, hs]
    have : (4 * v + 17) * (4 * v + 17 - 1) = 2 * ((2 * v + 7) * (4 * v + 17) + (4 * v + 17)) := by
      rw [Nat.add_sub_assoc (by omega)]; ring
    omega
  have right : pairRight (side v) (2 * v + 7) = 1 := by rw [pairRight, if_neg (by omega)]; omega
  rw [List.getLast?_eq_getElem?, index, last, if_neg (by omega), right]

/-- Settles O32: every cell is the template's (`readCell_templated`), and the template's by the rule that draws it. -/
theorem matrixInitCommand : Obligations.MatrixInitCommand := by
  refine ⟨encoded_of_row (row := ⟨0x50, 0xFFFE07FF, fun w => .matrixInit (fieldVer w)⟩) rfl rfl rfl,
    alignmentPositions_table, fun s ver bad => ?_, fun s v inv h1 h40 => ?_⟩
  · rcases ruleMatrixInit_cases ver s with ⟨h1, h40, -⟩ | ⟨-, hr⟩
    · rw [show ver = 0 ↔ ver.toNat = 0 from BitVec.toNat_inj.symm] at bad
      omega
    · exact finish_error hr
  · intro n ap
    have hn : side v = n := rfl
    have cell : ∀ r c, (s.templated v).complete.readCell .wmat r c = templateCell v r c :=
      readCell_templated (inv.memories.matrix .wmat).1 h40
    have frame : Frame [.matrix] s (s.templated v) := rfl
    refine ⟨(s.templated v).complete, finish_ok (ruleMatrixInit_ok h1 h40 s), rfl, frame.sameBytes,
      frame.sameCells_cmat, ?_⟩
    simp only [cell]
    exact ⟨fun r c => templateCell_outside, fun _ hcorner _ hdr _ hdc => templateCell_finder h1 hcorner hdr hdc,
      fun _ hk _ hx => templateCell_separator h1 hk hx, fun _ h8 hk => templateCell_timing h8 (by omega),
      fun _ _ hi hj corner _ hdr _ hdc => templateCell_alignment h1 h40 hi hj corner hdr hdc,
      fun _ hi => templateCell_formatCells h1 h40 hi, fun h7 _ hi => templateCell_versionCells h1 h40 h7 hi,
      templateCell_dark h1 h40, fun _ _ hr hc => templateCell_of_f_eq_false hr hc, sum_dataModules_rows h1 h40⟩

/-- Settles O33: by the cases of the rule (`rulePlace_cases`); its cells are those of the data cells by WMAT
(`dataCells_symbolRows`), each given its placement bit. -/
theorem placeCommand : Obligations.PlaceCommand := by
  refine ⟨encoded_of_row (row := ⟨0x51, 0xFFFFFFFF, fun _ => .place⟩) rfl rfl rfl, fun s inv => ?_⟩
  intro v dc expected
  have h40 : v ≤ 40 := inv.metadata.matrix.1
  have hw := (inv.memories.matrix .wmat).1
  have hdc : dataCells v (s.symbolRows (side v)) = dc := dataCells_symbolRows s hw h40
  have hv : s.matMeta.mver = 0 ↔ v = 0 := BitVec.toNat_inj.symm
  rcases rulePlace_cases s with ⟨matrix, count, hr⟩ | ⟨none, hr⟩ | ⟨matrix, count, hr⟩
  · rw [show dataCells _ _ = dc from hdc] at count hr
    refine ⟨fun h0 => absurd (hv.2 h0) matrix, fun _ hne => absurd count hne, fun _ _ => ?_⟩
    have frame : Frame [.matrix] s (s.placed v dc) := rfl
    have nodup : dc.Nodup := hdc ▸ nodup_dataCells v _
    have inside : ∀ x ∈ dc, x.1 < 177 ∧ x.2 < 177 := fun x hx => dataCells_inside h40 (hdc ▸ hx)
    refine ⟨(s.placed v dc).complete, finish_ok hr, rfl, frame.sameBytes, frame.sameCells_cmat, fun k hk => ?_,
      fun r c => readCell_placed_of_notMem hw⟩
    rw [← getD_placedBits inv]
    exact readCell_placed_data hw nodup inside count hk
  · exact ⟨fun _ => finish_error hr, fun hne => absurd (hv.1 none) hne, fun hne => absurd (hv.1 none) hne⟩
  · rw [show dataCells _ _ = dc from hdc] at count hr
    have h1 : 1 ≤ v := Nat.one_le_iff_ne_zero.2 fun h0 => matrix (hv.2 h0)
    have expected_lt : expected < 2 ^ 16 := (dataModules_eq v).symm.trans_lt (dataModules_lt h1 h40)
    have found_lt : dc.length < 2 ^ 16 := hdc ▸ (length_dataCells_le v _).trans_lt (cells_lt h40)
    rw [ofNat_halves expected_lt found_lt] at hr
    exact ⟨fun h0 => absurd (hv.2 h0) matrix, fun _ _ => finish_error hr, fun _ heq => absurd heq count⟩

/-- Settles O57: PLACE and MASK_SELECT write cells with F = 0, FMT_INSERT the strips, and the other commands no cell. -/
theorem functionCellsSurvive : Obligations.FunctionCellsSurvive := by
  intro i s t inv h hinit hbuild r c hf
  have hw := (inv.memories.matrix .wmat).1
  by_cases hi : .matrix ∈ written i
  · cases i <;> simp only [written, List.mem_cons, List.not_mem_nil, reduceCtorEq, or_false] at hi
    case matrixInit v => exact absurd rfl (hinit v)
    case build v e => exact absurd rfl (hbuild v e)
    case place =>
      rcases finish_cases rulePlace s with ⟨u, hr, hfin⟩ | ⟨e, -, hfin⟩
      · cases hfin.symm.trans h
        exact .inl (rulePlace_function inv hr hf)
      · cases hfin.symm.trans h
        exact .inl rfl
    case maskSelect =>
      rcases exec_effect .maskSelect s nofun with ⟨u, ⟨⟩, he⟩ | ⟨e, he⟩ <;> cases he.symm.trans h
      · exact .inl (readCell_masked_function hw hf)
      · exact .inl rfl
    case fmtInsert ec m =>
      rcases exec_effect (.fmtInsert ec m) s nofun with ⟨u, ⟨⟩, he⟩ | ⟨e, he⟩ <;> cases he.symm.trans h
      · exact (readCell_inserted_cases hw _ m r c).imp id fun hstrip => ⟨⟨ec, m, rfl⟩, hstrip.1⟩
      · exact .inl rfl
  · exact .inl (readCell_of_exec h hi r c)

/-- Settles O42: the committed cells are those the stages leave (`readCell_commitCells`): inside the symbol
(`readCell_built_inside`), outside it, and in both format copies. -/
theorem buildOutputContract : Obligations.BuildOutputContract := by
  intro s t ver l inv _ h done v
  obtain ⟨u, h1, h40, rfl⟩ := exec_build_done inv h done
  obtain ⟨-, hmeta⟩ := built_stream s u l
  have out : ((s.built u l).commit l.selector).complete.outMeta = _ := commit_outMeta h40 hmeta
  have hv : v = u := by
    simp only [v, out, BitVec.toNat_ofNat]
    omega
  have cell : ∀ r c, ((s.built u l).commit l.selector).complete.readCell .cmat r c = (s.built u l).readCell .wmat r c :=
    (s.built u l).readCell_commitCells (wf_built s u l).1
  simp only [hv, out, cell]
  refine ⟨trivial, h1, h40, ?_, trivial, fun r c => readCell_built_inside inv h1 h40 l,
    fun r c => readCell_built_outside inv h1 h40 l, formatWord l (s.built u l).matMeta.mmask, formatWord_data l _,
    fun i hi => ⟨?_, ?_⟩⟩
  · rw [BitVec.toNat_ofNat]; omega
  · rw [readCell_built_format (r := (fp1 i).1) (c := (fp1 i).2) h1 h40 l hi (.inl rfl), stripModule]
  · rw [readCell_built_format (r := (fp2 u i).1) (c := (fp2 u i).2) h1 h40 l hi (.inr rfl), stripModule]

end

section
/-! PROOFS. The four penalty rules on a grid, window by window (45_mask.md R283 to R287). -/
namespace Sys2Proof.Machine

/-! ### Lines -/

/-- The line of the `n` colours `line 0`, `line 1`, …: a row or a column of `gridOf`. -/
def lineOf (n : Nat) (line : Nat → Bool) : List Bool := (List.range n).map line

/-- The line after its first cell. -/
def tailLine (line : Nat → Bool) (k : Nat) : Bool := line (k + 1)

theorem gridOf_eq_map_lineOf (n : Nat) (G : Nat → Nat → Bool) :
    gridOf n G = (List.range n).map fun r => lineOf n (G r) := rfl

@[simp] theorem lineOf_zero (line : Nat → Bool) : lineOf 0 line = [] := rfl

@[simp] theorem length_lineOf (n : Nat) (line : Nat → Bool) : (lineOf n line).length = n := by simp [lineOf]

theorem map_range_succ {α : Type} (f : Nat → α) (n : Nat) :
    (List.range (n + 1)).map f = f 0 :: (List.range n).map fun k => f (k + 1) := by
  rw [List.range_succ_eq_map, List.map_cons, List.map_map]
  rfl

theorem lineOf_succ (n : Nat) (line : Nat → Bool) : lineOf (n + 1) line = line 0 :: lineOf n (tailLine line) :=
  map_range_succ line n

/-- Lists of `n` lines as columns: row by row, each row puts its cells on top of the columns. -/
theorem columns_map_lineOf (n : Nat) (G : Nat → Nat → Bool) (rows : List Nat) :
    columns n (rows.map fun r => lineOf n (G r)) = (List.range n).map fun c => rows.map fun r => G r c := by
  induction rows with
  | nil => simp [columns]
  | cons r rows ih =>
    rw [columns] at ih
    rw [List.map_cons, columns, List.foldr_cons, ih, lineOf, List.zipWith_map, List.zipWith_self]
    rfl

theorem columns_gridOf (n : Nat) (G : Nat → Nat → Bool) :
    columns n (gridOf n G) = (List.range n).map fun c => lineOf n fun r => G r c :=
  columns_map_lineOf n G (List.range n)

/-! ### Runs (R283) -/

/-- The length of a line's first run. -/
def headRun (xs : List Bool) : Nat := ((runLengths xs).head?.map Prod.snd).getD 0

/-- The first run has the colour of the first cell. -/
theorem runLengths_cons (b : Bool) (xs : List Bool) :
    ∃ runs, runLengths (b :: xs) = (b, headRun (b :: xs)) :: runs := by
  unfold headRun
  rw [runLengths]
  split
  · exact ⟨_, rfl⟩
  · split
    · next h => exact ⟨_, by rw [h]; rfl⟩
    · exact ⟨_, rfl⟩

/-- A cell in front of a line joins its first run, or is a run of its own. -/
theorem runLengths_cons_cons (b c : Bool) (xs : List Bool) : ∃ runs,
    runLengths (c :: xs) = (c, headRun (c :: xs)) :: runs ∧
      runLengths (b :: c :: xs) =
        if b = c then (b, headRun (c :: xs) + 1) :: runs else (b, 1) :: (c, headRun (c :: xs)) :: runs := by
  obtain ⟨runs, h⟩ := runLengths_cons c xs
  refine ⟨runs, h, ?_⟩
  rw [runLengths, h]
  by_cases hbc : b = c
  · simp [hbc]
  · simp [hbc, Ne.symm hbc]

theorem headRun_cons_cons (b c : Bool) (xs : List Bool) :
    headRun (b :: c :: xs) = if b = c then headRun (c :: xs) + 1 else 1 := by
  obtain ⟨runs, -, h⟩ := runLengths_cons_cons b c xs
  rw [headRun, h]
  split <;> rfl

/-- A cell in front of a line changes the penalty of one run. -/
theorem linePenalty_cons (b : Bool) (xs : List Bool) :
    linePenalty (b :: xs) + runPenalty (headRun (b :: xs) - 1) = linePenalty xs + runPenalty (headRun (b :: xs)) := by
  cases xs with
  | nil => rfl
  | cons c xs =>
    obtain ⟨runs, h, h'⟩ := runLengths_cons_cons b c xs
    rw [linePenalty, linePenalty, headRun_cons_cons, h, h']
    split
    · simp only [List.map_cons, List.sum_cons, Nat.add_sub_cancel]
      omega
    · simp [runPenalty]

theorem lt_headRun_cons_cons {b c : Bool} {xs : List Bool} {k : Nat} :
    k + 1 < headRun (b :: c :: xs) ↔ b = c ∧ k < headRun (c :: xs) := by
  rw [headRun_cons_cons]
  split
  · next h => simp [h]
  · next h => simp [h]

theorem headRun_pos (b : Bool) (xs : List Bool) : 0 < headRun (b :: xs) := by
  cases xs with
  | nil => exact Nat.one_pos
  | cons c xs =>
    rw [headRun_cons_cons]
    split <;> exact Nat.succ_pos _

/-- The first run has more than `k` cells when the first `k` steps of the line keep the colour. -/
theorem lt_headRun_lineOf {n k : Nat} {line : Nat → Bool} :
    k < headRun (lineOf n line) ↔ k < n ∧ ∀ j < k, line j = line (j + 1) := by
  induction k generalizing n line with
  | zero =>
    cases n with
    | zero => simp [headRun, runLengths]
    | succ n => simp [lineOf_succ, headRun_pos]
  | succ k ih =>
    have steps : (∀ j < k + 1, line j = line (j + 1)) ↔
        line 0 = line 1 ∧ ∀ j < k, tailLine line j = tailLine line (j + 1) := Nat.forall_lt_succ_left
    match n with
    | 0 => simp [headRun, runLengths]
    | 1 => simp [lineOf_succ, headRun, runLengths]
    | n + 2 =>
      have tail := ih (n := n + 1) (line := tailLine line)
      rw [lineOf_succ] at tail
      rw [steps, lineOf_succ, lineOf_succ, lt_headRun_cons_cons, tail, and_left_comm, Nat.add_lt_add_iff_right,
        tailLine]

/-- Windows of `w + 1` cells: those of a line of one cell more are those of its tail, and the one at 0 if it fits. -/
theorem count_windows_succ (p : Nat → Prop) [DecidablePred p] (w n : Nat) : Nat.count p (n + 1 - w) =
    Nat.count (fun k => p (k + 1)) (n - w) + if w ≤ n ∧ p 0 then 1 else 0 := by
  by_cases h : w ≤ n
  · rw [Nat.sub_add_comm h, Nat.count_succ']
    simp [h]
  · rw [Nat.sub_eq_zero_of_le (by omega), Nat.sub_eq_zero_of_le (by omega)]
    simp [h]

/-- Five cells of one colour from cell `k` on. -/
abbrev FiveAt (line : Nat → Bool) (k : Nat) : Prop := ∀ j ∈ List.range 4, line (k + j) = line (k + j + 1)

/-- Five cells of one colour, which begin a run. -/
abbrev StartAt (line : Nat → Bool) (k : Nat) : Prop := FiveAt line k ∧ (k = 0 ∨ line (k - 1) ≠ line k)

theorem card_fiveRuns (n : Nat) (line : Nat → Bool) : (fiveRuns n line).card = Nat.count (FiveAt line) (n - 4) :=
  (Nat.count_eq_card_filter_range ..).symm

theorem card_runStarts (n : Nat) (line : Nat → Bool) :
    (runStarts n line).card = Nat.count (StartAt line) (n - 4) := by
  rw [runStarts, fiveRuns, Finset.filter_filter, Nat.count_eq_card_filter_range]

theorem fiveAt_succ {line : Nat → Bool} {k : Nat} : FiveAt line (k + 1) ↔ FiveAt (tailLine line) k := by
  simp only [FiveAt, tailLine, Nat.add_right_comm _ 1]

/-- A window at 0 lies in a first run of five cells or more. -/
theorem five_le_headRun {n : Nat} {line : Nat → Bool} : 5 ≤ headRun (lineOf n line) ↔ 5 ≤ n ∧ FiveAt line 0 :=
  (lt_headRun_lineOf (k := 4)).trans (by simp [FiveAt, Nat.succ_le_iff])

/-- The window after it lies in the same run, when that has six cells or more. -/
theorem six_le_headRun {n : Nat} {line : Nat → Bool} :
    6 ≤ headRun (lineOf n line) ↔ 6 ≤ n ∧ FiveAt line 1 ∧ line 0 = line 1 := by
  have steps : (∀ j < 5, line j = line (j + 1)) ↔ line 0 = line 1 ∧ ∀ j < 4, line (j + 1) = line (j + 1 + 1) :=
    Nat.forall_lt_succ_left
  refine (lt_headRun_lineOf (k := 5)).trans ?_
  rw [steps]
  simp [FiveAt, and_comm, Nat.add_comm 1, Nat.succ_le_iff]

theorem card_fiveRuns_succ (n : Nat) (line : Nat → Bool) : (fiveRuns (n + 1) line).card =
    (fiveRuns n (tailLine line)).card + if 5 ≤ headRun (lineOf (n + 1) line) then 1 else 0 := by
  rw [card_fiveRuns, card_fiveRuns, count_windows_succ]
  simp only [five_le_headRun, fiveAt_succ, Nat.succ_le_succ_iff]

/-- The windows after the first cell: the one at 1 starts a run of the tail, but none of the line when cell 0 has its
colour. -/
theorem count_startAt_succ (line : Nat → Bool) (m : Nat) :
    Nat.count (fun k => StartAt line (k + 1)) m + (if 1 ≤ m ∧ FiveAt line 1 ∧ line 0 = line 1 then 1 else 0) =
      Nat.count (StartAt (tailLine line)) m := by
  have later : ∀ k, StartAt line (k + 1 + 1) ↔ StartAt (tailLine line) (k + 1) := fun k => by
    simp [StartAt, fiveAt_succ, tailLine]
  have first : StartAt line (0 + 1) ↔ FiveAt line 1 ∧ line 0 ≠ line 1 := by simp [StartAt]
  have firstOfTail : StartAt (tailLine line) 0 ↔ FiveAt line 1 := by simp [StartAt, fiveAt_succ (k := 0)]
  cases m with
  | zero => simp
  | succ m =>
    rw [Nat.count_succ', Nat.count_succ']
    simp only [later, first, firstOfTail, Nat.le_add_left, true_and, Nat.add_assoc]
    by_cases hrun : line 0 = line 1
    · simp [hrun]
    · simp [hrun]

/-- A cell in front of a line takes the start of a run from the next cell, if that has its colour. -/
theorem card_runStarts_succ (n : Nat) (line : Nat → Bool) :
    (runStarts (n + 1) line).card + (if 6 ≤ headRun (lineOf (n + 1) line) then 1 else 0) =
      (runStarts n (tailLine line)).card + if 5 ≤ headRun (lineOf (n + 1) line) then 1 else 0 := by
  have fits : 1 ≤ n - 4 ↔ 6 ≤ n + 1 := by omega
  have first : StartAt line 0 ↔ FiveAt line 0 := by simp [StartAt]
  rw [card_runStarts, card_runStarts, count_windows_succ, ← count_startAt_succ]
  simp only [five_le_headRun, six_le_headRun, Nat.succ_le_succ_iff, fits, first]
  exact Nat.add_right_comm ..

/-- Rule (a) of a line by its windows (R283). -/
def runScore (n : Nat) (line : Nat → Bool) : Nat := (fiveRuns n line).card + 2 * (runStarts n line).card

theorem linePenalty_lineOf (n : Nat) (line : Nat → Bool) : linePenalty (lineOf n line) = runScore n line := by
  induction n generalizing line with
  | zero => rfl
  | succ n ih =>
    have run := linePenalty_cons (line 0) (lineOf n (tailLine line))
    have five := card_fiveRuns_succ n line
    have start := card_runStarts_succ n line
    rw [ih, ← lineOf_succ, runScore, runPenalty, runPenalty] at run
    rw [runScore]
    split_ifs at * <;> omega

/-! ### Finder-like patterns (R285) -/

/-- One of the two patterns stands from cell `k` on. -/
abbrev FinderAt (line : Nat → Bool) (k : Nat) : Prop :=
  (List.range 11).map (fun j => line (k + j)) = finderLike ∨
    (List.range 11).map (fun j => line (k + j)) = finderLike.reverse

theorem card_finderWindows (n : Nat) (line : Nat → Bool) :
    (finderWindows n line).card = Nat.count (FinderAt line) (n - 10) :=
  (Nat.count_eq_card_filter_range ..).symm

theorem finderAt_succ {line : Nat → Bool} {k : Nat} : FinderAt line (k + 1) ↔ FinderAt (tailLine line) k := by
  simp only [FinderAt, tailLine, Nat.add_right_comm _ 1]

/-- The first 11 cells are a given 11-cell pattern when the line is long enough and they agree with it. -/
theorem take_lineOf_eq_iff {n : Nat} {line : Nat → Bool} {pattern : List Bool} (h : pattern.length = 11) :
    (lineOf n line).take 11 = pattern ↔ 11 ≤ n ∧ (List.range 11).map (fun j => line (0 + j)) = pattern := by
  by_cases fits : 11 ≤ n
  · simp [lineOf, ← List.map_take, List.take_range, fits]
  · refine iff_of_false (fun heq => fits ?_) fun hf => fits hf.1
    have := congrArg List.length heq
    rw [List.length_take, length_lineOf, h] at this
    omega

theorem countFinderLike_lineOf (n : Nat) (line : Nat → Bool) :
    countFinderLike (lineOf n line) = (finderWindows n line).card := by
  rw [card_finderWindows]
  induction n generalizing line with
  | zero => rfl
  | succ n ih =>
    have window : ((lineOf (n + 1) line).take 11 = finderLike ∨
        (lineOf (n + 1) line).take 11 = finderLike.reverse) ↔ 10 ≤ n ∧ FinderAt line 0 := by
      rw [take_lineOf_eq_iff rfl, take_lineOf_eq_iff rfl, ← and_or_left, Nat.succ_le_succ_iff]
    rw [lineOf_succ] at window
    rw [count_windows_succ, lineOf_succ, countFinderLike, ih, Nat.add_comm]
    simp only [window, finderAt_succ]

/-! ### Blocks (R284) -/

/-- The four cells of the window at column `c` of two adjacent rows are equal. -/
abbrev BlockAt (top bottom : Nat → Bool) (c : Nat) : Prop :=
  top c = top (c + 1) ∧ top c = bottom c ∧ top c = bottom (c + 1)

theorem equalWindows_lineOf (n : Nat) (top bottom : Nat → Bool) :
    equalWindows (lineOf n top) (lineOf n bottom) = Nat.count (BlockAt top bottom) (n - 1) := by
  induction n generalizing top bottom with
  | zero => rfl
  | succ n ih =>
    rw [count_windows_succ]
    cases n with
    | zero => rfl
    | succ n =>
      have tail := ih (tailLine top) (tailLine bottom)
      rw [lineOf_succ, lineOf_succ n] at tail
      rw [lineOf_succ, lineOf_succ (n + 1), lineOf_succ, lineOf_succ n, equalWindows, tail, Nat.add_comm]
      simp only [Nat.le_add_left, true_and]
      rfl

theorem countBlocks_map_range (m n : Nat) (rows : Nat → Nat → Bool) :
    countBlocks ((List.range m).map fun r => lineOf n (rows r)) =
      ∑ r ∈ Finset.range (m - 1), Nat.count (BlockAt (rows r) (rows (r + 1))) (n - 1) := by
  induction m generalizing rows with
  | zero => rfl
  | succ m ih =>
    cases m with
    | zero => rfl
    | succ m =>
      have tail := ih fun r => rows (r + 1)
      rw [map_range_succ] at tail
      rw [map_range_succ, map_range_succ, countBlocks, Nat.add_sub_cancel, Finset.sum_range_succ', Nat.add_comm]
      exact congrArg₂ (· + ·) tail (equalWindows_lineOf n (rows 0) (rows 1))

/-! ### The rules on a grid -/

theorem penalty1_gridOf (n : Nat) (G : Nat → Nat → Bool) : penalty1 n (gridOf n G) =
    (∑ r ∈ Finset.range n, runScore n (G r)) + ∑ c ∈ Finset.range n, runScore n fun r => G r c := by
  rw [penalty1, columns_gridOf, gridOf_eq_map_lineOf, List.map_map, List.map_map, sum_list_range, sum_list_range]
  simp only [Function.comp_apply, linePenalty_lineOf]

/-- The cells of a rectangle that satisfy `p`, row by row. -/
theorem card_filter_product (m n : Nat) (p : Nat → Nat → Prop) [∀ r c, Decidable (p r c)] :
    ((Finset.range m ×ˢ Finset.range n).filter fun x => p x.1 x.2).card =
      ∑ r ∈ Finset.range m, Nat.count (p r) n := by
  simp only [Nat.count_eq_card_filter_range, Finset.card_filter, Finset.sum_product]

theorem penalty2_gridOf (n : Nat) (G : Nat → Nat → Bool) : penalty2 (gridOf n G) =
    3 * ((Finset.range (n - 1) ×ˢ Finset.range (n - 1)).filter fun x => BlockAt (G x.1) (G (x.1 + 1)) x.2).card := by
  rw [penalty2, gridOf_eq_map_lineOf, countBlocks_map_range,
    card_filter_product (n - 1) (n - 1) fun r => BlockAt (G r) (G (r + 1))]

theorem penalty3_gridOf (n : Nat) (G : Nat → Nat → Bool) : penalty3 n (gridOf n G) =
    40 * ((∑ r ∈ Finset.range n, (finderWindows n (G r)).card) +
      ∑ c ∈ Finset.range n, (finderWindows n fun r => G r c).card) := by
  rw [penalty3, columns_gridOf, gridOf_eq_map_lineOf, List.map_map, List.map_map, sum_list_range, sum_list_range]
  simp only [Function.comp_apply, countFinderLike_lineOf]

/-- The Dark cells of a grid (R286). -/
theorem darkCount_gridOf (n : Nat) (G : Nat → Nat → Bool) : darkCount (gridOf n G) =
    ((Finset.range n ×ˢ Finset.range n).filter fun x => G x.1 x.2 = true).card := by
  have row : ∀ r, (lineOf n (G r)).count true = Nat.count (G r · = true) n := fun r => by
    rw [List.count, lineOf, List.countP_map, Nat.count]
    refine List.countP_congr fun c _ => ?_
    simp
  rw [darkCount, gridOf_eq_map_lineOf, List.map_map, sum_list_range, card_filter_product n n fun r c => G r c = true]
  simp only [Function.comp_apply, row]

theorem distance_eq_natAbs (a b : Nat) : distance a b = ((a : Int) - b).natAbs := by
  rw [distance]
  omega

theorem penalty4_gridOf (n : Nat) (G : Nat → Nat → Bool) : penalty4 n (gridOf n G) =
    10 * ((100 * (((Finset.range n ×ˢ Finset.range n).filter fun x => G x.1 x.2 = true).card : Int)
      - 50 * (n * n : Nat)).natAbs / (5 * (n * n))) := by
  rw [penalty4, darkCount_gridOf, distance_eq_natAbs]
  push_cast
  rfl

/-! ### The total fits a register (R287) -/

theorem runScore_le (n : Nat) (line : Nat → Bool) : runScore n line ≤ 3 * n := by
  have five : (fiveRuns n line).card ≤ n - 4 := (card_fiveRuns n line).trans_le (Nat.count_le _)
  have start : (runStarts n line).card ≤ n - 4 := (card_runStarts n line).trans_le (Nat.count_le _)
  rw [runScore]
  omega

theorem sum_lines_le {n k : Nat} {f : Nat → Nat} (h : ∀ r, f r ≤ k * n) :
    ∑ r ∈ Finset.range n, f r ≤ k * (n * n) :=
  (Finset.sum_le_card_nsmul _ _ _ fun r _ => h r).trans_eq (by simp [Nat.mul_left_comm])

theorem penalty1_gridOf_le (n : Nat) (G : Nat → Nat → Bool) : penalty1 n (gridOf n G) ≤ 6 * (n * n) := by
  have rows := sum_lines_le fun r => runScore_le n (G r)
  have cols := sum_lines_le fun c => runScore_le n fun r => G r c
  rw [penalty1_gridOf]
  omega

theorem card_filter_square_le (n : Nat) (p : Nat × Nat → Prop) [DecidablePred p] :
    ((Finset.range n ×ˢ Finset.range n).filter p).card ≤ n * n :=
  (Finset.card_filter_le ..).trans_eq (by simp)

theorem penalty2_gridOf_le (n : Nat) (G : Nat → Nat → Bool) : penalty2 (gridOf n G) ≤ 3 * (n * n) := by
  rw [penalty2_gridOf]
  exact Nat.mul_le_mul_left 3 ((card_filter_square_le ..).trans (Nat.mul_le_mul (Nat.sub_le ..) (Nat.sub_le ..)))

theorem penalty3_gridOf_le (n : Nat) (G : Nat → Nat → Bool) : penalty3 n (gridOf n G) ≤ 80 * (n * n) := by
  have line : ∀ l, (finderWindows n l).card ≤ 1 * n := fun l => by
    rw [card_finderWindows, Nat.one_mul]
    exact (Nat.count_le _).trans (Nat.sub_le ..)
  have rows := sum_lines_le fun r => line (G r)
  have cols := sum_lines_le fun c => line fun r => G r c
  rw [penalty3_gridOf]
  omega

theorem penalty4_gridOf_le (n : Nat) (G : Nat → Nat → Bool) : penalty4 n (gridOf n G) ≤ 100 := by
  have dark := card_filter_square_le n fun x => G x.1 x.2 = true
  rw [← darkCount_gridOf] at dark
  have apart : distance (100 * darkCount (gridOf n G)) (50 * (n * n)) ≤ 5 * (n * n) * 10 := by
    rw [distance]
    omega
  exact Nat.mul_le_mul_left 10 (Nat.div_le_of_le_mul apart)

theorem totalPenalty_gridOf_lt {n : Nat} (hn : n ≤ 177) (G : Nat → Nat → Bool) :
    totalPenalty n (gridOf n G) < 2 ^ 32 := by
  have cells : n * n ≤ 177 * 177 := Nat.mul_le_mul hn hn
  have h1 := penalty1_gridOf_le n G
  have h2 := penalty2_gridOf_le n G
  have h3 := penalty3_gridOf_le n G
  have h4 := penalty4_gridOf_le n G
  rw [totalPenalty]
  omega

end Sys2Proof.Machine
end

section
/-! PROOFS. The candidate matrix, the selected mask, and what MASK_SCORE and MASK_SELECT leave (45_mask.md R280 to R282,
R287 to R291). -/
namespace Sys2Proof.Machine

/-! ### The candidate matrix (R282) -/

theorem side_le {v : Nat} (h40 : v ≤ 40) : side v ≤ 177 := by
  simp only [side]
  omega

theorem zipIdx_map_range {α : Type} (f : Nat → α) (n : Nat) :
    ((List.range n).map f).zipIdx = (List.range n).map fun i => (f i, i) := by
  refine List.ext_getElem? fun i => ?_
  by_cases h : i < n <;> simp [h]

/-- The rows of a symbol are its WMAT cells. -/
theorem symbolRows_eq_map {s : State} (hw : List.Pairwise (fun a b => a.1 < b.1) s.wmat) {n : Nat} (hn : n ≤ 177) :
    s.symbolRows n = (List.range n).map fun r => (List.range n).map fun c => s.readCell .wmat r c := by
  refine List.map_congr_left fun r hr => ?_
  rw [Memory.slice_eq_map_read hw, List.range'_eq_map_range, List.map_map]
  refine List.map_congr_left fun c hc => ?_
  rw [List.mem_range] at hr hc
  have exist : State.cellExists r c = true := (State.cellExists_iff ..).2 ⟨hr.trans_le hn, hc.trans_le hn⟩
  rw [State.readCell, if_pos exist]
  simp [State.cellIndex, State.mat]

theorem scoredColour_eq (s : State) (v m r c : Nat) :
    scoredColour Config.darkModuleScoredAs v m r c (s.readCell .wmat r c) = candidateColour s v m r c := by
  rw [scoredColour, candidateColour]
  obtain ⟨colour, f, p⟩ := s.readCell .wmat r c
  cases f
  · rfl
  · cases p <;> rfl

theorem candidate_eq_gridOf {s : State} (hw : List.Pairwise (fun a b => a.1 < b.1) s.wmat) {v : Nat} (h40 : v ≤ 40)
    (m : Nat) : s.candidate v m = gridOf (side v) (candidateColour s v m) := by
  simp only [State.candidate, scoringView, symbolRows_eq_map hw (side_le h40), zipIdx_map_range, List.map_map,
    Function.comp_def, scoredColour_eq]
  rfl

/-- The five registers hold the penalties of a symbol's grid (R290). -/
theorem toNat_penOf {n : Nat} (hn : n ≤ 177) (G : Nat → Nat → Bool) :
    let g := gridOf n G
    (penOf n g).pen1.toNat = penalty1 n g ∧ (penOf n g).pen2.toNat = penalty2 g ∧
      (penOf n g).pen3.toNat = penalty3 n g ∧ (penOf n g).pen4.toNat = penalty4 n g ∧
      (penOf n g).pentot.toNat = totalPenalty n g := by
  intro g
  have total := totalPenalty_gridOf_lt hn G
  have fits : ∀ x, x ≤ totalPenalty n g → (BitVec.ofNat 32 x).toNat = x := fun x hx =>
    (BitVec.toNat_ofNat ..).trans (Nat.mod_eq_of_lt (hx.trans_lt total))
  exact ⟨fits _ (by rw [totalPenalty]; omega), fits _ (by rw [totalPenalty]; omega),
    fits _ (by rw [totalPenalty]; omega), fits _ (by rw [totalPenalty]; omega), fits _ le_rfl⟩

/-! ### The selected mask (R289) -/

/-- `best` is the lowest index below `n` of least total. -/
def Lowest (total : Nat → Nat) (n best : Nat) : Prop :=
  best < n ∧ (∀ m < n, total best ≤ total m) ∧ ∀ m < best, total best < total m

/-- One strict-less update. -/
theorem Lowest.succ {total : Nat → Nat} {n best : Nat} (h : Lowest total n best) :
    Lowest total (n + 1) (if total n < total best then n else best) := by
  obtain ⟨hlt, least, first⟩ := h
  split
  · next less =>
    exact ⟨Nat.lt_succ_self n, Nat.forall_lt_succ_right.2 ⟨fun m hm => less.le.trans (least m hm), le_rfl⟩,
      fun m hm => less.trans_le (least m hm)⟩
  · next notLess =>
    exact ⟨Nat.lt_succ_of_lt hlt, Nat.forall_lt_succ_right.2 ⟨least, Nat.le_of_not_lt notLess⟩, first⟩

theorem Lowest.foldl {total : Nat → Nat} {n best : Nat} (h : Lowest total n best) (k : Nat) :
    Lowest total (n + k)
      ((List.range' n k).foldl (fun best m => if total m < total best then m else best) best) := by
  induction k generalizing n best with
  | zero => exact h
  | succ k ih =>
    rw [List.range'_succ, List.foldl_cons, ← Nat.add_assoc, Nat.add_right_comm]
    exact ih h.succ

theorem Lowest.congr {total total' : Nat → Nat} {n best : Nat} (h : Lowest total n best)
    (same : ∀ m < n, total m = total' m) : Lowest total' n best := by
  obtain ⟨hlt, least, first⟩ := h
  refine ⟨hlt, fun m hm => ?_, fun m hm => ?_⟩
  · rw [← same best hlt, ← same m hm]
    exact least m hm
  · rw [← same best hlt, ← same m (hm.trans hlt)]
    exact first m hm

theorem lowest_selectMask (total : Nat → Nat) : Lowest total 8 (selectMask total) :=
  Lowest.foldl (n := 1) (best := 0) ⟨Nat.one_pos, by simp, by simp⟩ 7

/-- TOTAL of the candidate of mask `m` (R287). -/
def State.maskTotal (s : State) (m : Nat) : Nat :=
  let v := s.matMeta.mver.toNat
  totalPenalty (side v) (gridOf (side v) (candidateColour s v m))

section
variable {s : State} (hw : List.Pairwise (fun a b => a.1 < b.1) s.wmat) (h40 : s.matMeta.mver.toNat ≤ 40)
include hw h40

theorem getD_maskTotals {m : Nat} (hm : m < 8) : s.maskTotals.getD m 0 = s.maskTotal m := by
  rw [State.maskTotals, List.getD_eq_getElem?_getD, List.getElem?_map, List.getElem?_range hm, Option.map_some,
    Option.getD_some, candidate_eq_gridOf hw h40, State.maskTotal]

theorem lowest_bestMask : Lowest s.maskTotal 8 s.bestMask := by
  rw [State.bestMask]
  exact (lowest_selectMask _).congr fun m hm => getD_maskTotals hw h40 hm

theorem toNat_masked_maskPen {m : Nat} (hm : m < 8) : s.masked.maskPen[m].toNat = s.maskTotal m := by
  have fits : s.maskTotal m < 2 ^ 32 := totalPenalty_gridOf_lt (side_le h40) _
  rw [State.masked, Vector.getElem_ofFn, getD_maskTotals hw h40 hm, BitVec.toNat_ofNat, Nat.mod_eq_of_lt fits]

end

/-- MASK_SELECT writes WMAT, the totals, MMASK and MMASKED, and RESULT (R291). -/
theorem complete_masked_frame (s : State) : { s.masked.complete with wmat := s.wmat, maskPen := s.maskPen } =
    { s with
      matMeta := { s.matMeta with mmask := BitVec.ofNat 3 s.bestMask, mmasked := true }
      result := BitVec.ofNat 32 s.bestMask }.complete := by
  rw [State.masked]
  rfl

/-! ### The cells MASK_SELECT leaves (R281, R291) -/

theorem readCell_masked {s : State} (hw : List.Pairwise (fun a b => a.1 < b.1) s.wmat)
    (h40 : s.matMeta.mver.toNat ≤ 40) (r c : Nat) :
    let n := side s.matMeta.mver.toNat
    let cell := s.readCell .wmat r c
    s.masked.readCell .wmat r c =
      if r < n ∧ c < n ∧ cell.f = false then { cell with v := cell.v != maskBit s.bestMask r c } else cell := by
  intro n cell
  by_cases h : r < 177 ∧ c < 177
  · have cells : s.masked.wmat = (s.applyMask s.bestMask n).wmat := rfl
    have resets : s.masked.resets = s.resets := by rw [State.masked, State.applyMask, State.mapCells_resets]
    rw [readCell_wmat_congr cells resets, State.applyMask, State.readCell_mapCells _ s hw h.1 h.2]
    simp [n, cell]
  · have outside : ¬ (r < n ∧ c < n ∧ cell.f = false) := by
      have hn : n ≤ 177 := side_le h40
      omega
    rw [readCell_outside _ _ h, if_neg outside]
    exact (readCell_outside _ _ h).symm

end Sys2Proof.Machine
end

section
/-! PROOFS. The statements of 45_mask.md. -/
open Sys2Proof Sys2Proof.Machine

/-- Settles O34: each rule line by line (`linePenalty_lineOf`, `countFinderLike_lineOf`), the blocks by pairs of rows
(`countBlocks_map_range`). -/
theorem penaltyRules : Obligations.PenaltyRules := fun n G _ =>
  ⟨penalty1_gridOf n G, penalty2_gridOf n G, penalty3_gridOf n G, penalty4_gridOf n G, rfl⟩

/-- Settles O35: the registers hold the penalties of the candidate grid (`candidate_eq_gridOf`), each of which fits
(`toNat_penOf`). -/
theorem maskScoreCommand : Obligations.MaskScoreCommand := by
  refine ⟨encoded_of_row (row := ⟨0x60, 0xFFF1FFFF, fun w => .maskScore (fieldMask w)⟩) rfl rfl rfl,
    fun s m inv => ?_⟩
  intro v n g
  have h40 : v ≤ 40 := inv.metadata.matrix.1
  have hv : s.matMeta.mver = 0 ↔ v = 0 := BitVec.toNat_inj.symm
  rcases ruleMaskScore_cases m s with ⟨matrix, hr⟩ | ⟨none, hr⟩
  · rw [candidate_eq_gridOf (inv.memories.matrix .wmat).1 h40] at hr
    exact ⟨fun h0 => absurd (hv.2 h0) matrix, fun _ => ⟨_, finish_ok hr, toNat_penOf (side_le h40) _⟩⟩
  · exact ⟨fun _ => finish_error hr, fun hne => absurd (hv.1 none) hne⟩

/-- Settles O36: the predicates by definition; the mask by the updates of the selection (`lowest_selectMask`), and the
cells by what the mask does to each (`readCell_masked`). -/
theorem maskSelectCommand : Obligations.MaskSelectCommand := by
  refine ⟨encoded_of_row (row := ⟨0x61, 0xFFFFFFFF, fun _ => .maskSelect⟩) rfl rfl rfl,
    fun i j => by simp [maskBit], fun s inv => ?_⟩
  intro v n total
  have h40 : v ≤ 40 := inv.metadata.matrix.1
  have hw := (inv.memories.matrix .wmat).1
  have hv : s.matMeta.mver = 0 ↔ v = 0 := BitVec.toNat_inj.symm
  rcases ruleMaskSelect_cases s with ⟨matrix, unmasked, hr⟩ | ⟨none, hr⟩ | ⟨matrix, masked, hr⟩
  · refine ⟨fun h0 => absurd (hv.2 h0) matrix, fun _ masked => absurd (masked.symm.trans unmasked) nofun,
      fun _ _ => ?_⟩
    obtain ⟨hbest, least, first⟩ := lowest_bestMask hw h40
    have frame : Frame [.matrix, .maskPen, .result] s s.masked := rfl
    have bytes : SameBytes s s.masked := frame.readByte (by simp) (by simp) (by simp)
    have cmat : SameCells .cmat s s.masked :=
      sameCells_cmat (Prod.mk.inj (frame.same (x := .out) (by simp))).2 frame.resets
    have cells := readCell_masked hw h40
    exact ⟨s.masked.complete, s.bestMask, Nat.le_of_lt_succ hbest, finish_ok hr,
      fun m hm => least m (Nat.lt_succ_of_le hm), first, complete_masked_frame s,
      fun m hm => toNat_masked_maskPen hw h40 hm, bytes, cmat, cells⟩
  · exact ⟨fun _ => finish_error hr, fun hne => absurd (hv.1 none) hne, fun hne => absurd (hv.1 none) hne⟩
  · exact ⟨fun h0 => absurd (hv.2 h0) matrix, fun _ _ => finish_error hr,
      fun _ unmasked => absurd (masked.symm.trans unmasked) nofun⟩

end

section
/-! PROOFS. The version words and the version blocks: where each version bit stands, and what FMT_INSERT leaves in each
cell (46_fmtver.md R314 to R318, 44_matrix.md R247). -/
namespace Sys2Proof.Machine

/-! ### Words (R314) -/

/-- The parity stays below bit 12, so the version stands in bits 17 to 12 (R314, R315). -/
theorem versionWord_version (ver : BitVec 6) : (versionWord ver).extractLsb' 12 6 = ver := by
  have parityMask : ∀ i < 6, (0xFFF#18).getLsbD (12 + i) = false := by decide
  refine BitVec.eq_of_getLsbD_eq fun i hi => ?_
  simp only [versionWord, BitVec.getLsbD_extractLsb', BitVec.getLsbD_or, BitVec.getLsbD_and, parityMask i hi,
    BitVec.getLsbD_append]
  simp [hi]

/-! ### Coordinates of the version blocks (44_matrix.md R247) -/

/-- Where version bit `i` stands: no two bits share a cell. -/
theorem versionCell_coords {v i r c : Nat} (hi : i < 18) (h : vp1 v i = (r, c) ∨ vp2 v i = (r, c)) :
    (r ≤ 5 ∧ side v ≤ c + 11 ∧ c + 9 ≤ side v ∧ i + side v = 3 * r + c + 11) ∨
      (c ≤ 5 ∧ side v ≤ r + 11 ∧ r + 9 ≤ side v ∧ i + side v = 3 * c + r + 11) := by
  have hs : side v = 4 * v + 17 := rfl
  simp only [vp1, vp2, Prod.mk.injEq] at h
  omega

/-! ### The cells FMT_INSERT leaves (R318) -/

section
variable {s : State} (hw : List.Pairwise (fun a b => a.1 < b.1) s.wmat) (l : EcLevel) (mask : BitVec 3) {r c : Nat}
include hw

/-- A cell of version bit `i` holds that bit of the version word. -/
theorem readCell_inserted_version (h7 : 7 ≤ s.matMeta.mver.toNat) (h40 : s.matMeta.mver.toNat ≤ 40) {i : Nat}
    (hi : i < 18) (h : vp1 s.matMeta.mver.toNat i = (r, c) ∨ vp2 s.matMeta.mver.toNat i = (r, c)) :
    (s.inserted l mask).readCell .wmat r c = stripModule ((versionWord s.matMeta.mver).getLsbD i) := by
  have strip : (r, c) ∈ stripCells s.matMeta.mver.toNat := List.contains_iff_mem.1 <| (mem_stripCells ..).2 <|
    .inr (.inr ⟨h7, h.imp (⟨i, hi, ·⟩) (⟨i, hi, ·⟩)⟩)
  have place := versionCell_coords hi h
  have hs : side s.matMeta.mver.toNat = 4 * s.matMeta.mver.toNat + 17 := rfl
  rcases mem_stripWrites.1 (readCell_inserted_written hw (by omega) h40 l mask strip) with
    ⟨j, hj, hcell, -⟩ | ⟨-, j, hj, hcell, value⟩
  · have place' := formatCell_coords hj hcell
    omega
  · have place' := versionCell_coords hj hcell
    rw [value, show j = i by omega]

/-- Every cell of neither strip stays. -/
theorem readCell_inserted_of_not_strip (format : ∀ i < 15, (r, c) ≠ fp1 i ∧ (r, c) ≠ fp2 s.matMeta.mver.toNat i)
    (version : 7 ≤ s.matMeta.mver.toNat →
      ∀ i < 18, (r, c) ≠ vp1 s.matMeta.mver.toNat i ∧ (r, c) ≠ vp2 s.matMeta.mver.toNat i) :
    (s.inserted l mask).readCell .wmat r c = s.readCell .wmat r c := by
  refine (readCell_inserted_cases hw l mask r c).resolve_right fun ⟨strip, _⟩ => ?_
  rcases (mem_stripCells ..).1 (List.contains_iff_mem.2 strip) with
    ⟨i, hi, h⟩ | ⟨i, hi, h⟩ | ⟨h7, ⟨i, hi, h⟩ | ⟨i, hi, h⟩⟩
  · exact (format i hi).1 h.symm
  · exact (format i hi).2 h.symm
  · exact (version h7 i hi).1 h.symm
  · exact (version h7 i hi).2 h.symm

end

end Sys2Proof.Machine
end

section
/-! PROOFS. The statements of 46_fmtver.md. -/
open Sys2Proof Sys2Proof.Machine

/-- Settles O37: by the cases of the rule (`ruleFmtCalc_cases`); the 32 words by evaluation. -/
theorem fmtCalcCommand : Obligations.FmtCalcCommand := by
  refine ⟨encoded_of_row (row := ⟨0x70, 0xFFF1F8FF, fun w => .fmtCalc (fieldEc w) (fieldMask w)⟩) rfl rfl rfl,
    fun s ec m bad => ?_, fun s l m => ⟨?_, formatWord_data l m⟩, by decide⟩
  · rcases ruleFmtCalc_cases ec m s with ⟨l, hl, -⟩ | ⟨-, hr⟩
    · exact absurd bad (Nat.not_lt.2 (toNat_le_of_operandEc hl))
    · exact finish_error hr
  · exact finish_ok (rule := ruleFmtCalc _ m) (by rw [ruleFmtCalc, operandEc_selector]; rfl)

/-- Settles O38: by the cases of the rule (`ruleVerCalc_cases`); the version is read above the parity
(`versionWord_version`), and the 34 words by evaluation. -/
theorem verCalcCommand : Obligations.VerCalcCommand := by
  refine ⟨encoded_of_row (row := ⟨0x71, 0xFFFE07FF, fun w => .verCalc (fieldVer w)⟩) rfl rfl rfl,
    fun s ver => ?_, by decide⟩
  rcases ruleVerCalc_cases ver s with ⟨h7, h40, hr⟩ | ⟨bad, hr⟩
  · exact ⟨fun _ => by omega, fun _ _ => ⟨finish_ok hr, versionWord_version ver⟩⟩
  · exact ⟨fun _ => finish_error hr, fun _ _ => by omega⟩

/-- Settles O39: the errors by the cases of the rule (`ruleFmtInsert_cases`); a strip cell holds the bit of its word
(`readCell_inserted_format`, `readCell_inserted_version`), and every other cell stays. -/
theorem fmtInsertCommand : Obligations.FmtInsertCommand := by
  refine ⟨encoded_of_row (row := ⟨0x72, 0xFFF1F8FF, fun w => .fmtInsert (fieldEc w) (fieldMask w)⟩) rfl rfl rfl,
    by decide, fun v _ => ⟨fun _ hi => if_pos hi, fun _ h8 _ => if_neg (Nat.not_le.2 h8), fun _ _ => ⟨rfl, rfl⟩⟩,
    fun s ec m bad => ?_, fun s l m inv => ?_⟩
  · rcases ruleFmtInsert_cases ec m s with ⟨l, hl, -⟩ | ⟨-, hr⟩ | ⟨good, -⟩
    · exact absurd bad (Nat.not_lt.2 (toNat_le_of_operandEc hl))
    · exact finish_error hr
    · exact absurd bad (Nat.not_lt.2 good)
  · intro v f g
    have h40 : v ≤ 40 := inv.metadata.matrix.1
    have hw := (inv.memories.matrix .wmat).1
    have hv : s.matMeta.mver = 0 ↔ v = 0 := BitVec.toNat_inj.symm
    refine ⟨fun h0 => ?_, fun hne => ?_⟩
    · exact finish_error (rule := ruleFmtInsert l.selector m)
        (by rw [ruleFmtInsert, operandEc_selector, operandMatrix, if_pos (hv.2 h0)]; rfl)
    · have frame : Frame [.matrix] s (s.inserted l m) := rfl
      have h1 : 1 ≤ v := Nat.one_le_iff_ne_zero.2 hne
      exact ⟨(s.inserted l m).complete, finish_ok (ruleFmtInsert_ok (mt hv.1 hne) l m), rfl, frame.sameBytes,
        frame.sameCells_cmat,
        fun i hi => ⟨readCell_inserted_format hw h1 h40 l m hi (.inl rfl),
          readCell_inserted_format hw h1 h40 l m hi (.inr rfl)⟩,
        fun h7 i hi => ⟨readCell_inserted_version hw l m h7 h40 hi (.inl rfl),
          readCell_inserted_version hw l m h7 h40 hi (.inr rfl)⟩,
        fun r c => readCell_inserted_of_not_strip hw l m⟩

end

section
/-! PROOFS. The stages of BUILD as commands of their own: each starts from the completed state of the one before, and
completes the same state (47_build.md R332, R407). -/
namespace Sys2Proof.Machine

/-! ### What BUILD answers (R223, R331, R333) -/

theorem selector_of_operandEc {ec : BitVec 3} {l : EcLevel} (h : operandEc ec = .ok l) : ec = l.selector := by
  have inj : ∀ ec, operandEc ec = .ok l → ec = l.selector := by cases l <;> decide
  exact inj ec h

/-- What stage 1 of BUILD selects, the version and the level of the symbol, or the error that it raises. -/
def State.selection (ver : BitVec 6) (ec : BitVec 3) (s : State) : Except CmdError (Nat × EcLevel) := do
  let ver' ← operandVersionOrAuto ver
  let l ← operandEc ec
  let v ← s.selectVersion ver' l
  .ok (v, l)

/-- The selection reads the segment table alone. -/
theorem selection_congr {s t : State} (h : t.segtab = s.segtab) (ver : BitVec 6) (ec : BitVec 3) :
    t.selection ver ec = s.selection ver ec := by
  have fits : t.fits = s.fits := by
    funext l v
    rw [State.fits, State.streamBits, h, State.fits, State.streamBits]
  simp only [State.selection, State.selectVersion, fits, State.streamBits, h]

section
variable {s : State} {ver : BitVec 6} {ec : BitVec 3}

theorem ruleBitstream_eq_selection :
    ruleBitstream ver ec s = (s.selection ver ec).map fun x => s.streamed x.1 x.2 ec := by
  simp only [ruleBitstream, State.selection]
  cases operandVersionOrAuto ver with
  | error e => rfl
  | ok ver' =>
    cases operandEc ec with
    | error e => rfl
    | ok l =>
      simp only [bind, Except.bind]
      cases s.selectVersion ver' l <;> rfl

theorem ruleBitstream_of_selected {v : Nat} {l : EcLevel} (h : s.selection ver ec = .ok (v, l)) :
    ruleBitstream ver ec s = .ok (s.streamed v l ec) := by
  rw [ruleBitstream_eq_selection, h]
  rfl

theorem ruleBitstream_of_unselected {e : CmdError} (h : s.selection ver ec = .error e) :
    ruleBitstream ver ec s = .error e := by
  rw [ruleBitstream_eq_selection, h]
  rfl

/-- A selected version is one of the 40, and the operands that give it are legal. -/
theorem selection_ok {v : Nat} {l : EcLevel} (h : s.selection ver ec = .ok (v, l)) :
    1 ≤ v ∧ v ≤ 40 ∧ ver.toNat ≤ 40 ∧ ec = l.selector := by
  rw [State.selection] at h
  rcases versionFrom_cases 0 ver with ⟨-, hver, hv⟩ | ⟨-, hv⟩ <;> rw [operandVersionOrAuto, hv] at h
  · rcases operandEc_cases ec with ⟨l', -, hl⟩ | ⟨-, hl⟩ <;> rw [hl] at h
    · rcases selectVersion_cases s ver.toNat l' hver with ⟨w, low, high, -, -, hw⟩ | ⟨-, -, hw⟩ | ⟨-, -, hw⟩ <;>
        simp only [bind, Except.bind, hw] at h <;> cases h
      exact ⟨low, high, hver, selector_of_operandEc hl⟩
    · cases h
  · cases h

/-- With a selected version BUILD completes: it is its stages and the commit. -/
theorem exec_build_ok (inv : Inv s) {v : Nat} {l : EcLevel} (h : s.selection ver ec = .ok (v, l)) :
    exec (.build ver ec) s = .next ((s.built v l).commit ec).complete := by
  obtain ⟨h1, h40, hver, rfl⟩ := selection_ok h
  have built := execBuild_ok hver (l := l) (s := s) (t := s.built v l)
  rw [BitVec.ofNat_toNat, BitVec.setWidth_eq] at built
  exact built (runStages_build_ok inv h1 h40 (ruleBitstream_of_selected h))

/-- Without one BUILD ends with the error of the selection and has no other effect. -/
theorem exec_build_error {e : CmdError} (h : s.selection ver ec = .error e) :
    exec (.build ver ec) s = .next (s.raiseError e) := by
  have stage1 := ruleBitstream_of_unselected h
  rw [State.selection] at h
  show execBuild ver ec s = _
  rw [execBuild, buildStages, runStages_cons_error stage1]
  cases hv : operandVersionOrAuto ver with
  | error e' => rw [hv] at h; cases h; rfl
  | ok ver' =>
    cases hl : operandEc ec with
    | error e' => rw [hv, hl] at h; cases h; rfl
    | ok l => rfl

end

/-! ### The stages as commands, each from the completed state of the one before (R332, R407)

No stage reads the lifecycle flags: what it leaves on a completed state is, by its definition, the completion of what it
leaves on the state itself. -/

theorem built_mmask (s : State) (v : Nat) (l : EcLevel) :
    (s.built v l).matMeta.mmask = ((s.coded v l).filled v).masked.matMeta.mmask := by
  rw [State.built, finished_matMeta, masked_matMeta]

section
variable {v : Nat} (h1 : 1 ≤ v) (h40 : v ≤ 40) (s : State) (l : EcLevel)
include h1 h40

theorem exec_eccInterleave_streamed : exec (.eccInterleave (BitVec.ofNat 6 v) l.selector)
    (s.streamed v l l.selector).complete = .next (s.coded v l).complete :=
  exec_eccInterleave_ok h1 h40 _ l

theorem exec_matrixInit_complete :
    exec (.matrixInit (BitVec.ofNat 6 v)) s.complete = .next (s.templated v).complete :=
  (finish_ok (ruleMatrixInit_ok h1 h40 s.complete) :)

theorem exec_place_templated (hw : List.Pairwise (fun a b => a.1 < b.1) s.wmat) :
    exec .place (s.templated v).complete = .next (s.filled v).complete :=
  (finish_ok (rulePlace_templated h1 h40 s.complete hw) :)

theorem exec_maskSelect_filled : exec .maskSelect (s.filled v).complete = .next (s.filled v).masked.complete := by
  have matrix := filled_matMeta s v
  exact (finish_ok (ruleMaskSelect_ok (s := (s.filled v).complete)
    (by rw [State.complete_matMeta, matrix]; exact ofNat_version_ne_zero h1 h40)
    (by rw [State.complete_matMeta, matrix])) :)

theorem exec_fmtInsert_masked :
    exec (.fmtInsert l.selector ((s.coded v l).filled v).masked.matMeta.mmask)
      ((s.coded v l).filled v).masked.complete = .next (s.built v l).complete := by
  have matrix : ((s.coded v l).filled v).masked.complete.matMeta.mver ≠ 0 := by
    rw [State.complete_matMeta, masked_matMeta, filled_matMeta]
    exact ofNat_version_ne_zero h1 h40
  rw [State.built]
  exact (finish_ok (ruleFmtInsert_ok matrix l _) :)

end

/-- The commit writes OUTMETA, RESULT and CMAT (R334). -/
theorem complete_commit (s : State) (ec : BitVec 3) : { (s.commit ec).complete with cmat := s.complete.cmat } =
    { s.complete with
      outMeta := ⟨s.streamMeta.sver, ec, s.matMeta.mmask, BitVec.ofNat 8 (4 * s.streamMeta.sver.toNat + 17), true⟩
      result := s.streamMeta.sver.setWidth 32 } := rfl

section
variable (s : State) (v : Nat) (l : EcLevel)

/-- A BUILD that ends with its commit raises no error. -/
theorem commit_built_err : ((s.built v l).commit l.selector).complete.status.err = s.status.err :=
  (congrArg Status.err (frame_built s v l).status :)

theorem readCell_commit_built (r c : Nat) :
    ((s.built v l).commit l.selector).complete.readCell .cmat r c = (s.built v l).complete.readCell .wmat r c :=
  (s.built v l).readCell_commitCells (wf_built s v l).1 r c

end

end Sys2Proof.Machine
end

section
/-! PROOFS. BUILD on two states with the same segments: each stage leaves the same data codewords, final stream and
symbol (47_build.md R336, R408). -/
namespace Sys2Proof.Machine
open Sys2Proof.Config (ByteMem MatMem)

/-! ### The segments' stream and the codewords (43_bitstream.md R220, 42_reed_solomon.md R187) -/

theorem segmentStream_congr {s t : State} (hs : Inv s) (ht : Inv t) (tab : t.segtab = s.segtab)
    (data : ∀ e ∈ s.segtab, ∀ k < e.nbytes.toNat,
      t.readByte .segdata (e.off.toNat + k) = s.readByte .segdata (e.off.toNat + k)) (v : Nat) :
    t.segmentStream v = s.segmentStream v := by
  rw [State.segmentStream, tab]
  refine List.flatMap_congr fun e he => congrArg (encodeSegment v e) ?_
  rw [State.segmentBytes, readBytes_eq_map_range ht, State.segmentBytes, readBytes_eq_map_range hs]
  exact List.map_congr_left fun k hk => data e he k (List.mem_range.1 hk)

/-- A range read right after it was written. -/
theorem readBytes_writeBytes (s : State) {b : ByteMem} (hw : Memory.wf b.size (s.bytes b)) {xs : List Byte} {n : Nat}
    (hn : xs.length = n) (fits : n ≤ b.size) : (s.writeBytes b 0 xs).readBytes b 0 n = xs := by
  subst hn
  rw [State.readBytes_eq_map _ _ _ _ (s.wf_writeBytes b 0 xs hw (by omega)).1, ← List.range_eq_range']
  refine List.ext_getElem (by simp) fun k _ hk => ?_
  rw [List.getElem_map, List.getElem_range]
  exact readByte_writeBytes_of_getElem? s b (List.getElem?_eq_getElem hk)

section
variable {s : State} (inv : Inv s) {v : Nat} (h40 : v ≤ 40) (l : EcLevel)
include inv h40

/-- The codewords that ECC_INTERLEAVE reads and the stream that PLACE reads are functions of the segments' stream. -/
theorem readBytes_streamed : (s.streamed v l l.selector).readBytes .cwbuf 0 (dataCodewords v l) =
    codewordsOf v l (s.segmentStream v) :=
  readBytes_writeBytes s (inv.memories.bytes .cwbuf) (length_codewordsOf ..) (capacity_bounds h40 l).1

theorem readBytes_coded (h1 : 1 ≤ v) : (s.coded v l).readBytes .final 0 (totalCodewords v) =
    finalStream v l (codewordsOf v l (s.segmentStream v)) := by
  have inv1 := inv_streamed inv h1 h40 l
  have length := length_cwbufStream inv1 h1 h40 l
  have fits := length_finalStream_le h40 l ((s.streamed v l l.selector).readBytes .cwbuf 0 (dataCodewords v l))
  rw [State.coded, readBytes_writeBytes _ (inv1.memories.bytes .final) length (length ▸ fits), cwbufStream,
    readBytes_streamed inv h40]

end

/-! ### The symbol under construction (44_matrix.md R251, R256, 45_mask.md R291, 46_fmtver.md R318) -/

/-- Two states hold the same symbol: MATMETA and every WMAT cell agree, each WMAT being in canonical form. -/
structure SameSymbol (s t : State) : Prop where
  matMeta : t.matMeta = s.matMeta
  cells : SameCells .wmat s t
  sortedLeft : List.Pairwise (fun a b => a.1 < b.1) s.wmat
  sortedRight : List.Pairwise (fun a b => a.1 < b.1) t.wmat

section
variable {s t : State}

theorem sameSymbol_templated (hs : List.Pairwise (fun a b => a.1 < b.1) s.wmat)
    (ht : List.Pairwise (fun a b => a.1 < b.1) t.wmat) {v : Nat} (h40 : v ≤ 40) :
    SameSymbol (s.templated v) (t.templated v) :=
  ⟨rfl, fun r c => (readCell_templated ht h40 r c).trans (readCell_templated hs h40 r c).symm,
    (s.wf_templated v).1, (t.wf_templated v).1⟩

namespace SameSymbol
variable (h : SameSymbol s t)
include h

theorem symbolRows {n : Nat} (hn : n ≤ 177) : t.symbolRows n = s.symbolRows n := by
  have cells : t.readCell .wmat = s.readCell .wmat := funext fun r => funext (h.cells r)
  rw [symbolRows_eq_map h.sortedRight hn, symbolRows_eq_map h.sortedLeft hn, cells]

theorem writeCells (writes : List ((Nat × Nat) × Module)) :
    SameCells .wmat (s.writeCells writes) (t.writeCells writes) := fun r c => by
  by_cases inside : r < 177 ∧ c < 177
  · obtain ⟨hr, hc⟩ := inside
    rw [State.readCell_writeCells writes t h.sortedRight hr hc, State.readCell_writeCells writes s h.sortedLeft hr hc,
      h.cells]
  · rw [readCell_outside _ _ inside, readCell_outside _ _ inside]

theorem placed {v : Nat} (bits : t.placedBits v = s.placedBits v) (dc : List (Nat × Nat)) :
    SameSymbol (s.placed v dc) (t.placed v dc) := by
  have cell : ∀ u : State, (u.placed v dc).readCell .wmat =
      (u.writeCells (dc.zip ((u.placedBits v).map fun b => ⟨b, false, false⟩))).readCell .wmat := fun _ => rfl
  refine ⟨?_, fun r c => ?_, (s.wf_placed v dc).1, (t.wf_placed v dc).1⟩
  · rw [State.placed, State.placed, h.matMeta]
  · rw [cell, cell, bits, h.writeCells]

theorem inserted (l : EcLevel) (mask : BitVec 3) : SameSymbol (s.inserted l mask) (t.inserted l mask) := by
  have cell : ∀ u : State, (u.inserted l mask).readCell .wmat = (u.writeCells
      (stripWrites u.matMeta.mver.toNat (formatWord l mask) (versionWord u.matMeta.mver))).readCell .wmat :=
    fun _ => rfl
  refine ⟨?_, fun r c => ?_, (s.wf_inserted l mask).1, (t.wf_inserted l mask).1⟩
  · rw [State.inserted, State.inserted, h.matMeta]
  · rw [cell, cell, h.matMeta, h.writeCells]

variable (h40 : s.matMeta.mver.toNat ≤ 40)
include h40

theorem maskTotals : t.maskTotals = s.maskTotals := by
  simp only [State.maskTotals, State.candidate, h.matMeta, h.symbolRows (side_le h40)]

theorem bestMask : t.bestMask = s.bestMask := by
  rw [State.bestMask, h.maskTotals h40, State.bestMask]

theorem masked_maskPen : t.masked.maskPen = s.masked.maskPen := by
  rw [State.masked, State.masked, h.maskTotals h40]

theorem masked : SameSymbol s.masked t.masked := by
  refine ⟨?_, fun r c => ?_, s.wf_masked.1, t.wf_masked.1⟩
  · rw [masked_matMeta, masked_matMeta, h.matMeta, h.bestMask h40]
  · rw [readCell_masked h.sortedRight (h.matMeta ▸ h40), readCell_masked h.sortedLeft h40, h.matMeta,
      h.bestMask h40, h.cells]

theorem finished (l : EcLevel) : SameSymbol (s.finished l) (t.finished l) := by
  have same := h.masked h40
  rw [State.finished, State.finished, same.matMeta]
  exact same.inserted l _

theorem finished_maskPen (l : EcLevel) : (t.finished l).maskPen = (s.finished l).maskPen := by
  have kept : ∀ u : State, (u.finished l).maskPen = u.masked.maskPen := fun u => by
    rw [State.finished, State.inserted]
    rfl
  rw [kept, kept, h.masked_maskPen h40]

end SameSymbol

theorem sameSymbol_filled (hs : List.Pairwise (fun a b => a.1 < b.1) s.wmat)
    (ht : List.Pairwise (fun a b => a.1 < b.1) t.wmat) {v : Nat} (h40 : v ≤ 40)
    (bits : t.placedBits v = s.placedBits v) : SameSymbol (s.filled v) (t.filled v) := by
  have template := sameSymbol_templated hs ht h40
  rw [State.filled, State.filled, template.symbolRows (side_le h40)]
  exact template.placed bits _

/-- The stages leave the same symbol and the same penalties on two states with the same stream of segments. -/
theorem sameSymbol_built (hs : Inv s) (ht : Inv t) {v : Nat} (h1 : 1 ≤ v) (h40 : v ≤ 40)
    (stream : t.segmentStream v = s.segmentStream v) (l : EcLevel) :
    SameSymbol (s.built v l) (t.built v l) ∧ (t.built v l).maskPen = (s.built v l).maskPen := by
  have bits : (t.coded v l).placedBits v = (s.coded v l).placedBits v := by
    rw [State.placedBits, readBytes_coded ht h40 l h1, stream, State.placedBits, readBytes_coded hs h40 l h1]
  have filled := sameSymbol_filled (pairwise_coded_wmat hs v l) (pairwise_coded_wmat ht v l) h40 bits
  have version := (toNat_filled_mver h40 (s.coded v l)).trans_le h40
  rw [State.built, State.built]
  exact ⟨filled.finished version l, filled.finished_maskPen version l⟩

end

end Sys2Proof.Machine
end

section
/-! SUPPORT. A witness of the statement of 47_build.md R336 and R408. -/
namespace Sys2Proof.Tests
open Sys2Proof.Machine

/-- The digits of `sample` in a core after another reset, where every other content is a free value of that reset. -/
def sampleRedrawn : State := withDigits (ascii "12345") { State.reset with resets := 1 }

/-- Two states that hold the same segments and differ in MATMETA and in the draws of their memories, and a BUILD
that ends with DONE on both. -/
theorem witness_BuildDependsOnSegmentsOnly : Inv sample ∧ Inv sampleRedrawn ∧ sample.status.err = false ∧
    sampleRedrawn.status.err = false ∧ sample.segtab = sampleRedrawn.segtab ∧
    (∀ e ∈ sample.segtab, ∀ k < e.nbytes.toNat, sample.readByte .segdata (e.off.toNat + k) =
      sampleRedrawn.readByte .segdata (e.off.toNat + k)) ∧
    sample.resets ≠ sampleRedrawn.resets ∧ sample.matMeta ≠ sampleRedrawn.matMeta ∧
    ∃ t t', exec (.build 1 1) sample = .next t ∧ exec (.build 1 1) sampleRedrawn = .next t' ∧
      t.status.err = false ∧ t'.status.err = false := by
  have inv : Inv sampleRedrawn := inv_of_checks (by decide +kernel)
  have selected : ∀ s ∈ [sample, sampleRedrawn], s.selection 1 1 = .ok (1, .M) := by decide +kernel
  exact ⟨inv_sample, inv, rfl, rfl, rfl, by decide +kernel, by decide, by decide, _, _,
    exec_build_ok inv_sample (selected _ (by simp)), exec_build_ok inv (selected _ (by simp)),
    commit_built_err sample 1 .M, commit_built_err sampleRedrawn 1 .M⟩

end Sys2Proof.Tests
end

section
/-! PROOFS. The statements of 47_build.md R330, R336 and R407. -/
open Sys2Proof Sys2Proof.Machine

/-- Settles O41: each stage, run as a command, starts from the completed state of the stage before and completes what
the stages of BUILD have left by then, up to `State.built`; the commit writes the rest (`complete_commit`). -/
theorem buildEqualsItsStages : Obligations.BuildEqualsItsStages := by
  intro s s1 s2 s3 s4 s5 s6 ver ec inv noErr stage1 ok stage2 stage3 stage4 stage5 stage6
  cases hsel : s.selection ver ec with
  | error e =>
    cases (finish_error (ruleBitstream_of_unselected hsel)).symm.trans stage1
    cases ok
  | ok x =>
    obtain ⟨v, l⟩ := x
    obtain ⟨h1, h40, -, rfl⟩ := selection_ok hsel
    cases (finish_ok (ruleBitstream_of_selected hsel)).symm.trans stage1
    cases (exec_eccInterleave_streamed h1 h40 s l).symm.trans stage2
    cases (exec_matrixInit_complete h1 h40 (s.coded v l)).symm.trans stage3
    cases (exec_place_templated h1 h40 (s.coded v l) (pairwise_coded_wmat inv v l)).symm.trans stage4
    cases (exec_maskSelect_filled h1 h40 (s.coded v l)).symm.trans stage5
    cases (exec_fmtInsert_masked h1 h40 s l).symm.trans stage6
    refine ⟨_, exec_build_ok inv hsel, (commit_built_err s v l).trans noErr, ?_, readCell_commit_built s v l⟩
    rw [complete_commit, (built_stream s v l).2, built_mmask]
    rfl

/-- Settles O43: the selection reads the segment table alone (`selection_congr`), and the stages leave the same symbol
and penalties on two states whose segments give the same stream (`sameSymbol_built`). -/
theorem buildDependsOnSegmentsOnly : Obligations.BuildDependsOnSegmentsOnly := by
  intro s s' t t' ver ec inv inv' noErr noErr' tab data run run'
  have sel := selection_congr tab.symm ver ec
  cases hsel : s.selection ver ec with
  | error e =>
    cases (exec_build_error hsel).symm.trans run
    cases (exec_build_error (sel.trans hsel)).symm.trans run'
    exact ⟨rfl, fun _ => ⟨rfl, rfl⟩, nofun⟩
  | ok x =>
    obtain ⟨v, l⟩ := x
    obtain ⟨h1, h40, -, rfl⟩ := selection_ok hsel
    cases (exec_build_ok inv hsel).symm.trans run
    cases (exec_build_ok inv' (sel.trans hsel)).symm.trans run'
    have done := (commit_built_err s v l).trans noErr
    have done' := (commit_built_err s' v l).trans noErr'
    have stream := segmentStream_congr inv inv' tab.symm (fun e he k hk => (data e he k hk).symm) v
    obtain ⟨symbol, maskPen⟩ := sameSymbol_built inv inv' h1 h40 stream l
    have out : ((s.built v l).commit l.selector).outMeta = ((s'.built v l).commit l.selector).outMeta := by
      rw [commit_outMeta h40 (built_stream s v l).2, commit_outMeta h40 (built_stream s' v l).2, symbol.matMeta]
    have result : ((s.built v l).commit l.selector).result = ((s'.built v l).commit l.selector).result := by
      rw [commit_result h40 (built_stream s v l).2, commit_result h40 (built_stream s' v l).2]
    refine ⟨done.trans done'.symm, fun failed => ?_, fun _ => ⟨out, result, maskPen.symm, fun r c => ?_⟩⟩
    · rw [done] at failed; cases failed
    · rw [readCell_commit_built, readCell_commit_built]
      exact (symbol.cells r c).symm

/-- Settles O10: NOP is a row of the opcode map, and its rule answers the state it is given. -/
theorem nopCommand : Obligations.NopCommand :=
  ⟨encoded_of_row (row := ⟨0x00, 0xFFFFFFFF, fun _ => .nop⟩) rfl rfl rfl, fun _ => finish_ok rfl⟩

end

section
/-! PROOFS. How a command ends on every state, with no error state left half written (60_exceptions.md R352, R353): BUILD
raises the errors of its selection alone, whatever WMAT held before. -/
namespace Sys2Proof.Machine

/-! ### The stages of BUILD on every state (47_build.md R332, R333) -/

/-- A map that does not look at the cells leaves the same matrix whatever it held. -/
theorem mapCells_const (f : Nat → Nat → Module) (s : State) : s.mapCells (fun r c _ => f r c) = { s with
    wmat := Memory.number 0
      ((List.range' 0 Config.matCells).map fun k => f (k / Config.matDim) (k % Config.matDim)) } := by
  rw [State.mapCells, ← State.length_allCells s .wmat, ← List.zipIdx_map_snd, List.map_map]
  rfl

/-- MATRIX_INIT writes every cell: nothing of the old WMAT is seen. -/
theorem templated_erased (v : Nat) (s : State) : State.templated v { s with wmat := [] } = s.templated v := by
  simp only [State.templated, mapCells_const]

section
variable {s : State} {v : Nat} (h1 : 1 ≤ v) (h40 : v ≤ 40)
include h1 h40

/-- On a fresh template PLACE finds as many data cells as it expects, in every state (R250, R256). -/
theorem rulePlace_fresh : rulePlace (s.templated v) = .ok (s.filled v) := by
  have erased := rulePlace_templated h1 h40 { s with wmat := [] } .nil
  rw [State.filled, templated_erased] at erased
  exact erased

/-- When stage 1 selects a version, the later stages raise no error, in every state (R333). -/
theorem runStages_build_selected {ver : BitVec 6} {l : EcLevel}
    (stage1 : ruleBitstream ver l.selector s = .ok (s.streamed v l l.selector)) :
    runStages (buildStages ver l.selector) s = .ok (s.built v l) := by
  have matrix := ofNat_version_ne_zero h1 h40
  have placed := filled_matMeta (s.coded v l) v
  have masked : ((s.coded v l).filled v).masked.matMeta.mver ≠ 0 := by rwa [masked_matMeta, placed]
  have sver : (s.coded v l).streamMeta.sver = BitVec.ofNat 6 v := by rw [coded_streamMeta]
  rw [State.built]
  exact (runStages_cons_ok stage1).trans <|
    (runStages_cons_ok (ruleEccInterleave_ok h1 h40 (s.streamed v l l.selector) l)).trans <|
    (runStages_cons_ok (sver ▸ ruleMatrixInit_ok h1 h40 (s.coded v l))).trans <|
    (runStages_cons_ok (rulePlace_fresh h1 h40)).trans <|
    (runStages_cons_ok (ruleMaskSelect_ok (by rwa [placed]) (by rw [placed]))).trans <|
    runStages_cons_ok (ruleFmtInsert_ok masked l _)

end

/-! ### The end of a command (60_exceptions.md R352, R353) -/

section
variable {s : State} {ver : BitVec 6} {ec : BitVec 3}

/-- With a selected version BUILD completes, in every state. -/
theorem exec_build_selected {v : Nat} {l : EcLevel} (h : s.selection ver ec = .ok (v, l)) :
    exec (.build ver ec) s = .next ((s.built v l).commit ec).complete := by
  obtain ⟨h1, h40, hver, rfl⟩ := selection_ok h
  have stages := runStages_build_selected h1 h40 (ruleBitstream_of_selected h)
  have field : ver = BitVec.ofNat 6 ver.toNat := by simp
  rw [field] at stages ⊢
  exact execBuild_ok hver stages

end

/-- In every state a command completes a state that differs in the items it writes, or raises an error on the state it was
given; BUILD too. -/
theorem exec_ends (i : Instr) (s : State) :
    (∃ t, Frame (written i) s t ∧ exec i s = .next t.complete) ∨ ∃ e, exec i s = .next (s.raiseError e) := by
  by_cases hb : ∃ ver ec, i = .build ver ec
  · obtain ⟨ver, ec, rfl⟩ := hb
    cases hsel : s.selection ver ec with
    | error e => exact .inr ⟨e, exec_build_error hsel⟩
    | ok x =>
      exact .inl ⟨(s.built x.1 x.2).commit ec, (frame_built s x.1 x.2).trans (by simp [written]) rfl,
        exec_build_selected hsel⟩
  · rcases exec_effect i s fun ver ec hi => hb ⟨ver, ec, hi⟩ with ⟨t, ht, he⟩ | ⟨e, he⟩
    · exact .inl ⟨t, ht.frame, he⟩
    · exact .inr ⟨e, he⟩

/-- The error state with FATAL read off the code (R350, R352). -/
theorem raiseError_eq (e : CmdError) (s : State) : s.raiseError e = { s with
    pending := none
    status := { s.status with
      err := true, errcode := e.code.value, fatal := s.status.fatal || e.code.value == 0x08 }
    errinfo := e.info } := by
  obtain ⟨code, info⟩ := e
  cases code <;> rfl

/-! ### The errors of each command (60_exceptions.md R351, R355) -/

theorem ErrCode.value_injective {c d : ErrCode} (h : c.value = d.value) : c = d := by
  revert h
  cases c <;> cases d <;> decide

section
variable {s t : State} {e e' : CmdError} {o : Host.Outcome State Fault Refusal}

/-- The error state shows which error was raised. -/
theorem raised_unique (h : o = .next (s.raiseError e)) (h' : o = .next (s.raiseError e')) : e = e' := by
  have same := Host.Outcome.next.inj (h.symm.trans h')
  have code := ErrCode.value_injective (congrArg (fun t => t.status.errcode) same)
  have info := congrArg State.errinfo same
  cases e
  cases e'
  cases code
  cases info
  rfl

/-- A completion of a state without an error is no error state. -/
theorem not_raised_of_complete (h : o = .next t.complete) (noErr : t.status.err = false) :
    o ≠ .next (s.raiseError e) := fun h' =>
  Bool.false_ne_true (noErr.symm.trans (congrArg (fun t => t.status.err) (Host.Outcome.next.inj (h.symm.trans h'))))

/-- A command that ends in an error state has a rule that raised that error. -/
theorem rule_error_of_finish {rule : Rule} {i : Instr} (noErr : s.status.err = false)
    (h : finish rule s = .next (s.raiseError e)) (effect : ∀ {t}, rule s = .ok t → Effect s i t) :
    rule s = .error e := by
  rcases finish_cases rule s with ⟨t, hr, hf⟩ | ⟨e', hr, hf⟩
  · have err : t.status.err = false := (congrArg Status.err (effect hr).frame.status).trans noErr
    exact absurd h (not_raised_of_complete hf err)
  · rw [hr, raised_unique hf h]

/-- An error that ends BUILD was raised by the rule of its first stage (R333). -/
theorem ruleBitstream_error_of_build {ver : BitVec 6} {ec : BitVec 3} (noErr : s.status.err = false)
    (h : exec (.build ver ec) s = .next (s.raiseError e)) : ruleBitstream ver ec s = .error e := by
  cases hsel : s.selection ver ec with
  | error e' =>
    rw [ruleBitstream_of_unselected hsel, raised_unique (exec_build_error hsel) h]
  | ok x =>
    obtain ⟨v, l⟩ := x
    obtain ⟨-, -, -, rfl⟩ := selection_ok hsel
    exact absurd h (not_raised_of_complete (exec_build_selected hsel) ((commit_built_err s v l).trans noErr))

theorem ruleAppend_error {mode : BitVec 3} (h : ruleAppend mode s = .error e) :
    e ∈ [⟨.config, 4⟩, ⟨.range, 1⟩, ⟨.segFull, 1⟩, ⟨.segFull, 2⟩] ∨ e.code = .invalidChar := by
  rcases ruleAppend_cases mode s with ⟨hint, -, -, ⟨-, hr⟩ | ⟨-, hr⟩⟩ | ⟨-, hr⟩ | ⟨-, -, hr⟩ <;> rw [hr] at h
  · cases h
  · rcases appendChunk_cases hint (s.readBytes .ibuf s.arg0.toNat s.arg1.toNat) s with
      ⟨_, -, -, -, hc⟩ | ⟨_, -, hc⟩ | ⟨_, -, -, hc⟩ | ⟨_, -, -, -, hc⟩ <;> rw [hc] at h <;> cases h <;> simp
  · cases h; simp
  · cases h; simp

theorem ruleCapq_error {ver : BitVec 6} {ec : BitVec 3} (h : ruleCapq ver ec s = .error e) :
    e ∈ [⟨.config, 1⟩, ⟨.config, 2⟩] := by
  rcases ruleCapq_cases ver ec s with ⟨_, -, -, -, hr⟩ | ⟨-, hr⟩ | ⟨-, -, -, hr⟩ <;> rw [hr] at h <;> cases h <;> simp

theorem ruleGfLog_error {a : Byte} (h : ruleGfLog a s = .error e) : e = ⟨.gfDomain, 0⟩ := by
  rcases ruleGfLog_cases a s with ⟨-, hr⟩ | ⟨-, hr⟩ <;> rw [hr] at h <;> cases h
  rfl

theorem ruleGfGenpoly_error {n : BitVec 6} (h : ruleGfGenpoly n s = .error e) :
    e ∈ [⟨.config, 3⟩, ⟨.range, 2⟩] := by
  rcases ruleGfGenpoly_cases n s with ⟨-, -, -, hr⟩ | ⟨-, hr⟩ | ⟨-, -, -, hr⟩ <;> rw [hr] at h <;> cases h <;> simp

theorem ruleRsEnc_error {n : Byte} {c : BitVec 6} (h : ruleRsEnc n c s = .error e) :
    e ∈ [⟨.config, 3⟩, ⟨.range, 1⟩, ⟨.range, 2⟩] := by
  rcases ruleRsEnc_cases n c s with ⟨-, -, -, -, hr⟩ | ⟨-, hr⟩ | ⟨-, -, -, hr⟩ | ⟨-, -, -, -, hr⟩ <;>
    rw [hr] at h <;> cases h <;> simp

theorem ruleEccInterleave_error {ver : BitVec 6} {ec : BitVec 3} (h : ruleEccInterleave ver ec s = .error e) :
    e ∈ [⟨.config, 1⟩, ⟨.config, 2⟩] := by
  rcases ruleEccInterleave_cases ver ec s with ⟨_, -, -, -, hr⟩ | ⟨-, hr⟩ | ⟨-, -, -, hr⟩ <;>
    rw [hr] at h <;> cases h <;> simp

theorem selectVersion_error {ver : Nat} {l : EcLevel} (hver : ver ≤ 40) (h : s.selectVersion ver l = .error e) :
    e.code = .overflow := by
  rcases selectVersion_cases s ver l hver with ⟨_, -, -, -, -, hv⟩ | ⟨-, -, hv⟩ | ⟨-, -, hv⟩ <;>
    rw [hv] at h <;> cases h <;> rfl

theorem ruleBitstream_error {ver : BitVec 6} {ec : BitVec 3} (h : ruleBitstream ver ec s = .error e) :
    e ∈ [⟨.config, 1⟩, ⟨.config, 2⟩] ∨ e.code = .overflow := by
  rcases ruleBitstream_cases ver ec s with ⟨_, hver, -, ⟨_, -, hr⟩ | ⟨_, hv, hr⟩⟩ | ⟨-, hr⟩ | ⟨-, -, hr⟩ <;>
    rw [hr] at h <;> cases h
  · exact .inr (selectVersion_error hver hv)
  · simp
  · simp

theorem ruleMatrixInit_error {ver : BitVec 6} (h : ruleMatrixInit ver s = .error e) : e = ⟨.config, 1⟩ := by
  rcases ruleMatrixInit_cases ver s with ⟨-, -, hr⟩ | ⟨-, hr⟩ <;> rw [hr] at h <;> cases h
  rfl

theorem rulePlace_error (h : rulePlace s = .error e) : e = ⟨.state, 1⟩ ∨ e.code = .internal := by
  rcases rulePlace_cases s with ⟨-, -, hr⟩ | ⟨-, hr⟩ | ⟨-, -, hr⟩ <;> rw [hr] at h <;> cases h <;> simp

theorem ruleMaskScore_error {mask : BitVec 3} (h : ruleMaskScore mask s = .error e) : e = ⟨.state, 1⟩ := by
  rcases ruleMaskScore_cases mask s with ⟨-, hr⟩ | ⟨-, hr⟩ <;> rw [hr] at h <;> cases h
  rfl

theorem ruleMaskSelect_error (h : ruleMaskSelect s = .error e) : e ∈ [⟨.state, 1⟩, ⟨.state, 2⟩] := by
  rcases ruleMaskSelect_cases s with ⟨-, -, hr⟩ | ⟨-, hr⟩ | ⟨-, -, hr⟩ <;> rw [hr] at h <;> cases h <;> simp

theorem ruleFmtCalc_error {ec mask : BitVec 3} (h : ruleFmtCalc ec mask s = .error e) : e = ⟨.config, 2⟩ := by
  rcases ruleFmtCalc_cases ec mask s with ⟨_, -, hr⟩ | ⟨-, hr⟩ <;> rw [hr] at h <;> cases h
  rfl

theorem ruleVerCalc_error {ver : BitVec 6} (h : ruleVerCalc ver s = .error e) : e = ⟨.config, 1⟩ := by
  rcases ruleVerCalc_cases ver s with ⟨-, -, hr⟩ | ⟨-, hr⟩ <;> rw [hr] at h <;> cases h
  rfl

theorem ruleFmtInsert_error {ec mask : BitVec 3} (h : ruleFmtInsert ec mask s = .error e) :
    e ∈ [⟨.config, 2⟩, ⟨.state, 1⟩] := by
  rcases ruleFmtInsert_cases ec mask s with ⟨_, -, -, hr⟩ | ⟨-, hr⟩ | ⟨-, -, hr⟩ <;> rw [hr] at h <;> cases h <;> simp

end

end Sys2Proof.Machine
end

section
/-! PROOFS. The statements of 60_exceptions.md. -/
open Sys2Proof Sys2Proof.Machine

/-- Settles O7: a command raises an error on the state it was given, or completes with its items alone changed
(`exec_ends`). -/
theorem noPartialEffects : Obligations.NoPartialEffects := by
  refine ⟨fun i s => ?_, fun s u w e hu hp hd => ?_, rfl⟩
  · rcases exec_ends i s with ⟨t, frame, he⟩ | ⟨e, he⟩
    · exact .inr ⟨_, he, rfl, by rw [State.complete_status, frame.status], frame.errinfo⟩
    · exact .inl ⟨e, by rw [he, raiseError_eq]⟩
  · rw [step_of_decode_error hu hp hd, raiseError_eq]
    cases e <;> simp [illegalCommand, ErrCode.value]

/-- Settles O8: a command that ends in an error state has a rule that raised the error (`rule_error_of_finish`), and
BUILD raises those of its first stage. -/
theorem possibleErrors : Obligations.PossibleErrors := by
  intro i s e noErr h
  cases i with
  | nop => exact absurd h (not_raised_of_complete rfl noErr)
  | clear => exact absurd h (not_raised_of_complete rfl noErr)
  | append mode => exact ruleAppend_error (rule_error_of_finish noErr h effect_ruleAppend)
  | capq ver ec => exact ruleCapq_error (rule_error_of_finish noErr h effect_ruleCapq)
  | gfMul a b => exact absurd h (not_raised_of_complete rfl noErr)
  | gfExp a => exact absurd h (not_raised_of_complete rfl noErr)
  | gfLog a => exact ruleGfLog_error (rule_error_of_finish noErr h effect_ruleGfLog)
  | gfGenpoly n => exact ruleGfGenpoly_error (rule_error_of_finish noErr h effect_ruleGfGenpoly)
  | rsEnc n c => exact ruleRsEnc_error (rule_error_of_finish noErr h effect_ruleRsEnc)
  | eccInterleave ver ec => exact ruleEccInterleave_error (rule_error_of_finish noErr h effect_ruleEccInterleave)
  | bitstream ver ec => exact ruleBitstream_error (rule_error_of_finish noErr h effect_ruleBitstream)
  | matrixInit ver => exact ruleMatrixInit_error (rule_error_of_finish noErr h effect_ruleMatrixInit)
  | place => exact rulePlace_error (rule_error_of_finish noErr h effect_rulePlace)
  | maskScore mask => exact ruleMaskScore_error (rule_error_of_finish noErr h effect_ruleMaskScore)
  | maskSelect => exact ruleMaskSelect_error (rule_error_of_finish noErr h effect_ruleMaskSelect)
  | fmtCalc ec mask => exact ruleFmtCalc_error (rule_error_of_finish noErr h effect_ruleFmtCalc)
  | verCalc ver => exact ruleVerCalc_error (rule_error_of_finish noErr h effect_ruleVerCalc)
  | fmtInsert ec mask => exact ruleFmtInsert_error (rule_error_of_finish noErr h effect_ruleFmtInsert)
  | build ver ec => exact ruleBitstream_error (ruleBitstream_error_of_build noErr h)

/-- Settles O9: a completion sets DONE or ERR and leaves CTRL (`coreTurn_completes`). -/
theorem interruptLine : Obligations.InterruptLine := by
  refine ⟨fun _ => rfl, fun s u t _ hu hp ht => ?_⟩
  obtain ⟨w, hw⟩ := Option.ne_none_iff_exists'.1 hp
  obtain ⟨v, frame, hend⟩ := coreTurn_completes (hu.pending.trans hw)
  have ctrl : v.ctrl = s.ctrl := frame.ctrl.trans (by rw [hu.eq])
  rw [step_core hu] at ht
  rcases hend with hc | ⟨e, -, hc⟩ <;> cases hc.symm.trans ht <;> simp [State.irq, ctrl]

end

section
/-! PROOFS. Which host writes are dropped, that FATAL changes no other write, and how long WERR stays
(70_reset_and_hazards.md R401). -/
namespace Sys2Proof.Machine

variable {s : State} {a : Access} {region : Region} {off n : Nat}

/-! ### Dropped writes -/

/-- The access lies at offset `x` of the CSR region exactly when its address is `x` (R87). -/
theorem csr_offset_iff (h : busCheck a = some (region, off, n)) {x : BitVec Config.addrBits} (hx : x.toNat < 0x100) :
    region = .csr ∧ off = x.toNat ↔ a.addr = x := by
  obtain ⟨haddr, hoff, -⟩ := busCheck_eq_some_iff.1 h
  rw [BitVec.toNat_eq, haddr]
  constructor
  · rintro ⟨rfl, rfl⟩
    exact Nat.zero_add _
  · intro hbase
    obtain rfl := (region_csr_iff hoff).2 (by omega)
    exact ⟨rfl, (Nat.zero_add off).symm.trans hbase⟩

/-- The dropped writes by their addresses: all but CTRL and STATUS while busy, CMD while fatal (R401). -/
theorem dropsWrite_iff (h : busCheck a = some (region, off, n)) (s : State) : s.dropsWrite region off = true ↔
    (s.pending ≠ none ∧ a.addr ≠ 0x08 ∧ a.addr ≠ 0x10) ∨
      (s.pending = none ∧ s.status.fatal = true ∧ a.addr = 0x04) := by
  rw [ne_eq a.addr, ne_eq a.addr, ← csr_offset_iff h (x := 0x08) (by decide),
    ← csr_offset_iff h (x := 0x10) (by decide), ← csr_offset_iff h (x := 0x04) (by decide)]
  cases hp : s.pending with
  | none => simp [State.dropsWrite, State.busy, hp, and_assoc]
  | some w => simp [State.dropsWrite, State.busy, hp, imp_iff_not_or, or_and_left]

/-- A write that passes the bus checks is dropped or performed (R401). -/
theorem hostAccess_write (h : busCheck a = some (region, off, n)) (hwe : a.we = true) (s : State) :
    State.hostAccess a s = { (if s.dropsWrite region off then s.dropWrite
      else s.performWrite region off n a.wdata) with reply := ⟨true, false, none⟩ } := by
  simp only [State.hostAccess, h, hwe, if_true]

/-- A dropped write sets WERR and changes nothing else but the reply (R401). -/
theorem hostAccess_dropped (h : busCheck a = some (region, off, n)) (hwe : a.we = true)
    (hd : s.dropsWrite region off = true) :
    State.hostAccess a s = { s with status := { s.status with werr := true }, reply := ⟨true, false, none⟩ } := by
  rw [hostAccess_write h hwe, if_pos hd]
  rfl

/-! ### FATAL changes no write but a dropped one -/

/-- `s` with FATAL 0. -/
def State.withoutFatal (s : State) : State := { s with status := { s.status with fatal := false } }

theorem csrWrite_withoutFatal (o : Nat) (v : Word) (s : State) :
    s.withoutFatal.csrWrite o v = (s.csrWrite o v).withoutFatal := by
  unfold State.csrWrite
  split
  · rfl
  · rw [statusWrite_eq, statusWrite_eq]
    rfl
  · unfold State.ctrlWrite
    split <;> rfl
  · rfl
  · rfl
  · rfl

theorem writeViewByte_withoutFatal (region : Region) (k : Nat) (x : Byte) (s : State) :
    s.withoutFatal.writeViewByte region k x = (s.writeViewByte region k x).withoutFatal := by
  cases region with
  | csr => rfl
  | segtab => rfl
  | bytes b => cases b <;> rfl
  | matrix mm =>
    cases mm with
    | cmat => rfl
    | wmat =>
      simp only [State.writeViewByte, State.writeCell, apply_ite State.withoutFatal]
      rfl

theorem performWrite_withoutFatal (region : Region) (off n : Nat) (v : Word) (s : State) :
    s.withoutFatal.performWrite region off n v = (s.performWrite region off n v).withoutFatal := by
  have lanes := List.foldl_hom State.withoutFatal
    (g₁ := fun t lane => State.writeViewByte region (off + lane.1) lane.2 t)
    (g₂ := fun t lane => State.writeViewByte region (off + lane.1) lane.2 t) (init := s) (l := writeLanes n v)
    fun t lane => writeViewByte_withoutFatal region (off + lane.1) lane.2 t
  cases region with
  | csr => exact csrWrite_withoutFatal off v s
  | segtab | bytes b | matrix mm => exact lanes

/-- A write of an idle core to another register than CMD acts whatever FATAL is (R401). -/
theorem hostAccess_withoutFatal (h : busCheck a = some (region, off, n)) (hwe : a.we = true) (idle : s.pending = none)
    (hcmd : a.addr ≠ 0x04) : State.hostAccess a s.withoutFatal = (State.hostAccess a s).withoutFatal := by
  have performed : ∀ t : State, t.pending = none → ¬ t.dropsWrite region off = true := fun t ht hd => by
    rcases (dropsWrite_iff h t).1 hd with ⟨busy, -, -⟩ | ⟨-, -, cmd⟩
    · exact busy ht
    · exact hcmd cmd
  rw [hostAccess_write h hwe, hostAccess_write h hwe, if_neg (performed s idle),
    if_neg (performed s.withoutFatal idle), performWrite_withoutFatal]
  rfl

/-! ### WERR stays -/

/-- The core's turn leaves WERR. -/
theorem coreTurn_werr {t : State} (ht : coreTurn s = .next t) : t.status.werr = s.status.werr := by
  cases hp : s.pending with
  | none =>
    cases (coreTurn_idle hp).symm.trans ht
    rfl
  | some w =>
    obtain ⟨u, frame, hend⟩ := coreTurn_completes hp
    have kept : u.status.werr = s.status.werr := by rw [frame.status]
    rcases hend with hc | ⟨e, -, hc⟩ <;> cases hc.symm.trans ht <;> exact kept

/-- A write to a register keeps WERR, but for a STATUS write of 1 to it and a write of 1 to CTRL.SRST. -/
theorem csrWrite_werr (o : Nat) (v : Word) (s : State) : (s.csrWrite o v).status.werr = s.status.werr ∨
    (o = 0x08 ∧ v.getLsbD 4 = true) ∨ (o = 0x10 ∧ v.getLsbD 1 = true) := by
  unfold State.csrWrite
  split
  · exact .inl rfl
  · cases hbit : v.getLsbD 4 with
    | false => exact .inl (by rw [statusWrite_eq, hbit, Bool.not_false, Bool.and_true])
    | true => exact .inr (.inl ⟨rfl, rfl⟩)
  · unfold State.ctrlWrite
    split
    · exact .inr (.inr ⟨rfl, ‹_›⟩)
    · exact .inl rfl
  · exact .inl rfl
  · exact .inl rfl
  · exact .inl rfl

/-- A write to a window changes its memory alone. -/
theorem performWrite_window (hr : region ≠ .csr) (hfit : off + n ≤ region.size) (v : Word) (s : State) :
    WindowWrite s (s.performWrite region off n v) := by
  have lanes := WindowWrite.lanes (region := region) (off := off) (lanes := writeLanes n v)
    (fun lane hl => by have := mem_writeLanes hl; omega) s
  cases region with
  | csr => exact absurd rfl hr
  | segtab | bytes b | matrix mm => exact lanes

/-- A host access clears WERR only by a STATUS write of 1 to it or a soft reset (10_state.md R38, R391). -/
theorem hostAccess_werr (a : Access) (hs : s.status.werr = true) : (State.hostAccess a s).status.werr = true ∨
    SoftReset a ∨ (a.we = true ∧ a.addr = 0x08 ∧ a.wdata.getLsbD 4 = true) := by
  by_cases hlegal : LegalAccess a
  · obtain ⟨region, off, n, h⟩ := legalAccess_iff.1 hlegal
    cases hwe : a.we with
    | false =>
      obtain ⟨r, d, hread⟩ := hostAccess_read hwe s
      exact .inl (by rw [hread]; exact hs)
    | true =>
      rw [hostAccess_write h hwe]
      split
      · exact .inl rfl
      · by_cases hr : region = .csr
        · subst hr
          rcases csrWrite_werr off a.wdata s with kept | ⟨rfl, hbit⟩ | ⟨rfl, hbit⟩
          · exact .inl (kept.trans hs)
          · exact .inr (.inr ⟨rfl, (csr_offset_iff h (x := 0x08) (by decide)).1 ⟨rfl, rfl⟩, hbit⟩)
          · have haddr := (csr_offset_iff h (x := 0x10) (by decide)).1 ⟨rfl, rfl⟩
            obtain ⟨-, -, hsize, -⟩ := hlegal
            exact .inr (.inl ⟨hwe, haddr, hsize (by rw [haddr]; decide), hbit⟩)
        · have window := (performWrite_window hr (busCheck_fits h) a.wdata s).frame
          exact .inl ((congrArg (fun t => t.status.werr) window).trans hs)
  · exact .inl (by rw [hostAccess_illegal hlegal]; exact hs)

end Sys2Proof.Machine
end

section
/-! PROOFS. The statement of 70_reset_and_hazards.md R401. -/
open Sys2Proof Sys2Proof.Machine

/-- Settles O48: which writes are dropped goes by their addresses (`dropsWrite_iff`), a performed write does not look at
FATAL (`hostAccess_withoutFatal`), and no completion writes WERR. -/
theorem droppedWrites : Obligations.DroppedWrites := by
  intro s u
  refine ⟨fun a hu hlegal hwe => ?_, fun t _ hs ht => ?_⟩
  · obtain ⟨region, off, n, h⟩ := legalAccess_iff.1 hlegal
    refine ⟨fun busy hstatus hctrl => ⟨none, ?_⟩, fun idle fatal hcmd => ⟨none, ?_⟩, fun idle hcmd t ht => ?_⟩
    · rw [step_host hu, hostAccess_dropped h hwe ((dropsWrite_iff h u).2 (.inl ⟨busy, hstatus, hctrl⟩))]
    · rw [step_host hu, hostAccess_dropped h hwe ((dropsWrite_iff h u).2 (.inr ⟨idle, fatal, hcmd⟩))]
    · have live : HostMoves s.withoutFatal a u.withoutFatal := by
        obtain ⟨rest, hs, rfl⟩ := hu
        exact ⟨rest, hs, rfl⟩
      cases (step_host hu).symm.trans ht
      exact (step_host live).trans (congrArg _ (hostAccess_withoutFatal h hwe idle hcmd))
  · rcases step_cases s with ⟨v, hv, he⟩ | ⟨a, v, hv, he⟩ | ⟨rest, hreset, -⟩
    · have werr : v.status.werr = true := by rw [hv.eq]; exact hs
      exact .inl ((coreTurn_werr (he.symm.trans ht)).trans werr)
    · cases he.symm.trans ht
      obtain ⟨rest, hag, hrest⟩ := hv
      rcases hostAccess_werr (s := v) a (by rw [hrest]; exact hs) with werr | soft | ⟨hwe, haddr, hbit⟩
      · exact .inl werr
      · exact .inr (.inl ⟨rest, .inr ⟨a, hag, soft⟩⟩)
      · exact .inr (.inr ⟨rest, a, hag, hwe, haddr, hbit⟩)
    · exact .inr (.inl ⟨rest, .inl hreset⟩)

end
